-- ==== Sys2Proof/Word.lean ====
section
/-! DEFINITION. The word types of the subtone PDM block (spec/00_scope.md R14, spec/30_encoding.md R91). -/

namespace Sys2Proof

/-- One byte of `FLASH` (R63), and the 8-bit codes of R92 and R99. -/
abbrev Byte := BitVec 8

/-- A word of `ROM`, of the FIFO and of `OSR` (R14), and the width of an index and of `CLKDIV`. -/
abbrev Word32 := BitVec 32

/-- The operation word `{op[7:0], arg[39:0]}` (R91). -/
abbrev OpWord := BitVec 48

/-- The argument part of an operation word (R91). -/
abbrev Arg := BitVec 40

/-- A glyph identifier (R99). -/
abbrev Glyph := BitVec 8

/-- A slot number of the display (R100). -/
abbrev Slot := BitVec 8

/-- Five like things, one for each display slot (R44, R100). -/
structure Five (α : Type) where
  s0 : α
  s1 : α
  s2 : α
  s3 : α
  s4 : α
  deriving DecidableEq, Repr, Inhabited

/-- A Selection, and equally a PersistedConfig, which has the identical shape (R22, R93, R103). -/
structure Selection where
  index : Word32
  enabled : Bool
  deriving DecidableEq, Repr, Inhabited

end Sys2Proof
end

