-- ==== Sys2Proof/Config.lean ====
section
/-! DEFINITION. What an implementation fixes (the named parameters of spec/00_scope.md R8) and the free values: the
answers that the spec leaves to the environment or leaves unspecified. The constants declared `opaque` have no body,
so no proof can learn what they are. The free parameter assignment itself stands in Machine/Params.lean, where R9 says
which assignments are valid. -/

namespace Sys2Proof

/-- One entry of a `LAYOUT` that is not the default one: the five glyphs a render draws for a tone (in dHz) and an
enabled flag (R8, R230). -/
structure LayoutRow where
  tone : Nat
  enabled : Bool
  glyphs : Five Glyph
  deriving DecidableEq, Repr, Inhabited

/-- The waveform operand of the table generator (R120). `negCosine` is the default of R121; `sampled scale xs` is the
waveform whose value at sample `i` is the exact rational `xs[i mod length] / scale`. The words of GEN.PDMGEN and
GEN.PDMGEN8 carry no waveform: which one they use is a parameter (DESIGN CHOICE, assumption log 26). -/
inductive Waveform where
  | negCosine
  | sampled (scale : Nat) (samples : List Int)
  deriving DecidableEq, Repr, Inhabited

/-- The OPEN parameters of R8, as plain data. Three of them are held in a form that admits only what R8 and R9 admit:
`N = 2 ^ (5 + bitDepthExp)`, `FLASH_BLOCK_BYTES = 2 ^ (3 + blockExp)` and
`FLASH_SIZE = (blocksBelow + 1) * FLASH_BLOCK_BYTES` (assumption log 4). Which assignments are valid is `paramsValid`
of Machine/Params.lean. The default of each field only shows that there is a valid assignment; the machine has none
of them. -/
structure Params where
  /-- `N = 2 ^ (5 + bitDepthExp)`: a power of two and a multiple of 32. -/
  bitDepthExp : Nat := 0
  /-- `F_BITCLK`, in Hz. -/
  bitClock : Nat := 1000
  /-- `TONE_TABLE`, in tenths of a hertz; `TONE_COUNT` is its length. -/
  toneTable : List Nat := [100]
  /-- `RESERVE_LAST`. -/
  reserveLast : Bool := false
  /-- `DUAL_TABLE`. -/
  dualTable : Bool := false
  /-- `F_THRESHOLD`, in tenths of a hertz. -/
  threshold : Nat := 0
  /-- `TICKS_PER_MS`. -/
  ticksPerMs : Nat := 1
  /-- `FIFO_DEPTH`. -/
  fifoDepth : Nat := 1
  /-- `FLASH_BLOCK_BYTES = 2 ^ (3 + blockExp)`. -/
  blockExp : Nat := 0
  /-- The number of erase blocks below the record's block. -/
  blocksBelow : Nat := 0
  /-- The entries in which `LAYOUT` departs from the default of R230. -/
  layout : List LayoutRow := []
  /-- `DIAG_MSG`: the (glyph, slot) pairs of the recovery message (R227). -/
  diagMsg : List (Glyph × Slot) := []
  /-- The waveform of the table generator (R120), no parameter of R8 (assumption log 26). -/
  waveform : Waveform := .negCosine
  deriving DecidableEq, Repr, Inhabited

/-- `PDM_ROM`, the words of the bitstream tables the machine is configured with, `T8` for true: OPEN (R61, R124, U3).
-/
opaque Config.pdmRom : Bool → Nat → Word32

/-- `draw fail`: the environment's answer at a flash or display primitive where no answer stands in the state's queue
(R206, R258, U10). -/
opaque Config.freeFail : Nat → Bool

/-- `draw d`: the environment's drawn duration where none stands in the state's queue (R11, R318, U9). -/
opaque Config.freeDuration : Nat → Nat

/-- Contents of flash bytes after a failed erase or program, or after a reset inside a program (R207, R208, R217, U11,
U12): the byte at a distance from the first one, for the n-th free value. -/
opaque Config.freeByte : Nat → Nat → Byte

/-- Which of several enabled operations is taken next when nothing is scheduled (R12, R146, R232, U6, U7, U8). -/
opaque Config.freeChoice : Nat → Nat

/-- Which side raised a fault that is recorded by a bare `FAULT` operation whose code both sides can raise (R255,
R256): true for the control side. -/
opaque Config.freeRaiser : Nat → Bool

/-- The glyph number the default `LAYOUT` puts in a slot for a tone whose whole hertz do not fit five digits: R230
states no result there. -/
opaque Config.freeGlyph : Nat → Nat → Nat

end Sys2Proof
end

