-- ==== Sys2Proof/Syntax.lean ====
section
/-! DEFINITION. The operations of the block: one constructor for each of the 53 rows of spec/30_encoding.md R106, with
the argument fields of its format (R92). -/

namespace Sys2Proof

/-- The four input lines (R102, R273). -/
inductive LineId where
  | lineA
  | lineB
  | lineBtn
  | lineRec
  deriving DecidableEq, Repr, Inhabited

/-- An operation (R90): one named state transition of one agent. One-bit fields are `Bool`, 1 being `true`. -/
inductive Instr where
  | envReset
  | envLine (line : LineId) (level : Bool)
  | envAdv (ticks : BitVec 40)
  | genPdmgen
  | genPdmgen8
  | divCalc (val : Word32)
  | smSetdiv (val : Word32)
  | smEnable (b : Bool)
  | smPull
  | smShift
  | dmaArm (b : Bool)
  | dmaXfer
  | dmaAbort
  | mbxSend (en : Bool) (idx : Word32)
  | mbxRecv
  | audStart
  | audConfig
  | audPush
  | audRearm
  | audPreempt
  | encStart
  | encRest
  | encArm
  | encFall (b : Bool)
  | encAdvance (code : Byte)
  | encDrop
  | encEmit (b : Bool)
  | encAbandon
  | btnStart
  | btnEdge
  | btnConfirm
  | btnRelease
  | btnTimeout
  | btnTrail
  | btnAbandon
  | cfgRead
  | cfgWrite (en : Bool) (idx : Word32)
  | flRead
  | flErase
  | flProg
  | ctlBoot
  | ctlRecovery
  | ctlLoad
  | ctlPublish
  | ctlRender
  | ctlWait
  | ctlUp
  | ctlDown
  | ctlToggle
  | ctlPersist
  | dispDraw (glyph : Glyph) (slot : Slot)
  | dispFlush
  | fault (code : Byte)
  deriving DecidableEq, Repr, Inhabited

/-- The mnemonic of R106. -/
def Instr.mnemonic : Instr → String
  | .envReset => "ENV.RESET"
  | .envLine _ _ => "ENV.LINE"
  | .envAdv _ => "ENV.ADV"
  | .genPdmgen => "GEN.PDMGEN"
  | .genPdmgen8 => "GEN.PDMGEN8"
  | .divCalc _ => "DIV.CALC"
  | .smSetdiv _ => "SM.SETDIV"
  | .smEnable _ => "SM.ENABLE"
  | .smPull => "SM.PULL"
  | .smShift => "SM.SHIFT"
  | .dmaArm _ => "DMA.ARM"
  | .dmaXfer => "DMA.XFER"
  | .dmaAbort => "DMA.ABORT"
  | .mbxSend _ _ => "MBX.SEND"
  | .mbxRecv => "MBX.RECV"
  | .audStart => "AUD.START"
  | .audConfig => "AUD.CONFIG"
  | .audPush => "AUD.PUSH"
  | .audRearm => "AUD.REARM"
  | .audPreempt => "AUD.PREEMPT"
  | .encStart => "ENC.START"
  | .encRest => "ENC.REST"
  | .encArm => "ENC.ARM"
  | .encFall _ => "ENC.FALL"
  | .encAdvance _ => "ENC.ADVANCE"
  | .encDrop => "ENC.DROP"
  | .encEmit _ => "ENC.EMIT"
  | .encAbandon => "ENC.ABANDON"
  | .btnStart => "BTN.START"
  | .btnEdge => "BTN.EDGE"
  | .btnConfirm => "BTN.CONFIRM"
  | .btnRelease => "BTN.RELEASE"
  | .btnTimeout => "BTN.TIMEOUT"
  | .btnTrail => "BTN.TRAIL"
  | .btnAbandon => "BTN.ABANDON"
  | .cfgRead => "CFG.READ"
  | .cfgWrite _ _ => "CFG.WRITE"
  | .flRead => "FL.READ"
  | .flErase => "FL.ERASE"
  | .flProg => "FL.PROG"
  | .ctlBoot => "CTL.BOOT"
  | .ctlRecovery => "CTL.RECOVERY"
  | .ctlLoad => "CTL.LOAD"
  | .ctlPublish => "CTL.PUBLISH"
  | .ctlRender => "CTL.RENDER"
  | .ctlWait => "CTL.WAIT"
  | .ctlUp => "CTL.UP"
  | .ctlDown => "CTL.DOWN"
  | .ctlToggle => "CTL.TOGGLE"
  | .ctlPersist => "CTL.PERSIST"
  | .dispDraw _ _ => "DISP.DRAW"
  | .dispFlush => "DISP.FLUSH"
  | .fault _ => "FAULT"

/-- A level or a flag as the digit the textual form writes (R112). -/
def bitText (b : Bool) : String := if b then "1" else "0"

/-- The name of a line in the textual form (R112). -/
def LineId.text : LineId → String
  | .lineA => "A"
  | .lineB => "B"
  | .lineBtn => "BTN"
  | .lineRec => "REC"

/-- The argument fields of an operation as R112 writes them, after the mnemonic. -/
def Instr.argText : Instr → String
  | .envLine l v => " " ++ l.text ++ "=" ++ bitText v
  | .envAdv t => " " ++ toString t.toNat
  | .divCalc v => " " ++ toString v.toNat
  | .smSetdiv v => " " ++ toString v.toNat
  | .smEnable b => " " ++ bitText b
  | .dmaArm b => " " ++ bitText b
  | .mbxSend e i => " en=" ++ bitText e ++ ", idx=" ++ toString i.toNat
  | .encFall b => " " ++ bitText b
  | .encAdvance c => " " ++ toString c.toNat
  | .encEmit b => " " ++ bitText b
  | .cfgWrite e i => " en=" ++ bitText e ++ ", idx=" ++ toString i.toNat
  | .dispDraw g s => " glyph=" ++ toString g.toNat ++ ", slot=" ++ toString s.toNat
  | .fault c => " " ++ toString c.toNat
  | .envReset | .genPdmgen | .genPdmgen8 | .smPull | .smShift | .dmaXfer | .dmaAbort | .mbxRecv
  | .audStart | .audConfig | .audPush | .audRearm | .audPreempt | .encStart | .encRest | .encArm
  | .encDrop | .encAbandon | .btnStart | .btnEdge | .btnConfirm | .btnRelease | .btnTimeout | .btnTrail
  | .btnAbandon | .cfgRead | .flRead | .flErase | .flProg | .ctlBoot | .ctlRecovery | .ctlLoad
  | .ctlPublish | .ctlRender | .ctlWait | .ctlUp | .ctlDown | .ctlToggle | .ctlPersist | .dispFlush => ""

/-- An operation in the written form of R112, for example `MBX.SEND en=1, idx=5`. -/
def Instr.text (i : Instr) : String := i.mnemonic ++ i.argText

end Sys2Proof
end

