-- ==== Sys2Proof/WellFormed.lean ====
section
/-! DEFINITION. Which operations carry an operand the spec gives a meaning. The operation word itself is well formed
for every value of its format's fields (R92, R107); what is checked here are the operand values that a rule calls
reserved or excludes. -/

namespace Sys2Proof

/-- `ticks` is at least 1 (R279); a stage is 1, 2 or 3 (R176); fault codes 0 and 8 to 255 are reserved (R256). -/
def Instr.wellFormed : Instr → Bool
  | .envAdv ticks => ticks != 0
  | .encAdvance code => code == 1 || code == 2 || code == 3
  | .fault code => decide (1 ≤ code.toNat ∧ code.toNat ≤ 7)
  | .envReset | .envLine _ _ | .genPdmgen | .genPdmgen8 | .divCalc _ | .smSetdiv _ | .smEnable _
  | .smPull | .smShift | .dmaArm _ | .dmaXfer | .dmaAbort | .mbxSend _ _ | .mbxRecv | .audStart
  | .audConfig | .audPush | .audRearm | .audPreempt | .encStart | .encRest | .encArm | .encFall _
  | .encDrop | .encEmit _ | .encAbandon | .btnStart | .btnEdge | .btnConfirm | .btnRelease | .btnTimeout
  | .btnTrail | .btnAbandon | .cfgRead | .cfgWrite _ _ | .flRead | .flErase | .flProg | .ctlBoot
  | .ctlRecovery | .ctlLoad | .ctlPublish | .ctlRender | .ctlWait | .ctlUp | .ctlDown | .ctlToggle
  | .ctlPersist | .dispDraw _ _ | .dispFlush => true

end Sys2Proof
end

