-- ==== Sys2Proof/Decode.lean ====
section
/-! DEFINITION. The operation words (spec/30_encoding.md R91, R92, R106): the decoder, total on the 48-bit words and
rejecting by name, and after it the encoder. -/

namespace Sys2Proof

/-- Why a word names no operation (R107, U16). -/
inductive DecodeError where
  /-- The identifier is not in the map of R106. -/
  | unknownOp (op : Byte)
  /-- A bit outside the fields of the operation's format is not zero. -/
  | reservedBits (op : Byte)
  deriving DecidableEq, Repr

/-- `op`, bits 47:40 of the word (R91). -/
def opOf (w : OpWord) : Byte := w.extractLsb' 40 8

/-- `arg`, bits 39:0 of the word (R91). -/
def argOf (w : OpWord) : Arg := w.extractLsb' 0 40

/-- The line a two-bit identifier names (R102). -/
def lineOf (v : BitVec 2) : LineId :=
  match v with
  | 0#2 => .lineA
  | 1#2 => .lineB
  | 2#2 => .lineBtn
  | _ => .lineRec

/-- The two-bit identifier of a line (R102). -/
def lineCode : LineId → BitVec 2
  | .lineA => 0#2
  | .lineB => 1#2
  | .lineBtn => 2#2
  | .lineRec => 3#2

/-- Format Z (R92): no field, all 40 bits zero. -/
def formZ (a : Arg) (i : Instr) : Option Instr :=
  if a = 0 then some i else none

/-- Format S (R92): `en = arg[32]`, `idx = arg[31:0]`. -/
def formS (a : Arg) (k : Bool → Word32 → Instr) : Option Instr :=
  if a.extractLsb' 33 7 = 0 then some (k (a.getLsbD 32) (a.extractLsb' 0 32)) else none

/-- Format V (R92): `val = arg[31:0]`. -/
def formV (a : Arg) (k : Word32 → Instr) : Option Instr :=
  if a.extractLsb' 32 8 = 0 then some (k (a.extractLsb' 0 32)) else none

/-- Format B (R92): `b = arg[0]`. -/
def formB (a : Arg) (k : Bool → Instr) : Option Instr :=
  if a.extractLsb' 1 39 = 0 then some (k (a.getLsbD 0)) else none

/-- Format L (R92): `line = arg[9:8]`, `level = arg[0]`. -/
def formL (a : Arg) (k : LineId → Bool → Instr) : Option Instr :=
  if a.extractLsb' 10 30 = 0 ∧ a.extractLsb' 1 7 = 0 then
    some (k (lineOf (a.extractLsb' 8 2)) (a.getLsbD 0))
  else none

/-- Format G (R92): `glyph = arg[15:8]`, `slot = arg[7:0]`. -/
def formG (a : Arg) (k : Glyph → Slot → Instr) : Option Instr :=
  if a.extractLsb' 16 24 = 0 then some (k (a.extractLsb' 8 8) (a.extractLsb' 0 8)) else none

/-- Format C (R92): `code = arg[7:0]`. -/
def formC (a : Arg) (k : Byte → Instr) : Option Instr :=
  if a.extractLsb' 8 32 = 0 then some (k (a.extractLsb' 0 8)) else none

/-- Format T (R92): `ticks = arg[39:0]`. -/
def formT (a : Arg) (k : BitVec 40 → Instr) : Option Instr := some (k a)

/-- Whether an identifier is one of the 53 of R106. -/
def knownOp (op : Byte) : Bool :=
  let unit := op.toNat / 16
  let number := op.toNat % 16
  decide (number < [3, 2, 1, 4, 3, 2, 5, 8, 7, 5, 10, 2, 0, 0, 0, 1].getD unit 0)

/-- The operation a word names, none where R107 makes it invalid: the opcode map of R106. -/
def operationOf (w : OpWord) : Option Instr :=
  match opOf w with
  | 0x00#8 => formZ (argOf w) .envReset
  | 0x01#8 => formL (argOf w) .envLine
  | 0x02#8 => formT (argOf w) .envAdv
  | 0x10#8 => formZ (argOf w) .genPdmgen
  | 0x11#8 => formZ (argOf w) .genPdmgen8
  | 0x20#8 => formV (argOf w) .divCalc
  | 0x30#8 => formV (argOf w) .smSetdiv
  | 0x31#8 => formB (argOf w) .smEnable
  | 0x32#8 => formZ (argOf w) .smPull
  | 0x33#8 => formZ (argOf w) .smShift
  | 0x40#8 => formB (argOf w) .dmaArm
  | 0x41#8 => formZ (argOf w) .dmaXfer
  | 0x42#8 => formZ (argOf w) .dmaAbort
  | 0x50#8 => formS (argOf w) .mbxSend
  | 0x51#8 => formZ (argOf w) .mbxRecv
  | 0x60#8 => formZ (argOf w) .audStart
  | 0x61#8 => formZ (argOf w) .audConfig
  | 0x62#8 => formZ (argOf w) .audPush
  | 0x63#8 => formZ (argOf w) .audRearm
  | 0x64#8 => formZ (argOf w) .audPreempt
  | 0x70#8 => formZ (argOf w) .encStart
  | 0x71#8 => formZ (argOf w) .encRest
  | 0x72#8 => formZ (argOf w) .encArm
  | 0x73#8 => formB (argOf w) .encFall
  | 0x74#8 => formC (argOf w) .encAdvance
  | 0x75#8 => formZ (argOf w) .encDrop
  | 0x76#8 => formB (argOf w) .encEmit
  | 0x77#8 => formZ (argOf w) .encAbandon
  | 0x80#8 => formZ (argOf w) .btnStart
  | 0x81#8 => formZ (argOf w) .btnEdge
  | 0x82#8 => formZ (argOf w) .btnConfirm
  | 0x83#8 => formZ (argOf w) .btnRelease
  | 0x84#8 => formZ (argOf w) .btnTimeout
  | 0x85#8 => formZ (argOf w) .btnTrail
  | 0x86#8 => formZ (argOf w) .btnAbandon
  | 0x90#8 => formZ (argOf w) .cfgRead
  | 0x91#8 => formS (argOf w) .cfgWrite
  | 0x92#8 => formZ (argOf w) .flRead
  | 0x93#8 => formZ (argOf w) .flErase
  | 0x94#8 => formZ (argOf w) .flProg
  | 0xA0#8 => formZ (argOf w) .ctlBoot
  | 0xA1#8 => formZ (argOf w) .ctlRecovery
  | 0xA2#8 => formZ (argOf w) .ctlLoad
  | 0xA3#8 => formZ (argOf w) .ctlPublish
  | 0xA4#8 => formZ (argOf w) .ctlRender
  | 0xA5#8 => formZ (argOf w) .ctlWait
  | 0xA6#8 => formZ (argOf w) .ctlUp
  | 0xA7#8 => formZ (argOf w) .ctlDown
  | 0xA8#8 => formZ (argOf w) .ctlToggle
  | 0xA9#8 => formZ (argOf w) .ctlPersist
  | 0xB0#8 => formG (argOf w) .dispDraw
  | 0xB1#8 => formZ (argOf w) .dispFlush
  | 0xF0#8 => formC (argOf w) .fault
  | _ => none

/-- The decoder: the operation, or the name of what is wrong with the word (R107). -/
def decode (w : OpWord) : Except DecodeError Instr :=
  match operationOf w with
  | some i => .ok i
  | none => .error (if knownOp (opOf w) then .reservedBits (opOf w) else .unknownOp (opOf w))

/-! The encoder. -/

/-- A word from its identifier and argument (R91). -/
def opWord (op : Byte) (a : Arg) : OpWord := op ++ a

/-- The argument of format Z (R92). -/
def argZ : Arg := 0

/-- The argument of format S (R92). -/
def argS (en : Bool) (idx : Word32) : Arg := (0#7 ++ BitVec.ofBool en) ++ idx

/-- The argument of format V (R92). -/
def argV (val : Word32) : Arg := 0#8 ++ val

/-- The argument of format B (R92). -/
def argB (b : Bool) : Arg := 0#39 ++ BitVec.ofBool b

/-- The argument of format L (R92). -/
def argL (line : LineId) (level : Bool) : Arg := (0#30 ++ lineCode line) ++ (0#7 ++ BitVec.ofBool level)

/-- The argument of format G (R92). -/
def argG (glyph : Glyph) (slot : Slot) : Arg := (0#24 ++ glyph) ++ slot

/-- The argument of format C (R92). -/
def argC (code : Byte) : Arg := 0#32 ++ code

/-- The argument of format T (R92). -/
def argT (ticks : BitVec 40) : Arg := ticks

/-- The word of an operation (R91, R92, R106). -/
def encode : Instr → OpWord
  | .envReset => opWord 0x00#8 argZ
  | .envLine line level => opWord 0x01#8 (argL line level)
  | .envAdv ticks => opWord 0x02#8 (argT ticks)
  | .genPdmgen => opWord 0x10#8 argZ
  | .genPdmgen8 => opWord 0x11#8 argZ
  | .divCalc val => opWord 0x20#8 (argV val)
  | .smSetdiv val => opWord 0x30#8 (argV val)
  | .smEnable b => opWord 0x31#8 (argB b)
  | .smPull => opWord 0x32#8 argZ
  | .smShift => opWord 0x33#8 argZ
  | .dmaArm b => opWord 0x40#8 (argB b)
  | .dmaXfer => opWord 0x41#8 argZ
  | .dmaAbort => opWord 0x42#8 argZ
  | .mbxSend en idx => opWord 0x50#8 (argS en idx)
  | .mbxRecv => opWord 0x51#8 argZ
  | .audStart => opWord 0x60#8 argZ
  | .audConfig => opWord 0x61#8 argZ
  | .audPush => opWord 0x62#8 argZ
  | .audRearm => opWord 0x63#8 argZ
  | .audPreempt => opWord 0x64#8 argZ
  | .encStart => opWord 0x70#8 argZ
  | .encRest => opWord 0x71#8 argZ
  | .encArm => opWord 0x72#8 argZ
  | .encFall b => opWord 0x73#8 (argB b)
  | .encAdvance code => opWord 0x74#8 (argC code)
  | .encDrop => opWord 0x75#8 argZ
  | .encEmit b => opWord 0x76#8 (argB b)
  | .encAbandon => opWord 0x77#8 argZ
  | .btnStart => opWord 0x80#8 argZ
  | .btnEdge => opWord 0x81#8 argZ
  | .btnConfirm => opWord 0x82#8 argZ
  | .btnRelease => opWord 0x83#8 argZ
  | .btnTimeout => opWord 0x84#8 argZ
  | .btnTrail => opWord 0x85#8 argZ
  | .btnAbandon => opWord 0x86#8 argZ
  | .cfgRead => opWord 0x90#8 argZ
  | .cfgWrite en idx => opWord 0x91#8 (argS en idx)
  | .flRead => opWord 0x92#8 argZ
  | .flErase => opWord 0x93#8 argZ
  | .flProg => opWord 0x94#8 argZ
  | .ctlBoot => opWord 0xA0#8 argZ
  | .ctlRecovery => opWord 0xA1#8 argZ
  | .ctlLoad => opWord 0xA2#8 argZ
  | .ctlPublish => opWord 0xA3#8 argZ
  | .ctlRender => opWord 0xA4#8 argZ
  | .ctlWait => opWord 0xA5#8 argZ
  | .ctlUp => opWord 0xA6#8 argZ
  | .ctlDown => opWord 0xA7#8 argZ
  | .ctlToggle => opWord 0xA8#8 argZ
  | .ctlPersist => opWord 0xA9#8 argZ
  | .dispDraw glyph slot => opWord 0xB0#8 (argG glyph slot)
  | .dispFlush => opWord 0xB1#8 argZ
  | .fault code => opWord 0xF0#8 (argC code)

/-- The operation read from an operation word given as a number of `nbits` bits. The block has one word length, 48
bits (R91), and a word is one unit with no byte order, so its bit 0 is the number's bit 0. -/
def decodeTableWord (nbits w : Nat) : Option Instr :=
  if nbits ≤ 48 ∧ w < 2 ^ nbits then operationOf (BitVec.ofNat 48 w) else none

end Sys2Proof
end

