-- ==== Sys2Proof/Machine/Params.lean ====
section
/-! DEFINITION. The derived parameters (spec/00_scope.md R8), the valid parameter assignments (R9), and the type that
holds no other: the model gives an invalid assignment no meaning, because no state has one (R9, R294, U2; assumption
log 5). -/

namespace Sys2Proof.Machine

/-! Derived parameters (R8). -/

/-- `N`, the bits of one table. -/
def bitDepth (p : Params) : Nat := 2 ^ (5 + p.bitDepthExp)

/-- `WORDS = N / 32`. -/
def tableWords (p : Params) : Nat := bitDepth p / 32

/-- `TONE_COUNT`. -/
def toneCount (p : Params) : Nat := p.toneTable.length

/-- `WRAP_LEN`, the modulus of Up and Down. -/
def wrapLen (p : Params) : Nat := toneCount p - (if p.reserveLast then 1 else 0)

/-- `ms(k)`, in ticks (R10). -/
def ms (p : Params) (k : Nat) : Nat := k * p.ticksPerMs

/-- `T_SETTLE`, 5 ms (R269). -/
def tSettle (p : Params) : Nat := ms p 5

/-- `T_LONG`, 750 ms (R269). -/
def tLong (p : Params) : Nat := ms p 750

/-- `T_ACK`, 750 ms (R269). -/
def tAck (p : Params) : Nat := ms p 750

/-- `FLASH_BLOCK_BYTES`. -/
def blockBytes (p : Params) : Nat := 2 ^ (3 + p.blockExp)

/-- `FLASH_SIZE`. -/
def flashSize (p : Params) : Nat := (p.blocksBelow + 1) * blockBytes p

/-- `CFG_OFFSET = FLASH_SIZE - FLASH_BLOCK_BYTES` (R74). -/
def cfgOffset (p : Params) : Nat := flashSize p - blockBytes p

/-- `CFG_RECORD_BYTES`. -/
def recordBytes : Nat := 8

/-- `DEFAULT_CFG`. -/
def defaultCfg : Selection := ⟨0, true⟩

/-! The divider's parameters (R126 to R128). -/

/-- Whether a tone takes the pair of `T8` (R128). -/
def usesT8 (p : Params) (f : Nat) : Bool := p.dualTable && decide (p.threshold < f)

/-- `floor(2560 * mult * F_BITCLK / (N * f))` (R126). -/
def dividerOf (p : Params) (f : Nat) : Nat :=
  2560 * (if usesT8 p f then 8 else 1) * p.bitClock / (bitDepth p * f)

/-! What R99 and R100 reserve. -/

/-- A glyph identifier that R99 does not reserve. -/
def glyphLegal (g : Glyph) : Bool := decide (g.toNat ≤ 14)

/-- A slot number that R100 does not reserve. -/
def slotLegal (s : Slot) : Bool := decide (s.toNat ≤ 4)

/-! Valid parameters (R9). -/

/-- A tone that has a legal divider (R9). -/
def toneValid (p : Params) (f : Nat) : Bool :=
  decide (0 < f) && decide (256 ≤ dividerOf p f) && decide (dividerOf p f < 2 ^ 32)

/-- Five legal glyphs. -/
def glyphsLegal (g : Five Glyph) : Bool :=
  glyphLegal g.s0 && glyphLegal g.s1 && glyphLegal g.s2 && glyphLegal g.s3 && glyphLegal g.s4

/-- A waveform with values in `[-1, 1]` (R120). -/
def waveformValid : Waveform → Bool
  | .negCosine => true
  | .sampled scale xs => decide (0 < scale) && !xs.isEmpty && xs.all (fun x => decide (x.natAbs ≤ scale))

/-- The parameter assignments the block is specified for (R9): what R9 asks beyond what the form of `Params` already
admits. -/
def paramsValid (p : Params) : Bool :=
  decide (1 ≤ toneCount p) && decide (toneCount p < 2 ^ 32) && decide (1 ≤ wrapLen p)
    && p.toneTable.all (toneValid p) && decide (1 ≤ p.bitClock) && decide (1 ≤ p.ticksPerMs)
    && decide (1 ≤ p.fifoDepth) && p.layout.all (fun r => glyphsLegal r.glyphs)
    && p.diagMsg.all (fun d => glyphLegal d.1 && slotLegal d.2) && waveformValid p.waveform

/-- A valid parameter assignment: what the machine is configured with, and all it can be configured with (R9, R294,
U2). -/
structure ValidParams where
  val : Params := {}
  valid : paramsValid val = true := by decide
  deriving DecidableEq, Repr, Inhabited

end Sys2Proof.Machine

namespace Sys2Proof

/-- The parameter assignment of the machine after `State.reset`: OPEN, any valid one (R8, R9, U1). -/
opaque Config.params : Machine.ValidParams

end Sys2Proof
end

