-- ==== Sys2Proof/Machine/State.lean ====
section
/-! DEFINITION. The state of the block as plain data (spec/10_state.md R20 to R52), the machine after reset (R47,
R290), and the reasons a step can stop. -/

namespace Sys2Proof.Machine

/-- A register that R47 leaves *unwritten* at reset: what it holds, and whether it has been written since (R48). -/
structure Reg (α : Type) where
  val : α
  written : Bool
  deriving DecidableEq, Repr, Inhabited

/-- The register after a write (R48). -/
def Reg.set {α : Type} (v : α) : Reg α := ⟨v, true⟩

/-- `CTL.ph` (R26). -/
inductive CtlPhase where
  | boot
  | recovery
  | reflash
  | load
  | publish
  | render
  | wait
  | handleUp
  | handleDown
  | btnActive
  | handleToggle
  | persistAck
  | persistForce
  | persistWrite
  | persistHold
  | trail
  | halt
  deriving DecidableEq, Repr, Inhabited

/-- `CTL.event` (R50, R98). -/
inductive Event where
  | none
  | up
  | down
  | toggle
  | persist
  deriving DecidableEq, Repr, Inhabited

/-- Which operation issued a `CFG.WRITE`: none, or `CTL.PERSIST` (R211, R237). -/
inductive WriteBy where
  | direct
  | persist
  deriving DecidableEq, Repr, Inhabited

/-- Which operation issued an `FL.READ`: none, `CFG.READ`, the `CFG.READ` of `CTL.LOAD`, or the one of a `CFG.WRITE`
(R206, R209, R211, R228). -/
inductive ReadBy where
  | direct
  | cfgRead
  | load
  | write (issuer : WriteBy)
  deriving DecidableEq, Repr, Inhabited

/-- Which operation issued an `FL.ERASE` or `FL.PROG`: none, or a `CFG.WRITE` (R207, R208, R211). -/
inductive FlashBy where
  | direct
  | write (issuer : WriteBy)
  deriving DecidableEq, Repr, Inhabited

/-- Which operation issued a `DISP.FLUSH` (R227, R230, R237, R271). -/
inductive FlushBy where
  | direct
  | recovery
  | render
  | persistAck
  deriving DecidableEq, Repr, Inhabited

/-- Where the control process stands inside an operation that is not over: in a wait of that operation (R11, R225),
or, for `eraseNext` and `progNext`, between two primitives of a `CFG.WRITE` (R72, R211). -/
inductive Busy where
  | flRead (issuer : ReadBy)
  | eraseNext (issuer : WriteBy)
  | flErase (issuer : FlashBy)
  | progNext (issuer : WriteBy)
  | flProg (issuer : FlashBy)
  | flush (issuer : FlushBy)
  | publish
  | render
  deriving DecidableEq, Repr, Inhabited

/-- The sequencer of `CTL` (R26, R38, R50). -/
structure Ctl where
  ph : CtlPhase
  event : Event
  deadline : Nat
  busy : Option Busy
  deriving DecidableEq, Repr, Inhabited

/-- `SEL.index` and `SEL.enabled` (R21, R22). -/
structure Sel where
  index : Reg Word32
  enabled : Reg Bool
  deriving DecidableEq, Repr, Inhabited

/-- The mailbox (R23). -/
structure Mbx where
  full : Bool
  val : Selection
  deriving DecidableEq, Repr, Inhabited

/-- `ENC.st` (R28). -/
inductive EncSt where
  | off
  | restWait
  | restSettle
  | armed
  | wait1
  | wait2
  | wait3
  | finalSettle
  deriving DecidableEq, Repr, Inhabited

/-- The decoder's registers (R28); `dir` is false for the Up path, true for the Down path. -/
structure Enc where
  st : EncSt
  dir : Bool
  deadline : Nat
  deriving DecidableEq, Repr, Inhabited

/-- `BTN.st` (R29). -/
inductive BtnSt where
  | off
  | idle
  | debounce
  | held
  | doneToggle
  | donePersist
  deriving DecidableEq, Repr, Inhabited

/-- The classifier's registers (R29). -/
structure Btn where
  st : BtnSt
  tStart : Nat
  deadline : Nat
  deriving DecidableEq, Repr, Inhabited

/-- The store's working registers (R45). -/
structure Cfg where
  buf : List Byte
  cur : Selection
  new : Selection
  deriving DecidableEq, Repr, Inhabited

/-- The display shadow (R44): `none` is a blank slot. -/
structure Disp where
  pending : List (Glyph × Slot)
  frame : Five (Option Glyph)
  deriving DecidableEq, Repr, Inhabited

/-- `AUD.ph` (R27). -/
inductive AudPhase where
  | waitFirst
  | config
  | push
  | race
  deriving DecidableEq, Repr, Inhabited

/-- The audio driver (R27, R37). `halted` is true once `AUD` takes no further step (R255); `divOut` is the pair the
last `DIV.CALC` returned (R126, assumption log 20). -/
structure Aud where
  ph : AudPhase
  sel : Reg Selection
  tableSel : Reg Bool
  halted : Bool
  divOut : Bool × Word32
  deriving DecidableEq, Repr, Inhabited

/-- The output state machine (R24, R32, R36, R41). -/
structure Sm where
  en : Bool
  osr : Word32
  osrCnt : Nat
  pin : Bool
  clkdiv : Reg Word32
  deriving DecidableEq, Repr, Inhabited

/-- The DMA engine (R30, R33); `tbl` is false for `T1`, true for `T8`. -/
structure Dma where
  idx : Nat
  tbl : Bool
  busy : Bool
  done : Bool
  deriving DecidableEq, Repr, Inhabited

/-- The fault latch (R34). -/
structure Latch where
  fault : Bool
  code : Byte
  deriving DecidableEq, Repr, Inhabited

/-- The levels of the input lines at `now`, and that of `BTN` at the tick before (R10, R11). -/
structure Lines where
  a : Bool
  b : Bool
  btn : Bool
  recov : Bool
  btnPrev : Bool
  deriving DecidableEq, Repr, Inhabited

/-- An event of `DISP_OUT` (R49, R270, R271). -/
inductive DispEvent where
  | draw (glyph : Glyph) (slot : Slot)
  | flush (frame : Five (Option Glyph))
  deriving DecidableEq, Repr, Inhabited

/-- An event of `MBX_LOG` (R49, R161, R162). -/
inductive MbxEvent where
  | send (v : Selection)
  | recv (v : Selection)
  deriving DecidableEq, Repr, Inhabited

/-- An event of `FLASH_LOG` (R49, R207, R208). -/
inductive FlashEvent where
  | erase (off len : Nat)
  | prog (off : Nat) (bytes : List Byte)
  deriving DecidableEq, Repr, Inhabited

/-- The output traces, oldest entry first (R49). -/
structure Logs where
  pdmOut : List Bool
  dispOut : List DispEvent
  mbxLog : List MbxEvent
  flashLog : List FlashEvent
  deriving DecidableEq, Repr, Inhabited

/-- The environment's answers to the draws to come, and the count of free values used (R14, R46). -/
structure Draws where
  durations : List Nat
  fails : List Bool
  count : Nat
  deriving DecidableEq, Repr, Inhabited

/-- The contents of `ROM`: the tables `T1` and `T8` (R61). `read` is the model's own: whether a word has been read, after
which no operation changes a table (R77; assumption log 27). -/
structure Rom where
  t1 : List Word32
  t8 : List Word32
  read : Bool
  deriving DecidableEq, Repr, Inhabited

/-- A memory: (address, byte) pairs, addresses strictly rising, none holding what an unlisted address reads as. -/
abbrev Memory := List Host.Cell

/-- The state of the block and of its environment (R20, R46). -/
structure State where
  par : ValidParams
  now : Nat
  fresh : Bool
  lines : Lines
  script : List OpWord
  env : Draws
  ctl : Ctl
  sel : Sel
  mbx : Mbx
  enc : Enc
  btn : Btn
  cfg : Cfg
  flash : Memory
  disp : Disp
  aud : Aud
  sm : Sm
  fifo : List Word32
  dma : Dma
  rom : Rom
  latch : Latch
  reflash : Bool
  logs : Logs
  deriving DecidableEq, Repr, Inhabited

/-- What stops the machine. -/
inductive Fault where
  /-- `DMA.XFER` with `(dma_tbl, DMA_IDX)` outside the words of `ROM` (R61). Raised only where the table is shorter
  than `WORDS`, absent, or the index has passed its end. Safe: the model stops. -/
  | romAddress
  deriving DecidableEq, Repr, Inhabited

/-- Why a word has no meaning. -/
inductive Refusal where
  /-- An arm of `exec` that has no meaning yet. Safe. -/
  | notModelled (mnemonic : String)
  /-- `step`: the scheduled word names no operation (R107, U16). Safe. -/
  | undecodable (e : DecodeError)
  /-- A meaning: the rule's `when` clause is false in this state, so the transition does not exist (R14). Safe. -/
  | notEnabled
  /-- `ENV.ADV` of no tick (R279), `FAULT` of a reserved code (R256, U17). Safe. -/
  | reservedOperand
  /-- `DIV.CALC` and `AUD.CONFIG`: the divider falls outside `256 .. 2^32 - 1`, so the parameter assignment is invalid
  and has no meaning (R9, R126, U2). No state reaches it, because none holds an invalid assignment. Safe. -/
  | invalidParams
  deriving DecidableEq, Repr, Inhabited

/-- The outcome of an operation. -/
abbrev Result := Host.Outcome State Fault Refusal

/-- All lines high: the levels before the first stimulus (R112). -/
def Lines.high : Lines := ⟨true, true, true, true, true⟩

/-- The reset table of R47, over what reset leaves alone: the parameters, `ROM`, `FLASH` (R290), and the environment's
lines, schedule and answers. A register R47 calls unwritten or unspecified holds the value of assumption log 6. -/
def State.powerOn (par : ValidParams) (rom : Rom) (flash : Memory) (lines : Lines) (script : List OpWord)
    (env : Draws) : State where
  par := par
  now := 0
  fresh := true
  lines := lines
  script := script
  env := env
  ctl := ⟨.boot, .none, 0, none⟩
  sel := ⟨⟨0, false⟩, ⟨false, false⟩⟩
  mbx := ⟨false, ⟨0, false⟩⟩
  enc := ⟨.off, false, 0⟩
  btn := ⟨.off, 0, 0⟩
  cfg := ⟨[0, 0, 0, 0, 0, 0, 0, 0], ⟨0, false⟩, ⟨0, false⟩⟩
  flash := flash
  disp := ⟨[], ⟨none, none, none, none, none⟩⟩
  aud := ⟨.waitFirst, ⟨⟨0, false⟩, false⟩, ⟨false, false⟩, false, (false, 0)⟩
  sm := ⟨false, 0, 0, false, ⟨0, false⟩⟩
  fifo := []
  dma := ⟨0, false, false, false⟩
  rom := rom
  latch := ⟨false, 0⟩
  reflash := false
  logs := ⟨[], [], [], []⟩

/-- One configured table, `WORDS` words (R61). -/
def configuredTable (p : Params) (t : Bool) : List Word32 := (List.range (tableWords p)).map (Config.pdmRom t)

/-- `ROM` as the machine is configured with it: `T1`, and `T8` where `DUAL_TABLE`, each whole (R61, R294). -/
def configuredRom (p : Params) : Rom :=
  ⟨configuredTable p false, if p.dualTable then configuredTable p true else [], false⟩

/-- The machine right after the first power-on (R47, R290): no parameter, table or answer is known, nothing is
scheduled, the lines are high and `FLASH` is blank (assumption log 4, 8). -/
def State.reset : State :=
  State.powerOn Config.params (configuredRom Config.params.val) [] Lines.high [] ⟨[], [], 0⟩

end Sys2Proof.Machine
end

