-- ==== Sys2Proof/Machine/Operands.lean ====
section
/-! DEFINITION. The data formats of spec/30_encoding.md and the computed operands: the divider, the persisted record, the readout, the encoder's stage table, the events' codes. -/

namespace Sys2Proof.Machine

/-! The divider (R105, R126 to R128, R151). -/

/-- `MemRead(TONE, i, 1)`, none outside the space (R62). -/
def toneRead (p : Params) (i : Word32) : Option Nat := p.toneTable[i.toNat]?

/-- What `DIV.CALC` comes to (R126): a fault, a value that makes the parameter assignment invalid, or the pair. Under a
valid assignment it is `indexRange` or `pair` (R256). -/
inductive DivResult where
  | indexRange
  | precondition
  | invalid
  | pair (table : Bool) (div : Word32)
  deriving DecidableEq, Repr

/-- `DIV.CALC` as a function of the index: the range is tested first, then the frequency (R126, R263). -/
def calcDivider (p : Params) (i : Word32) : DivResult :=
  match toneRead p i with
  | none => .indexRange
  | some f =>
    if f = 0 then .precondition
    else if 256 ≤ dividerOf p f ∧ dividerOf p f < 2 ^ 32 then .pair (usesT8 p f) (BitVec.ofNat 32 (dividerOf p f))
    else .invalid

/-- The integer part of a divider word, `CLKDIV[31:8]` (R96). -/
def divInteger (d : Word32) : BitVec 24 := d.extractLsb' 8 24

/-- The fraction of a divider word, `CLKDIV[7:0]` (R96). -/
def divFraction (d : Word32) : Byte := d.extractLsb' 0 8

/-! The persisted record (R93 to R95). -/

/-- `decode` of R94, on the record's raw bytes. -/
def decodeRecord (p : Params) (b : List Byte) : Selection :=
  let idx : Word32 := (b.getD 3 0 ++ b.getD 2 0) ++ (b.getD 1 0 ++ b.getD 0 0)
  if toneCount p ≤ idx.toNat then defaultCfg
  else if b.getD 4 0 = 0x01#8 then ⟨idx, true⟩
  else if b.getD 4 0 = 0x00#8 then ⟨idx, false⟩
  else defaultCfg

/-- `encode` of R95: the index least significant byte first (R69), the flag, three bytes of padding. -/
def encodeRecord (c : Selection) : List Byte :=
  [c.index.extractLsb' 0 8, c.index.extractLsb' 8 8, c.index.extractLsb' 16 8, c.index.extractLsb' 24 8,
    if c.enabled then 0x01#8 else 0x00#8, 0x00#8, 0x00#8, 0x00#8]

/-! Glyphs and the readout (R99, R100, R230). -/

/-- The space. -/
def glyphSpace : Glyph := 10#8
/-- The dash. -/
def glyphDash : Glyph := 11#8
/-- The dot. -/
def glyphDot : Glyph := 12#8
/-- The "off" glyph. -/
def glyphOff : Glyph := 13#8
/-- The "mem" acknowledgment marker. -/
def glyphMem : Glyph := 14#8

/-- The horizontal pixel of a slot (R100). -/
def slotPixel (s : Slot) : Nat := 24 * s.toNat

/-- The default `DIAG_MSG`, five dashes (R227). -/
def defaultDiagMsg : List (Glyph × Slot) :=
  [(glyphDash, 0), (glyphDash, 1), (glyphDash, 2), (glyphDash, 3), (glyphDash, 4)]

/-- A decimal digit as a glyph. -/
def glyphDigit (n : Nat) : Glyph := BitVec.ofNat 8 (n % 10)

/-- The digit of weight `10 ^ k` in a right-aligned number, a space where it is a leading zero (R230). -/
def digitOrSpace (w k : Nat) : Glyph :=
  if w < 10 ^ k then glyphSpace else glyphDigit (w / 10 ^ k)

/-- The default `LAYOUT` of R230. For a tone whose whole hertz exceed five digits R230 gives no result: the glyphs are
free (assumption log 21). -/
def defaultLayout (f : Nat) (enabled : Bool) : Five Glyph :=
  if enabled = false then ⟨glyphSpace, glyphSpace, glyphSpace, glyphSpace, glyphOff⟩
  else if f < 10000 then
    ⟨digitOrSpace f 3, digitOrSpace f 2, glyphDigit (f / 10), glyphDot, glyphDigit f⟩
  else if f < 1000000 then
    ⟨digitOrSpace (f / 10) 4, digitOrSpace (f / 10) 3, digitOrSpace (f / 10) 2, digitOrSpace (f / 10) 1,
      glyphDigit (f / 10)⟩
  else
    let g := fun slot => BitVec.ofNat 8 (Config.freeGlyph f slot % 15)
    ⟨g 0, g 1, g 2, g 3, g 4⟩

/-- `LAYOUT` (R8, R230): the parameter's entry for the tone and flag, the default where it has none. -/
def readout (p : Params) (f : Nat) (enabled : Bool) : Five Glyph :=
  match p.layout.find? (fun r => r.tone == f && r.enabled == enabled) with
  | some r => r.glyphs
  | none => defaultLayout f enabled

/-- Five glyphs as the draws of a render, slot 0 first (R230). -/
def drawsOf (g : Five Glyph) : List (Glyph × Slot) :=
  [(g.s0, 0), (g.s1, 1), (g.s2, 2), (g.s3, 3), (g.s4, 4)]

/-- `DISP.frame[s] <- g` (R271). -/
def putGlyph (fr : Five (Option Glyph)) (d : Glyph × Slot) : Five (Option Glyph) :=
  match d.2 with
  | 0#8 => { fr with s0 := some d.1 }
  | 1#8 => { fr with s1 := some d.1 }
  | 2#8 => { fr with s2 := some d.1 }
  | 3#8 => { fr with s3 := some d.1 }
  | 4#8 => { fr with s4 := some d.1 }
  | _ => fr

/-! Codes (R98, R256). -/

/-- The event codes of R98. -/
def eventCode : Event → BitVec 3
  | .none => 0#3
  | .up => 1#3
  | .down => 2#3
  | .toggle => 3#3
  | .persist => 4#3

/-- `FLASH_READ` (R256). -/
def faultFlashRead : Byte := 1#8
/-- `FLASH_ERASE` (R256). -/
def faultFlashErase : Byte := 2#8
/-- `FLASH_PROG` (R256). -/
def faultFlashProg : Byte := 3#8
/-- `DISPLAY` (R256). -/
def faultDisplay : Byte := 4#8
/-- `DIV_PRECONDITION` (R256). -/
def faultDivPrecondition : Byte := 5#8
/-- `INDEX_RANGE` (R256). -/
def faultIndexRange : Byte := 6#8
/-- `UNWRITTEN` (R256). -/
def faultUnwritten : Byte := 7#8

/-! The encoder's stages (R175). -/

/-- The pair `(level(A), level(B))` of R170. -/
abbrev Pair := Bool × Bool

/-- `P_k` of R175: the pair the lines are in when stage `k` starts. -/
def stagePrev (dir : Bool) (k : Nat) : Pair :=
  match k, dir with
  | 1, false => (false, true)
  | 1, true => (true, false)
  | 2, _ => (false, false)
  | _, false => (true, false)
  | _, true => (false, true)

/-- `E_k` of R175: the pair that stage `k` expects. -/
def stageNext (dir : Bool) (k : Nat) : Pair :=
  match k, dir with
  | 1, _ => (false, false)
  | 2, false => (true, false)
  | 2, true => (false, true)
  | _, _ => (true, true)

/-- The stage a decoder state watches, none outside `WAIT1` to `WAIT3` (R28). -/
def stageOf : EncSt → Option Nat
  | .wait1 => some 1
  | .wait2 => some 2
  | .wait3 => some 3
  | .off | .restWait | .restSettle | .armed | .finalSettle => none

/-- The state after stage `k` (R176). -/
def stageAfter (k : Nat) : EncSt :=
  match k with
  | 1 => .wait2
  | 2 => .wait3
  | _ => .finalSettle

/-! The bitstream words (R67, R68, R97). -/

/-- `MemRead(ROM, (table, j), 1)`, none outside the space (R61). -/
def romRead (p : Params) (r : Rom) (table : Bool) (j : Nat) : Option Word32 :=
  if j < tableWords p ∧ (table = true → p.dualTable = true) then (if table then r.t8 else r.t1)[j]? else none

/-- Up to 32 bits in generation order as one word, the earliest in bit 31 (R67). -/
def packWord (bits : List Bool) : Word32 :=
  (List.range 32).foldl (fun w k => (w <<< 1) ||| (BitVec.ofBool (bits.getD k false)).zeroExtend 32) 0

/-- A bit sequence as `n` words, word 0 first (R67, R97, R122). -/
def packTable (bits : List Bool) (n : Nat) : List Word32 :=
  (List.range n).map (fun j => packWord (bits.drop (32 * j)))

/-- The byte view of a table (R68): byte `4j` is the most significant byte of word `j`. -/
def tableByte (ws : List Word32) (k : Nat) : Byte :=
  (ws.getD (k / 4) 0).extractLsb' (24 - 8 * (k % 4)) 8

end Sys2Proof.Machine
end

