-- ==== Sys2Proof/Machine/Ops.lean ====
section
/-! DEFINITION. The operations that several operations share: the flash memory, the environment's draws, taking a
fault, waiting, the mailbox, the display, the flash primitives and the chains of the configuration store. An
operation that stops half way (a fault, a wait) is written with a continuation: what it does if it goes on. -/

namespace Sys2Proof.Machine

/-! Flash memory (R63 to R66). An unlisted address reads as 0xFF, what an erased byte reads as (assumption log 8). -/

/-- What an address that is not listed reads as. -/
def blankByte : Byte := 0xFF#8

/-- The byte at an address. -/
def memByte : Memory → Nat → Byte
  | [], _ => blankByte
  | (b, v) :: r, a => if b = a then v else memByte r a

/-- Writes one byte, keeping the canonical form. -/
def memSet : Memory → Nat → Byte → Memory
  | [], a, v => if v = blankByte then [] else [(a, v)]
  | (b, w) :: r, a, v =>
    if a < b then (if v = blankByte then (b, w) :: r else (a, v) :: (b, w) :: r)
    else if a = b then (if v = blankByte then r else (a, v) :: r)
    else (b, w) :: memSet r a v

/-- The canonical form: addresses strictly rising, no entry equal to what an unlisted address reads as. -/
def Memory.wf (m : Memory) : Bool :=
  decide (m.Pairwise (fun x y => x.1 < y.1)) && m.all (fun c => c.2 != blankByte)

/-- `MemRead(FLASH, off, n)`: the bytes in ascending offset order (R64). -/
def memRead (m : Memory) (off n : Nat) : List Byte :=
  (List.range n).map (fun k => memByte m (off + k))

/-- `MemErase(FLASH, off, len)`: every byte becomes 0xFF (R65). -/
def memErase (m : Memory) (off len : Nat) : Memory :=
  m.filter (fun c => !(decide (off ≤ c.1) && decide (c.1 < off + len)))

/-- Bytes stored as they are, from an offset up: what a failed primitive or an interrupted program leaves. -/
def memStore : Memory → Nat → List Byte → Memory
  | m, _, [] => m
  | m, off, v :: vs => memStore (memSet m off v) (off + 1) vs

/-- `MemWrite(FLASH, off, n, v)`: each byte is replaced by its bitwise AND with the new one (R66). -/
def memProgram : Memory → Nat → List Byte → Memory
  | m, _, [] => m
  | m, off, v :: vs => memProgram (memSet m off (memByte m off &&& v)) (off + 1) vs

/-! The environment's draws (R14, R46; assumption log 3). -/

/-- The answer to the next `draw fail`. -/
def nextFail (s : State) : Bool :=
  match s.env.fails with
  | f :: _ => f
  | [] => Config.freeFail s.env.count

/-- The answers left after one `draw fail`. -/
def popFail (s : State) : State :=
  { s with env :=
      match s.env.fails with
      | _ :: fs => { s.env with fails := fs }
      | [] => { s.env with count := s.env.count + 1 } }

/-- The answer to the next `draw d`. -/
def nextDuration (s : State) : Nat :=
  match s.env.durations with
  | d :: _ => d
  | [] => Config.freeDuration s.env.count

/-- The answers left after one `draw d`. -/
def popDuration (s : State) : State :=
  { s with env :=
      match s.env.durations with
      | _ :: ds => { s.env with durations := ds }
      | [] => { s.env with count := s.env.count + 1 } }

/-- `n` free bytes (U11, U12). -/
def freeBytes (s : State) (n : Nat) : List Byte :=
  (List.range n).map (fun k => Config.freeByte s.env.count k)

/-- `FLASH[off ..] <- draw` (R207, R208): free bytes over `n` bytes of `FLASH`. -/
def scramble (off n : Nat) (s : State) : State :=
  { s with
    flash := memStore s.flash off (freeBytes s n)
    env := { s.env with count := s.env.count + 1 } }

/-! Taking a fault (R255): nothing returns from one (R265). -/

/-- The latch after `raise Fault(code)`: the first code is kept (R255, R265). -/
def Latch.record (code : Byte) (l : Latch) : Latch := ⟨true, if l.fault then l.code else code⟩

/-- `raise Fault(code)` by a control-side agent: the latch, `HALT`, both decoders off, and the operation in progress
stops (R255). -/
def raiseControl (code : Byte) (s : State) : State :=
  { s with
    latch := s.latch.record code
    ctl := { s.ctl with ph := .halt, busy := none }
    enc := { s.enc with st := .off }
    btn := { s.btn with st := .off } }

/-- `raise Fault(code)` by the audio side: the latch, and the side takes no further step (R255). -/
def raiseAudio (code : Byte) (s : State) : State :=
  { s with
    latch := s.latch.record code
    aud := { s.aud with halted := true } }

/-! Outcomes. -/

/-- An operation with a `when` clause: its effect where the clause holds (R14). -/
def take (ready : Bool) (f : State → State) (s : State) : Result :=
  if ready then .next (f s) else .refused .notEnabled

/-- A step of a control-side agent: after it no line changes at this tick (R273). -/
def takeCtl (ready : Bool) (f : State → State) (s : State) : Result :=
  take ready (fun s => { f s with fresh := false }) s

/-! Waiting (R11). -/

/-- `draw d ; await_timer(d)` in a control-side operation: the rest at once where `d = 0`, otherwise the operation
stands in the wait, its deadline in `CTL.deadline` (R38). Where a bare word begins the wait in PERSIST_HOLD or TRAIL,
this overwrites the deadline of the phase: the model's choice (assumption log 25). -/
def await (b : Busy) (rest : State → State) (s : State) : State :=
  let d := nextDuration s
  let s := popDuration s
  if d = 0 then rest s else { s with ctl := { s.ctl with busy := some b, deadline := s.now + d } }

/-- No operation of the control process is in progress any more. -/
def clearBusy (s : State) : State := { s with ctl := { s.ctl with busy := none } }

/-- `CTL.ph <- p`. -/
def setPhase (p : CtlPhase) (s : State) : State := { s with ctl := { s.ctl with ph := p } }

/-! The mailbox (R161, R162). -/

/-- `MBX.SEND`. -/
def sendSelection (v : Selection) (s : State) : State :=
  { s with
    mbx := ⟨true, v⟩
    logs := { s.logs with mbxLog := s.logs.mbxLog ++ [.send v] } }

/-- The state after `MBX.RECV` has taken `mbx_val`. The value it returns is for its issuer to keep (R141, R145). -/
def receiveSelection (s : State) : State :=
  { s with
    mbx := { s.mbx with full := false }
    logs := { s.logs with mbxLog := s.logs.mbxLog ++ [.recv s.mbx.val] } }

/-- Reads `SEL`: a read of an unwritten register raises `UNWRITTEN` (R48, R256). -/
def withSelection (k : Selection → State → State) (s : State) : State :=
  if s.sel.index.written && s.sel.enabled.written then k ⟨s.sel.index.val, s.sel.enabled.val⟩ s
  else raiseControl faultUnwritten s

/-- Reads `SEL.index` (R48). -/
def withIndex (k : Word32 → State → State) (s : State) : State :=
  if s.sel.index.written then k s.sel.index.val s else raiseControl faultUnwritten s

/-- Reads `SEL.enabled` (R48). -/
def withEnabled (k : Bool → State → State) (s : State) : State :=
  if s.sel.enabled.written then k s.sel.enabled.val s else raiseControl faultUnwritten s

/-! The display (R270, R271). -/

/-- A `DISP.DRAW` that does not fail (R270). -/
def queueDraw (d : Glyph × Slot) (s : State) : State :=
  { s with
    disp := { s.disp with pending := s.disp.pending ++ [d] }
    logs := { s.logs with dispOut := s.logs.dispOut ++ [.draw d.1 d.2] } }

/-- `DISP.DRAW`, and what follows it (R270). Every pair that comes here satisfies its `when` clause: that of a bare word
is tested, and those of `LAYOUT` and `DIAG_MSG` are legal in every valid parameter assignment (U17; `drawsOf_legal`,
`diagMsg_legal`). -/
def drawGlyph (d : Glyph × Slot) (rest : State → State) (s : State) : State :=
  let failed := nextFail s
  let s := popFail s
  if failed then raiseControl faultDisplay s else rest (queueDraw d s)

/-- A `DISP.DRAW` for each pair, in order, and what follows them. -/
def drawAll : List (Glyph × Slot) → (State → State) → State → State
  | [], rest, s => rest s
  | d :: ds, rest, s => drawGlyph d (drawAll ds rest) s

/-- The frame after the pending draws have been made visible (R271). -/
def flushedFrame (d : Disp) : Five (Option Glyph) := d.pending.foldl putGlyph d.frame

/-- A `DISP.FLUSH` that does not fail, before its wait (R271). -/
def showFrame (s : State) : State :=
  { s with
    disp := ⟨[], flushedFrame s.disp⟩
    logs := { s.logs with dispOut := s.logs.dispOut ++ [.flush (flushedFrame s.disp)] } }

/-- What follows a `DISP.FLUSH` in the operation that issued it (R227, R230, R237). -/
def afterFlush (issuer : FlushBy) (s : State) : State :=
  match issuer with
  | .direct => s
  | .recovery => { setPhase .reflash s with reflash := true }
  | .render => await .render (setPhase .wait) s
  | .persistAck => setPhase .persistForce s

/-- `DISP.FLUSH`, and what follows it (R271). -/
def flush (issuer : FlushBy) (s : State) : State :=
  let failed := nextFail s
  let s := popFail s
  if failed then raiseControl faultDisplay s
  else await (.flush issuer) (afterFlush issuer) (showFrame s)

/-! The flash primitives and the configuration store (R206 to R211). -/

/-- What follows a `CFG.WRITE` in the operation that issued it (R237). -/
def afterWrite (issuer : WriteBy) (s : State) : State :=
  match issuer with
  | .direct => s
  | .persist =>
    { s with ctl := { s.ctl with ph := .persistHold, deadline := s.now + tAck s.par.val } }

/-- `cfg_cur <- decode(cfg_buf)` (R209). -/
def decodeBuffer (s : State) : State :=
  { s with cfg := { s.cfg with cur := decodeRecord s.par.val s.cfg.buf } }

/-- What follows an `FL.READ` in the operations that issued it (R209, R211, R228). A `CFG.WRITE` that must change the
record goes on with `FL.ERASE`, as a step of its own (R72; assumption log 11), and `CTL.deadline` becomes the present
tick, also in a phase that waits on it: the model's choice (assumption log 25). -/
def afterRead (issuer : ReadBy) (s : State) : State :=
  match issuer with
  | .direct => s
  | .cfgRead => decodeBuffer s
  | .load =>
    let s := decodeBuffer s
    { setPhase .publish s with sel := ⟨.set s.cfg.cur.index, .set s.cfg.cur.enabled⟩ }
  | .write by' =>
    let s := decodeBuffer s
    if s.cfg.cur = s.cfg.new then afterWrite by' s
    else { s with ctl := { s.ctl with busy := some (.eraseNext by'), deadline := s.now } }

/-- `FL.READ` after its wait (R206). -/
def readFlash (issuer : ReadBy) (s : State) : State :=
  let failed := nextFail s
  let s := popFail s
  if failed then raiseControl faultFlashRead s
  else afterRead issuer { s with cfg := { s.cfg with buf := memRead s.flash (cfgOffset s.par.val) recordBytes } }

/-- `FL.READ` (R206). -/
def beginRead (issuer : ReadBy) (s : State) : State := await (.flRead issuer) (readFlash issuer) s

/-- What follows an `FL.ERASE` in the operation that issued it: the program, as a step of its own (R211, R72), and
`CTL.deadline` becomes the present tick, as in `afterRead` (assumption log 25). -/
def afterErase (issuer : FlashBy) (s : State) : State :=
  match issuer with
  | .direct => s
  | .write by' => { s with ctl := { s.ctl with busy := some (.progNext by'), deadline := s.now } }

/-- `FL.ERASE` after its wait (R207). -/
def eraseFlash (issuer : FlashBy) (s : State) : State :=
  let failed := nextFail s
  let s := popFail s
  if failed then raiseControl faultFlashErase (scramble (cfgOffset s.par.val) (blockBytes s.par.val) s)
  else afterErase issuer
    { s with
      flash := memErase s.flash (cfgOffset s.par.val) (blockBytes s.par.val)
      logs := { s.logs with flashLog := s.logs.flashLog ++ [.erase (cfgOffset s.par.val) (blockBytes s.par.val)] } }

/-- `FL.ERASE` (R207). -/
def beginErase (issuer : FlashBy) (s : State) : State := await (.flErase issuer) (eraseFlash issuer) s

/-- What follows an `FL.PROG` in the operation that issued it (R211). -/
def afterProg (issuer : FlashBy) (s : State) : State :=
  match issuer with
  | .direct => s
  | .write by' => afterWrite by' s

/-- `FL.PROG` after its wait (R208). It programs `cfg_new`, also outside a `CFG.WRITE`, where that is the record the last
write left, or the one of reset: the model's choice (assumption log 28). -/
def progFlash (issuer : FlashBy) (s : State) : State :=
  let failed := nextFail s
  let s := popFail s
  if failed then raiseControl faultFlashProg (scramble (cfgOffset s.par.val) recordBytes s)
  else afterProg issuer
    { s with
      flash := memProgram s.flash (cfgOffset s.par.val) (encodeRecord s.cfg.new)
      logs := { s.logs with
        flashLog := s.logs.flashLog ++ [.prog (cfgOffset s.par.val) (encodeRecord s.cfg.new)] } }

/-- `FL.PROG` (R208). -/
def beginProg (issuer : FlashBy) (s : State) : State := await (.flProg issuer) (progFlash issuer) s

/-- `CFG.WRITE` (R211). -/
def beginWrite (issuer : WriteBy) (v : Selection) (s : State) : State :=
  beginRead (.write issuer) { s with cfg := { s.cfg with new := v } }

/-! Operations that others issue and that have no wait. -/

/-- `ENC.ABANDON` (R179). -/
def abandonEncoder (s : State) : State := { s with enc := { s.enc with st := .off } }

/-- `BTN.ABANDON` (R200): only the idle wait can be abandoned. Issued by `ENC.EMIT` (R232) it leaves a classifier
that is in no idle wait as it is: the model's choice (assumption log 32). -/
def abandonButton (s : State) : State :=
  { s with btn := if s.btn.st = .idle then { s.btn with st := .off } else s.btn }

/-- `ENC.START` (R171). -/
def startEncoder (s : State) : State := { s with enc := { s.enc with st := .restWait } }

/-- `BTN.START` (R191). -/
def startButton (s : State) : State := { s with btn := { s.btn with st := .idle, tStart := s.now } }

/-- `SM.ENABLE` (R131). -/
def enableOutput (b : Bool) (s : State) : State := { s with sm := { s.sm with en := b } }

/-- `SM.SETDIV` (R130). -/
def setDivider (v : Word32) (s : State) : State := { s with sm := { s.sm with clkdiv := .set v } }

/-- `DMA.ARM` (R137). -/
def armDma (b : Bool) (s : State) : State := { s with dma := ⟨0, b, true, false⟩ }

/-- `DMA.ABORT` (R140). -/
def abortDma (s : State) : State := { s with dma := { s.dma with busy := false, done := false } }

end Sys2Proof.Machine
end

