-- ==== Sys2Proof/Machine/Flags.lean ====
section
/-! DEFINITION. The flags and awaited events (spec/10_state.md R31 to R35, spec/60_exceptions.md R259 to R268): the
`when` clause of every operation, and which operations the block takes on its own in a state. -/

namespace Sys2Proof.Machine

/-! The sides (R255, R268). -/

/-- The control side can take steps: not in `HALT` (R255) and not in `REFLASH` (R227). -/
def ctlLive (s : State) : Bool := s.ctl.ph != .halt && s.ctl.ph != .reflash

/-- The control process can start an operation: it stands in none (R11). -/
def ctlIdle (s : State) : Bool := ctlLive s && s.ctl.busy == none

/-- `CTL` is in a phase and can start the operation of that phase. -/
def ctlAt (p : CtlPhase) (s : State) : Bool := ctlIdle s && s.ctl.ph == p

/-- The tick of `CTL.deadline` (R38). -/
def ctlDue (s : State) : Bool := s.now == s.ctl.deadline

/-- The audio side can take steps (R255). -/
def audLive (s : State) : Bool := !s.aud.halted

/-- `pair(now)` (R170). -/
def linePair (s : State) : Pair := (s.lines.a, s.lines.b)

/-! Environment and generator. -/

/-- R273: line changes come before any control-side step of the tick. -/
def envLineReady (s : State) : Bool := s.fresh

/-- R120, R293: before any task starts. Every agent is in its reset state, and no push is armed that could read the
table (R80). The FIFO is not looked at (R40; assumption log 27). -/
def genReady (s : State) : Bool :=
  s.ctl.ph == .boot && s.ctl.busy == none && s.enc.st == .off && s.btn.st == .off && !s.mbx.full
    && s.aud.ph == .waitFirst && !s.sm.en && s.sm.osrCnt == 0 && !s.dma.busy && !s.dma.done

/-- R61, R77: once a word of `ROM` has been read, its tables stay as they are (assumption log 27). -/
def romOpen (s : State) (present generated : List Word32) : Bool := !s.rom.read || present == generated

/-! Output state machine, DMA, mailbox, audio driver. -/

/-- R130. -/
def setDivReady (v : Word32) (s : State) : Bool := audLive s && !s.sm.en && decide (256 ≤ v.toNat)

/-- R132. -/
def smPullReady (s : State) : Bool := audLive s && s.sm.en && s.sm.osrCnt == 0 && !s.fifo.isEmpty

/-- R133. -/
def smShiftReady (s : State) : Bool := audLive s && s.sm.en && decide (0 < s.sm.osrCnt)

/-- R137: not while busy, and `T8` only where it exists (U21). -/
def dmaArmReady (b : Bool) (s : State) : Bool := audLive s && !s.dma.busy && (!b || s.par.val.dualTable)

/-- R138. -/
def dmaXferReady (s : State) : Bool := audLive s && s.dma.busy && decide (s.fifo.length < s.par.val.fifoDepth)

/-- R162. -/
def mbxRecvReady (s : State) : Bool := audLive s && s.mbx.full

/-- R141. -/
def audStartReady (s : State) : Bool := audLive s && s.aud.ph == .waitFirst && s.mbx.full

/-- R142. -/
def audConfigReady (s : State) : Bool := audLive s && s.aud.ph == .config

/-- R143, with the `when` clause of the `DMA.ARM` it issues (R137). -/
def audPushReady (s : State) : Bool :=
  audLive s && s.aud.ph == .push && (!s.aud.tableSel.written || dmaArmReady s.aud.tableSel.val s)

/-- R144. -/
def audRearmReady (s : State) : Bool := audLive s && s.aud.ph == .race && s.dma.done

/-- R145. -/
def audPreemptReady (s : State) : Bool := audLive s && s.aud.ph == .race && s.mbx.full

/-! Quadrature decoder. -/

/-- R171. -/
def encStartReady (s : State) : Bool := ctlLive s && s.enc.st == .off

/-- R172. -/
def encRestReady (s : State) : Bool := ctlLive s && s.enc.st == .restWait && linePair s == (true, true)

/-- R173. -/
def encArmReady (s : State) : Bool := ctlLive s && s.enc.st == .restSettle && s.now == s.enc.deadline

/-- R174. The clause tests the pair and not the operand. That a word whose `b` is not the direction the pair shows
is not enabled is the model's choice (assumption log 31). -/
def encFallReady (b : Bool) (s : State) : Bool := ctlLive s && s.enc.st == .armed && linePair s == (b, !b)

/-- R176. -/
def encAdvanceReady (code : Byte) (s : State) : Bool :=
  match stageOf s.enc.st with
  | some k => ctlLive s && code == BitVec.ofNat 8 k && decide (s.enc.deadline ≤ s.now)
      && linePair s == stageNext s.enc.dir k
  | none => false

/-- R177, R180. -/
def encDropReady (s : State) : Bool :=
  match stageOf s.enc.st with
  | some k => ctlLive s && decide (s.enc.deadline ≤ s.now) && linePair s != stagePrev s.enc.dir k
      && linePair s != stageNext s.enc.dir k
  | none => ctlLive s && s.enc.st == .armed && linePair s == (false, false)

/-- R178. The clause reads `ENC.dir` and not the operand. That a word whose `b` is not `ENC.dir` is not enabled is
the model's choice (assumption log 31). -/
def encEmitReady (b : Bool) (s : State) : Bool :=
  ctlLive s && s.enc.st == .finalSettle && s.now == s.enc.deadline && b == s.enc.dir

/-! Button classifier. -/

/-- R191. -/
def btnStartReady (s : State) : Bool := ctlLive s && s.btn.st == .off

/-- R192. -/
def btnEdgeReady (s : State) : Bool :=
  ctlLive s && s.btn.st == .idle && decide (s.btn.tStart < s.now) && s.lines.btnPrev && !s.lines.btn

/-- R193. -/
def btnConfirmReady (s : State) : Bool := ctlLive s && s.btn.st == .debounce && s.now == s.btn.deadline

/-- R194. -/
def btnReleaseReady (s : State) : Bool :=
  ctlLive s && s.btn.st == .held && decide (s.now < s.btn.deadline) && s.lines.btn

/-- R195. -/
def btnTimeoutReady (s : State) : Bool := ctlLive s && s.btn.st == .held && s.now == s.btn.deadline

/-- R197, with the term that `CTL` stands in no wait of an operation given as a word of its own: the model's choice
(assumption log 18). -/
def btnTrailReady (s : State) : Bool := ctlAt .trail s && ctlDue s

/-- R200. -/
def btnAbandonReady (s : State) : Bool := ctlLive s && s.btn.st == .idle

/-! Configuration store and display: an operation of these is either started, or goes on where its wait is over. -/

/-- An `FL.READ` stands at the end of its wait. -/
def readDue (s : State) : Bool :=
  match s.ctl.busy with
  | some (.flRead _) => ctlLive s && ctlDue s
  | _ => false

/-- An `FL.ERASE` is the next primitive of a `CFG.WRITE`, or stands at the end of its wait. -/
def eraseDue (s : State) : Bool :=
  match s.ctl.busy with
  | some (.eraseNext _) => ctlLive s
  | some (.flErase _) => ctlLive s && ctlDue s
  | _ => false

/-- An `FL.PROG` is the next primitive of a `CFG.WRITE`, or stands at the end of its wait. -/
def progDue (s : State) : Bool :=
  match s.ctl.busy with
  | some (.progNext _) => ctlLive s
  | some (.flProg _) => ctlLive s && ctlDue s
  | _ => false

/-- A `DISP.FLUSH` stands at the end of its wait. -/
def flushDue (s : State) : Bool :=
  match s.ctl.busy with
  | some (.flush _) => ctlLive s && ctlDue s
  | _ => false

/-- The precondition of a `CFG.WRITE` on its record (R211). -/
def recordLegal (p : Params) (idx : Word32) : Bool := decide (idx.toNat < toneCount p)

/-- R211. -/
def cfgWriteReady (idx : Word32) (s : State) : Bool := ctlIdle s && recordLegal s.par.val idx

/-- R270. -/
def dispDrawReady (g : Glyph) (sl : Slot) (s : State) : Bool := ctlLive s && glyphLegal g && slotLegal sl

/-! Interaction controller. -/

/-- R229: in its phase, or at the end of its wait. -/
def ctlPublishReady (s : State) : Bool :=
  ctlAt .publish s || (ctlLive s && s.ctl.busy == some .publish && ctlDue s)

/-- R230: in its phase, or at the end of its own wait. -/
def ctlRenderReady (s : State) : Bool :=
  ctlAt .render s || (ctlLive s && s.ctl.busy == some .render && ctlDue s)

/-- R231. -/
def ctlWaitReady (s : State) : Bool := ctlAt .wait s && s.enc.st == .off && s.btn.st == .off

/-- R237, one clause for each of its four steps; the third has the precondition of the `CFG.WRITE` it issues. -/
def ctlPersistReady (s : State) : Bool :=
  ctlIdle s &&
    match s.ctl.ph with
    | .persistAck | .persistForce => true
    | .persistWrite =>
      !(s.sel.index.written && s.sel.enabled.written) || recordLegal s.par.val s.sel.index.val
    | .persistHold => ctlDue s
    | _ => false

/-! What the block takes on its own (R7, R11, R12): operations that are not issued from inside another. -/

/-- The operations of a list whose condition holds. -/
def chosen (l : List (Bool × Instr)) : List Instr := (l.filter (fun p => p.1)).map (fun p => p.2)

/-- The control-side operations enabled in a state (R11). -/
def ctlMoves (s : State) : List Instr :=
  chosen
    [(ctlAt .boot s, .ctlBoot), (ctlAt .recovery s, .ctlRecovery), (ctlAt .load s, .ctlLoad),
      (ctlPublishReady s, .ctlPublish), (ctlRenderReady s, .ctlRender), (ctlWaitReady s, .ctlWait),
      (ctlAt .handleUp s, .ctlUp), (ctlAt .handleDown s, .ctlDown), (ctlAt .handleToggle s, .ctlToggle),
      (ctlPersistReady s, .ctlPersist), (btnTrailReady s, .btnTrail),
      (readDue s, .flRead), (eraseDue s, .flErase), (progDue s, .flProg), (flushDue s, .dispFlush),
      (encRestReady s, .encRest), (encArmReady s, .encArm), (encFallReady false s, .encFall false),
      (encFallReady true s, .encFall true), (encAdvanceReady 1 s, .encAdvance 1),
      (encAdvanceReady 2 s, .encAdvance 2), (encAdvanceReady 3 s, .encAdvance 3), (encDropReady s, .encDrop),
      (encEmitReady false s, .encEmit false), (encEmitReady true s, .encEmit true),
      (btnEdgeReady s, .btnEdge), (btnConfirmReady s, .btnConfirm), (btnReleaseReady s, .btnRelease),
      (btnTimeoutReady s, .btnTimeout)]

/-- The audio-side operations enabled in a state (R12). -/
def audMoves (s : State) : List Instr :=
  chosen
    [(smPullReady s, .smPull), (smShiftReady s, .smShift), (dmaXferReady s, .dmaXfer),
      (audStartReady s, .audStart), (audConfigReady s, .audConfig), (audPushReady s, .audPush),
      (audRearmReady s, .audRearm), (audPreemptReady s, .audPreempt)]

/-- A tick can pass: the control side has no enabled operation (R11, R279), or the audio side has raised a fault, after
which the control side may go on or stop (R255, U13; assumption log 15). -/
def tickReady (s : State) : Bool := (ctlMoves s).isEmpty || s.aud.halted

/-- Everything that can happen next without a stimulus: a step of either side, or the passing of a tick (R11, R12). -/
def moves (s : State) : List Instr :=
  ctlMoves s ++ audMoves s ++ (if tickReady s then [.envAdv 1] else [])

end Sys2Proof.Machine
end

