-- ==== Sys2Proof/Machine/Output.lean ====
section
/-! DEFINITION. The divider, the output state machine and the DMA engine: `DIV`, `SM`, `DMA`
(spec/40_pdm_generator.md R126 to R140). -/

namespace Sys2Proof.Machine

/-- `DIV.CALC` (R126). The pair it returns stands in `aud.divOut` (assumption log 20). -/
def execDivCalc (val : Word32) (s : State) : Result :=
  if audLive s then
    match calcDivider s.par.val val with
    | .indexRange => .next (raiseAudio faultIndexRange s)
    | .precondition => .next (raiseAudio faultDivPrecondition s)
    | .invalid => .refused .invalidParams
    | .pair t d => .next { s with aud := { s.aud with divOut := (t, d) } }
  else .refused .notEnabled

/-- `SM.SETDIV` (R130). -/
def execSmSetdiv (val : Word32) (s : State) : Result := take (setDivReady val s) (setDivider val) s

/-- `SM.ENABLE` (R131). -/
def execSmEnable (b : Bool) (s : State) : Result := take (audLive s) (enableOutput b) s

/-- `OSR <- FIFO.pop_head() ; osr_cnt <- 32` (R132). -/
def pullWord (s : State) : State :=
  { s with sm := { s.sm with osr := s.fifo.headD 0, osrCnt := 32 }, fifo := s.fifo.tail }

/-- `SM.PULL` (R132). -/
def execSmPull (s : State) : Result := take (smPullReady s) pullWord s

/-- One bit tick: the most significant bit of `OSR` goes to the pin and to `PDM_OUT` (R133). -/
def shiftBit (s : State) : State :=
  { s with
    sm := { s.sm with pin := s.sm.osr.msb, osr := s.sm.osr <<< 1, osrCnt := s.sm.osrCnt - 1 }
    logs := { s.logs with pdmOut := s.logs.pdmOut ++ [s.sm.osr.msb] } }

/-- `SM.SHIFT` (R133). -/
def execSmShift (s : State) : Result := take (smShiftReady s) shiftBit s

/-- `DMA.ARM` (R137). -/
def execDmaArm (b : Bool) (s : State) : Result := take (dmaArmReady b s) (armDma b) s

/-- The DMA engine after it has moved a word: the last one completes the push (R138, R139). -/
def dmaAfterWord (p : Params) (d : Dma) : Dma :=
  if d.idx + 1 = tableWords p then { d with idx := d.idx + 1, busy := false, done := true }
  else { d with idx := d.idx + 1 }

/-- `DMA.XFER` (R138). -/
def execDmaXfer (s : State) : Result :=
  if dmaXferReady s then
    match romRead s.par.val s.rom s.dma.tbl s.dma.idx with
    | some w => .next
        { s with
          fifo := s.fifo ++ [w]
          dma := dmaAfterWord s.par.val s.dma
          rom := { s.rom with read := true } }
    | none => .fault .romAddress
  else .refused .notEnabled

/-- `DMA.ABORT` (R140). -/
def execDmaAbort (s : State) : Result := take (audLive s) abortDma s

end Sys2Proof.Machine
end

