-- ==== Sys2Proof/Machine/Audio.lean ====
section
/-! DEFINITION. The audio driver: `AUD` (spec/40_pdm_generator.md R141 to R145). -/

namespace Sys2Proof.Machine

/-- `AUD.sel <- MBX.RECV() ; AUD.ph <- CONFIG` (R141, R145). -/
def takeSelection (s : State) : State :=
  let v := s.mbx.val
  let s := receiveSelection s
  { s with aud := { s.aud with sel := .set v, ph := .config } }

/-- `AUD.START` (R141). -/
def execAudStart (s : State) : Result := take (audStartReady s) takeSelection s

/-- The effect of `AUD.CONFIG` from the disable on, for a pair `DIV.CALC` returned (R142). -/
def applyPair (t : Bool) (d : Word32) (enabled : Bool) (s : State) : State :=
  { enableOutput enabled (setDivider d (enableOutput false s)) with
    aud := { s.aud with divOut := (t, d), tableSel := .set t, ph := .push } }

/-- `AUD.CONFIG` (R142): the index range is tested before the disable, the frequency after it (R263, R264). -/
def execAudConfig (s : State) : Result :=
  if audConfigReady s then
    if s.aud.sel.written then
      match calcDivider s.par.val s.aud.sel.val.index with
      | .indexRange => .next (raiseAudio faultIndexRange s)
      | .precondition => .next (raiseAudio faultDivPrecondition (enableOutput false s))
      | .invalid => .refused .invalidParams
      | .pair t d => .next (applyPair t d s.aud.sel.val.enabled s)
    else .next (raiseAudio faultUnwritten s)
  else .refused .notEnabled

/-- `DMA.ARM(TABLE_SEL) ; AUD.ph <- RACE` (R143). -/
def pushTable (s : State) : State :=
  if s.aud.tableSel.written then
    { armDma s.aud.tableSel.val s with aud := { s.aud with ph := .race } }
  else raiseAudio faultUnwritten s

/-- `AUD.PUSH` (R143). -/
def execAudPush (s : State) : Result := take (audPushReady s) pushTable s

/-- `AUD.REARM` (R144). -/
def execAudRearm (s : State) : Result :=
  take (audRearmReady s)
    (fun s => { s with dma := { s.dma with done := false }, aud := { s.aud with ph := .push } }) s

/-- `AUD.PREEMPT` (R145). -/
def execAudPreempt (s : State) : Result := take (audPreemptReady s) (fun s => takeSelection (abortDma s)) s

end Sys2Proof.Machine
end

