-- ==== Sys2Proof/Machine/Button.lean ====
section
/-! DEFINITION. The button classifier: `BTN` (spec/43_button_classifier.md). -/

namespace Sys2Proof.Machine

/-- `BTN.START` (R191). -/
def execBtnStart (s : State) : Result := takeCtl (btnStartReady s) startButton s

/-- The race of a `CTL.WAIT` is won by the button: the partial decode is abandoned (R232). -/
def buttonWins (s : State) : State :=
  if s.ctl.ph = .wait then setPhase .btnActive (abandonEncoder s) else s

/-- `BTN.EDGE` (R192, R232). -/
def execBtnEdge (s : State) : Result :=
  takeCtl (btnEdgeReady s)
    (fun s => buttonWins { s with btn := { s.btn with st := .debounce, deadline := s.now + tSettle s.par.val } }) s

/-- `BTN.CONFIRM` (R193). -/
def execBtnConfirm (s : State) : Result :=
  takeCtl (btnConfirmReady s)
    (fun s => { s with btn := { s.btn with st := .held, deadline := s.now + tLong s.par.val } }) s

/-- `CTL.event <- e ; BTN.st <- st ; CTL.ph <- p` (R194, R195), whatever operation waits (assumption log 18). -/
def classify (e : Event) (st : BtnSt) (p : CtlPhase) (s : State) : State :=
  { s with ctl := { s.ctl with event := e, ph := p }, btn := { s.btn with st := st } }

/-- `BTN.RELEASE` (R194). -/
def execBtnRelease (s : State) : Result :=
  takeCtl (btnReleaseReady s) (classify .toggle .doneToggle .handleToggle) s

/-- `BTN.TIMEOUT` (R195). -/
def execBtnTimeout (s : State) : Result :=
  takeCtl (btnTimeoutReady s) (classify .persist .donePersist .persistAck) s

/-- `BTN.TRAIL` (R197). -/
def execBtnTrail (s : State) : Result := takeCtl (btnTrailReady s) (classify .none .off .publish) s

/-- `BTN.ABANDON` (R200). -/
def execBtnAbandon (s : State) : Result := takeCtl (btnAbandonReady s) abandonButton s

end Sys2Proof.Machine
end

