-- ==== Sys2Proof/Machine/Controller.lean ====
section
/-! DEFINITION. The interaction controller: `CTL` (spec/45_interaction_controller.md). -/

namespace Sys2Proof.Machine

/-- `CTL.BOOT` (R226): `REC` low asks for the reflashing mode. -/
def execCtlBoot (s : State) : Result :=
  takeCtl (ctlAt .boot s) (fun s => setPhase (if s.lines.recov then .load else .recovery) s) s

/-- `CTL.RECOVERY` (R227). -/
def execCtlRecovery (s : State) : Result :=
  takeCtl (ctlAt .recovery s) (fun s => drawAll s.par.val.diagMsg (flush .recovery) s) s

/-- `CTL.LOAD` (R228). -/
def execCtlLoad (s : State) : Result := takeCtl (ctlAt .load s) (beginRead .load) s

/-- The effect of `CTL.PUBLISH` (R229): the send and the wait, or what follows the wait. -/
def publishEffect (s : State) : State :=
  if s.ctl.busy = some .publish then setPhase .render (clearBusy s)
  else withSelection (fun v s => await .publish (setPhase .render) (sendSelection v s)) s

/-- `CTL.PUBLISH` (R229). -/
def execCtlPublish (s : State) : Result := takeCtl (ctlPublishReady s) publishEffect s

/-- The effect of `CTL.RENDER` (R230): the reads, the draws and the flush, or what follows its own wait. A read of
`TONE` outside it raises `INDEX_RANGE` (R62, R256). -/
def renderEffect (s : State) : State :=
  if s.ctl.busy = some .render then setPhase .wait (clearBusy s)
  else
    withSelection
      (fun v s =>
        match toneRead s.par.val v.index with
        | none => raiseControl faultIndexRange s
        | some f => drawAll (drawsOf (readout s.par.val f v.enabled)) (flush .render) s) s

/-- `CTL.RENDER` (R230). -/
def execCtlRender (s : State) : Result := takeCtl (ctlRenderReady s) renderEffect s

/-- `CTL.WAIT` (R231). -/
def execCtlWait (s : State) : Result := takeCtl (ctlWaitReady s) (fun s => startButton (startEncoder s)) s

/-- The next index (R233). -/
def indexUp (p : Params) (i : Word32) : Word32 :=
  if wrapLen p ≤ i.toNat + 1 then 0 else i + 1

/-- The previous index (R234). -/
def indexDown (p : Params) (i : Word32) : Word32 :=
  if i = 0 then BitVec.ofNat 32 (wrapLen p - 1) else i - 1

/-- `SEL.index <- i ; CTL.event <- NONE ; CTL.ph <- PUBLISH` (R233, R234). -/
def stepTo (i : Word32) (s : State) : State :=
  { s with
    sel := { s.sel with index := .set i }
    ctl := { s.ctl with event := .none, ph := .publish } }

/-- `CTL.UP` (R233). -/
def execCtlUp (s : State) : Result :=
  takeCtl (ctlAt .handleUp s) (withIndex (fun i s => stepTo (indexUp s.par.val i) s)) s

/-- `CTL.DOWN` (R234). -/
def execCtlDown (s : State) : Result :=
  takeCtl (ctlAt .handleDown s) (withIndex (fun i s => stepTo (indexDown s.par.val i) s)) s

/-- `CTL.deadline <- now + T_SETTLE ; CTL.ph <- TRAIL` (R236, R237). -/
def trailFrom (s : State) : State :=
  { s with ctl := { s.ctl with deadline := s.now + tSettle s.par.val, ph := .trail } }

/-- `CTL.TOGGLE` (R236). -/
def execCtlToggle (s : State) : Result :=
  takeCtl (ctlAt .handleToggle s)
    (withEnabled (fun e s => trailFrom { s with sel := { s.sel with enabled := .set (!e) } })) s

/-- The effect of `CTL.PERSIST`: its four steps, one for each phase (R237). -/
def persistEffect (s : State) : State :=
  match s.ctl.ph with
  | .persistAck => drawGlyph (glyphMem, 4) (flush .persistAck) s
  | .persistForce => withIndex (fun i s => setPhase .persistWrite (sendSelection ⟨i, true⟩ s)) s
  | .persistWrite => withSelection (beginWrite .persist) s
  | _ => trailFrom s

/-- `CTL.PERSIST` (R237). -/
def execCtlPersist (s : State) : Result := takeCtl (ctlPersistReady s) persistEffect s

end Sys2Proof.Machine
end

