-- ==== Sys2Proof/Machine/Display.lean ====
section
/-! DEFINITION. The display collaborator's operations and the bare fault: `DISP`, `FAULT` (spec/60_exceptions.md R255,
R270, R271). -/

namespace Sys2Proof.Machine

/-- `DISP.DRAW` (R270). -/
def execDispDraw (glyph : Glyph) (slot : Slot) (s : State) : Result :=
  takeCtl (dispDrawReady glyph slot s) (drawGlyph (glyph, slot) id) s

/-- The effect of `DISP.FLUSH` (R271): it begins, or its wait is over. -/
def flushEffect (s : State) : State :=
  match s.ctl.busy with
  | some (.flush issuer) => afterFlush issuer (clearBusy s)
  | _ => flush .direct s

/-- `DISP.FLUSH` (R271). -/
def execDispFlush (s : State) : Result := takeCtl (ctlIdle s || flushDue s) flushEffect s

/-- Which side raises a code (R256): 1 to 4 the control side, 5 the audio side; 6 and 7 are raised by both, and which
one it was is free where the operation stands alone (assumption log 16). -/
def raisedByControl (code : Byte) (s : State) : Bool :=
  if code.toNat ≤ 4 then true
  else if code.toNat = 5 then false
  else Config.freeRaiser s.env.count

/-- The effect of a bare `FAULT` (R255). A code whose raiser is free uses up one free value. Where the control side
raises it, `CTL.ph` becomes `HALT` from every phase, `REFLASH` too, and `FLASH` stays as it is, also inside the wait of
an `FL.PROG`: the model's choice (assumption log 30). -/
def faultEffect (code : Byte) (s : State) : State :=
  let byControl := raisedByControl code s
  let s := if code.toNat ≤ 5 then s else { s with env := { s.env with count := s.env.count + 1 } }
  if byControl then raiseControl code s else raiseAudio code s

/-- `FAULT` (R255). It is taken in every state. R227 says that only `ENV.RESET` leaves `REFLASH`, R267 that *faulted* is
entered from any mode: that a bare word of codes 1 to 4 moves `CTL.ph` from `REFLASH` to `HALT`, with the flag `REFLASH`
kept at 1, is the model's choice (assumption log 30). -/
def execFault (code : Byte) (s : State) : Result :=
  if (Instr.fault code).wellFormed then .next (faultEffect code s) else .refused .reservedOperand

end Sys2Proof.Machine
end

