-- ==== Sys2Proof/Machine/Encoder.lean ====
section
/-! DEFINITION. The quadrature decoder: `ENC` (spec/42_quadrature_encoder.md). -/

namespace Sys2Proof.Machine

/-- `ENC.deadline <- now + T_SETTLE ; ENC.st <- st` (R172, R174, R176). -/
def settleTo (st : EncSt) (s : State) : State :=
  { s with enc := { s.enc with st := st, deadline := s.now + tSettle s.par.val } }

/-- `ENC.st <- st`. -/
def setEnc (st : EncSt) (s : State) : State := { s with enc := { s.enc with st := st } }

/-- `ENC.START` (R171). -/
def execEncStart (s : State) : Result := takeCtl (encStartReady s) startEncoder s

/-- `ENC.REST` (R172). -/
def execEncRest (s : State) : Result := takeCtl (encRestReady s) (settleTo .restSettle) s

/-- `ENC.ARM` (R173): only the levels at the end of the delay count. -/
def execEncArm (s : State) : Result :=
  takeCtl (encArmReady s) (fun s => setEnc (if linePair s = (true, true) then .armed else .restWait) s) s

/-- `ENC.FALL` (R174). -/
def execEncFall (b : Bool) (s : State) : Result :=
  takeCtl (encFallReady b s) (fun s => settleTo .wait1 { s with enc := { s.enc with dir := b } }) s

/-- `ENC.ADVANCE` (R176). -/
def execEncAdvance (code : Byte) (s : State) : Result :=
  takeCtl (encAdvanceReady code s) (settleTo (stageAfter code.toNat)) s

/-- `ENC.DROP` (R177, R180). -/
def execEncDrop (s : State) : Result := takeCtl (encDropReady s) (setEnc .restWait) s

/-- The event a direction delivers (R178). -/
def eventOf (dir : Bool) : Event := if dir then .down else .up

/-- The race of a `CTL.WAIT` is won by the encoder: the button's idle wait is abandoned (R232). Where words given from
outside their place have led to phase `WAIT` with the button in no idle wait, the phase changes all the same and the
button stays as it is: the model's choice (assumption log 32). -/
def encoderWins (b : Bool) (s : State) : State :=
  if s.ctl.ph = .wait then setPhase (if b then .handleDown else .handleUp) (abandonButton s) else s

/-- `ENC.EMIT` (R178, R232). -/
def execEncEmit (b : Bool) (s : State) : Result :=
  takeCtl (encEmitReady b s)
    (fun s => encoderWins b (setEnc .off { s with ctl := { s.ctl with event := eventOf b } })) s

/-- `ENC.ABANDON` (R179). -/
def execEncAbandon (s : State) : Result := takeCtl (ctlLive s) abandonEncoder s

end Sys2Proof.Machine
end

