-- ==== Sys2Proof/Machine/Env.lean ====
section
/-! DEFINITION. The operations of the environment: `ENV.RESET`, `ENV.LINE`, `ENV.ADV` (spec/70_reset_and_hazards.md
R290, spec/60_exceptions.md R273, R279). -/

namespace Sys2Proof.Machine

/-- What a reset leaves in `FLASH`: its contents, but for one that falls inside an `FL.PROG`, after which the eight
record bytes are free (R217, R290, U12). -/
def interruptedFlash (s : State) : State :=
  match s.ctl.busy with
  | some (.flProg _) => scramble (cfgOffset s.par.val) recordBytes s
  | _ => s

/-- Everything but `FLASH`, `ROM` and `TONE` at its reset value (R47, R290); the environment keeps its lines, its
schedule and its answers (assumption log 9). -/
def resetState (s : State) : State :=
  let t := interruptedFlash s
  State.powerOn t.par t.rom t.flash { t.lines with btnPrev := t.lines.btn } t.script t.env

/-- `ENV.RESET` (R290). -/
def execEnvReset (s : State) : Result := .next (resetState s)

/-- `level(line, t) <- level` from `now` on (R273). -/
def setLine (line : LineId) (level : Bool) (l : Lines) : Lines :=
  match line with
  | .lineA => { l with a := level }
  | .lineB => { l with b := level }
  | .lineBtn => { l with btn := level }
  | .lineRec => { l with recov := level }

/-- `ENV.LINE` (R273). -/
def execEnvLine (line : LineId) (level : Bool) (s : State) : Result :=
  take (envLineReady s) (fun s => { s with lines := setLine line level s.lines }) s

/-- `now <- now + 1`: the level of `BTN` becomes that of the tick before, and the new tick is fresh. -/
def tick (s : State) : State :=
  { s with now := s.now + 1, fresh := true, lines := { s.lines with btnPrev := s.lines.btn } }

/-- `n` single advances, none where the control side has an enabled operation on the way (R11, R279). -/
def advance : Nat → State → Option State
  | 0, s => some s
  | n + 1, s => if tickReady s then advance n (tick s) else none

/-- `ENV.ADV` (R279). -/
def execEnvAdv (ticks : BitVec 40) (s : State) : Result :=
  if ticks = 0 then .refused .reservedOperand
  else
    match advance ticks.toNat s with
    | some t => .next t
    | none => .refused .notEnabled

end Sys2Proof.Machine
end

