-- ==== Sys2Proof/Machine/Gen.lean ====
section
/-! DEFINITION. The table generator `GEN` (spec/40_pdm_generator.md R120 to R124): the delta-sigma recurrence, exact
arithmetic for the default cosine waveform, and the two operations. -/

namespace Sys2Proof.Machine

/-- The recurrence of R120, over any kind of exact number: `addWave i q` is `q + w(i, N)`, `positive q` is `q > 0`,
`shift c q` is `q + c`. `n` samples from sample `i` on, with running error `qe`. -/
def pdmBits {α : Type} (addWave : Nat → α → α) (positive : α → Bool) (shift : Int → α → α) :
    Nat → Nat → α → List Bool
  | 0, _, _ => []
  | n + 1, i, qe =>
    let q := addWave i qe
    if positive q then true :: pdmBits addWave positive shift n (i + 1) (shift (-1) q)
    else false :: pdmBits addWave positive shift n (i + 1) (shift 1 q)

/-! A waveform of exact rationals, everything scaled by the common denominator. -/

/-- The sample `w(i, N)` of a sampled waveform, scaled; the samples repeat with their own length. -/
def sampleAt (xs : List Int) (i : Nat) : Int := xs.getD (i % xs.length) 0

/-- The generator on a sampled waveform; `step` is the factor by which the sample index is multiplied (R123). -/
def sampledBits (scale : Nat) (xs : List Int) (step n : Nat) : List Bool :=
  pdmBits (fun i q => q + sampleAt xs (step * i)) (fun q => decide (0 < q)) (fun c q => q + c * scale) n 0 0

/-! The default waveform `-cos(2 pi i / N)` (R121), in exact arithmetic for `N = 2 ^ k`, `k >= 2`. Everything is doubled,
so that the numbers are integer combinations of `1` and `2 cos(2 pi k / N)`, `0 < k < N / 4`. The sign of such a number
is read from integer bounds where they are apart from zero, and otherwise found exactly, by halving `N`: with
`s = 2 cos(2 pi / N) > 0` the number is `a + s * b`, where `a` and `b` are combinations for `N / 2`. -/

/-- The exact number `unit + sum of coeffs[k-1] * 2 cos(2 pi k / N)`, `0 < k < N / 4`. -/
structure CosSum where
  unit : Int
  coeffs : List Int
  deriving DecidableEq, Repr

/-- Adds `c` to the entry at a position. -/
def bumpAt : List Int → Nat → Int → List Int
  | [], _, _ => []
  | x :: xs, 0, c => (x + c) :: xs
  | x :: xs, k + 1, c => x :: bumpAt xs k c

/-- Adds `c * 2 cos(2 pi m / n)` for `m <= n / 4`: `cos 0 = 1`, `cos(pi / 2) = 0`. -/
def addQuarter (n m : Nat) (c : Int) (q : CosSum) : CosSum :=
  if m = 0 then { q with unit := q.unit + 2 * c }
  else if 4 * m = n then q
  else { q with coeffs := bumpAt q.coeffs (m - 1) c }

/-- Adds `c * 2 cos(2 pi m / n)`, brought into the first quarter of the period. -/
def addCos (n m : Nat) (c : Int) (q : CosSum) : CosSum :=
  let r := m % n
  let h := if n < 2 * r then n - r else r
  if n < 4 * h then addQuarter n (n / 2 - h) (-c) q else addQuarter n h c q

/-- The number 0 among the combinations for `n`. -/
def cosZero (n : Nat) : CosSum := ⟨0, List.replicate (n / 4 - 1) 0⟩

/-- The sum of two numbers. -/
def cosPlus (x y : CosSum) : CosSum := ⟨x.unit + y.unit, List.zipWith (· + ·) x.coeffs y.coeffs⟩

/-- An integer multiple. -/
def cosScale (c : Int) (x : CosSum) : CosSum := ⟨c * x.unit, x.coeffs.map (c * ·)⟩

/-- Adds `c * 2 cos(k t) * sum of ys[i] * 2 cos((j + i) t)`, `t = 2 pi / n`: a product of two cosines is a sum of two. -/
def addRow (n k : Nat) (c : Int) : Nat → List Int → CosSum → CosSum
  | _, [], q => q
  | j, y :: ys, q =>
    addRow n k c (j + 1) ys
      (addCos n (k + j) (c * y) (addCos n (if k ≤ j then j - k else k - j) (c * y) q))

/-- Adds `y * sum of xs[i] * 2 cos((k + i) t)`, `t = 2 pi / n`. -/
def addRows (n : Nat) (y : CosSum) : Nat → List Int → CosSum → CosSum
  | _, [], q => q
  | k, x :: xs, q => addRows n y (k + 1) xs (addRow n k x 1 y.coeffs (addCos n k (x * y.unit) q))

/-- The product of two numbers. -/
def cosTimes (n : Nat) (x y : CosSum) : CosSum := addRows n y 1 x.coeffs (cosScale x.unit y)

/-- The coefficients of `2 cos(2 pi k / N)`, `k` even. -/
def evens : List Int → List Int
  | _ :: y :: r => y :: evens r
  | _ => []

/-- The coefficients of `2 cos(2 pi k / N)`, `k` odd. -/
def odds : List Int → List Int
  | x :: _ :: r => x :: odds r
  | [x] => [x]
  | [] => []

/-- The list whose neighbours add up to the given entries: `d[j] + d[j+1] = xs[j]`, 0 after its end. -/
def alternate : List Int → List Int
  | [] => []
  | x :: r => (x - (alternate r).headD 0) :: alternate r

/-- The part `a` of a number `a + s * b`. -/
def evenPart (q : CosSum) : CosSum := ⟨q.unit, evens q.coeffs⟩

/-- The part `b` of a number `a + s * b`: `2 cos((2 j + 1) t) + 2 cos((2 j - 1) t) = s * 2 cos(2 j t)`. -/
def oddPart (q : CosSum) : CosSum :=
  let d := alternate (odds q.coeffs)
  ⟨d.headD 0, d.tail⟩

/-- The sign of a number among the combinations for `2 ^ (j + 2)`, exactly: where the signs of `a` and `s * b` differ,
the sign of `a * a - s * s * b * b` decides, and `s * s = 2 + 2 cos(2 pi / 2 ^ (j + 1))`. -/
def cosSign : Nat → CosSum → Int
  | 0, q => q.unit.sign
  | j + 1, q =>
    let a := evenPart q
    let b := oddPart q
    let sa := cosSign j a
    let sb := cosSign j b
    if sb = 0 ∨ sa = sb then sa
    else if sa = 0 then sb
    else
      let n := 2 ^ (j + 2)
      let ss := addCos n 1 1 { cosZero n with unit := 2 }
      sa * cosSign j (cosPlus (cosTimes n a a) (cosScale (-1) (cosTimes n ss (cosTimes n b b))))

/-- The bits of a square root from bit `b - 1` down: the largest `r + x`, `x < 2 ^ b`, whose square is at most `n`. -/
def sqrtBits (n : Nat) : Nat → Nat → Nat
  | 0, r => r
  | b + 1, r => sqrtBits n b (if (r + 2 ^ b) * (r + 2 ^ b) ≤ n then r + 2 ^ b else r)

/-- Bounds of `2 cos(2 pi / 2 ^ (i + 2))` for `i = j, .. , 1`, with `bits` fraction bits: each is the square root of two
more than the one after it, the last of them of 2. -/
def halfBounds (bits : Nat) : Nat → List (Nat × Nat)
  | 0 => []
  | j + 1 =>
    let rest := halfBounds bits j
    let b := rest.headD (0, 0)
    (sqrtBits ((2 * 2 ^ bits + b.1) * 2 ^ bits) (bits + 1) 0,
      sqrtBits ((2 * 2 ^ bits + b.2) * 2 ^ bits) (bits + 1) 0 + 1) :: rest

/-- Bounds of a number, with `bits` fraction bits, from those of `s` for `N`, `N / 2` and so on. -/
def cosBounds (bits : Nat) : List (Nat × Nat) → CosSum → Int × Int
  | [], q => (q.unit * 2 ^ bits, q.unit * 2 ^ bits)
  | s :: rest, q =>
    let a := cosBounds bits rest (evenPart q)
    let b := cosBounds bits rest (oddPart q)
    (a.1 + b.1 * (if 0 ≤ b.1 then s.1 else s.2) / 2 ^ bits,
      a.2 + b.2 * (if 0 ≤ b.2 then s.2 else s.1) / 2 ^ bits + 1)

/-- `q > 0`: from the bounds where they tell, exactly where they do not. -/
def cosPositive (bits : Nat) (halves : List (Nat × Nat)) (q : CosSum) : Bool :=
  let b := cosBounds bits halves q
  if 0 < b.1 then true
  else if b.2 < 0 then false
  else cosSign halves.length q == 1

/-- The fraction bits of the bounds for a table of `2 ^ k` bits. No result depends on them: they only decide how often
the exact sign has to be found. -/
def boundBits (k : Nat) : Nat := 64 + 4 * k * k

/-- The generator on the default waveform (R120, R121) for a table of `2 ^ k` bits, sample index multiplied by `step`
(R123). -/
def cosineBits (step k : Nat) : List Bool :=
  let halves := halfBounds (boundBits k) (k - 2)
  pdmBits (fun i q => addCos (2 ^ k) (step * i) (-1) q) (cosPositive (boundBits k) halves)
    (fun c q => { q with unit := q.unit + 2 * c }) (2 ^ k) 0 (cosZero (2 ^ k))

/-- The `N` bits of a table, sample index multiplied by `step`: 1 for `T1`, 8 for `T8` (R120, R123). -/
def tableBits (p : Params) (step : Nat) : List Bool :=
  match p.waveform with
  | .negCosine => cosineBits step (5 + p.bitDepthExp)
  | .sampled scale xs => sampledBits scale xs step (bitDepth p)

/-- The `WORDS` words of a table (R122). -/
def tableOf (p : Params) (step : Nat) : List Word32 := packTable (tableBits p step) (tableWords p)

/-- `GEN.PDMGEN` (R120). -/
def execGenPdmgen (s : State) : Result :=
  take (genReady s && romOpen s s.rom.t1 (tableOf s.par.val 1))
    (fun s => { s with rom := { s.rom with t1 := tableOf s.par.val 1 } }) s

/-- `GEN.PDMGEN8` (R123): present only when `DUAL_TABLE`. -/
def execGenPdmgen8 (s : State) : Result :=
  take (genReady s && s.par.val.dualTable && romOpen s s.rom.t8 (tableOf s.par.val 8))
    (fun s => { s with rom := { s.rom with t8 := tableOf s.par.val 8 } }) s

end Sys2Proof.Machine
end

