-- ==== Sys2Proof/Machine/Mailbox.lean ====
section
/-! DEFINITION. The mailbox: `MBX` (spec/41_mailbox.md). -/

namespace Sys2Proof.Machine

/-- `MBX.SEND` (R161): always enabled while the control side can take a step. -/
def execMbxSend (en : Bool) (idx : Word32) (s : State) : Result :=
  takeCtl (ctlLive s) (sendSelection ⟨idx, en⟩) s

/-- `MBX.RECV` (R162). As a word of its own it returns its value to no register, the model's choice (assumption
log 29). -/
def execMbxRecv (s : State) : Result := take (mbxRecvReady s) receiveSelection s

end Sys2Proof.Machine
end

