-- ==== Sys2Proof/Machine/Store.lean ====
section
/-! DEFINITION. The configuration store and the flash primitives: `CFG`, `FL` (spec/44_config_store.md). A primitive
that stands in a wait goes on under its own operation word once the wait is over (assumption log 10). -/

namespace Sys2Proof.Machine

/-- `CFG.READ` (R209). -/
def execCfgRead (s : State) : Result := takeCtl (ctlIdle s) (beginRead .cfgRead) s

/-- `CFG.WRITE` (R211). -/
def execCfgWrite (en : Bool) (idx : Word32) (s : State) : Result :=
  takeCtl (cfgWriteReady idx s) (beginWrite .direct ⟨idx, en⟩) s

/-- The effect of `FL.READ` (R206): it begins, or its wait is over. -/
def flReadEffect (s : State) : State :=
  match s.ctl.busy with
  | some (.flRead issuer) => readFlash issuer (clearBusy s)
  | _ => beginRead .direct s

/-- `FL.READ` (R206). -/
def execFlRead (s : State) : Result := takeCtl (ctlIdle s || readDue s) flReadEffect s

/-- The effect of `FL.ERASE` (R207): it begins, on its own or for a `CFG.WRITE`, or its wait is over. -/
def flEraseEffect (s : State) : State :=
  match s.ctl.busy with
  | some (.eraseNext issuer) => beginErase (.write issuer) (clearBusy s)
  | some (.flErase issuer) => eraseFlash issuer (clearBusy s)
  | _ => beginErase .direct s

/-- `FL.ERASE` (R207). -/
def execFlErase (s : State) : Result := takeCtl (ctlIdle s || eraseDue s) flEraseEffect s

/-- The effect of `FL.PROG` (R208): it begins, for a `CFG.WRITE` or on its own with the `cfg_new` it finds (assumption
log 28), or its wait is over. -/
def flProgEffect (s : State) : State :=
  match s.ctl.busy with
  | some (.progNext issuer) => beginProg (.write issuer) (clearBusy s)
  | some (.flProg issuer) => progFlash issuer (clearBusy s)
  | _ => beginProg .direct s

/-- `FL.PROG` (R208). -/
def execFlProg (s : State) : Result := takeCtl (ctlIdle s || progDue s) flProgEffect s

end Sys2Proof.Machine
end

