-- ==== Sys2Proof/Machine/Dispatch.lean ====
section
/-! DEFINITION. One arm for each operation of spec/30_encoding.md R106. -/

namespace Sys2Proof.Machine

/-- What an operation does in a state. -/
def exec (i : Instr) (s : State) : Host.Outcome State Fault Refusal :=
  match i with
  | .envReset => Sys2Proof.Machine.execEnvReset s
  | .envLine line level => Sys2Proof.Machine.execEnvLine line level s
  | .envAdv ticks => Sys2Proof.Machine.execEnvAdv ticks s
  | .genPdmgen => Sys2Proof.Machine.execGenPdmgen s
  | .genPdmgen8 => Sys2Proof.Machine.execGenPdmgen8 s
  | .divCalc val => Sys2Proof.Machine.execDivCalc val s
  | .smSetdiv val => Sys2Proof.Machine.execSmSetdiv val s
  | .smEnable b => Sys2Proof.Machine.execSmEnable b s
  | .smPull => Sys2Proof.Machine.execSmPull s
  | .smShift => Sys2Proof.Machine.execSmShift s
  | .dmaArm b => Sys2Proof.Machine.execDmaArm b s
  | .dmaXfer => Sys2Proof.Machine.execDmaXfer s
  | .dmaAbort => Sys2Proof.Machine.execDmaAbort s
  | .mbxSend en idx => Sys2Proof.Machine.execMbxSend en idx s
  | .mbxRecv => Sys2Proof.Machine.execMbxRecv s
  | .audStart => Sys2Proof.Machine.execAudStart s
  | .audConfig => Sys2Proof.Machine.execAudConfig s
  | .audPush => Sys2Proof.Machine.execAudPush s
  | .audRearm => Sys2Proof.Machine.execAudRearm s
  | .audPreempt => Sys2Proof.Machine.execAudPreempt s
  | .encStart => Sys2Proof.Machine.execEncStart s
  | .encRest => Sys2Proof.Machine.execEncRest s
  | .encArm => Sys2Proof.Machine.execEncArm s
  | .encFall b => Sys2Proof.Machine.execEncFall b s
  | .encAdvance code => Sys2Proof.Machine.execEncAdvance code s
  | .encDrop => Sys2Proof.Machine.execEncDrop s
  | .encEmit b => Sys2Proof.Machine.execEncEmit b s
  | .encAbandon => Sys2Proof.Machine.execEncAbandon s
  | .btnStart => Sys2Proof.Machine.execBtnStart s
  | .btnEdge => Sys2Proof.Machine.execBtnEdge s
  | .btnConfirm => Sys2Proof.Machine.execBtnConfirm s
  | .btnRelease => Sys2Proof.Machine.execBtnRelease s
  | .btnTimeout => Sys2Proof.Machine.execBtnTimeout s
  | .btnTrail => Sys2Proof.Machine.execBtnTrail s
  | .btnAbandon => Sys2Proof.Machine.execBtnAbandon s
  | .cfgRead => Sys2Proof.Machine.execCfgRead s
  | .cfgWrite en idx => Sys2Proof.Machine.execCfgWrite en idx s
  | .flRead => Sys2Proof.Machine.execFlRead s
  | .flErase => Sys2Proof.Machine.execFlErase s
  | .flProg => Sys2Proof.Machine.execFlProg s
  | .ctlBoot => Sys2Proof.Machine.execCtlBoot s
  | .ctlRecovery => Sys2Proof.Machine.execCtlRecovery s
  | .ctlLoad => Sys2Proof.Machine.execCtlLoad s
  | .ctlPublish => Sys2Proof.Machine.execCtlPublish s
  | .ctlRender => Sys2Proof.Machine.execCtlRender s
  | .ctlWait => Sys2Proof.Machine.execCtlWait s
  | .ctlUp => Sys2Proof.Machine.execCtlUp s
  | .ctlDown => Sys2Proof.Machine.execCtlDown s
  | .ctlToggle => Sys2Proof.Machine.execCtlToggle s
  | .ctlPersist => Sys2Proof.Machine.execCtlPersist s
  | .dispDraw glyph slot => Sys2Proof.Machine.execDispDraw glyph slot s
  | .dispFlush => Sys2Proof.Machine.execDispFlush s
  | .fault code => Sys2Proof.Machine.execFault code s

end Sys2Proof.Machine
end

