-- ==== Sys2Proof/Machine/Schedule.lean ====
section
/-! DEFINITION. What happens next when no operation word is scheduled: the block takes an operation that is enabled
(spec/30_encoding.md R90, spec/00_scope.md R11, R12; assumption log 2). -/

namespace Sys2Proof.Machine

/-- Takes one of the operations enabled in a state; where there are several, a free value says which. -/
def takeMove (s : State) : Result :=
  match moves s with
  | [] => .refused .notEnabled
  | [i] => exec i s
  | i :: j :: rest =>
    exec ((i :: j :: rest).getD (Config.freeChoice s.env.count % (rest.length + 2)) i)
      { s with env := { s.env with count := s.env.count + 1 } }

/-- The operation word a number of `nbits` bits stands for, the first scheduled one of a state (assumption log 1). -/
def scheduleWord (s : State) (nbits w : Nat) : State :=
  { s with script := BitVec.ofNat 48 (w % 2 ^ nbits) :: s.script }

end Sys2Proof.Machine
end

