-- ==== Sys2Proof/Machine/Step.lean ====
section
/-! DEFINITION. One step of the machine. The block fetches no instructions (spec/20_memory.md R80): what happens next
is the first scheduled operation word, or, with none scheduled, an operation the block has enabled
(spec/30_encoding.md R90; assumption log 1, 2). -/

namespace Sys2Proof.Machine

/-- One step. -/
def step (s : State) : Host.Outcome State Fault Refusal :=
  match s.script with
  | [] => takeMove s
  | w :: rest =>
    match decode w with
    | .ok i => exec i { s with script := rest }
    | .error e => .refused (.undecodable e)

/-- The state with an operation word scheduled as the very next one (assumption log 1). -/
def State.withFetchWord (s : State) (nbits w : Nat) : State := scheduleWord s nbits w

end Sys2Proof.Machine
end

