-- ==== Sys2Proof/Safety.lean ====
section
/-! DEFINITION. The words the claims use: whole tables (spec/20_memory.md R61), the modes (spec/60_exceptions.md R267),
the two sides (R268), what holds in every state that operations lead to, and what holds while the block is driven only
by its own steps and its environment. -/

namespace Sys2Proof.Machine

/-- `ROM` holds `T1`, and `T8` where the parameters have it, `WORDS` words each (R61). -/
def romValid (p : Params) (r : Rom) : Bool :=
  r.t1.length == tableWords p && (!p.dualTable || r.t8.length == tableWords p)

/-! Modes (R267). -/

/-- The four modes of R267. -/
inductive Mode where
  | booting
  | normal
  | reflash
  | faulted
  deriving DecidableEq, Repr

/-- The mode of a state (R267). -/
def mode (s : State) : Mode :=
  if s.latch.fault then .faulted
  else if s.reflash then .reflash
  else if s.ctl.ph = .boot ∨ s.ctl.ph = .recovery ∨ s.ctl.ph = .load then .booting
  else .normal

/-! The sides (R7, R268). -/

/-- An operation of the control side, of its decoders, store, mailbox send and display. -/
def isControl : Instr → Bool
  | .mbxSend _ _ | .encStart | .encRest | .encArm | .encFall _ | .encAdvance _ | .encDrop | .encEmit _
  | .encAbandon | .btnStart | .btnEdge | .btnConfirm | .btnRelease | .btnTimeout | .btnTrail | .btnAbandon
  | .cfgRead | .cfgWrite _ _ | .flRead | .flErase | .flProg | .ctlBoot | .ctlRecovery | .ctlLoad | .ctlPublish
  | .ctlRender | .ctlWait | .ctlUp | .ctlDown | .ctlToggle | .ctlPersist | .dispDraw _ _ | .dispFlush => true
  | .envReset | .envLine _ _ | .envAdv _ | .genPdmgen | .genPdmgen8 | .divCalc _ | .smSetdiv _ | .smEnable _
  | .smPull | .smShift | .dmaArm _ | .dmaXfer | .dmaAbort | .mbxRecv | .audStart | .audConfig | .audPush
  | .audRearm | .audPreempt | .fault _ => false

/-- An operation of the audio side. -/
def isAudio : Instr → Bool
  | .divCalc _ | .smSetdiv _ | .smEnable _ | .smPull | .smShift | .dmaArm _ | .dmaXfer | .dmaAbort | .mbxRecv
  | .audStart | .audConfig | .audPush | .audRearm | .audPreempt => true
  | .envReset | .envLine _ _ | .envAdv _ | .genPdmgen | .genPdmgen8 | .mbxSend _ _ | .encStart | .encRest
  | .encArm | .encFall _ | .encAdvance _ | .encDrop | .encEmit _ | .encAbandon | .btnStart | .btnEdge
  | .btnConfirm | .btnRelease | .btnTimeout | .btnTrail | .btnAbandon | .cfgRead | .cfgWrite _ _ | .flRead
  | .flErase | .flProg | .ctlBoot | .ctlRecovery | .ctlLoad | .ctlPublish | .ctlRender | .ctlWait | .ctlUp
  | .ctlDown | .ctlToggle | .ctlPersist | .dispDraw _ _ | .dispFlush | .fault _ => false

/-- An operation of the environment, or of the table generator, which runs before any task (R106). -/
def isOutside : Instr → Bool
  | .envReset | .envLine _ _ | .envAdv _ | .genPdmgen | .genPdmgen8 => true
  | .divCalc _ | .smSetdiv _ | .smEnable _ | .smPull | .smShift | .dmaArm _ | .dmaXfer | .dmaAbort
  | .mbxSend _ _ | .mbxRecv | .audStart | .audConfig | .audPush | .audRearm | .audPreempt | .encStart | .encRest
  | .encArm | .encFall _ | .encAdvance _ | .encDrop | .encEmit _ | .encAbandon | .btnStart | .btnEdge
  | .btnConfirm | .btnRelease | .btnTimeout | .btnTrail | .btnAbandon | .cfgRead | .cfgWrite _ _ | .flRead
  | .flErase | .flProg | .ctlBoot | .ctlRecovery | .ctlLoad | .ctlPublish | .ctlRender | .ctlWait | .ctlUp
  | .ctlDown | .ctlToggle | .ctlPersist | .dispDraw _ _ | .dispFlush | .fault _ => false

/-! The opcode map. -/

/-- The 53 identifiers of R106, unit by unit. -/
def operationIds : List Byte :=
  [0x00, 0x01, 0x02, 0x10, 0x11, 0x20, 0x30, 0x31, 0x32, 0x33, 0x40, 0x41, 0x42, 0x50, 0x51,
    0x60, 0x61, 0x62, 0x63, 0x64, 0x70, 0x71, 0x72, 0x73, 0x74, 0x75, 0x76, 0x77,
    0x80, 0x81, 0x82, 0x83, 0x84, 0x85, 0x86, 0x90, 0x91, 0x92, 0x93, 0x94,
    0xA0, 0xA1, 0xA2, 0xA3, 0xA4, 0xA5, 0xA6, 0xA7, 0xA8, 0xA9, 0xB0, 0xB1, 0xF0]

/-! Time. -/

/-- The state after `k` ticks in which nothing but time happens (R279). -/
def afterTicks (k : Nat) (s : State) : State :=
  if k = 0 then s
  else { s with now := s.now + k, fresh := true, lines := { s.lines with btnPrev := s.lines.btn } }

/-! Running several operations. -/

/-- The operations of a list one after the other, stopping where one has no next state. -/
def runOps : List Instr → State → Result
  | [], s => .next s
  | i :: is, s =>
    match exec i s with
    | .next t => runOps is t
    | .fault r => .fault r
    | .refused r => .refused r

/-- The next `n` answers to `draw fail` report no failure. -/
def noFailures : Nat → State → Bool
  | 0, _ => true
  | n + 1, s => !nextFail s && noFailures n (popFail s)

/-- The state after the answers to `n` draws of `fail` are used up. -/
def popFails : Nat → State → State
  | 0, s => s
  | n + 1, s => popFails n (popFail s)

/-! What one side can see (R268): the state with everything else blanked out. -/

/-- An outcome seen through a view of the state. -/
def seenThrough (view : State → State) (r : Result) : Result :=
  match r with
  | .next s => .next (view s)
  | .fault f => .fault f
  | .refused f => .refused f

/-- What the control side has, and its environment (R268): neither the audio side, nor the mailbox, which it only
writes, nor the fault latch, which no operation reads. -/
def controlView (s : State) : State :=
  { s with
    aud := default
    sm := default
    fifo := []
    dma := default
    rom := default
    mbx := default
    latch := default
    logs := { s.logs with pdmOut := [], mbxLog := [] } }

/-- What the audio side has, and the mailbox (R268). -/
def audioView (s : State) : State :=
  { (default : State) with
    par := s.par
    aud := s.aud
    sm := s.sm
    fifo := s.fifo
    dma := s.dma
    rom := s.rom
    mbx := s.mbx
    logs := { (default : Logs) with pdmOut := s.logs.pdmOut } }

/-! What every operation keeps, whoever drives the block. -/

/-- The mailbox values sent, oldest first (R163). -/
def sentOf (l : List MbxEvent) : List Selection :=
  l.filterMap (fun e => match e with | .send v => some v | .recv _ => none)

/-- The mailbox values received, oldest first (R163). -/
def receivedOf (l : List MbxEvent) : List Selection :=
  l.filterMap (fun e => match e with | .send _ => none | .recv v => some v)

/-- The value that stands in the mailbox, as a list (R160). -/
def pendingOf (m : Mbx) : List Selection := if m.full then [m.val] else []

/-- A pair that `DISP.DRAW` is enabled for (R270). -/
def drawLegal (d : Glyph × Slot) : Bool := glyphLegal d.1 && slotLegal d.2

/-- A display event of a legal draw, or a flush (R270). -/
def eventLegal (e : DispEvent) : Bool :=
  match e with
  | .draw g sl => drawLegal (g, sl)
  | .flush _ => true

/-- Every operation keeps this, also one issued from outside its usual place. -/
structure StateInv (s : State) : Prop where
  /-- The tables are whole (R61). -/
  rom : romValid s.par.val s.rom = true
  /-- `FLASH` is in its canonical form. -/
  flash : Memory.wf s.flash = true
  /-- `osr_cnt` is 0 to 32 (R24). -/
  osrCnt : s.sm.osrCnt ≤ 32
  /-- The FIFO holds at most `FIFO_DEPTH` words (R40). -/
  fifo : s.fifo.length ≤ s.par.val.fifoDepth
  /-- `DMA_IDX` is 0 to `WORDS` (R30). -/
  dmaIdx : s.dma.idx ≤ tableWords s.par.val
  /-- A push in progress has a word left, in a table that exists (R33, R61). -/
  dmaBusy : s.dma.busy = true →
    s.dma.idx < tableWords s.par.val ∧ s.dma.done = false ∧ (s.dma.tbl = true → s.par.val.dualTable = true)
  /-- A completed push has moved every word (R30, R139). -/
  dmaDone : s.dma.done = true → s.dma.idx = tableWords s.par.val
  /-- `CLKDIV` once written is at least 256 (R36, R111). -/
  clkdiv : s.sm.clkdiv.written = true → 256 ≤ s.sm.clkdiv.val.toNat
  /-- `TABLE_SEL` is 0 where there is one table (R37). -/
  tableSel : s.aud.tableSel.written = true → s.aud.tableSel.val = true → s.par.val.dualTable = true
  /-- `SEL.index < TONE_COUNT` once written (R21, R239). -/
  index : s.sel.index.written = true → s.sel.index.val.toNat < toneCount s.par.val
  /-- The raw record is 8 bytes (R45). -/
  buffer : s.cfg.buf.length = recordBytes
  /-- `HALT` is entered only with the fault recorded, and everything on the control side is off (R255). -/
  halt : s.ctl.ph = .halt →
    s.latch.fault = true ∧ s.enc.st = .off ∧ s.btn.st = .off ∧ s.ctl.busy = none
  /-- The audio side stops only with the fault recorded (R255). -/
  audHalt : s.aud.halted = true → s.latch.fault = true
  /-- The terminal phase has its flag (R35, R227). -/
  reflashed : s.ctl.ph = .reflash → s.reflash = true ∧ s.ctl.busy = none
  /-- Every glyph and slot drawn, pending or already shown, is legal (R99, R100, U17). -/
  drawn : s.disp.pending.all drawLegal = true ∧ s.logs.dispOut.all eventLegal = true
  /-- A recorded fault has a code R256 does not reserve. -/
  code : s.latch.fault = true → 1 ≤ s.latch.code.toNat ∧ s.latch.code.toNat ≤ 7

/-- The mailbox delivers in order and invents nothing (R75, R163). -/
def MailboxOrdered (s : State) : Prop :=
  (receivedOf s.logs.mbxLog ++ pendingOf s.mbx).Sublist (sentOf s.logs.mbxLog)

/-! What holds while the block is driven by its own steps and its environment alone. -/

/-- The phases after `CTL.LOAD` (R26, R48). -/
def looping (p : CtlPhase) : Bool :=
  match p with
  | .boot | .recovery | .reflash | .load | .halt => false
  | .publish | .render | .wait | .handleUp | .handleDown | .btnActive | .handleToggle | .persistAck
  | .persistForce | .persistWrite | .persistHold | .trail => true

/-- The phase an operation in progress belongs to, none for an operation that `CTL` did not issue (R225). -/
def busyPhase : Busy → Option CtlPhase
  | .flRead .load => some .load
  | .flRead (.write .persist) | .eraseNext .persist | .flErase (.write .persist) | .progNext .persist
  | .flProg (.write .persist) => some .persistWrite
  | .flush .recovery => some .recovery
  | .flush .render => some .render
  | .flush .persistAck => some .persistAck
  | .publish => some .publish
  | .render => some .render
  | .flRead .direct | .flRead .cfgRead | .flRead (.write .direct) | .eraseNext .direct | .flErase .direct
  | .flErase (.write .direct) | .progNext .direct | .flProg .direct | .flProg (.write .direct) | .flush .direct =>
    none

/-- The phases in which the classifier is in a state (R29, R241). -/
def buttonPhase (b : BtnSt) (p : CtlPhase) : Bool :=
  match b with
  | .off =>
    !(p == .btnActive || p == .handleToggle || p == .persistAck || p == .persistForce || p == .persistWrite
      || p == .persistHold || p == .trail)
  | .idle => p == .wait
  | .debounce | .held => p == .btnActive
  | .doneToggle => p == .handleToggle || p == .trail
  | .donePersist =>
    p == .persistAck || p == .persistForce || p == .persistWrite || p == .persistHold || p == .trail

/-- The record's eight bytes are blank (R65, R213). -/
def recordBlank (s : State) : Bool :=
  memRead s.flash (cfgOffset s.par.val) recordBytes == List.replicate recordBytes blankByte

/-- What holds from reset on while every operation is one of the block's own moves or of the environment's. -/
structure Coherent (s : State) : Prop where
  inv : StateInv s
  /-- `SEL` is written in every phase of the loop (R48). -/
  selWritten : looping s.ctl.ph = true → s.sel.index.written = true ∧ s.sel.enabled.written = true
  /-- The decoder runs only inside `WAIT` (R170). -/
  encoder : s.enc.st ≠ .off → s.ctl.ph = .wait
  /-- The classifier runs where R29 and R241 say. -/
  button : s.ctl.ph = .halt ∨ buttonPhase s.btn.st s.ctl.ph = true
  /-- In `WAIT` both decoders run, or neither (R231). -/
  race : s.ctl.ph = .wait → (s.enc.st = .off ↔ s.btn.st = .off)
  /-- An operation in progress is one `CTL` issued, in its phase (R225). -/
  busy : ∀ b, s.ctl.busy = some b → busyPhase b = some s.ctl.ph
  /-- Before every program the record's bytes are blank (R213). -/
  erased : s.ctl.busy = some (.progNext .persist) ∨ s.ctl.busy = some (.flProg (.write .persist)) →
    recordBlank s = true
  /-- Every Selection on its way to the audio side is in range (R110, R239). -/
  mailbox : s.mbx.full = true → s.mbx.val.index.toNat < toneCount s.par.val
  audSel : s.aud.sel.written = true → s.aud.sel.val.index.toNat < toneCount s.par.val
  /-- The audio driver's registers are written before they are read (R48). -/
  audConfig : s.aud.ph = .config → s.aud.sel.written = true
  audLoop : s.aud.ph = .push ∨ s.aud.ph = .race → s.aud.tableSel.written = true ∧ s.sm.clkdiv.written = true
  /-- No push is in progress when the next one is armed, and one is in `RACE` (R143 to R145). -/
  audPush : s.aud.ph = .config ∨ s.aud.ph = .push → s.dma.busy = false
  audRace : s.aud.ph = .race → s.dma.busy = true ∨ s.dma.done = true
  /-- Nothing is output before the first configuration (R150). -/
  silent : s.aud.ph = .waitFirst →
    s.sm.en = false ∧ s.logs.pdmOut = [] ∧ s.sm.pin = false ∧ s.fifo = [] ∧ s.dma.busy = false
  /-- The output runs only with a divider (R305). -/
  output : s.sm.en = true → s.sm.clkdiv.written = true
  /-- Of the fault codes only 1 to 4 arise, on the control side (R256). -/
  faults : s.aud.halted = false ∧ (s.latch.fault = true → s.ctl.ph = .halt ∧ s.latch.code.toNat ≤ 4)
  /-- The flag of the terminal phase is set only there (R35). -/
  reflashOnly : s.reflash = true → s.ctl.ph = .reflash
  /-- No wait's deadline passes unseen (R11, R269). -/
  encTimer : s.enc.st = .restSettle ∨ s.enc.st = .finalSettle → s.now ≤ s.enc.deadline
  btnTimer : s.btn.st = .debounce ∨ s.btn.st = .held → s.now ≤ s.btn.deadline
  ctlTimer : s.ctl.busy ≠ none ∨ s.ctl.ph = .persistHold ∨ s.ctl.ph = .trail → s.now ≤ s.ctl.deadline

end Sys2Proof.Machine
end

