-- ==== Sys2Proof/Certificates/Slice0/Obligations.lean ====
section
/-! DEFINITION. The statements about the block, in the order of OBLIGATIONS.json. Each docstring names the rules of spec/ it
comes from. -/

open Sys2Proof Sys2Proof.Machine

/-- Sixteen operation words, written out from the opcode map, decode to their operations (R91, R92, R106). -/
def Obligations.WordsDecodeToTheirOperations : Prop :=
  decode 0x000000000000 = .ok .envReset ∧ decode 0x010000000200 = .ok (.envLine .lineBtn false) ∧
  decode 0x020000000005 = .ok (.envAdv 5) ∧ decode 0x110000000000 = .ok .genPdmgen8 ∧
  decode 0x200000000032 = .ok (.divCalc 50) ∧ decode 0x300000038EF8 = .ok (.smSetdiv 0x38EF8) ∧
  decode 0x400000000001 = .ok (.dmaArm true) ∧ decode 0x500100000005 = .ok (.mbxSend true 5) ∧
  decode 0x640000000000 = .ok .audPreempt ∧ decode 0x730000000001 = .ok (.encFall true) ∧
  decode 0x740000000002 = .ok (.encAdvance 2) ∧ decode 0x840000000000 = .ok .btnTimeout ∧
  decode 0x910000000005 = .ok (.cfgWrite false 5) ∧ decode 0xA90000000000 = .ok .ctlPersist ∧
  decode 0xB00000000E04 = .ok (.dispDraw 14 4) ∧ decode 0xF00000000002 = .ok (.fault 2)

/-- Every operation, with every operand, decodes from its own word (R91, R92, R106). -/
def Obligations.DecodeOfEncode : Prop :=
  ∀ i : Instr, decode (encode i) = .ok i

/-- A word that decodes is the one word of its operation (R91, R92, R106, R107). -/
def Obligations.EncodeOfDecode : Prop :=
  ∀ (w : OpWord) (i : Instr), decode w = .ok i → encode i = w

/-- A word with an unknown identifier or a bit outside its fields names no operation and is refused (R107, R106).
Where the rules leave it open, this is the model's choice: assumption log 1. -/
def Obligations.IllegalWordsAreRefusedByName : Prop :=
  ∀ w : OpWord, (∀ i, encode i ≠ w) → ∃ e, decode w = .error e ∧
    (e = .unknownOp (opOf w) ∧ opOf w ∉ operationIds ∨ e = .reservedBits (opOf w) ∧ opOf w ∈ operationIds) ∧
    ∀ (s : State) (rest : List OpWord), s.script = w :: rest → step s = .refused (.undecodable e)

/-- A step runs the operation of the word that is scheduled next (R90, R80). Where the rules leave it open, this is
the model's choice: assumption log 1. -/
def Obligations.StepRunsTheScheduledWord : Prop :=
  ∀ (s : State) (w : OpWord) (rest : List OpWord) (i : Instr),
    s.script = w :: rest → decode w = .ok i → step s = exec i { s with script := rest }

/-- A step after any operation's word is scheduled is that operation (R90, R91). Where the rules leave it open, this
is the model's choice: assumption log 1. -/
def Obligations.EveryOperationCanBeScheduled : Prop :=
  ∀ (i : Instr) (s : State), step (s.withFetchWord 48 (encode i).toNat) = exec i s

/-- With nothing scheduled the step is one of the operations enabled in the state (R11, R12, R279, R255). Where the
rules leave it open, this is the model's choice: assumption log 1, 2, 15. -/
def Obligations.UnscheduledStepTakesAnEnabledMove : Prop :=
  ∀ s : State, s.script = [] → ∃ i ∈ moves s, ∃ n,
    step s = exec i { s with env := { s.env with count := n } }

/-- From every sound state, with nothing scheduled, the block runs for ever (R13, R11, R12). Where the rules leave
it open, this is the model's choice: assumption log 2, 10, 15. -/
def Obligations.BlockIsNeverStuck : Prop :=
  ∀ (n : Nat) (s : State), StateInv s → s.script = [] → ∃ t, Host.Core.run Sys2Proof.core n s = .next t ∧ StateInv t

/-- Every step, whoever drives the block, keeps the invariant of the state (R21, R24, R30, R33, R36, R37, R40, R239,
R255, R256). Where the rules leave it open, this is the model's choice: assumption log 1, 4, 15, 18, 27. -/
def Obligations.EveryStepKeepsStateInv : Prop :=
  ∀ s t : State, StateInv s → step s = .next t → StateInv t

/-- Driven only by its environment, the block keeps every cross-agent invariant (R48, R199, R241, R213, R150, R305,
R256, R11). Where the rules leave it open, this is the model's choice: assumption log 1, 10, 11, 25. -/
def Obligations.BlockStepsKeepCoherent : Prop :=
  ∀ s t : State, Coherent s → (∀ w ∈ s.script, ∃ i, decode w = .ok i ∧ isOutside i = true) →
    step s = .next t → Coherent t

/-- The state after reset satisfies both invariants (R47, R290, R294). Where the rules leave it open, this is the
model's choice: assumption log 4. -/
def Obligations.ResetStatesAreCoherent : Prop :=
  (∀ (p : ValidParams) (r : Rom) (m : Memory) (l : Lines) (w : List OpWord) (e : Draws),
    romValid p.val r = true → Memory.wf m = true →
    StateInv (State.powerOn p r m l w e) ∧ Coherent (State.powerOn p r m l w e)) ∧
  StateInv State.reset ∧ Coherent State.reset

/-- What reset leaves in every register for which the reset table gives a value (R47, R292). -/
def Obligations.ResetRegisters : Prop :=
  State.reset.ctl.ph = .boot ∧ State.reset.aud.ph = .waitFirst ∧ State.reset.enc.st = .off ∧
  State.reset.btn.st = .off ∧ State.reset.ctl.event = .none ∧ State.reset.mbx.full = false ∧
  State.reset.sm.en = false ∧ State.reset.dma.busy = false ∧ State.reset.dma.done = false ∧
  State.reset.dma.idx = 0 ∧ State.reset.sm.osrCnt = 0 ∧ State.reset.fifo = [] ∧ State.reset.sm.pin = false ∧
  State.reset.latch.fault = false ∧ State.reset.reflash = false ∧ State.reset.disp.pending = [] ∧
  State.reset.disp.frame = ⟨none, none, none, none, none⟩ ∧ State.reset.logs = ⟨[], [], [], []⟩ ∧
  State.reset.now = 0 ∧ State.reset.sel.index.written = false ∧ State.reset.sel.enabled.written = false ∧
  State.reset.aud.sel.written = false ∧ State.reset.sm.clkdiv.written = false ∧
  State.reset.aud.tableSel.written = false ∧ mode State.reset = .booting

/-- ENV.RESET is always taken, resets every register and keeps ROM, TONE and FLASH (R290, R47, R217). Where the
rules leave it open, this is the model's choice: assumption log 9, 12. -/
def Obligations.EnvResetPutsTheBlockAtReset : Prop :=
  ∀ s : State, ∃ t, exec .envReset s = .next t ∧
    t.ctl.ph = .boot ∧ t.ctl.event = .none ∧ t.ctl.busy = none ∧ t.aud.ph = .waitFirst ∧ t.aud.halted = false ∧
    t.enc.st = .off ∧ t.btn.st = .off ∧ t.mbx.full = false ∧ t.sm.en = false ∧ t.sm.osrCnt = 0 ∧
    t.sm.pin = false ∧ t.dma.busy = false ∧ t.dma.done = false ∧ t.dma.idx = 0 ∧ t.fifo = [] ∧
    t.latch.fault = false ∧ t.reflash = false ∧ t.disp = ⟨[], ⟨none, none, none, none, none⟩⟩ ∧
    t.logs = ⟨[], [], [], []⟩ ∧ t.now = 0 ∧ t.sel.index.written = false ∧ t.sel.enabled.written = false ∧
    t.aud.sel.written = false ∧ t.aud.tableSel.written = false ∧ t.sm.clkdiv.written = false ∧
    t.par = s.par ∧ t.rom = s.rom ∧
    (∀ a, a < cfgOffset s.par.val ∨ cfgOffset s.par.val + 8 ≤ a → memByte t.flash a = memByte s.flash a) ∧
    ((∀ issuer, s.ctl.busy ≠ some (.flProg issuer)) → t.flash = s.flash)

/-- ENV.LINE gives its line the level, before any control-side step of the tick (R273, R10). Where the rules leave
it open, this is the model's choice: assumption log 13, 14. -/
def Obligations.EnvLineSetsOneLevel : Prop :=
  ∀ (s : State) (v : Bool),
    (s.fresh = true →
      exec (.envLine .lineA v) s = .next { s with lines := { s.lines with a := v } } ∧
      exec (.envLine .lineB v) s = .next { s with lines := { s.lines with b := v } } ∧
      exec (.envLine .lineBtn v) s = .next { s with lines := { s.lines with btn := v } } ∧
      exec (.envLine .lineRec v) s = .next { s with lines := { s.lines with recov := v } }) ∧
    (s.fresh = false → ∀ l, exec (.envLine l v) s = .refused .notEnabled)

/-- ENV.ADV k lets k ticks pass exactly when no control-side operation is enabled at any tick it leaves (R279, R11).
Where the rules leave it open, this is the model's choice: assumption log 13, 14, 15, 17. -/
def Obligations.TimePassesWhileTheControlSideWaits : Prop :=
  ∀ (s : State) (n : BitVec 40),
    (n ≠ 0 → (∀ k < n.toNat, ctlMoves (afterTicks k s) = []) ∨ s.aud.halted = true →
      exec (.envAdv n) s = .next
        { s with now := s.now + n.toNat, fresh := true, lines := { s.lines with btnPrev := s.lines.btn } }) ∧
    (n ≠ 0 → (∃ k < n.toNat, ctlMoves (afterTicks k s) ≠ []) → s.aud.halted = false →
      exec (.envAdv n) s = .refused .notEnabled) ∧
    exec (.envAdv 0) s = .refused .reservedOperand

/-- GEN.PDMGEN and GEN.PDMGEN8 fill a table with the generated bits, earliest bit in bit 31 of word 0, before any
task starts (R120, R122, R123, R67, R77). Where the rules leave it open, this is the model's choice: assumption log
13, 19, 26, 27. -/
def Obligations.GeneratorStoresTheBitsInOrder : Prop :=
  ∀ s : State,
    (s.ctl.ph ≠ .boot ∨ s.aud.ph ≠ .waitFirst ∨ s.dma.busy = true →
      exec .genPdmgen s = .refused .notEnabled ∧ exec .genPdmgen8 s = .refused .notEnabled) ∧
    (s.ctl.ph = .boot → s.ctl.busy = none → s.enc.st = .off → s.btn.st = .off → s.mbx.full = false →
      s.aud.ph = .waitFirst → s.sm.en = false → s.sm.osrCnt = 0 → s.dma.busy = false →
      s.dma.done = false →
      ∃ w1 w8 : List Word32, w1.length = tableWords s.par.val ∧ w8.length = tableWords s.par.val ∧
        (∀ i < bitDepth s.par.val,
          (w1.getD (i / 32) 0).getLsbD (31 - i % 32) = (tableBits s.par.val 1).getD i false ∧
          (w8.getD (i / 32) 0).getLsbD (31 - i % 32) = (tableBits s.par.val 8).getD i false) ∧
        (s.rom.read = false ∨ s.rom.t1 = w1 → exec .genPdmgen s = .next { s with rom := { s.rom with t1 := w1 } }) ∧
        (s.rom.read = true → s.rom.t1 ≠ w1 → exec .genPdmgen s = .refused .notEnabled) ∧
        (s.par.val.dualTable = true → s.rom.read = false ∨ s.rom.t8 = w8 →
          exec .genPdmgen8 s = .next { s with rom := { s.rom with t8 := w8 } }) ∧
        (s.par.val.dualTable = false ∨ s.rom.read = true ∧ s.rom.t8 ≠ w8 →
          exec .genPdmgen8 s = .refused .notEnabled))

/-- For the default and every sampled waveform the bits follow the recurrence over exact reals, and any window has
(w + 1)/2 ones to within 1 (R120, R121, R123, R125). Where the rules leave it open, this is the model's choice:
assumption log 26. -/
def Obligations.GeneratorDensityBound : Prop :=
  (∀ (p : Params) (stride : Nat) (w : Nat → ℝ), waveformValid p.waveform = true →
    (∀ i, w i =
      match p.waveform with
      | .negCosine => -Real.cos (2 * Real.pi * (stride * i : Nat) / (bitDepth p : Nat))
      | .sampled scale xs => ((xs.getD (stride * i % xs.length) 0 : Int) : ℝ) / (scale : ℝ)) →
    (tableBits p stride).length = bitDepth p ∧
    (∃ qe : Nat → ℝ, qe 0 = 0 ∧ ∀ i < bitDepth p,
      ((tableBits p stride).getD i false = true ↔ 0 < qe i + w i) ∧
      qe (i + 1) = qe i + w i - (if (tableBits p stride).getD i false then 1 else -1)) ∧
    ∀ a b, a ≤ b → b ≤ bitDepth p →
      |((((tableBits p stride).drop a).take (b - a)).count true : ℝ) - ∑ i ∈ Finset.Ico a b, (w i + 1) / 2| ≤ 1) ∧
  ∀ (scale : Nat) (xs : List Int) (stride n a b : Nat), waveformValid (.sampled scale xs) = true → a ≤ b → b ≤ n →
    (2 * (scale : Int) * (((sampledBits scale xs stride n).drop a).take (b - a)).count true
      - ((List.range (b - a)).map (fun k => sampleAt xs (stride * (a + k)) + (scale : Int))).sum).natAbs ≤ 2 * scale

/-- DIV.CALC returns the table and the legal divider of every index in range, and raises INDEX_RANGE for any other
(R126, R128, R127, R9). Where the rules leave it open, this is the model's choice: assumption log 5, 15, 20. -/
def Obligations.DivCalcReturnsTheTruncatedPair : Prop :=
  (∀ (s : State) (v : Word32), s.aud.halted = false →
    (∀ f b d, s.par.val.toneTable[v.toNat]? = some f → b = (s.par.val.dualTable && decide (s.par.val.threshold < f)) →
      d = 2560 * (if b then 8 else 1) * s.par.val.bitClock / (2 ^ (5 + s.par.val.bitDepthExp) * f) →
      256 ≤ d ∧ d < 2 ^ 32 ∧
        exec (.divCalc v) s = .next { s with aud := { s.aud with divOut := (b, BitVec.ofNat 32 d) } }) ∧
    (s.par.val.toneTable.length ≤ v.toNat → exec (.divCalc v) s = .next (raiseAudio 6 s))) ∧
  ∀ (p : Params) (v : Word32),
    (p.toneTable[v.toNat]? = some 0 → calcDivider p v = .precondition ∧ paramsValid p = false) ∧
    (∀ f d, p.toneTable[v.toNat]? = some f → 0 < f →
      d = 2560 * (if p.dualTable && decide (p.threshold < f) then 8 else 1) * p.bitClock /
        (2 ^ (5 + p.bitDepthExp) * f) →
      d < 256 ∨ 2 ^ 32 ≤ d → calcDivider p v = .invalid ∧ paramsValid p = false)

/-- Within one table a higher tone never has a larger divider, and has a smaller one where they differ by a unit
(R129, R126). -/
def Obligations.DividerFallsAsTheToneRises : Prop :=
  ∀ (p : Params) (f g : Nat), 0 < f → f < g → usesT8 p f = usesT8 p g →
    dividerOf p g ≤ dividerOf p f ∧
    (bitDepth p * f * g ≤ 2560 * (if usesT8 p f then 8 else 1) * p.bitClock * (g - f) →
      dividerOf p g < dividerOf p f)

/-- SM.SETDIV writes the divider only while the output is disabled; SM.ENABLE writes the enable and nothing else
(R130, R131, R305). Where the rules leave it open, this is the model's choice: assumption log 13. -/
def Obligations.SetDividerAndEnable : Prop :=
  ∀ (s : State) (v : Word32) (b : Bool), s.aud.halted = false →
    (s.sm.en = false → 256 ≤ v.toNat →
      exec (.smSetdiv v) s = .next { s with sm := { s.sm with clkdiv := ⟨v, true⟩ } }) ∧
    (s.sm.en = true ∨ v.toNat < 256 → exec (.smSetdiv v) s = .refused .notEnabled) ∧
    exec (.smEnable b) s = .next { s with sm := { s.sm with en := b } }

/-- SM.PULL fills an empty OSR from the head of the FIFO; SM.SHIFT puts bit 31 on the pin (R132, R133, R134, R32).
Where the rules leave it open, this is the model's choice: assumption log 13. -/
def Obligations.PullAndShift : Prop :=
  ∀ s : State, s.aud.halted = false →
    (∀ w rest, s.sm.en = true → s.sm.osrCnt = 0 → s.fifo = w :: rest →
      exec .smPull s = .next { s with sm := { s.sm with osr := w, osrCnt := 32 }, fifo := rest }) ∧
    (∀ n, s.sm.en = true → s.sm.osrCnt = n + 1 →
      exec .smShift s = .next
        { s with
          sm := { s.sm with pin := s.sm.osr.getLsbD 31, osr := s.sm.osr <<< 1, osrCnt := n }
          logs := { s.logs with pdmOut := s.logs.pdmOut ++ [s.sm.osr.getLsbD 31] } }) ∧
    (s.sm.en = false ∨ s.sm.osrCnt = 0 ∧ s.fifo = [] →
      exec .smPull s = .refused .notEnabled ∧ exec .smShift s = .refused .notEnabled)

/-- Thirty-two shifts put a word on the pin in generation order (R133, R67). -/
def Obligations.WordLeavesMostSignificantBitFirst : Prop :=
  ∀ s : State, s.aud.halted = false → s.sm.en = true → s.sm.osrCnt = 32 →
    runOps (List.replicate 32 .smShift) s = .next
      { s with
        sm := { s.sm with osr := 0, osrCnt := 0, pin := s.sm.osr.getLsbD 0 }
        logs := { s.logs with
          pdmOut := s.logs.pdmOut ++ (List.range 32).map (fun k => s.sm.osr.getLsbD (31 - k)) } }

/-- DMA.ARM starts a push, DMA.XFER moves one word and completes on the last, DMA.ABORT clears the flags (R137,
R138, R139, R140). Where the rules leave it open, this is the model's choice: assumption log 13, 27. -/
def Obligations.DmaArmTransferAbort : Prop :=
  ∀ s : State, s.aud.halted = false →
    (∀ b, s.dma.busy = false → (b = true → s.par.val.dualTable = true) →
      exec (.dmaArm b) s = .next { s with dma := ⟨0, b, true, false⟩ }) ∧
    (∀ b, s.dma.busy = true ∨ b = true ∧ s.par.val.dualTable = false → exec (.dmaArm b) s = .refused .notEnabled) ∧
    (∀ w, s.dma.busy = true → s.fifo.length < s.par.val.fifoDepth → s.dma.idx < tableWords s.par.val →
      (s.dma.tbl = true → s.par.val.dualTable = true) →
      (if s.dma.tbl then s.rom.t8 else s.rom.t1)[s.dma.idx]? = some w →
      exec .dmaXfer s = .next
        { s with
          fifo := s.fifo ++ [w]
          dma :=
            if s.dma.idx + 1 = tableWords s.par.val then ⟨s.dma.idx + 1, s.dma.tbl, false, true⟩
            else ⟨s.dma.idx + 1, s.dma.tbl, s.dma.busy, s.dma.done⟩
          rom := { s.rom with read := true } }) ∧
    (s.dma.busy = false ∨ s.par.val.fifoDepth ≤ s.fifo.length → exec .dmaXfer s = .refused .notEnabled) ∧
    exec .dmaAbort s = .next { s with dma := { s.dma with busy := false, done := false } }

/-- A push moves every word of its table into the FIFO, in order, once (R137, R138, R139, R147). Where the rules
leave it open, this is the model's choice: assumption log 27. -/
def Obligations.PushMovesTheWholeTableInOrder : Prop :=
  ∀ (s : State) (b : Bool), s.aud.halted = false → s.dma.busy = false → romValid s.par.val s.rom = true →
    (b = true → s.par.val.dualTable = true) → s.fifo.length + tableWords s.par.val ≤ s.par.val.fifoDepth →
    runOps (.dmaArm b :: List.replicate (tableWords s.par.val) .dmaXfer) s = .next
      { s with
        fifo := s.fifo ++ (if b then s.rom.t8 else s.rom.t1)
        dma := ⟨tableWords s.par.val, b, false, true⟩
        rom := { s.rom with read := true } }

/-- MBX.SEND overwrites the slot at once; MBX.RECV takes the value and empties the slot (R161, R162, R160). Where
the rules leave it open, this is the model's choice: assumption log 13, 14, 18, 29. -/
def Obligations.MailboxSendAndReceive : Prop :=
  ∀ (s : State) (e : Bool) (i : Word32),
    (s.ctl.ph ≠ .halt → s.ctl.ph ≠ .reflash →
      exec (.mbxSend e i) s = .next
        { s with
          mbx := ⟨true, ⟨i, e⟩⟩
          logs := { s.logs with mbxLog := s.logs.mbxLog ++ [.send ⟨i, e⟩] }
          fresh := false }) ∧
    (s.aud.halted = false → s.mbx.full = true →
      exec .mbxRecv s = .next
        { s with
          mbx := ⟨false, s.mbx.val⟩
          logs := { s.logs with mbxLog := s.logs.mbxLog ++ [.recv s.mbx.val] } }) ∧
    (s.mbx.full = false → exec .mbxRecv s = .refused .notEnabled)

/-- Every step keeps: what was received, and then what is pending, is a subsequence of what was sent (R163, R75,
R164). -/
def Obligations.MailboxDeliversInOrder : Prop :=
  (∀ s t : State, MailboxOrdered s → step s = .next t → MailboxOrdered t) ∧ MailboxOrdered State.reset

/-- AUD.START and AUD.PREEMPT receive the pending Selection and go to CONFIG (R141, R145, R140). Where the rules
leave it open, this is the model's choice: assumption log 13. -/
def Obligations.AudioTakesASelection : Prop :=
  ∀ s : State, s.aud.halted = false →
    (s.aud.ph = .waitFirst → s.mbx.full = true →
      exec .audStart s = .next
        { s with
          mbx := ⟨false, s.mbx.val⟩
          aud := { s.aud with sel := ⟨s.mbx.val, true⟩, ph := .config }
          logs := { s.logs with mbxLog := s.logs.mbxLog ++ [.recv s.mbx.val] } }) ∧
    (s.aud.ph = .race → s.mbx.full = true →
      exec .audPreempt s = .next
        { s with
          mbx := ⟨false, s.mbx.val⟩
          aud := { s.aud with sel := ⟨s.mbx.val, true⟩, ph := .config }
          dma := { s.dma with busy := false, done := false }
          logs := { s.logs with mbxLog := s.logs.mbxLog ++ [.recv s.mbx.val] } }) ∧
    (s.mbx.full = false → exec .audStart s = .refused .notEnabled ∧ exec .audPreempt s = .refused .notEnabled)

/-- AUD.CONFIG writes the divider, the table and the enable in one step (R142, R128, R72). Where the rules leave it
open, this is the model's choice: assumption log 20. -/
def Obligations.AudioConfigWritesTheWholePair : Prop :=
  ∀ (s : State) (i : Word32) (e : Bool) (f d : Nat) (b : Bool),
    s.aud.halted = false → s.aud.ph = .config → s.aud.sel = ⟨⟨i, e⟩, true⟩ →
    s.par.val.toneTable[i.toNat]? = some f → b = (s.par.val.dualTable && decide (s.par.val.threshold < f)) →
    d = 2560 * (if b then 8 else 1) * s.par.val.bitClock / (2 ^ (5 + s.par.val.bitDepthExp) * f) →
    exec .audConfig s = .next
      { s with
        sm := { s.sm with en := e, clkdiv := ⟨BitVec.ofNat 32 d, true⟩ }
        aud := { s.aud with ph := .push, tableSel := ⟨b, true⟩, divOut := (b, BitVec.ofNat 32 d) } }

/-- AUD.CONFIG faults on an index out of range before the disable, on an unwritten AUD.sel, and never otherwise
(R142, R256, R263, R264, R110, R48). Where the rules leave it open, this is the model's choice: assumption log 7,
15. -/
def Obligations.AudioConfigFaults : Prop :=
  ∀ s : State, s.aud.halted = false → s.aud.ph = .config →
    (s.aud.sel.written = false → exec .audConfig s = .next (raiseAudio 7 s)) ∧
    (s.aud.sel.written = true → s.par.val.toneTable.length ≤ s.aud.sel.val.index.toNat →
      exec .audConfig s = .next (raiseAudio 6 s)) ∧
    (s.aud.sel.written = true → s.aud.sel.val.index.toNat < s.par.val.toneTable.length →
      ∃ t, exec .audConfig s = .next t ∧ t.latch = s.latch ∧ t.aud.halted = false ∧ t.aud.ph = .push)

/-- AUD.PUSH arms one push of TABLE_SEL and enters the race; AUD.REARM goes back to PUSH on completion (R143, R144,
R48). Where the rules leave it open, this is the model's choice: assumption log 7, 15. -/
def Obligations.AudioPushAndRearm : Prop :=
  ∀ s : State, s.aud.halted = false →
    (∀ b, s.aud.ph = .push → s.aud.tableSel = ⟨b, true⟩ → s.dma.busy = false → (b = true → s.par.val.dualTable = true) →
      exec .audPush s = .next
        { s with dma := ⟨0, b, true, false⟩, aud := { s.aud with ph := .race } }) ∧
    (s.aud.ph = .push → s.aud.tableSel.written = false → exec .audPush s = .next (raiseAudio 7 s)) ∧
    (s.aud.ph = .race → s.dma.done = true →
      exec .audRearm s = .next
        { s with dma := { s.dma with done := false }, aud := { s.aud with ph := .push } })

/-- ENC.START, ENC.REST, ENC.ARM and ENC.ABANDON (R171, R172, R173, R179). Where the rules leave it open, this is
the model's choice: assumption log 14, 18. -/
def Obligations.EncoderReachesArmed : Prop :=
  ∀ s : State, s.ctl.ph ≠ .halt → s.ctl.ph ≠ .reflash →
    (s.enc.st = .off →
      exec .encStart s = .next { s with enc := { s.enc with st := .restWait }, fresh := false }) ∧
    (s.enc.st = .restWait → s.lines.a = true → s.lines.b = true →
      exec .encRest s = .next
        { s with enc := { s.enc with st := .restSettle, deadline := s.now + 5 * s.par.val.ticksPerMs }, fresh := false }) ∧
    (s.enc.st = .restSettle → s.now = s.enc.deadline →
      exec .encArm s = .next
        { s with
          enc := { s.enc with st := if s.lines.a && s.lines.b then .armed else .restWait }
          fresh := false }) ∧
    exec .encAbandon s = .next { s with enc := { s.enc with st := .off }, fresh := false }

/-- ENC.FALL fixes the direction and ENC.ADVANCE passes the three stages in the order of the stage table (R174,
R175, R176). Where the rules leave it open, this is the model's choice: assumption log 13, 14, 31. -/
def Obligations.EncoderFollowsTheStageTable : Prop :=
  ∀ s : State, s.ctl.ph ≠ .halt → s.ctl.ph ≠ .reflash →
    (∀ b, s.enc.st = .armed → s.lines.a = b → s.lines.b = !b →
      exec (.encFall b) s = .next
        { s with enc := ⟨.wait1, b, s.now + 5 * s.par.val.ticksPerMs⟩, fresh := false }) ∧
    (s.enc.deadline ≤ s.now →
      (s.enc.st = .wait1 → s.lines.a = false → s.lines.b = false →
        exec (.encAdvance 1) s = .next
          { s with enc := ⟨.wait2, s.enc.dir, s.now + 5 * s.par.val.ticksPerMs⟩, fresh := false }) ∧
      (s.enc.st = .wait2 → s.lines.a = !s.enc.dir → s.lines.b = s.enc.dir →
        exec (.encAdvance 2) s = .next
          { s with enc := ⟨.wait3, s.enc.dir, s.now + 5 * s.par.val.ticksPerMs⟩, fresh := false }) ∧
      (s.enc.st = .wait3 → s.lines.a = true → s.lines.b = true →
        exec (.encAdvance 3) s = .next
          { s with enc := ⟨.finalSettle, s.enc.dir, s.now + 5 * s.par.val.ticksPerMs⟩, fresh := false })) ∧
    (∀ b, s.lines.a = !b ∨ s.lines.b = b → exec (.encFall b) s = .refused .notEnabled) ∧
    (∀ c : Byte, c = 0 ∨ 4 ≤ c.toNat ∨ s.now < s.enc.deadline → exec (.encAdvance c) s = .refused .notEnabled)

/-- ENC.DROP goes back to the rest wait when the pair is neither the old nor the expected one (R177, R180, R251).
Where the rules leave it open, this is the model's choice: assumption log 13, 14. -/
def Obligations.EncoderDropsABrokenSequence : Prop :=
  ∀ s : State, s.ctl.ph ≠ .halt → s.ctl.ph ≠ .reflash →
    ((s.enc.st = .armed ∧ s.lines.a = false ∧ s.lines.b = false ∨
        s.enc.deadline ≤ s.now ∧
          (s.enc.st = .wait1 ∧ (s.lines.a, s.lines.b) ≠ (s.enc.dir, !s.enc.dir) ∧
              (s.lines.a, s.lines.b) ≠ (false, false) ∨
            s.enc.st = .wait2 ∧ (s.lines.a, s.lines.b) ≠ (false, false) ∧
              (s.lines.a, s.lines.b) ≠ (!s.enc.dir, s.enc.dir) ∨
            s.enc.st = .wait3 ∧ (s.lines.a, s.lines.b) ≠ (!s.enc.dir, s.enc.dir) ∧
              (s.lines.a, s.lines.b) ≠ (true, true))) →
      exec .encDrop s = .next { s with enc := { s.enc with st := .restWait }, fresh := false }) ∧
    (s.enc.st = .wait1 ∨ s.enc.st = .wait2 ∨ s.enc.st = .wait3 → s.now < s.enc.deadline →
      exec .encDrop s = .refused .notEnabled)

/-- ENC.EMIT delivers Up or Down at the last deadline, wins the race of WAIT and abandons the idle button (R178,
R232, R200). Where the rules leave it open, this is the model's choice: assumption log 13, 14, 18, 31, 32. -/
def Obligations.EncoderDeliversItsEvent : Prop :=
  ∀ s : State, s.ctl.ph ≠ .halt → s.ctl.ph ≠ .reflash → s.enc.st = .finalSettle → s.now = s.enc.deadline →
    (s.ctl.ph = .wait →
      exec (.encEmit s.enc.dir) s = .next
        { s with
          ctl := { s.ctl with
            event := if s.enc.dir then .down else .up
            ph := if s.enc.dir then .handleDown else .handleUp }
          enc := { s.enc with st := .off }
          btn := { s.btn with st := if s.btn.st = .idle then .off else s.btn.st }
          fresh := false }) ∧
    (s.ctl.ph ≠ .wait →
      exec (.encEmit s.enc.dir) s = .next
        { s with
          ctl := { s.ctl with event := if s.enc.dir then .down else .up }
          enc := { s.enc with st := .off }
          fresh := false }) ∧
    exec (.encEmit (!s.enc.dir)) s = .refused .notEnabled

/-- A full quadrature turn, one transition per settle delay, delivers one event four settle delays after the first
fall (R183, R170, R175). Where the rules leave it open, this is the model's choice: assumption log 14. -/
def Obligations.OneDetentGivesOneEvent : Prop :=
  ∀ (s : State) (b : Bool), s.fresh = true → s.ctl.ph = .wait → s.ctl.busy = none → s.enc.st = .armed →
    s.btn.st = .idle → s.lines.a = true → s.lines.b = true → s.lines.btn = true →
    0 < tSettle s.par.val → tSettle s.par.val < 2 ^ 40 →
    ∃ t,
      runOps
        [.envLine (if b then .lineB else .lineA) false, .encFall b, .envAdv (BitVec.ofNat 40 (tSettle s.par.val)),
          .envLine (if b then .lineA else .lineB) false, .encAdvance 1, .envAdv (BitVec.ofNat 40 (tSettle s.par.val)),
          .envLine (if b then .lineB else .lineA) true, .encAdvance 2, .envAdv (BitVec.ofNat 40 (tSettle s.par.val)),
          .envLine (if b then .lineA else .lineB) true, .encAdvance 3, .envAdv (BitVec.ofNat 40 (tSettle s.par.val)),
          .encEmit b] s = .next t ∧
      t.ctl.event = (if b then .down else .up) ∧ t.ctl.ph = (if b then .handleDown else .handleUp) ∧
      t.enc.st = .off ∧ t.btn.st = .off ∧ t.now = s.now + 4 * tSettle s.par.val ∧ t.sel = s.sel ∧ t.flash = s.flash

/-- BTN.START, BTN.EDGE and BTN.ABANDON (R191, R192, R200, R232). Where the rules leave it open, this is the model's
choice: assumption log 9, 13, 14, 18. -/
def Obligations.ButtonStartsAndSeesItsEdge : Prop :=
  ∀ s : State, s.ctl.ph ≠ .halt → s.ctl.ph ≠ .reflash →
    (s.btn.st = .off →
      exec .btnStart s = .next { s with btn := { s.btn with st := .idle, tStart := s.now }, fresh := false }) ∧
    (s.btn.st = .idle → s.btn.tStart < s.now → s.lines.btnPrev = true → s.lines.btn = false →
      (s.ctl.ph = .wait →
        exec .btnEdge s = .next
          { s with
            ctl := { s.ctl with ph := .btnActive }
            enc := { s.enc with st := .off }
            btn := { s.btn with st := .debounce, deadline := s.now + 5 * s.par.val.ticksPerMs }
            fresh := false }) ∧
      (s.ctl.ph ≠ .wait →
        exec .btnEdge s = .next
          { s with
            btn := { s.btn with st := .debounce, deadline := s.now + 5 * s.par.val.ticksPerMs }
            fresh := false })) ∧
    (s.now ≤ s.btn.tStart ∨ s.lines.btnPrev = false ∨ s.lines.btn = true → exec .btnEdge s = .refused .notEnabled) ∧
    (s.btn.st = .idle → exec .btnAbandon s = .next { s with btn := { s.btn with st := .off }, fresh := false }) ∧
    (s.btn.st ≠ .idle → exec .btnAbandon s = .refused .notEnabled)

/-- BTN.CONFIRM, BTN.RELEASE, BTN.TIMEOUT and BTN.TRAIL (R193, R194, R195, R196, R197). Where the rules leave it
open, this is the model's choice: assumption log 13, 14, 18. -/
def Obligations.ButtonClassifies : Prop :=
  ∀ s : State, s.ctl.ph ≠ .halt → s.ctl.ph ≠ .reflash →
    (s.btn.st = .debounce → s.now = s.btn.deadline →
      exec .btnConfirm s = .next
        { s with btn := { s.btn with st := .held, deadline := s.now + 750 * s.par.val.ticksPerMs }, fresh := false }) ∧
    (s.btn.st = .held → s.now < s.btn.deadline → s.lines.btn = true →
      exec .btnRelease s = .next
        { s with
          ctl := { s.ctl with event := .toggle, ph := .handleToggle }
          btn := { s.btn with st := .doneToggle }
          fresh := false }) ∧
    (s.btn.st = .held → s.now = s.btn.deadline →
      exec .btnTimeout s = .next
        { s with
          ctl := { s.ctl with event := .persist, ph := .persistAck }
          btn := { s.btn with st := .donePersist }
          fresh := false } ∧
      exec .btnRelease s = .refused .notEnabled) ∧
    (s.ctl.ph = .trail → s.ctl.busy = none → s.now = s.ctl.deadline →
      exec .btnTrail s = .next
        { s with
          ctl := { s.ctl with event := .none, ph := .publish }
          btn := { s.btn with st := .off }
          fresh := false })

/-- A release strictly before T_LONG is a Toggle and nothing else, a release at exactly T_LONG or later a
SaveAndPersist and nothing else (R196). Where the rules leave it open, this is the model's choice: assumption log
14, 15. -/
def Obligations.PressBoundary : Prop :=
  ∀ s : State, s.aud.halted = false → s.ctl.ph = .btnActive → s.ctl.busy = none → s.enc.st = .off →
    s.btn.st = .held → s.btn.deadline = s.now + tLong s.par.val → 0 < tLong s.par.val → tLong s.par.val < 2 ^ 40 →
    (s.lines.btn = true →
      (∃ t, exec .btnRelease s = .next t ∧ t.now = s.now ∧ t.ctl.event = .toggle ∧ t.ctl.ph = .handleToggle) ∧
      ∀ t, exec .btnTimeout s ≠ .next t ∧ exec (.envAdv 1) s ≠ .next t) ∧
    (s.lines.btn = false →
      (∀ t, exec .btnRelease s ≠ .next t) ∧
      (∀ k, 0 < k → k < tLong s.par.val →
        (∃ t, runOps [.envAdv (BitVec.ofNat 40 k), .envLine .lineBtn true, .btnRelease] s = .next t ∧
          t.now = s.now + k ∧ t.ctl.event = .toggle ∧ t.ctl.ph = .handleToggle) ∧
        ∀ t, runOps [.envAdv (BitVec.ofNat 40 k), .envLine .lineBtn true, .btnTimeout] s ≠ .next t ∧
          runOps [.envAdv (BitVec.ofNat 40 k), .envLine .lineBtn true, .envAdv 1] s ≠ .next t ∧
          runOps [.envAdv (BitVec.ofNat 40 k), .btnRelease] s ≠ .next t ∧
          runOps [.envAdv (BitVec.ofNat 40 k), .btnTimeout] s ≠ .next t) ∧
      ∀ up : Bool,
        (∃ t, runOps [.envAdv (BitVec.ofNat 40 (tLong s.par.val)), .envLine .lineBtn up, .btnTimeout] s = .next t ∧
          t.now = s.now + tLong s.par.val ∧ t.ctl.event = .persist ∧ t.ctl.ph = .persistAck) ∧
        ∀ t, runOps [.envAdv (BitVec.ofNat 40 (tLong s.par.val)), .envLine .lineBtn up, .btnRelease] s ≠ .next t ∧
          runOps [.envAdv (BitVec.ofNat 40 (tLong s.par.val)), .envLine .lineBtn up, .envAdv 1] s ≠ .next t)

/-- FL.READ and CFG.READ: begin, wait, and the record in the working registers (R206, R209, R11, R64). Where the
rules leave it open, this is the model's choice: assumption log 3, 10, 14, 18, 25. -/
def Obligations.FlashReadAndConfigRead : Prop :=
  ∀ s : State, s.ctl.ph ≠ .halt → s.ctl.ph ≠ .reflash →
    (s.ctl.busy = none → nextDuration s = 0 → nextFail (popDuration s) = false →
      exec .flRead s = .next
        { s with
          env := (popFail (popDuration s)).env
          cfg := { s.cfg with buf := memRead s.flash (cfgOffset s.par.val) 8 }
          fresh := false } ∧
      exec .cfgRead s = .next
        { s with
          env := (popFail (popDuration s)).env
          cfg :=
            { s.cfg with
              buf := memRead s.flash (cfgOffset s.par.val) 8
              cur := decodeRecord s.par.val (memRead s.flash (cfgOffset s.par.val) 8) }
          fresh := false }) ∧
    (s.ctl.busy = none → nextDuration s ≠ 0 →
      exec .flRead s = .next
        { s with
          env := (popDuration s).env
          ctl := { s.ctl with busy := some (.flRead .direct), deadline := s.now + nextDuration s }
          fresh := false } ∧
      exec .cfgRead s = .next
        { s with
          env := (popDuration s).env
          ctl := { s.ctl with busy := some (.flRead .cfgRead), deadline := s.now + nextDuration s }
          fresh := false }) ∧
    (s.now = s.ctl.deadline → nextFail s = false →
      (s.ctl.busy = some (.flRead .direct) →
        exec .flRead s = .next
          { s with
            env := (popFail s).env
            ctl := { s.ctl with busy := none }
            cfg := { s.cfg with buf := memRead s.flash (cfgOffset s.par.val) 8 }
            fresh := false }) ∧
      (s.ctl.busy = some (.flRead .cfgRead) →
        exec .flRead s = .next
          { s with
            env := (popFail s).env
            ctl := { s.ctl with busy := none }
            cfg :=
              { s.cfg with
                buf := memRead s.flash (cfgOffset s.par.val) 8
                cur := decodeRecord s.par.val (memRead s.flash (cfgOffset s.par.val) 8) }
            fresh := false }))

/-- CFG.WRITE reads the record, returns where it is equal and goes on to the erase where it differs (R211, R212,
R209). Where the rules leave it open, this is the model's choice: assumption log 3, 10, 11, 13, 18, 25. -/
def Obligations.ConfigWriteReadsAndCompares : Prop :=
  ∀ (s : State) (e : Bool) (i : Word32) (cur : Selection), s.ctl.ph ≠ .halt → s.ctl.ph ≠ .reflash →
    cur = decodeRecord s.par.val (memRead s.flash (cfgOffset s.par.val) 8) →
    (s.ctl.busy = none → i.toNat < toneCount s.par.val → nextDuration s = 0 → nextFail (popDuration s) = false →
      exec (.cfgWrite e i) s = .next
        { s with
          env := (popFail (popDuration s)).env
          cfg := ⟨memRead s.flash (cfgOffset s.par.val) 8, cur, ⟨i, e⟩⟩
          ctl :=
            if cur = ⟨i, e⟩ then s.ctl
            else { s.ctl with busy := some (.eraseNext .direct), deadline := s.now }
          fresh := false }) ∧
    (s.ctl.busy = none → i.toNat < toneCount s.par.val → nextDuration s ≠ 0 →
      exec (.cfgWrite e i) s = .next
        { s with
          env := (popDuration s).env
          cfg := { s.cfg with new := ⟨i, e⟩ }
          ctl := { s.ctl with busy := some (.flRead (.write .direct)), deadline := s.now + nextDuration s }
          fresh := false }) ∧
    (∀ w : WriteBy, s.ctl.busy = some (.flRead (.write w)) → s.now = s.ctl.deadline → nextFail s = false →
      exec .flRead s = .next
        { s with
          env := (popFail s).env
          cfg := ⟨memRead s.flash (cfgOffset s.par.val) 8, cur, s.cfg.new⟩
          ctl :=
            if cur = s.cfg.new then
              match w with
              | .direct => { s.ctl with busy := none }
              | .persist =>
                { s.ctl with busy := none, ph := .persistHold, deadline := s.now + 750 * s.par.val.ticksPerMs }
            else { s.ctl with busy := some (.eraseNext w), deadline := s.now }
          fresh := false }) ∧
    (toneCount s.par.val ≤ i.toNat → exec (.cfgWrite e i) s = .refused .notEnabled)

/-- FL.ERASE blanks the record's block, FL.PROG ANDs the record in; every other byte of FLASH stays (R207, R208,
R65, R66, R211, R72). Where the rules leave it open, this is the model's choice: assumption log 3, 10, 11, 18, 25,
28. -/
def Obligations.FlashEraseAndProgram : Prop :=
  ∀ (s : State) (o : FlashBy) (w : WriteBy), s.ctl.ph ≠ .halt → s.ctl.ph ≠ .reflash → Memory.wf s.flash = true →
    (∀ s0, (s.ctl.busy = none ∧ o = .direct ∨ s.ctl.busy = some (.eraseNext w) ∧ o = .write w) ∧
        nextDuration s = 0 ∧ s0 = popDuration s ∨
      s.ctl.busy = some (.flErase o) ∧ s.now = s.ctl.deadline ∧ s0 = s →
      nextFail s0 = false →
      ∃ m, exec .flErase s = .next
          { s with
            env := (popFail s0).env
            flash := m
            logs := { s.logs with flashLog := s.logs.flashLog ++ [.erase (cfgOffset s.par.val) (blockBytes s.par.val)] }
            ctl :=
              match o with
              | .direct => { s.ctl with busy := none }
              | .write by' => { s.ctl with busy := some (.progNext by'), deadline := s.now }
            fresh := false } ∧
        Memory.wf m = true ∧
        ∀ a, memByte m a =
          if cfgOffset s.par.val ≤ a ∧ a < cfgOffset s.par.val + blockBytes s.par.val then 0xFF#8 else memByte s.flash a) ∧
    (∀ s0, (s.ctl.busy = none ∧ o = .direct ∨ s.ctl.busy = some (.progNext w) ∧ o = .write w) ∧
        nextDuration s = 0 ∧ s0 = popDuration s ∨
      s.ctl.busy = some (.flProg o) ∧ s.now = s.ctl.deadline ∧ s0 = s →
      nextFail s0 = false →
      ∃ m, exec .flProg s = .next
          { s with
            env := (popFail s0).env
            flash := m
            logs := { s.logs with
              flashLog := s.logs.flashLog ++ [.prog (cfgOffset s.par.val) (encodeRecord s.cfg.new)] }
            ctl :=
              match o with
              | .direct | .write .direct => { s.ctl with busy := none }
              | .write .persist =>
                { s.ctl with busy := none, ph := .persistHold, deadline := s.now + 750 * s.par.val.ticksPerMs }
            fresh := false } ∧
        Memory.wf m = true ∧
        ∀ a, memByte m a =
          if cfgOffset s.par.val ≤ a ∧ a < cfgOffset s.par.val + 8 then
            memByte s.flash a &&& (encodeRecord s.cfg.new).getD (a - cfgOffset s.par.val) 0
          else memByte s.flash a) ∧
    (nextDuration s ≠ 0 →
      (s.ctl.busy = none ∧ o = .direct ∨ s.ctl.busy = some (.eraseNext w) ∧ o = .write w →
        exec .flErase s = .next
          { s with
            env := (popDuration s).env
            ctl := { s.ctl with busy := some (.flErase o), deadline := s.now + nextDuration s }
            fresh := false }) ∧
      (s.ctl.busy = none ∧ o = .direct ∨ s.ctl.busy = some (.progNext w) ∧ o = .write w →
        exec .flProg s = .next
          { s with
            env := (popDuration s).env
            ctl := { s.ctl with busy := some (.flProg o), deadline := s.now + nextDuration s }
            fresh := false }))

/-- A flash primitive that fails raises its own code, halts the control side and spares every byte outside its
target (R206, R207, R208, R214, R255, R264). Where the rules leave it open, this is the model's choice: assumption
log 3, 10, 12. -/
def Obligations.FlashFailuresAreFatal : Prop :=
  ∀ (s : State) (i : Instr) (c : Byte) (n : Nat) (v : Selection), s.ctl.ph ≠ .halt → s.ctl.ph ≠ .reflash →
    (s.now = s.ctl.deadline ∧ nextFail s = true ∧ v = s.cfg.new ∧
        ((∃ o, s.ctl.busy = some (.flRead o) ∧ i = .flRead ∧ c = 1 ∧ n = 0) ∨
          (∃ o, s.ctl.busy = some (.flErase o) ∧ i = .flErase ∧ c = 2 ∧ n = blockBytes s.par.val) ∨
          ∃ o, s.ctl.busy = some (.flProg o) ∧ i = .flProg ∧ c = 3 ∧ n = 8) ∨
      nextDuration s = 0 ∧ nextFail (popDuration s) = true ∧
        ((s.ctl.busy = none ∧ (i = .flRead ∨ i = .cfgRead ∨ i = .ctlLoad ∧ s.ctl.ph = .load) ∧ v = s.cfg.new ∨
            s.ctl.busy = none ∧ i = .cfgWrite v.enabled v.index ∧ v.index.toNat < toneCount s.par.val ∨
            s.ctl.busy = none ∧ i = .ctlPersist ∧ s.ctl.ph = .persistWrite ∧
              s.sel = ⟨⟨v.index, true⟩, ⟨v.enabled, true⟩⟩ ∧ v.index.toNat < toneCount s.par.val) ∧ c = 1 ∧ n = 0 ∨
          (s.ctl.busy = none ∨ ∃ w, s.ctl.busy = some (.eraseNext w)) ∧ i = .flErase ∧ v = s.cfg.new ∧ c = 2 ∧
            n = blockBytes s.par.val ∨
          (s.ctl.busy = none ∨ ∃ w, s.ctl.busy = some (.progNext w)) ∧ i = .flProg ∧ v = s.cfg.new ∧ c = 3 ∧
            n = 8)) →
    ∃ (e : Draws) (m : Memory),
      exec i s = .next
        { s with
          env := e
          flash := m
          cfg := { s.cfg with new := v }
          ctl := { s.ctl with ph := .halt, busy := none }
          enc := { s.enc with st := .off }
          btn := { s.btn with st := .off }
          latch := ⟨true, if s.latch.fault then s.latch.code else c⟩
          fresh := false } ∧
      ∀ a, a < cfgOffset s.par.val ∨ cfgOffset s.par.val + n ≤ a → memByte m a = memByte s.flash a

/-- The record decodes by its table of cases, and decoding an encoded record gives it back (R94, R95). -/
def Obligations.RecordRoundTrip : Prop :=
  (∀ (p : Params) (b0 b1 b2 b3 b4 b5 b6 b7 : Byte) (idx : Word32), idx = b3 ++ b2 ++ b1 ++ b0 →
    decodeRecord p [b0, b1, b2, b3, b4, b5, b6, b7] =
      if toneCount p ≤ idx.toNat then ⟨0, true⟩
      else if b4 = 0x01 then ⟨idx, true⟩ else if b4 = 0x00 then ⟨idx, false⟩ else ⟨0, true⟩) ∧
  (∀ c : Selection, encodeRecord c =
    [c.index.extractLsb' 0 8, c.index.extractLsb' 8 8, c.index.extractLsb' 16 8, c.index.extractLsb' 24 8,
      if c.enabled then 0x01 else 0x00, 0x00, 0x00, 0x00]) ∧
  (∀ (p : Params) (c : Selection), c.index.toNat < toneCount p → decodeRecord p (encodeRecord c) = c)

/-- write(cfg) and then read() returns cfg, from any contents of FLASH (R215). Where the rules leave it open, this
is the model's choice: assumption log 3, 10, 11, 18. -/
def Obligations.SaveThenReadReturnsTheRecord : Prop :=
  ∀ (s : State) (e : Bool) (i : Word32) (ds : List Nat) (fs : List Bool),
    s.ctl.ph ≠ .halt → s.ctl.ph ≠ .reflash → s.ctl.busy = none → Memory.wf s.flash = true →
    i.toNat < toneCount s.par.val → s.env.durations = 0 :: 0 :: 0 :: 0 :: ds →
    s.env.fails = false :: false :: false :: false :: fs →
    ∃ t, t.cfg.cur = ⟨i, e⟩ ∧
      runOps
        (if decodeRecord s.par.val (memRead s.flash (cfgOffset s.par.val) 8) = ⟨i, e⟩ then [.cfgWrite e i, .cfgRead]
          else [.cfgWrite e i, .flErase, .flProg, .cfgRead]) s = .next t

/-- Two saves of one configuration erase and program at most once, and the second never does (R216, R212). Where the
rules leave it open, this is the model's choice: assumption log 3, 10, 11, 18. -/
def Obligations.SecondSaveIsANoOp : Prop :=
  ∀ (s : State) (e : Bool) (i : Word32) (ds : List Nat) (fs : List Bool),
    s.ctl.ph ≠ .halt → s.ctl.ph ≠ .reflash → s.ctl.busy = none → Memory.wf s.flash = true →
    i.toNat < toneCount s.par.val → s.env.durations = 0 :: 0 :: 0 :: 0 :: ds →
    s.env.fails = false :: false :: false :: false :: fs →
    (decodeRecord s.par.val (memRead s.flash (cfgOffset s.par.val) 8) ≠ ⟨i, e⟩ →
      ∃ t u, runOps [.cfgWrite e i, .flErase, .flProg] s = .next t ∧ exec (.cfgWrite e i) t = .next u ∧
        t.logs.flashLog = s.logs.flashLog ++
          [.erase (cfgOffset s.par.val) (blockBytes s.par.val), .prog (cfgOffset s.par.val) (encodeRecord ⟨i, e⟩)] ∧
        u.logs.flashLog = t.logs.flashLog ∧ u.flash = t.flash ∧ u.ctl.busy = none) ∧
    (decodeRecord s.par.val (memRead s.flash (cfgOffset s.par.val) 8) = ⟨i, e⟩ →
      ∃ t, runOps [.cfgWrite e i, .cfgWrite e i] s = .next t ∧
        t.logs.flashLog = s.logs.flashLog ∧ t.flash = s.flash ∧ t.ctl.busy = none)

/-- A reset between the erase and the program leaves a blank record, which reads as the default (R217, R72, R313).
Where the rules leave it open, this is the model's choice: assumption log 3, 11. -/
def Obligations.ResetBetweenEraseAndProgram : Prop :=
  ∀ (s : State) (w : WriteBy), s.ctl.ph ≠ .halt → s.ctl.ph ≠ .reflash → s.ctl.busy = some (.eraseNext w) →
    toneCount s.par.val < 2 ^ 32 → nextDuration s = 0 → nextFail (popDuration s) = false →
    ∃ t, runOps [.flErase, .envReset] s = .next t ∧
      memRead t.flash (cfgOffset t.par.val) 8 = List.replicate 8 0xFF#8 ∧
      decodeRecord t.par.val (memRead t.flash (cfgOffset t.par.val) 8) = ⟨0, true⟩ ∧
      ∀ a, a < cfgOffset s.par.val ∨ cfgOffset s.par.val + blockBytes s.par.val ≤ a → memByte t.flash a = memByte s.flash a

/-- CTL.BOOT samples REC once; CTL.RECOVERY draws the whole message, flushes and ends in REFLASH (R226, R227, R295).
Where the rules leave it open, this is the model's choice: assumption log 3, 10, 14, 25. -/
def Obligations.BootAndRecovery : Prop :=
  ∀ s : State, s.ctl.busy = none →
    (s.ctl.ph = .boot →
      exec .ctlBoot s = .next
        { s with ctl := { s.ctl with ph := if s.lines.recov then .load else .recovery }, fresh := false }) ∧
    (s.ctl.ph = .recovery → noFailures (s.par.val.diagMsg.length + 1) s = true →
      ∀ u fr, u = popFails (s.par.val.diagMsg.length + 1) s →
        fr = (s.disp.pending ++ s.par.val.diagMsg).foldl putGlyph s.disp.frame →
        (nextDuration u = 0 →
          exec .ctlRecovery s = .next
            { s with
              env := (popDuration u).env
              disp := ⟨[], fr⟩
              logs := { s.logs with
                dispOut := s.logs.dispOut ++ s.par.val.diagMsg.map (fun d => .draw d.1 d.2) ++ [.flush fr] }
              ctl := { s.ctl with ph := .reflash }
              reflash := true
              fresh := false }) ∧
        (nextDuration u ≠ 0 →
          exec .ctlRecovery s = .next
            { s with
              env := (popDuration u).env
              disp := ⟨[], fr⟩
              logs := { s.logs with
                dispOut := s.logs.dispOut ++ s.par.val.diagMsg.map (fun d => .draw d.1 d.2) ++ [.flush fr] }
              ctl := { s.ctl with busy := some (.flush .recovery), deadline := s.now + nextDuration u }
              fresh := false })) ∧
    (∀ k, s.ctl.ph = .recovery → k ≤ s.par.val.diagMsg.length → noFailures k s = true → nextFail (popFails k s) = true →
      exec .ctlRecovery s = .next
        { raiseControl 4
            { s with
              env := (popFails (k + 1) s).env
              disp := { s.disp with pending := s.disp.pending ++ s.par.val.diagMsg.take k }
              logs := { s.logs with dispOut := s.logs.dispOut ++ (s.par.val.diagMsg.take k).map (fun d => .draw d.1 d.2) } } with
          fresh := false })

/-- CTL.LOAD takes the selection from the store, in range, and goes to PUBLISH (R228, R210, R239). Where the rules
leave it open, this is the model's choice: assumption log 3, 10, 14, 25. -/
def Obligations.LoadTakesTheStoredSelection : Prop :=
  ∀ (s : State) (cur : Selection), s.ctl.ph = .load →
    cur = decodeRecord s.par.val (memRead s.flash (cfgOffset s.par.val) 8) →
    (1 ≤ toneCount s.par.val → cur.index.toNat < toneCount s.par.val) ∧
    (s.ctl.busy = none → nextDuration s = 0 → nextFail (popDuration s) = false →
      exec .ctlLoad s = .next
        { s with
          env := (popFail (popDuration s)).env
          cfg := { s.cfg with buf := memRead s.flash (cfgOffset s.par.val) 8, cur := cur }
          sel := ⟨⟨cur.index, true⟩, ⟨cur.enabled, true⟩⟩
          ctl := { s.ctl with ph := .publish }
          fresh := false }) ∧
    (s.ctl.busy = none → nextDuration s ≠ 0 →
      exec .ctlLoad s = .next
        { s with
          env := (popDuration s).env
          ctl := { s.ctl with busy := some (.flRead .load), deadline := s.now + nextDuration s }
          fresh := false }) ∧
    (s.ctl.busy = some (.flRead .load) → s.now = s.ctl.deadline → nextFail s = false →
      exec .flRead s = .next
        { s with
          env := (popFail s).env
          cfg := { s.cfg with buf := memRead s.flash (cfgOffset s.par.val) 8, cur := cur }
          sel := ⟨⟨cur.index, true⟩, ⟨cur.enabled, true⟩⟩
          ctl := { s.ctl with ph := .publish, busy := none }
          fresh := false })

/-- CTL.PUBLISH sends the selection at once, waits the drawn duration and goes to RENDER (R229, R161, R48). Where
the rules leave it open, this is the model's choice: assumption log 3, 7, 10, 25. -/
def Obligations.PublishSendsTheSelection : Prop :=
  ∀ s : State, s.ctl.ph = .publish →
    (∀ i e, s.sel = ⟨⟨i, true⟩, ⟨e, true⟩⟩ → s.ctl.busy = none →
      exec .ctlPublish s = .next
        { s with
          env := (popDuration s).env
          mbx := ⟨true, ⟨i, e⟩⟩
          logs := { s.logs with mbxLog := s.logs.mbxLog ++ [.send ⟨i, e⟩] }
          ctl :=
            if nextDuration s = 0 then { s.ctl with ph := .render }
            else { s.ctl with busy := some .publish, deadline := s.now + nextDuration s }
          fresh := false }) ∧
    (s.ctl.busy = some .publish → s.now = s.ctl.deadline →
      exec .ctlPublish s = .next { s with ctl := { s.ctl with ph := .render, busy := none }, fresh := false }) ∧
    (s.ctl.busy = none → s.sel.index.written = false ∨ s.sel.enabled.written = false →
      exec .ctlPublish s = .next { raiseControl 7 s with fresh := false })

/-- CTL.RENDER draws the five glyphs of the readout, flushes them and goes to WAIT (R230, R270, R271, R62, R48).
Where the rules leave it open, this is the model's choice: assumption log 3, 7, 10, 25. -/
def Obligations.RenderDrawsAllFiveSlots : Prop :=
  ∀ s : State, s.ctl.ph = .render →
    (∀ i e f g fr u, s.ctl.busy = none → s.sel = ⟨⟨i, true⟩, ⟨e, true⟩⟩ → s.par.val.toneTable[i.toNat]? = some f →
      g = readout s.par.val f e → noFailures 6 s = true → u = popFails 6 s →
      fr = (s.disp.pending ++ [(g.s0, 0), (g.s1, 1), (g.s2, 2), (g.s3, 3), (g.s4, 4)]).foldl putGlyph s.disp.frame →
      exec .ctlRender s = .next
        { s with
          env := if nextDuration u = 0 then (popDuration (popDuration u)).env else (popDuration u).env
          disp := ⟨[], fr⟩
          logs := { s.logs with
            dispOut := s.logs.dispOut ++
              [.draw g.s0 0, .draw g.s1 1, .draw g.s2 2, .draw g.s3 3, .draw g.s4 4, .flush fr] }
          ctl :=
            if nextDuration u ≠ 0 then
              { s.ctl with busy := some (.flush .render), deadline := s.now + nextDuration u }
            else if nextDuration (popDuration u) ≠ 0 then
              { s.ctl with busy := some .render, deadline := s.now + nextDuration (popDuration u) }
            else { s.ctl with ph := .wait }
          fresh := false }) ∧
    (∀ i e f k, s.ctl.busy = none → s.sel = ⟨⟨i, true⟩, ⟨e, true⟩⟩ → s.par.val.toneTable[i.toNat]? = some f → k ≤ 5 →
      noFailures k s = true → nextFail (popFails k s) = true →
      exec .ctlRender s = .next
        { raiseControl 4
            { s with
              env := (popFails (k + 1) s).env
              disp := { s.disp with pending := s.disp.pending ++ (drawsOf (readout s.par.val f e)).take k }
              logs := { s.logs with dispOut := s.logs.dispOut ++ ((drawsOf (readout s.par.val f e)).take k).map (fun d => .draw d.1 d.2) } } with
          fresh := false }) ∧
    (s.ctl.busy = some (.flush .render) → s.now = s.ctl.deadline →
      exec .dispFlush s = .next
        { s with
          env := (popDuration s).env
          ctl :=
            if nextDuration s = 0 then { s.ctl with ph := .wait, busy := none }
            else { s.ctl with busy := some .render, deadline := s.now + nextDuration s }
          fresh := false }) ∧
    (s.ctl.busy = some .render → s.now = s.ctl.deadline →
      exec .ctlRender s = .next { s with ctl := { s.ctl with ph := .wait, busy := none }, fresh := false }) ∧
    (s.ctl.busy = none → s.sel.index.written = false ∨ s.sel.enabled.written = false →
      exec .ctlRender s = .next { raiseControl 7 s with fresh := false }) ∧
    (s.ctl.busy = none → s.sel.index.written = true → s.sel.enabled.written = true →
      s.par.val.toneTable.length ≤ s.sel.index.val.toNat →
      exec .ctlRender s = .next { raiseControl 6 s with fresh := false })

/-- CTL.WAIT starts both decoders; CTL.UP, CTL.DOWN and CTL.TOGGLE change the selection (R231, R233, R234, R236).
Where the rules leave it open, this is the model's choice: assumption log 14. -/
def Obligations.WaitAndHandlers : Prop :=
  ∀ s : State, s.ctl.busy = none →
    (s.ctl.ph = .wait → s.enc.st = .off → s.btn.st = .off →
      exec .ctlWait s = .next
        { s with
          enc := { s.enc with st := .restWait }
          btn := { s.btn with st := .idle, tStart := s.now }
          fresh := false }) ∧
    (∀ i, s.sel.index = ⟨i, true⟩ →
      (s.ctl.ph = .handleUp →
        exec .ctlUp s = .next
          { s with
            sel := { s.sel with index := ⟨if wrapLen s.par.val ≤ i.toNat + 1 then 0 else i + 1, true⟩ }
            ctl := { s.ctl with event := .none, ph := .publish }
            fresh := false }) ∧
      (s.ctl.ph = .handleDown →
        exec .ctlDown s = .next
          { s with
            sel := { s.sel with
              index := ⟨if i = 0 then BitVec.ofNat 32 (wrapLen s.par.val - 1) else i - 1, true⟩ }
            ctl := { s.ctl with event := .none, ph := .publish }
            fresh := false })) ∧
    (∀ e, s.sel.enabled = ⟨e, true⟩ → s.ctl.ph = .handleToggle →
      exec .ctlToggle s = .next
        { s with
          sel := { s.sel with enabled := ⟨!e, true⟩ }
          ctl := { s.ctl with deadline := s.now + 5 * s.par.val.ticksPerMs, ph := .trail }
          fresh := false })

/-- Up and Down are inverse below WRAP_LEN, WRAP_LEN Ups return, and k Ups from 0 give k mod WRAP_LEN (R235). -/
def Obligations.IndexLaws : Prop :=
  ∀ p : Params, paramsValid p = true →
    (∀ i : Word32, i.toNat < wrapLen p →
      indexDown p (indexUp p i) = i ∧ indexUp p (indexDown p i) = i ∧ (indexUp p)^[wrapLen p] i = i) ∧
    (∀ k : Nat, (indexUp p)^[k] 0 = BitVec.ofNat 32 (k % wrapLen p)) ∧
    (toneCount p = 51 → p.reserveLast = false → (indexUp p)^[51] 0 = 0 ∧ (indexUp p)^[5] 0 = 5) ∧
    (toneCount p = 51 → p.reserveLast = true → (indexUp p)^[50] 0 = 0 ∧ (indexUp p)^[51] 0 = 1) ∧
    (∀ i : Word32, p.reserveLast = true → i.toNat = wrapLen p → indexDown p (indexUp p i) ≠ i)

/-- CTL.PERSIST acknowledges, forces the audio on, stores the selection as it stands, and holds (R237, R211, R270,
R271). Where the rules leave it open, this is the model's choice: assumption log 3, 10, 11, 25. -/
def Obligations.PersistTakesItsFourSteps : Prop :=
  ∀ s : State, s.ctl.busy = none →
    (∀ u fr, s.ctl.ph = .persistAck → noFailures 2 s = true → u = popFails 2 s →
      fr = (s.disp.pending ++ [(14, 4)]).foldl putGlyph s.disp.frame →
      exec .ctlPersist s = .next
        { s with
          env := (popDuration u).env
          disp := ⟨[], fr⟩
          logs := { s.logs with dispOut := s.logs.dispOut ++ [.draw 14 4, .flush fr] }
          ctl :=
            if nextDuration u = 0 then { s.ctl with ph := .persistForce }
            else { s.ctl with busy := some (.flush .persistAck), deadline := s.now + nextDuration u }
          fresh := false }) ∧
    (∀ k, s.ctl.ph = .persistAck → k ≤ 1 → noFailures k s = true → nextFail (popFails k s) = true →
      exec .ctlPersist s = .next
        { raiseControl 4
            { s with
              env := (popFails (k + 1) s).env
              disp := { s.disp with pending := s.disp.pending ++ [((14 : Glyph), (4 : Slot))].take k }
              logs := { s.logs with dispOut := s.logs.dispOut ++ ([((14 : Glyph), (4 : Slot))].take k).map (fun d => .draw d.1 d.2) } } with
          fresh := false }) ∧
    (∀ i, s.ctl.ph = .persistForce → s.sel.index = ⟨i, true⟩ →
      exec .ctlPersist s = .next
        { s with
          mbx := ⟨true, ⟨i, true⟩⟩
          logs := { s.logs with mbxLog := s.logs.mbxLog ++ [.send ⟨i, true⟩] }
          ctl := { s.ctl with ph := .persistWrite }
          fresh := false }) ∧
    (∀ i e cur, s.ctl.ph = .persistWrite → s.sel = ⟨⟨i, true⟩, ⟨e, true⟩⟩ → i.toNat < toneCount s.par.val →
      cur = decodeRecord s.par.val (memRead s.flash (cfgOffset s.par.val) 8) →
      (nextDuration s = 0 → nextFail (popDuration s) = false →
        exec .ctlPersist s = .next
          { s with
            env := (popFail (popDuration s)).env
            cfg := ⟨memRead s.flash (cfgOffset s.par.val) 8, cur, ⟨i, e⟩⟩
            ctl :=
              if cur = ⟨i, e⟩ then
                { s.ctl with ph := .persistHold, deadline := s.now + 750 * s.par.val.ticksPerMs }
              else { s.ctl with busy := some (.eraseNext .persist), deadline := s.now }
            fresh := false }) ∧
      (nextDuration s ≠ 0 →
        exec .ctlPersist s = .next
          { s with
            env := (popDuration s).env
            cfg := { s.cfg with new := ⟨i, e⟩ }
            ctl := { s.ctl with busy := some (.flRead (.write .persist)), deadline := s.now + nextDuration s }
            fresh := false })) ∧
    (s.ctl.ph = .persistHold → s.now = s.ctl.deadline →
      exec .ctlPersist s = .next
        { s with
          ctl := { s.ctl with deadline := s.now + 5 * s.par.val.ticksPerMs, ph := .trail }
          fresh := false })

/-- DISP.DRAW queues a glyph, DISP.FLUSH makes the queue visible, and either can fail (R270, R271, R44). Where the
rules leave it open, this is the model's choice: assumption log 3, 10, 13, 18, 25. -/
def Obligations.DrawAndFlush : Prop :=
  ∀ s : State, s.ctl.ph ≠ .halt → s.ctl.ph ≠ .reflash →
    (∀ g sl, g.toNat ≤ 14 → sl.toNat ≤ 4 →
      (nextFail s = false →
        exec (.dispDraw g sl) s = .next
          { s with
            env := (popFail s).env
            disp := { s.disp with pending := s.disp.pending ++ [(g, sl)] }
            logs := { s.logs with dispOut := s.logs.dispOut ++ [.draw g sl] }
            fresh := false }) ∧
      (nextFail s = true → exec (.dispDraw g sl) s = .next { raiseControl 4 (popFail s) with fresh := false })) ∧
    (∀ g sl, 14 < g.toNat ∨ 4 < sl.toNat → exec (.dispDraw g sl) s = .refused .notEnabled) ∧
    (s.ctl.busy = none → nextFail s = false →
      ∀ fr d, fr = s.disp.pending.foldl putGlyph s.disp.frame → d = nextDuration (popFail s) →
      exec .dispFlush s = .next
        { s with
          env := (popDuration (popFail s)).env
          disp := ⟨[], fr⟩
          logs := { s.logs with dispOut := s.logs.dispOut ++ [.flush fr] }
          ctl := if d = 0 then s.ctl else { s.ctl with busy := some (.flush .direct), deadline := s.now + d }
          fresh := false }) ∧
    (s.ctl.busy = none → nextFail s = true →
      exec .dispFlush s = .next { raiseControl 4 (popFail s) with fresh := false }) ∧
    (s.ctl.busy = some (.flush .direct) → s.now = s.ctl.deadline →
      exec .dispFlush s = .next { s with ctl := { s.ctl with busy := none }, fresh := false }) ∧
    (s.ctl.busy = some (.flush .recovery) → s.now = s.ctl.deadline →
      exec .dispFlush s = .next
        { s with ctl := { s.ctl with ph := .reflash, busy := none }, reflash := true, fresh := false }) ∧
    (s.ctl.busy = some (.flush .persistAck) → s.now = s.ctl.deadline →
      exec .dispFlush s = .next { s with ctl := { s.ctl with ph := .persistForce, busy := none }, fresh := false })

/-- FAULT sets the latch, keeps the first code and stops the side that raises the code (R255, R256, R257). Where the
rules leave it open, this is the model's choice: assumption log 15, 16, 17, 30. -/
def Obligations.FaultRecordsAndStopsItsSide : Prop :=
  ∀ (s : State) (c : Byte) (l : Latch), l = ⟨true, if s.latch.fault then s.latch.code else c⟩ →
    (1 ≤ c.toNat → c.toNat ≤ 4 →
      exec (.fault c) s = .next
        { s with
          latch := l
          ctl := { s.ctl with ph := .halt, busy := none }
          enc := { s.enc with st := .off }
          btn := { s.btn with st := .off } }) ∧
    (c = 5 → exec (.fault c) s = .next { s with latch := l, aud := { s.aud with halted := true } }) ∧
    (c = 6 ∨ c = 7 → ∃ t, exec (.fault c) s = .next t ∧
      (t = { s with
            latch := l
            ctl := { s.ctl with ph := .halt, busy := none }
            enc := { s.enc with st := .off }
            btn := { s.btn with st := .off }
            env := { s.env with count := s.env.count + 1 } } ∨
        t = { s with
            latch := l
            aud := { s.aud with halted := true }
            env := { s.env with count := s.env.count + 1 } })) ∧
    (c = 0 ∨ 8 ≤ c.toNat → exec (.fault c) s = .refused .reservedOperand)

/-- A halted side takes no further step, and after a fault only ENV.RESET changes the latch (R255, R265, R34, R227).
Where the rules leave it open, this is the model's choice: assumption log 13, 15, 18. -/
def Obligations.FaultIsStickyAndItsSideStops : Prop :=
  (∀ (i : Instr) (s : State), isControl i = true → s.ctl.ph = .halt ∨ s.ctl.ph = .reflash →
    exec i s = .refused .notEnabled) ∧
  (∀ (i : Instr) (s : State), isAudio i = true → s.aud.halted = true → exec i s = .refused .notEnabled) ∧
  ∀ (i : Instr) (s t : State), i ≠ .envReset → exec i s = .next t →
    (s.latch.fault = true → t.latch = s.latch) ∧
    (s.ctl.ph = .halt → t.ctl.ph = .halt ∧ t.flash = s.flash ∧ t.logs.flashLog = s.logs.flashLog ∧ t.sel = s.sel ∧
      t.disp = s.disp ∧ sentOf t.logs.mbxLog = sentOf s.logs.mbxLog) ∧
    (s.aud.halted = true → t.aud = s.aud ∧ t.sm = s.sm ∧ t.fifo = s.fifo ∧ t.dma = s.dma ∧
      t.logs.pdmOut = s.logs.pdmOut)

/-- No encoder, button or mailbox operation, and no output or DMA operation, ever raises a fault (R182, R201, R164,
R138). Where the rules leave it open, this is the model's choice: assumption log 18. -/
def Obligations.InputsRaiseNoFault : Prop :=
  ∀ (i : Instr) (s t : State),
    i ∈ [.smPull, .smShift, .dmaXfer, .dmaAbort, .mbxRecv, .encStart, .encRest, .encArm, .encDrop, .encAbandon,
        .btnStart, .btnEdge, .btnConfirm, .btnRelease, .btnTimeout, .btnTrail, .btnAbandon] ∨
      (∃ b, i ∈ [.smEnable b, .dmaArm b, .encFall b, .encEmit b]) ∨ (∃ v, i = .smSetdiv v) ∨
      (∃ c, i = .encAdvance c) ∨ (∃ e x, i = .mbxSend e x) →
    exec i s = .next t →
    t.latch = s.latch ∧ t.flash = s.flash ∧ t.logs.flashLog = s.logs.flashLog ∧ t.sel = s.sel ∧ t.disp = s.disp

/-- No control-side operation reads or writes the audio side's state (R268, R75, R7). -/
def Obligations.ControlSideSeesNoAudioState : Prop :=
  ∀ i : Instr, isControl i = true →
    (∀ s t : State, exec i s = .next t → t.aud = s.aud ∧ t.sm = s.sm ∧ t.fifo = s.fifo ∧ t.dma = s.dma ∧
      t.rom = s.rom ∧ t.par = s.par ∧ t.now = s.now ∧ t.lines = s.lines ∧ t.logs.pdmOut = s.logs.pdmOut) ∧
    ∀ s s' : State, controlView s = controlView s' →
      seenThrough controlView (exec i s) = seenThrough controlView (exec i s')

/-- No audio-side operation reads or writes the control side's state or time (R268, R75, R76, R12). Where the rules
leave it open, this is the model's choice: assumption log 27. -/
def Obligations.AudioSideSeesNoControlState : Prop :=
  ∀ i : Instr, isAudio i = true →
    (∀ s t : State, exec i s = .next t → t.ctl = s.ctl ∧ t.sel = s.sel ∧ t.enc = s.enc ∧ t.btn = s.btn ∧
      t.cfg = s.cfg ∧ t.flash = s.flash ∧ t.disp = s.disp ∧ t.lines = s.lines ∧ t.now = s.now ∧ t.fresh = s.fresh ∧
      t.reflash = s.reflash ∧ t.rom.t1 = s.rom.t1 ∧ t.rom.t8 = s.rom.t8 ∧ t.par = s.par ∧
      t.logs.flashLog = s.logs.flashLog ∧
      t.logs.dispOut = s.logs.dispOut ∧ sentOf t.logs.mbxLog = sentOf s.logs.mbxLog) ∧
    ∀ s s' : State, audioView s = audioView s' →
      seenThrough audioView (exec i s) = seenThrough audioView (exec i s')

/-- The parameters never change, ROM only by the generator before its first read, and FLASH only in the record's
block by three operations (R218, R77, R80, R63, R46). Where the rules leave it open, this is the model's choice:
assumption log 4, 11, 12, 27. -/
def Obligations.ConstantsAndTheFlashBlock : Prop :=
  ∀ (i : Instr) (s t : State), exec i s = .next t →
    t.par = s.par ∧ t.rom.read = (s.rom.read || decide (i = .dmaXfer)) ∧
    (i ≠ .genPdmgen ∧ i ≠ .genPdmgen8 ∨ s.rom.read = true ∨ s.dma.busy = true →
      t.rom.t1 = s.rom.t1 ∧ t.rom.t8 = s.rom.t8) ∧
    (i ≠ .flErase → i ≠ .flProg → i ≠ .envReset → t.flash = s.flash ∧ t.logs.flashLog = s.logs.flashLog) ∧
    ∀ a, a < cfgOffset s.par.val ∨ cfgOffset s.par.val + blockBytes s.par.val ≤ a → memByte t.flash a = memByte s.flash a
end

