-- ==== Sys2Proof/Laws/Encoding.lean ====
section
/-! SUPPORT. The two parts of an operation word (spec/30_encoding.md R91). -/

namespace Sys2Proof

/-- A word built from an identifier and an argument has that identifier. -/
theorem opOf_opWord (o : Byte) (a : Arg) : opOf (opWord o a) = o := by
  apply BitVec.eq_of_toNat_eq
  simp only [opOf, opWord, BitVec.extractLsb'_toNat, BitVec.toNat_append]
  rw [Nat.shiftLeft_eq, Nat.mul_comm, ← Nat.two_pow_add_eq_or_of_lt a.isLt, Nat.shiftRight_eq_div_pow]
  have ho := o.isLt
  have ha := a.isLt
  omega

/-- A word built from an identifier and an argument has that argument. -/
theorem argOf_opWord (o : Byte) (a : Arg) : argOf (opWord o a) = a := by
  apply BitVec.eq_of_toNat_eq
  simp only [argOf, opWord, BitVec.extractLsb'_toNat, BitVec.toNat_append]
  rw [Nat.shiftLeft_eq, Nat.mul_comm, ← Nat.two_pow_add_eq_or_of_lt a.isLt, Nat.shiftRight_eq_div_pow]
  have ha := a.isLt
  omega

/-- A word is built from its identifier and its argument. -/
theorem opWord_opOf_argOf (w : OpWord) : opWord (opOf w) (argOf w) = w := by
  apply BitVec.eq_of_toNat_eq
  have h := (argOf w).isLt
  simp only [opOf, argOf, opWord, BitVec.extractLsb'_toNat, BitVec.toNat_append] at h ⊢
  rw [Nat.shiftLeft_eq, Nat.mul_comm, ← Nat.two_pow_add_eq_or_of_lt h, Nat.shiftRight_eq_div_pow,
    Nat.shiftRight_eq_div_pow]
  have hw := w.isLt
  omega

/-- The decoder's test of an identifier is membership in the map of R106. -/
theorem knownOp_iff (o : Byte) : knownOp o = true ↔ o ∈ Machine.operationIds := by
  revert o
  decide +kernel

end Sys2Proof
end

