-- ==== Sys2Proof/Laws/State.lean ====
section
/-! SUPPORT. What each named update leaves in each field of the state, so that no proof unfolds a record update. -/

namespace Sys2Proof.Machine

/-! `raiseControl`. -/

@[simp] theorem raiseControl_par (c : Byte) (s : State) : (raiseControl c s).par = s.par := rfl
@[simp] theorem raiseControl_now (c : Byte) (s : State) : (raiseControl c s).now = s.now := rfl
@[simp] theorem raiseControl_fresh (c : Byte) (s : State) : (raiseControl c s).fresh = s.fresh := rfl
@[simp] theorem raiseControl_lines (c : Byte) (s : State) : (raiseControl c s).lines = s.lines := rfl
@[simp] theorem raiseControl_script (c : Byte) (s : State) : (raiseControl c s).script = s.script := rfl
@[simp] theorem raiseControl_env (c : Byte) (s : State) : (raiseControl c s).env = s.env := rfl
@[simp] theorem raiseControl_ctl (c : Byte) (s : State) :
    (raiseControl c s).ctl = { s.ctl with ph := .halt, busy := none } := rfl
@[simp] theorem raiseControl_sel (c : Byte) (s : State) : (raiseControl c s).sel = s.sel := rfl
@[simp] theorem raiseControl_mbx (c : Byte) (s : State) : (raiseControl c s).mbx = s.mbx := rfl
@[simp] theorem raiseControl_enc (c : Byte) (s : State) : (raiseControl c s).enc = { s.enc with st := .off } := rfl
@[simp] theorem raiseControl_btn (c : Byte) (s : State) : (raiseControl c s).btn = { s.btn with st := .off } := rfl
@[simp] theorem raiseControl_cfg (c : Byte) (s : State) : (raiseControl c s).cfg = s.cfg := rfl
@[simp] theorem raiseControl_flash (c : Byte) (s : State) : (raiseControl c s).flash = s.flash := rfl
@[simp] theorem raiseControl_disp (c : Byte) (s : State) : (raiseControl c s).disp = s.disp := rfl
@[simp] theorem raiseControl_aud (c : Byte) (s : State) : (raiseControl c s).aud = s.aud := rfl
@[simp] theorem raiseControl_sm (c : Byte) (s : State) : (raiseControl c s).sm = s.sm := rfl
@[simp] theorem raiseControl_fifo (c : Byte) (s : State) : (raiseControl c s).fifo = s.fifo := rfl
@[simp] theorem raiseControl_dma (c : Byte) (s : State) : (raiseControl c s).dma = s.dma := rfl
@[simp] theorem raiseControl_rom (c : Byte) (s : State) : (raiseControl c s).rom = s.rom := rfl
@[simp] theorem raiseControl_latch (c : Byte) (s : State) : (raiseControl c s).latch = s.latch.record c := rfl
@[simp] theorem raiseControl_reflash (c : Byte) (s : State) : (raiseControl c s).reflash = s.reflash := rfl
@[simp] theorem raiseControl_logs (c : Byte) (s : State) : (raiseControl c s).logs = s.logs := rfl

/-! `raiseAudio`. -/

@[simp] theorem raiseAudio_par (c : Byte) (s : State) : (raiseAudio c s).par = s.par := rfl
@[simp] theorem raiseAudio_now (c : Byte) (s : State) : (raiseAudio c s).now = s.now := rfl
@[simp] theorem raiseAudio_fresh (c : Byte) (s : State) : (raiseAudio c s).fresh = s.fresh := rfl
@[simp] theorem raiseAudio_lines (c : Byte) (s : State) : (raiseAudio c s).lines = s.lines := rfl
@[simp] theorem raiseAudio_script (c : Byte) (s : State) : (raiseAudio c s).script = s.script := rfl
@[simp] theorem raiseAudio_env (c : Byte) (s : State) : (raiseAudio c s).env = s.env := rfl
@[simp] theorem raiseAudio_ctl (c : Byte) (s : State) : (raiseAudio c s).ctl = s.ctl := rfl
@[simp] theorem raiseAudio_sel (c : Byte) (s : State) : (raiseAudio c s).sel = s.sel := rfl
@[simp] theorem raiseAudio_mbx (c : Byte) (s : State) : (raiseAudio c s).mbx = s.mbx := rfl
@[simp] theorem raiseAudio_enc (c : Byte) (s : State) : (raiseAudio c s).enc = s.enc := rfl
@[simp] theorem raiseAudio_btn (c : Byte) (s : State) : (raiseAudio c s).btn = s.btn := rfl
@[simp] theorem raiseAudio_cfg (c : Byte) (s : State) : (raiseAudio c s).cfg = s.cfg := rfl
@[simp] theorem raiseAudio_flash (c : Byte) (s : State) : (raiseAudio c s).flash = s.flash := rfl
@[simp] theorem raiseAudio_disp (c : Byte) (s : State) : (raiseAudio c s).disp = s.disp := rfl
@[simp] theorem raiseAudio_aud (c : Byte) (s : State) : (raiseAudio c s).aud = { s.aud with halted := true } := rfl
@[simp] theorem raiseAudio_sm (c : Byte) (s : State) : (raiseAudio c s).sm = s.sm := rfl
@[simp] theorem raiseAudio_fifo (c : Byte) (s : State) : (raiseAudio c s).fifo = s.fifo := rfl
@[simp] theorem raiseAudio_dma (c : Byte) (s : State) : (raiseAudio c s).dma = s.dma := rfl
@[simp] theorem raiseAudio_rom (c : Byte) (s : State) : (raiseAudio c s).rom = s.rom := rfl
@[simp] theorem raiseAudio_latch (c : Byte) (s : State) : (raiseAudio c s).latch = s.latch.record c := rfl
@[simp] theorem raiseAudio_reflash (c : Byte) (s : State) : (raiseAudio c s).reflash = s.reflash := rfl
@[simp] theorem raiseAudio_logs (c : Byte) (s : State) : (raiseAudio c s).logs = s.logs := rfl

/-! `popFail`. -/

@[simp] theorem popFail_par (s : State) : (popFail s).par = s.par := rfl
@[simp] theorem popFail_now (s : State) : (popFail s).now = s.now := rfl
@[simp] theorem popFail_fresh (s : State) : (popFail s).fresh = s.fresh := rfl
@[simp] theorem popFail_lines (s : State) : (popFail s).lines = s.lines := rfl
@[simp] theorem popFail_script (s : State) : (popFail s).script = s.script := rfl
@[simp] theorem popFail_ctl (s : State) : (popFail s).ctl = s.ctl := rfl
@[simp] theorem popFail_sel (s : State) : (popFail s).sel = s.sel := rfl
@[simp] theorem popFail_mbx (s : State) : (popFail s).mbx = s.mbx := rfl
@[simp] theorem popFail_enc (s : State) : (popFail s).enc = s.enc := rfl
@[simp] theorem popFail_btn (s : State) : (popFail s).btn = s.btn := rfl
@[simp] theorem popFail_cfg (s : State) : (popFail s).cfg = s.cfg := rfl
@[simp] theorem popFail_flash (s : State) : (popFail s).flash = s.flash := rfl
@[simp] theorem popFail_disp (s : State) : (popFail s).disp = s.disp := rfl
@[simp] theorem popFail_aud (s : State) : (popFail s).aud = s.aud := rfl
@[simp] theorem popFail_sm (s : State) : (popFail s).sm = s.sm := rfl
@[simp] theorem popFail_fifo (s : State) : (popFail s).fifo = s.fifo := rfl
@[simp] theorem popFail_dma (s : State) : (popFail s).dma = s.dma := rfl
@[simp] theorem popFail_rom (s : State) : (popFail s).rom = s.rom := rfl
@[simp] theorem popFail_latch (s : State) : (popFail s).latch = s.latch := rfl
@[simp] theorem popFail_reflash (s : State) : (popFail s).reflash = s.reflash := rfl
@[simp] theorem popFail_logs (s : State) : (popFail s).logs = s.logs := rfl

/-! `popDuration`. -/

@[simp] theorem popDuration_par (s : State) : (popDuration s).par = s.par := rfl
@[simp] theorem popDuration_now (s : State) : (popDuration s).now = s.now := rfl
@[simp] theorem popDuration_fresh (s : State) : (popDuration s).fresh = s.fresh := rfl
@[simp] theorem popDuration_lines (s : State) : (popDuration s).lines = s.lines := rfl
@[simp] theorem popDuration_script (s : State) : (popDuration s).script = s.script := rfl
@[simp] theorem popDuration_ctl (s : State) : (popDuration s).ctl = s.ctl := rfl
@[simp] theorem popDuration_sel (s : State) : (popDuration s).sel = s.sel := rfl
@[simp] theorem popDuration_mbx (s : State) : (popDuration s).mbx = s.mbx := rfl
@[simp] theorem popDuration_enc (s : State) : (popDuration s).enc = s.enc := rfl
@[simp] theorem popDuration_btn (s : State) : (popDuration s).btn = s.btn := rfl
@[simp] theorem popDuration_cfg (s : State) : (popDuration s).cfg = s.cfg := rfl
@[simp] theorem popDuration_flash (s : State) : (popDuration s).flash = s.flash := rfl
@[simp] theorem popDuration_disp (s : State) : (popDuration s).disp = s.disp := rfl
@[simp] theorem popDuration_aud (s : State) : (popDuration s).aud = s.aud := rfl
@[simp] theorem popDuration_sm (s : State) : (popDuration s).sm = s.sm := rfl
@[simp] theorem popDuration_fifo (s : State) : (popDuration s).fifo = s.fifo := rfl
@[simp] theorem popDuration_dma (s : State) : (popDuration s).dma = s.dma := rfl
@[simp] theorem popDuration_rom (s : State) : (popDuration s).rom = s.rom := rfl
@[simp] theorem popDuration_latch (s : State) : (popDuration s).latch = s.latch := rfl
@[simp] theorem popDuration_reflash (s : State) : (popDuration s).reflash = s.reflash := rfl
@[simp] theorem popDuration_logs (s : State) : (popDuration s).logs = s.logs := rfl

/-! `scramble`. -/

@[simp] theorem scramble_par (off n : Nat) (s : State) : (scramble off n s).par = s.par := rfl
@[simp] theorem scramble_now (off n : Nat) (s : State) : (scramble off n s).now = s.now := rfl
@[simp] theorem scramble_fresh (off n : Nat) (s : State) : (scramble off n s).fresh = s.fresh := rfl
@[simp] theorem scramble_lines (off n : Nat) (s : State) : (scramble off n s).lines = s.lines := rfl
@[simp] theorem scramble_script (off n : Nat) (s : State) : (scramble off n s).script = s.script := rfl
@[simp] theorem scramble_env (off n : Nat) (s : State) :
    (scramble off n s).env = { s.env with count := s.env.count + 1 } := rfl
@[simp] theorem scramble_ctl (off n : Nat) (s : State) : (scramble off n s).ctl = s.ctl := rfl
@[simp] theorem scramble_sel (off n : Nat) (s : State) : (scramble off n s).sel = s.sel := rfl
@[simp] theorem scramble_mbx (off n : Nat) (s : State) : (scramble off n s).mbx = s.mbx := rfl
@[simp] theorem scramble_enc (off n : Nat) (s : State) : (scramble off n s).enc = s.enc := rfl
@[simp] theorem scramble_btn (off n : Nat) (s : State) : (scramble off n s).btn = s.btn := rfl
@[simp] theorem scramble_cfg (off n : Nat) (s : State) : (scramble off n s).cfg = s.cfg := rfl
@[simp] theorem scramble_flash (off n : Nat) (s : State) :
    (scramble off n s).flash = memStore s.flash off (freeBytes s n) := rfl
@[simp] theorem scramble_disp (off n : Nat) (s : State) : (scramble off n s).disp = s.disp := rfl
@[simp] theorem scramble_aud (off n : Nat) (s : State) : (scramble off n s).aud = s.aud := rfl
@[simp] theorem scramble_sm (off n : Nat) (s : State) : (scramble off n s).sm = s.sm := rfl
@[simp] theorem scramble_fifo (off n : Nat) (s : State) : (scramble off n s).fifo = s.fifo := rfl
@[simp] theorem scramble_dma (off n : Nat) (s : State) : (scramble off n s).dma = s.dma := rfl
@[simp] theorem scramble_rom (off n : Nat) (s : State) : (scramble off n s).rom = s.rom := rfl
@[simp] theorem scramble_latch (off n : Nat) (s : State) : (scramble off n s).latch = s.latch := rfl
@[simp] theorem scramble_reflash (off n : Nat) (s : State) : (scramble off n s).reflash = s.reflash := rfl
@[simp] theorem scramble_logs (off n : Nat) (s : State) : (scramble off n s).logs = s.logs := rfl

/-! `clearBusy`. -/

@[simp] theorem clearBusy_par (s : State) : (clearBusy s).par = s.par := rfl
@[simp] theorem clearBusy_now (s : State) : (clearBusy s).now = s.now := rfl
@[simp] theorem clearBusy_fresh (s : State) : (clearBusy s).fresh = s.fresh := rfl
@[simp] theorem clearBusy_lines (s : State) : (clearBusy s).lines = s.lines := rfl
@[simp] theorem clearBusy_script (s : State) : (clearBusy s).script = s.script := rfl
@[simp] theorem clearBusy_env (s : State) : (clearBusy s).env = s.env := rfl
@[simp] theorem clearBusy_ctl (s : State) : (clearBusy s).ctl = { s.ctl with busy := none } := rfl
@[simp] theorem clearBusy_sel (s : State) : (clearBusy s).sel = s.sel := rfl
@[simp] theorem clearBusy_mbx (s : State) : (clearBusy s).mbx = s.mbx := rfl
@[simp] theorem clearBusy_enc (s : State) : (clearBusy s).enc = s.enc := rfl
@[simp] theorem clearBusy_btn (s : State) : (clearBusy s).btn = s.btn := rfl
@[simp] theorem clearBusy_cfg (s : State) : (clearBusy s).cfg = s.cfg := rfl
@[simp] theorem clearBusy_flash (s : State) : (clearBusy s).flash = s.flash := rfl
@[simp] theorem clearBusy_disp (s : State) : (clearBusy s).disp = s.disp := rfl
@[simp] theorem clearBusy_aud (s : State) : (clearBusy s).aud = s.aud := rfl
@[simp] theorem clearBusy_sm (s : State) : (clearBusy s).sm = s.sm := rfl
@[simp] theorem clearBusy_fifo (s : State) : (clearBusy s).fifo = s.fifo := rfl
@[simp] theorem clearBusy_dma (s : State) : (clearBusy s).dma = s.dma := rfl
@[simp] theorem clearBusy_rom (s : State) : (clearBusy s).rom = s.rom := rfl
@[simp] theorem clearBusy_latch (s : State) : (clearBusy s).latch = s.latch := rfl
@[simp] theorem clearBusy_reflash (s : State) : (clearBusy s).reflash = s.reflash := rfl
@[simp] theorem clearBusy_logs (s : State) : (clearBusy s).logs = s.logs := rfl

/-! `setPhase`. -/

@[simp] theorem setPhase_par (p : CtlPhase) (s : State) : (setPhase p s).par = s.par := rfl
@[simp] theorem setPhase_now (p : CtlPhase) (s : State) : (setPhase p s).now = s.now := rfl
@[simp] theorem setPhase_fresh (p : CtlPhase) (s : State) : (setPhase p s).fresh = s.fresh := rfl
@[simp] theorem setPhase_lines (p : CtlPhase) (s : State) : (setPhase p s).lines = s.lines := rfl
@[simp] theorem setPhase_script (p : CtlPhase) (s : State) : (setPhase p s).script = s.script := rfl
@[simp] theorem setPhase_env (p : CtlPhase) (s : State) : (setPhase p s).env = s.env := rfl
@[simp] theorem setPhase_ctl (p : CtlPhase) (s : State) : (setPhase p s).ctl = { s.ctl with ph := p } := rfl
@[simp] theorem setPhase_sel (p : CtlPhase) (s : State) : (setPhase p s).sel = s.sel := rfl
@[simp] theorem setPhase_mbx (p : CtlPhase) (s : State) : (setPhase p s).mbx = s.mbx := rfl
@[simp] theorem setPhase_enc (p : CtlPhase) (s : State) : (setPhase p s).enc = s.enc := rfl
@[simp] theorem setPhase_btn (p : CtlPhase) (s : State) : (setPhase p s).btn = s.btn := rfl
@[simp] theorem setPhase_cfg (p : CtlPhase) (s : State) : (setPhase p s).cfg = s.cfg := rfl
@[simp] theorem setPhase_flash (p : CtlPhase) (s : State) : (setPhase p s).flash = s.flash := rfl
@[simp] theorem setPhase_disp (p : CtlPhase) (s : State) : (setPhase p s).disp = s.disp := rfl
@[simp] theorem setPhase_aud (p : CtlPhase) (s : State) : (setPhase p s).aud = s.aud := rfl
@[simp] theorem setPhase_sm (p : CtlPhase) (s : State) : (setPhase p s).sm = s.sm := rfl
@[simp] theorem setPhase_fifo (p : CtlPhase) (s : State) : (setPhase p s).fifo = s.fifo := rfl
@[simp] theorem setPhase_dma (p : CtlPhase) (s : State) : (setPhase p s).dma = s.dma := rfl
@[simp] theorem setPhase_rom (p : CtlPhase) (s : State) : (setPhase p s).rom = s.rom := rfl
@[simp] theorem setPhase_latch (p : CtlPhase) (s : State) : (setPhase p s).latch = s.latch := rfl
@[simp] theorem setPhase_reflash (p : CtlPhase) (s : State) : (setPhase p s).reflash = s.reflash := rfl
@[simp] theorem setPhase_logs (p : CtlPhase) (s : State) : (setPhase p s).logs = s.logs := rfl

/-! `sendSelection`. -/

@[simp] theorem sendSelection_par (v : Selection) (s : State) : (sendSelection v s).par = s.par := rfl
@[simp] theorem sendSelection_now (v : Selection) (s : State) : (sendSelection v s).now = s.now := rfl
@[simp] theorem sendSelection_fresh (v : Selection) (s : State) : (sendSelection v s).fresh = s.fresh := rfl
@[simp] theorem sendSelection_lines (v : Selection) (s : State) : (sendSelection v s).lines = s.lines := rfl
@[simp] theorem sendSelection_script (v : Selection) (s : State) : (sendSelection v s).script = s.script := rfl
@[simp] theorem sendSelection_env (v : Selection) (s : State) : (sendSelection v s).env = s.env := rfl
@[simp] theorem sendSelection_ctl (v : Selection) (s : State) : (sendSelection v s).ctl = s.ctl := rfl
@[simp] theorem sendSelection_sel (v : Selection) (s : State) : (sendSelection v s).sel = s.sel := rfl
@[simp] theorem sendSelection_mbx (v : Selection) (s : State) : (sendSelection v s).mbx = ⟨true, v⟩ := rfl
@[simp] theorem sendSelection_enc (v : Selection) (s : State) : (sendSelection v s).enc = s.enc := rfl
@[simp] theorem sendSelection_btn (v : Selection) (s : State) : (sendSelection v s).btn = s.btn := rfl
@[simp] theorem sendSelection_cfg (v : Selection) (s : State) : (sendSelection v s).cfg = s.cfg := rfl
@[simp] theorem sendSelection_flash (v : Selection) (s : State) : (sendSelection v s).flash = s.flash := rfl
@[simp] theorem sendSelection_disp (v : Selection) (s : State) : (sendSelection v s).disp = s.disp := rfl
@[simp] theorem sendSelection_aud (v : Selection) (s : State) : (sendSelection v s).aud = s.aud := rfl
@[simp] theorem sendSelection_sm (v : Selection) (s : State) : (sendSelection v s).sm = s.sm := rfl
@[simp] theorem sendSelection_fifo (v : Selection) (s : State) : (sendSelection v s).fifo = s.fifo := rfl
@[simp] theorem sendSelection_dma (v : Selection) (s : State) : (sendSelection v s).dma = s.dma := rfl
@[simp] theorem sendSelection_rom (v : Selection) (s : State) : (sendSelection v s).rom = s.rom := rfl
@[simp] theorem sendSelection_latch (v : Selection) (s : State) : (sendSelection v s).latch = s.latch := rfl
@[simp] theorem sendSelection_reflash (v : Selection) (s : State) : (sendSelection v s).reflash = s.reflash := rfl
@[simp] theorem sendSelection_logs (v : Selection) (s : State) :
    (sendSelection v s).logs = { s.logs with mbxLog := s.logs.mbxLog ++ [.send v] } := rfl

/-! `receiveSelection`. -/

@[simp] theorem receiveSelection_par (s : State) : (receiveSelection s).par = s.par := rfl
@[simp] theorem receiveSelection_now (s : State) : (receiveSelection s).now = s.now := rfl
@[simp] theorem receiveSelection_fresh (s : State) : (receiveSelection s).fresh = s.fresh := rfl
@[simp] theorem receiveSelection_lines (s : State) : (receiveSelection s).lines = s.lines := rfl
@[simp] theorem receiveSelection_script (s : State) : (receiveSelection s).script = s.script := rfl
@[simp] theorem receiveSelection_env (s : State) : (receiveSelection s).env = s.env := rfl
@[simp] theorem receiveSelection_ctl (s : State) : (receiveSelection s).ctl = s.ctl := rfl
@[simp] theorem receiveSelection_sel (s : State) : (receiveSelection s).sel = s.sel := rfl
@[simp] theorem receiveSelection_mbx (s : State) : (receiveSelection s).mbx = { s.mbx with full := false } := rfl
@[simp] theorem receiveSelection_enc (s : State) : (receiveSelection s).enc = s.enc := rfl
@[simp] theorem receiveSelection_btn (s : State) : (receiveSelection s).btn = s.btn := rfl
@[simp] theorem receiveSelection_cfg (s : State) : (receiveSelection s).cfg = s.cfg := rfl
@[simp] theorem receiveSelection_flash (s : State) : (receiveSelection s).flash = s.flash := rfl
@[simp] theorem receiveSelection_disp (s : State) : (receiveSelection s).disp = s.disp := rfl
@[simp] theorem receiveSelection_aud (s : State) : (receiveSelection s).aud = s.aud := rfl
@[simp] theorem receiveSelection_sm (s : State) : (receiveSelection s).sm = s.sm := rfl
@[simp] theorem receiveSelection_fifo (s : State) : (receiveSelection s).fifo = s.fifo := rfl
@[simp] theorem receiveSelection_dma (s : State) : (receiveSelection s).dma = s.dma := rfl
@[simp] theorem receiveSelection_rom (s : State) : (receiveSelection s).rom = s.rom := rfl
@[simp] theorem receiveSelection_latch (s : State) : (receiveSelection s).latch = s.latch := rfl
@[simp] theorem receiveSelection_reflash (s : State) : (receiveSelection s).reflash = s.reflash := rfl
@[simp] theorem receiveSelection_logs (s : State) :
    (receiveSelection s).logs = { s.logs with mbxLog := s.logs.mbxLog ++ [.recv s.mbx.val] } := rfl

/-! `queueDraw`. -/

@[simp] theorem queueDraw_par (d : Glyph × Slot) (s : State) : (queueDraw d s).par = s.par := rfl
@[simp] theorem queueDraw_now (d : Glyph × Slot) (s : State) : (queueDraw d s).now = s.now := rfl
@[simp] theorem queueDraw_fresh (d : Glyph × Slot) (s : State) : (queueDraw d s).fresh = s.fresh := rfl
@[simp] theorem queueDraw_lines (d : Glyph × Slot) (s : State) : (queueDraw d s).lines = s.lines := rfl
@[simp] theorem queueDraw_script (d : Glyph × Slot) (s : State) : (queueDraw d s).script = s.script := rfl
@[simp] theorem queueDraw_env (d : Glyph × Slot) (s : State) : (queueDraw d s).env = s.env := rfl
@[simp] theorem queueDraw_ctl (d : Glyph × Slot) (s : State) : (queueDraw d s).ctl = s.ctl := rfl
@[simp] theorem queueDraw_sel (d : Glyph × Slot) (s : State) : (queueDraw d s).sel = s.sel := rfl
@[simp] theorem queueDraw_mbx (d : Glyph × Slot) (s : State) : (queueDraw d s).mbx = s.mbx := rfl
@[simp] theorem queueDraw_enc (d : Glyph × Slot) (s : State) : (queueDraw d s).enc = s.enc := rfl
@[simp] theorem queueDraw_btn (d : Glyph × Slot) (s : State) : (queueDraw d s).btn = s.btn := rfl
@[simp] theorem queueDraw_cfg (d : Glyph × Slot) (s : State) : (queueDraw d s).cfg = s.cfg := rfl
@[simp] theorem queueDraw_flash (d : Glyph × Slot) (s : State) : (queueDraw d s).flash = s.flash := rfl
@[simp] theorem queueDraw_disp (d : Glyph × Slot) (s : State) :
    (queueDraw d s).disp = { s.disp with pending := s.disp.pending ++ [d] } := rfl
@[simp] theorem queueDraw_aud (d : Glyph × Slot) (s : State) : (queueDraw d s).aud = s.aud := rfl
@[simp] theorem queueDraw_sm (d : Glyph × Slot) (s : State) : (queueDraw d s).sm = s.sm := rfl
@[simp] theorem queueDraw_fifo (d : Glyph × Slot) (s : State) : (queueDraw d s).fifo = s.fifo := rfl
@[simp] theorem queueDraw_dma (d : Glyph × Slot) (s : State) : (queueDraw d s).dma = s.dma := rfl
@[simp] theorem queueDraw_rom (d : Glyph × Slot) (s : State) : (queueDraw d s).rom = s.rom := rfl
@[simp] theorem queueDraw_latch (d : Glyph × Slot) (s : State) : (queueDraw d s).latch = s.latch := rfl
@[simp] theorem queueDraw_reflash (d : Glyph × Slot) (s : State) : (queueDraw d s).reflash = s.reflash := rfl
@[simp] theorem queueDraw_logs (d : Glyph × Slot) (s : State) :
    (queueDraw d s).logs = { s.logs with dispOut := s.logs.dispOut ++ [.draw d.1 d.2] } := rfl

/-! `showFrame`. -/

@[simp] theorem showFrame_par (s : State) : (showFrame s).par = s.par := rfl
@[simp] theorem showFrame_now (s : State) : (showFrame s).now = s.now := rfl
@[simp] theorem showFrame_fresh (s : State) : (showFrame s).fresh = s.fresh := rfl
@[simp] theorem showFrame_lines (s : State) : (showFrame s).lines = s.lines := rfl
@[simp] theorem showFrame_script (s : State) : (showFrame s).script = s.script := rfl
@[simp] theorem showFrame_env (s : State) : (showFrame s).env = s.env := rfl
@[simp] theorem showFrame_ctl (s : State) : (showFrame s).ctl = s.ctl := rfl
@[simp] theorem showFrame_sel (s : State) : (showFrame s).sel = s.sel := rfl
@[simp] theorem showFrame_mbx (s : State) : (showFrame s).mbx = s.mbx := rfl
@[simp] theorem showFrame_enc (s : State) : (showFrame s).enc = s.enc := rfl
@[simp] theorem showFrame_btn (s : State) : (showFrame s).btn = s.btn := rfl
@[simp] theorem showFrame_cfg (s : State) : (showFrame s).cfg = s.cfg := rfl
@[simp] theorem showFrame_flash (s : State) : (showFrame s).flash = s.flash := rfl
@[simp] theorem showFrame_disp (s : State) : (showFrame s).disp = ⟨[], flushedFrame s.disp⟩ := rfl
@[simp] theorem showFrame_aud (s : State) : (showFrame s).aud = s.aud := rfl
@[simp] theorem showFrame_sm (s : State) : (showFrame s).sm = s.sm := rfl
@[simp] theorem showFrame_fifo (s : State) : (showFrame s).fifo = s.fifo := rfl
@[simp] theorem showFrame_dma (s : State) : (showFrame s).dma = s.dma := rfl
@[simp] theorem showFrame_rom (s : State) : (showFrame s).rom = s.rom := rfl
@[simp] theorem showFrame_latch (s : State) : (showFrame s).latch = s.latch := rfl
@[simp] theorem showFrame_reflash (s : State) : (showFrame s).reflash = s.reflash := rfl
@[simp] theorem showFrame_logs (s : State) :
    (showFrame s).logs = { s.logs with dispOut := s.logs.dispOut ++ [.flush (flushedFrame s.disp)] } := rfl

/-! `decodeBuffer`. -/

@[simp] theorem decodeBuffer_par (s : State) : (decodeBuffer s).par = s.par := rfl
@[simp] theorem decodeBuffer_now (s : State) : (decodeBuffer s).now = s.now := rfl
@[simp] theorem decodeBuffer_fresh (s : State) : (decodeBuffer s).fresh = s.fresh := rfl
@[simp] theorem decodeBuffer_lines (s : State) : (decodeBuffer s).lines = s.lines := rfl
@[simp] theorem decodeBuffer_script (s : State) : (decodeBuffer s).script = s.script := rfl
@[simp] theorem decodeBuffer_env (s : State) : (decodeBuffer s).env = s.env := rfl
@[simp] theorem decodeBuffer_ctl (s : State) : (decodeBuffer s).ctl = s.ctl := rfl
@[simp] theorem decodeBuffer_sel (s : State) : (decodeBuffer s).sel = s.sel := rfl
@[simp] theorem decodeBuffer_mbx (s : State) : (decodeBuffer s).mbx = s.mbx := rfl
@[simp] theorem decodeBuffer_enc (s : State) : (decodeBuffer s).enc = s.enc := rfl
@[simp] theorem decodeBuffer_btn (s : State) : (decodeBuffer s).btn = s.btn := rfl
@[simp] theorem decodeBuffer_cfg (s : State) :
    (decodeBuffer s).cfg = { s.cfg with cur := decodeRecord s.par.val s.cfg.buf } := rfl
@[simp] theorem decodeBuffer_flash (s : State) : (decodeBuffer s).flash = s.flash := rfl
@[simp] theorem decodeBuffer_disp (s : State) : (decodeBuffer s).disp = s.disp := rfl
@[simp] theorem decodeBuffer_aud (s : State) : (decodeBuffer s).aud = s.aud := rfl
@[simp] theorem decodeBuffer_sm (s : State) : (decodeBuffer s).sm = s.sm := rfl
@[simp] theorem decodeBuffer_fifo (s : State) : (decodeBuffer s).fifo = s.fifo := rfl
@[simp] theorem decodeBuffer_dma (s : State) : (decodeBuffer s).dma = s.dma := rfl
@[simp] theorem decodeBuffer_rom (s : State) : (decodeBuffer s).rom = s.rom := rfl
@[simp] theorem decodeBuffer_latch (s : State) : (decodeBuffer s).latch = s.latch := rfl
@[simp] theorem decodeBuffer_reflash (s : State) : (decodeBuffer s).reflash = s.reflash := rfl
@[simp] theorem decodeBuffer_logs (s : State) : (decodeBuffer s).logs = s.logs := rfl

/-! `abandonEncoder`. -/

@[simp] theorem abandonEncoder_par (s : State) : (abandonEncoder s).par = s.par := rfl
@[simp] theorem abandonEncoder_now (s : State) : (abandonEncoder s).now = s.now := rfl
@[simp] theorem abandonEncoder_fresh (s : State) : (abandonEncoder s).fresh = s.fresh := rfl
@[simp] theorem abandonEncoder_lines (s : State) : (abandonEncoder s).lines = s.lines := rfl
@[simp] theorem abandonEncoder_script (s : State) : (abandonEncoder s).script = s.script := rfl
@[simp] theorem abandonEncoder_env (s : State) : (abandonEncoder s).env = s.env := rfl
@[simp] theorem abandonEncoder_ctl (s : State) : (abandonEncoder s).ctl = s.ctl := rfl
@[simp] theorem abandonEncoder_sel (s : State) : (abandonEncoder s).sel = s.sel := rfl
@[simp] theorem abandonEncoder_mbx (s : State) : (abandonEncoder s).mbx = s.mbx := rfl
@[simp] theorem abandonEncoder_enc (s : State) : (abandonEncoder s).enc = { s.enc with st := .off } := rfl
@[simp] theorem abandonEncoder_btn (s : State) : (abandonEncoder s).btn = s.btn := rfl
@[simp] theorem abandonEncoder_cfg (s : State) : (abandonEncoder s).cfg = s.cfg := rfl
@[simp] theorem abandonEncoder_flash (s : State) : (abandonEncoder s).flash = s.flash := rfl
@[simp] theorem abandonEncoder_disp (s : State) : (abandonEncoder s).disp = s.disp := rfl
@[simp] theorem abandonEncoder_aud (s : State) : (abandonEncoder s).aud = s.aud := rfl
@[simp] theorem abandonEncoder_sm (s : State) : (abandonEncoder s).sm = s.sm := rfl
@[simp] theorem abandonEncoder_fifo (s : State) : (abandonEncoder s).fifo = s.fifo := rfl
@[simp] theorem abandonEncoder_dma (s : State) : (abandonEncoder s).dma = s.dma := rfl
@[simp] theorem abandonEncoder_rom (s : State) : (abandonEncoder s).rom = s.rom := rfl
@[simp] theorem abandonEncoder_latch (s : State) : (abandonEncoder s).latch = s.latch := rfl
@[simp] theorem abandonEncoder_reflash (s : State) : (abandonEncoder s).reflash = s.reflash := rfl
@[simp] theorem abandonEncoder_logs (s : State) : (abandonEncoder s).logs = s.logs := rfl

/-! `abandonButton`. -/

@[simp] theorem abandonButton_par (s : State) : (abandonButton s).par = s.par := rfl
@[simp] theorem abandonButton_now (s : State) : (abandonButton s).now = s.now := rfl
@[simp] theorem abandonButton_fresh (s : State) : (abandonButton s).fresh = s.fresh := rfl
@[simp] theorem abandonButton_lines (s : State) : (abandonButton s).lines = s.lines := rfl
@[simp] theorem abandonButton_script (s : State) : (abandonButton s).script = s.script := rfl
@[simp] theorem abandonButton_env (s : State) : (abandonButton s).env = s.env := rfl
@[simp] theorem abandonButton_ctl (s : State) : (abandonButton s).ctl = s.ctl := rfl
@[simp] theorem abandonButton_sel (s : State) : (abandonButton s).sel = s.sel := rfl
@[simp] theorem abandonButton_mbx (s : State) : (abandonButton s).mbx = s.mbx := rfl
@[simp] theorem abandonButton_enc (s : State) : (abandonButton s).enc = s.enc := rfl
@[simp] theorem abandonButton_btn (s : State) :
    (abandonButton s).btn = (if s.btn.st = .idle then { s.btn with st := .off } else s.btn) := rfl
@[simp] theorem abandonButton_cfg (s : State) : (abandonButton s).cfg = s.cfg := rfl
@[simp] theorem abandonButton_flash (s : State) : (abandonButton s).flash = s.flash := rfl
@[simp] theorem abandonButton_disp (s : State) : (abandonButton s).disp = s.disp := rfl
@[simp] theorem abandonButton_aud (s : State) : (abandonButton s).aud = s.aud := rfl
@[simp] theorem abandonButton_sm (s : State) : (abandonButton s).sm = s.sm := rfl
@[simp] theorem abandonButton_fifo (s : State) : (abandonButton s).fifo = s.fifo := rfl
@[simp] theorem abandonButton_dma (s : State) : (abandonButton s).dma = s.dma := rfl
@[simp] theorem abandonButton_rom (s : State) : (abandonButton s).rom = s.rom := rfl
@[simp] theorem abandonButton_latch (s : State) : (abandonButton s).latch = s.latch := rfl
@[simp] theorem abandonButton_reflash (s : State) : (abandonButton s).reflash = s.reflash := rfl
@[simp] theorem abandonButton_logs (s : State) : (abandonButton s).logs = s.logs := rfl

/-! `startEncoder`. -/

@[simp] theorem startEncoder_par (s : State) : (startEncoder s).par = s.par := rfl
@[simp] theorem startEncoder_now (s : State) : (startEncoder s).now = s.now := rfl
@[simp] theorem startEncoder_fresh (s : State) : (startEncoder s).fresh = s.fresh := rfl
@[simp] theorem startEncoder_lines (s : State) : (startEncoder s).lines = s.lines := rfl
@[simp] theorem startEncoder_script (s : State) : (startEncoder s).script = s.script := rfl
@[simp] theorem startEncoder_env (s : State) : (startEncoder s).env = s.env := rfl
@[simp] theorem startEncoder_ctl (s : State) : (startEncoder s).ctl = s.ctl := rfl
@[simp] theorem startEncoder_sel (s : State) : (startEncoder s).sel = s.sel := rfl
@[simp] theorem startEncoder_mbx (s : State) : (startEncoder s).mbx = s.mbx := rfl
@[simp] theorem startEncoder_enc (s : State) : (startEncoder s).enc = { s.enc with st := .restWait } := rfl
@[simp] theorem startEncoder_btn (s : State) : (startEncoder s).btn = s.btn := rfl
@[simp] theorem startEncoder_cfg (s : State) : (startEncoder s).cfg = s.cfg := rfl
@[simp] theorem startEncoder_flash (s : State) : (startEncoder s).flash = s.flash := rfl
@[simp] theorem startEncoder_disp (s : State) : (startEncoder s).disp = s.disp := rfl
@[simp] theorem startEncoder_aud (s : State) : (startEncoder s).aud = s.aud := rfl
@[simp] theorem startEncoder_sm (s : State) : (startEncoder s).sm = s.sm := rfl
@[simp] theorem startEncoder_fifo (s : State) : (startEncoder s).fifo = s.fifo := rfl
@[simp] theorem startEncoder_dma (s : State) : (startEncoder s).dma = s.dma := rfl
@[simp] theorem startEncoder_rom (s : State) : (startEncoder s).rom = s.rom := rfl
@[simp] theorem startEncoder_latch (s : State) : (startEncoder s).latch = s.latch := rfl
@[simp] theorem startEncoder_reflash (s : State) : (startEncoder s).reflash = s.reflash := rfl
@[simp] theorem startEncoder_logs (s : State) : (startEncoder s).logs = s.logs := rfl

/-! `startButton`. -/

@[simp] theorem startButton_par (s : State) : (startButton s).par = s.par := rfl
@[simp] theorem startButton_now (s : State) : (startButton s).now = s.now := rfl
@[simp] theorem startButton_fresh (s : State) : (startButton s).fresh = s.fresh := rfl
@[simp] theorem startButton_lines (s : State) : (startButton s).lines = s.lines := rfl
@[simp] theorem startButton_script (s : State) : (startButton s).script = s.script := rfl
@[simp] theorem startButton_env (s : State) : (startButton s).env = s.env := rfl
@[simp] theorem startButton_ctl (s : State) : (startButton s).ctl = s.ctl := rfl
@[simp] theorem startButton_sel (s : State) : (startButton s).sel = s.sel := rfl
@[simp] theorem startButton_mbx (s : State) : (startButton s).mbx = s.mbx := rfl
@[simp] theorem startButton_enc (s : State) : (startButton s).enc = s.enc := rfl
@[simp] theorem startButton_btn (s : State) : (startButton s).btn = { s.btn with st := .idle, tStart := s.now } := rfl
@[simp] theorem startButton_cfg (s : State) : (startButton s).cfg = s.cfg := rfl
@[simp] theorem startButton_flash (s : State) : (startButton s).flash = s.flash := rfl
@[simp] theorem startButton_disp (s : State) : (startButton s).disp = s.disp := rfl
@[simp] theorem startButton_aud (s : State) : (startButton s).aud = s.aud := rfl
@[simp] theorem startButton_sm (s : State) : (startButton s).sm = s.sm := rfl
@[simp] theorem startButton_fifo (s : State) : (startButton s).fifo = s.fifo := rfl
@[simp] theorem startButton_dma (s : State) : (startButton s).dma = s.dma := rfl
@[simp] theorem startButton_rom (s : State) : (startButton s).rom = s.rom := rfl
@[simp] theorem startButton_latch (s : State) : (startButton s).latch = s.latch := rfl
@[simp] theorem startButton_reflash (s : State) : (startButton s).reflash = s.reflash := rfl
@[simp] theorem startButton_logs (s : State) : (startButton s).logs = s.logs := rfl

/-! `enableOutput`. -/

@[simp] theorem enableOutput_par (b : Bool) (s : State) : (enableOutput b s).par = s.par := rfl
@[simp] theorem enableOutput_now (b : Bool) (s : State) : (enableOutput b s).now = s.now := rfl
@[simp] theorem enableOutput_fresh (b : Bool) (s : State) : (enableOutput b s).fresh = s.fresh := rfl
@[simp] theorem enableOutput_lines (b : Bool) (s : State) : (enableOutput b s).lines = s.lines := rfl
@[simp] theorem enableOutput_script (b : Bool) (s : State) : (enableOutput b s).script = s.script := rfl
@[simp] theorem enableOutput_env (b : Bool) (s : State) : (enableOutput b s).env = s.env := rfl
@[simp] theorem enableOutput_ctl (b : Bool) (s : State) : (enableOutput b s).ctl = s.ctl := rfl
@[simp] theorem enableOutput_sel (b : Bool) (s : State) : (enableOutput b s).sel = s.sel := rfl
@[simp] theorem enableOutput_mbx (b : Bool) (s : State) : (enableOutput b s).mbx = s.mbx := rfl
@[simp] theorem enableOutput_enc (b : Bool) (s : State) : (enableOutput b s).enc = s.enc := rfl
@[simp] theorem enableOutput_btn (b : Bool) (s : State) : (enableOutput b s).btn = s.btn := rfl
@[simp] theorem enableOutput_cfg (b : Bool) (s : State) : (enableOutput b s).cfg = s.cfg := rfl
@[simp] theorem enableOutput_flash (b : Bool) (s : State) : (enableOutput b s).flash = s.flash := rfl
@[simp] theorem enableOutput_disp (b : Bool) (s : State) : (enableOutput b s).disp = s.disp := rfl
@[simp] theorem enableOutput_aud (b : Bool) (s : State) : (enableOutput b s).aud = s.aud := rfl
@[simp] theorem enableOutput_sm (b : Bool) (s : State) : (enableOutput b s).sm = { s.sm with en := b } := rfl
@[simp] theorem enableOutput_fifo (b : Bool) (s : State) : (enableOutput b s).fifo = s.fifo := rfl
@[simp] theorem enableOutput_dma (b : Bool) (s : State) : (enableOutput b s).dma = s.dma := rfl
@[simp] theorem enableOutput_rom (b : Bool) (s : State) : (enableOutput b s).rom = s.rom := rfl
@[simp] theorem enableOutput_latch (b : Bool) (s : State) : (enableOutput b s).latch = s.latch := rfl
@[simp] theorem enableOutput_reflash (b : Bool) (s : State) : (enableOutput b s).reflash = s.reflash := rfl
@[simp] theorem enableOutput_logs (b : Bool) (s : State) : (enableOutput b s).logs = s.logs := rfl

/-! `setDivider`. -/

@[simp] theorem setDivider_par (v : Word32) (s : State) : (setDivider v s).par = s.par := rfl
@[simp] theorem setDivider_now (v : Word32) (s : State) : (setDivider v s).now = s.now := rfl
@[simp] theorem setDivider_fresh (v : Word32) (s : State) : (setDivider v s).fresh = s.fresh := rfl
@[simp] theorem setDivider_lines (v : Word32) (s : State) : (setDivider v s).lines = s.lines := rfl
@[simp] theorem setDivider_script (v : Word32) (s : State) : (setDivider v s).script = s.script := rfl
@[simp] theorem setDivider_env (v : Word32) (s : State) : (setDivider v s).env = s.env := rfl
@[simp] theorem setDivider_ctl (v : Word32) (s : State) : (setDivider v s).ctl = s.ctl := rfl
@[simp] theorem setDivider_sel (v : Word32) (s : State) : (setDivider v s).sel = s.sel := rfl
@[simp] theorem setDivider_mbx (v : Word32) (s : State) : (setDivider v s).mbx = s.mbx := rfl
@[simp] theorem setDivider_enc (v : Word32) (s : State) : (setDivider v s).enc = s.enc := rfl
@[simp] theorem setDivider_btn (v : Word32) (s : State) : (setDivider v s).btn = s.btn := rfl
@[simp] theorem setDivider_cfg (v : Word32) (s : State) : (setDivider v s).cfg = s.cfg := rfl
@[simp] theorem setDivider_flash (v : Word32) (s : State) : (setDivider v s).flash = s.flash := rfl
@[simp] theorem setDivider_disp (v : Word32) (s : State) : (setDivider v s).disp = s.disp := rfl
@[simp] theorem setDivider_aud (v : Word32) (s : State) : (setDivider v s).aud = s.aud := rfl
@[simp] theorem setDivider_sm (v : Word32) (s : State) : (setDivider v s).sm = { s.sm with clkdiv := .set v } := rfl
@[simp] theorem setDivider_fifo (v : Word32) (s : State) : (setDivider v s).fifo = s.fifo := rfl
@[simp] theorem setDivider_dma (v : Word32) (s : State) : (setDivider v s).dma = s.dma := rfl
@[simp] theorem setDivider_rom (v : Word32) (s : State) : (setDivider v s).rom = s.rom := rfl
@[simp] theorem setDivider_latch (v : Word32) (s : State) : (setDivider v s).latch = s.latch := rfl
@[simp] theorem setDivider_reflash (v : Word32) (s : State) : (setDivider v s).reflash = s.reflash := rfl
@[simp] theorem setDivider_logs (v : Word32) (s : State) : (setDivider v s).logs = s.logs := rfl

/-! `armDma`. -/

@[simp] theorem armDma_par (b : Bool) (s : State) : (armDma b s).par = s.par := rfl
@[simp] theorem armDma_now (b : Bool) (s : State) : (armDma b s).now = s.now := rfl
@[simp] theorem armDma_fresh (b : Bool) (s : State) : (armDma b s).fresh = s.fresh := rfl
@[simp] theorem armDma_lines (b : Bool) (s : State) : (armDma b s).lines = s.lines := rfl
@[simp] theorem armDma_script (b : Bool) (s : State) : (armDma b s).script = s.script := rfl
@[simp] theorem armDma_env (b : Bool) (s : State) : (armDma b s).env = s.env := rfl
@[simp] theorem armDma_ctl (b : Bool) (s : State) : (armDma b s).ctl = s.ctl := rfl
@[simp] theorem armDma_sel (b : Bool) (s : State) : (armDma b s).sel = s.sel := rfl
@[simp] theorem armDma_mbx (b : Bool) (s : State) : (armDma b s).mbx = s.mbx := rfl
@[simp] theorem armDma_enc (b : Bool) (s : State) : (armDma b s).enc = s.enc := rfl
@[simp] theorem armDma_btn (b : Bool) (s : State) : (armDma b s).btn = s.btn := rfl
@[simp] theorem armDma_cfg (b : Bool) (s : State) : (armDma b s).cfg = s.cfg := rfl
@[simp] theorem armDma_flash (b : Bool) (s : State) : (armDma b s).flash = s.flash := rfl
@[simp] theorem armDma_disp (b : Bool) (s : State) : (armDma b s).disp = s.disp := rfl
@[simp] theorem armDma_aud (b : Bool) (s : State) : (armDma b s).aud = s.aud := rfl
@[simp] theorem armDma_sm (b : Bool) (s : State) : (armDma b s).sm = s.sm := rfl
@[simp] theorem armDma_fifo (b : Bool) (s : State) : (armDma b s).fifo = s.fifo := rfl
@[simp] theorem armDma_dma (b : Bool) (s : State) : (armDma b s).dma = ⟨0, b, true, false⟩ := rfl
@[simp] theorem armDma_rom (b : Bool) (s : State) : (armDma b s).rom = s.rom := rfl
@[simp] theorem armDma_latch (b : Bool) (s : State) : (armDma b s).latch = s.latch := rfl
@[simp] theorem armDma_reflash (b : Bool) (s : State) : (armDma b s).reflash = s.reflash := rfl
@[simp] theorem armDma_logs (b : Bool) (s : State) : (armDma b s).logs = s.logs := rfl

/-! `abortDma`. -/

@[simp] theorem abortDma_par (s : State) : (abortDma s).par = s.par := rfl
@[simp] theorem abortDma_now (s : State) : (abortDma s).now = s.now := rfl
@[simp] theorem abortDma_fresh (s : State) : (abortDma s).fresh = s.fresh := rfl
@[simp] theorem abortDma_lines (s : State) : (abortDma s).lines = s.lines := rfl
@[simp] theorem abortDma_script (s : State) : (abortDma s).script = s.script := rfl
@[simp] theorem abortDma_env (s : State) : (abortDma s).env = s.env := rfl
@[simp] theorem abortDma_ctl (s : State) : (abortDma s).ctl = s.ctl := rfl
@[simp] theorem abortDma_sel (s : State) : (abortDma s).sel = s.sel := rfl
@[simp] theorem abortDma_mbx (s : State) : (abortDma s).mbx = s.mbx := rfl
@[simp] theorem abortDma_enc (s : State) : (abortDma s).enc = s.enc := rfl
@[simp] theorem abortDma_btn (s : State) : (abortDma s).btn = s.btn := rfl
@[simp] theorem abortDma_cfg (s : State) : (abortDma s).cfg = s.cfg := rfl
@[simp] theorem abortDma_flash (s : State) : (abortDma s).flash = s.flash := rfl
@[simp] theorem abortDma_disp (s : State) : (abortDma s).disp = s.disp := rfl
@[simp] theorem abortDma_aud (s : State) : (abortDma s).aud = s.aud := rfl
@[simp] theorem abortDma_sm (s : State) : (abortDma s).sm = s.sm := rfl
@[simp] theorem abortDma_fifo (s : State) : (abortDma s).fifo = s.fifo := rfl
@[simp] theorem abortDma_dma (s : State) : (abortDma s).dma = { s.dma with busy := false, done := false } := rfl
@[simp] theorem abortDma_rom (s : State) : (abortDma s).rom = s.rom := rfl
@[simp] theorem abortDma_latch (s : State) : (abortDma s).latch = s.latch := rfl
@[simp] theorem abortDma_reflash (s : State) : (abortDma s).reflash = s.reflash := rfl
@[simp] theorem abortDma_logs (s : State) : (abortDma s).logs = s.logs := rfl

/-! `tick`. -/

@[simp] theorem tick_par (s : State) : (tick s).par = s.par := rfl
@[simp] theorem tick_now (s : State) : (tick s).now = s.now + 1 := rfl
@[simp] theorem tick_fresh (s : State) : (tick s).fresh = true := rfl
@[simp] theorem tick_lines (s : State) : (tick s).lines = { s.lines with btnPrev := s.lines.btn } := rfl
@[simp] theorem tick_script (s : State) : (tick s).script = s.script := rfl
@[simp] theorem tick_env (s : State) : (tick s).env = s.env := rfl
@[simp] theorem tick_ctl (s : State) : (tick s).ctl = s.ctl := rfl
@[simp] theorem tick_sel (s : State) : (tick s).sel = s.sel := rfl
@[simp] theorem tick_mbx (s : State) : (tick s).mbx = s.mbx := rfl
@[simp] theorem tick_enc (s : State) : (tick s).enc = s.enc := rfl
@[simp] theorem tick_btn (s : State) : (tick s).btn = s.btn := rfl
@[simp] theorem tick_cfg (s : State) : (tick s).cfg = s.cfg := rfl
@[simp] theorem tick_flash (s : State) : (tick s).flash = s.flash := rfl
@[simp] theorem tick_disp (s : State) : (tick s).disp = s.disp := rfl
@[simp] theorem tick_aud (s : State) : (tick s).aud = s.aud := rfl
@[simp] theorem tick_sm (s : State) : (tick s).sm = s.sm := rfl
@[simp] theorem tick_fifo (s : State) : (tick s).fifo = s.fifo := rfl
@[simp] theorem tick_dma (s : State) : (tick s).dma = s.dma := rfl
@[simp] theorem tick_rom (s : State) : (tick s).rom = s.rom := rfl
@[simp] theorem tick_latch (s : State) : (tick s).latch = s.latch := rfl
@[simp] theorem tick_reflash (s : State) : (tick s).reflash = s.reflash := rfl
@[simp] theorem tick_logs (s : State) : (tick s).logs = s.logs := rfl

/-! `pullWord`. -/

@[simp] theorem pullWord_par (s : State) : (pullWord s).par = s.par := rfl
@[simp] theorem pullWord_now (s : State) : (pullWord s).now = s.now := rfl
@[simp] theorem pullWord_fresh (s : State) : (pullWord s).fresh = s.fresh := rfl
@[simp] theorem pullWord_lines (s : State) : (pullWord s).lines = s.lines := rfl
@[simp] theorem pullWord_script (s : State) : (pullWord s).script = s.script := rfl
@[simp] theorem pullWord_env (s : State) : (pullWord s).env = s.env := rfl
@[simp] theorem pullWord_ctl (s : State) : (pullWord s).ctl = s.ctl := rfl
@[simp] theorem pullWord_sel (s : State) : (pullWord s).sel = s.sel := rfl
@[simp] theorem pullWord_mbx (s : State) : (pullWord s).mbx = s.mbx := rfl
@[simp] theorem pullWord_enc (s : State) : (pullWord s).enc = s.enc := rfl
@[simp] theorem pullWord_btn (s : State) : (pullWord s).btn = s.btn := rfl
@[simp] theorem pullWord_cfg (s : State) : (pullWord s).cfg = s.cfg := rfl
@[simp] theorem pullWord_flash (s : State) : (pullWord s).flash = s.flash := rfl
@[simp] theorem pullWord_disp (s : State) : (pullWord s).disp = s.disp := rfl
@[simp] theorem pullWord_aud (s : State) : (pullWord s).aud = s.aud := rfl
@[simp] theorem pullWord_sm (s : State) : (pullWord s).sm = { s.sm with osr := s.fifo.headD 0, osrCnt := 32 } := rfl
@[simp] theorem pullWord_fifo (s : State) : (pullWord s).fifo = s.fifo.tail := rfl
@[simp] theorem pullWord_dma (s : State) : (pullWord s).dma = s.dma := rfl
@[simp] theorem pullWord_rom (s : State) : (pullWord s).rom = s.rom := rfl
@[simp] theorem pullWord_latch (s : State) : (pullWord s).latch = s.latch := rfl
@[simp] theorem pullWord_reflash (s : State) : (pullWord s).reflash = s.reflash := rfl
@[simp] theorem pullWord_logs (s : State) : (pullWord s).logs = s.logs := rfl

/-! `shiftBit`. -/

@[simp] theorem shiftBit_par (s : State) : (shiftBit s).par = s.par := rfl
@[simp] theorem shiftBit_now (s : State) : (shiftBit s).now = s.now := rfl
@[simp] theorem shiftBit_fresh (s : State) : (shiftBit s).fresh = s.fresh := rfl
@[simp] theorem shiftBit_lines (s : State) : (shiftBit s).lines = s.lines := rfl
@[simp] theorem shiftBit_script (s : State) : (shiftBit s).script = s.script := rfl
@[simp] theorem shiftBit_env (s : State) : (shiftBit s).env = s.env := rfl
@[simp] theorem shiftBit_ctl (s : State) : (shiftBit s).ctl = s.ctl := rfl
@[simp] theorem shiftBit_sel (s : State) : (shiftBit s).sel = s.sel := rfl
@[simp] theorem shiftBit_mbx (s : State) : (shiftBit s).mbx = s.mbx := rfl
@[simp] theorem shiftBit_enc (s : State) : (shiftBit s).enc = s.enc := rfl
@[simp] theorem shiftBit_btn (s : State) : (shiftBit s).btn = s.btn := rfl
@[simp] theorem shiftBit_cfg (s : State) : (shiftBit s).cfg = s.cfg := rfl
@[simp] theorem shiftBit_flash (s : State) : (shiftBit s).flash = s.flash := rfl
@[simp] theorem shiftBit_disp (s : State) : (shiftBit s).disp = s.disp := rfl
@[simp] theorem shiftBit_aud (s : State) : (shiftBit s).aud = s.aud := rfl
@[simp] theorem shiftBit_sm (s : State) :
    (shiftBit s).sm = { s.sm with pin := s.sm.osr.msb, osr := s.sm.osr <<< 1, osrCnt := s.sm.osrCnt - 1 } := rfl
@[simp] theorem shiftBit_fifo (s : State) : (shiftBit s).fifo = s.fifo := rfl
@[simp] theorem shiftBit_dma (s : State) : (shiftBit s).dma = s.dma := rfl
@[simp] theorem shiftBit_rom (s : State) : (shiftBit s).rom = s.rom := rfl
@[simp] theorem shiftBit_latch (s : State) : (shiftBit s).latch = s.latch := rfl
@[simp] theorem shiftBit_reflash (s : State) : (shiftBit s).reflash = s.reflash := rfl
@[simp] theorem shiftBit_logs (s : State) :
    (shiftBit s).logs = { s.logs with pdmOut := s.logs.pdmOut ++ [s.sm.osr.msb] } := rfl

/-! `takeSelection`. -/

@[simp] theorem takeSelection_par (s : State) : (takeSelection s).par = s.par := rfl
@[simp] theorem takeSelection_now (s : State) : (takeSelection s).now = s.now := rfl
@[simp] theorem takeSelection_fresh (s : State) : (takeSelection s).fresh = s.fresh := rfl
@[simp] theorem takeSelection_lines (s : State) : (takeSelection s).lines = s.lines := rfl
@[simp] theorem takeSelection_script (s : State) : (takeSelection s).script = s.script := rfl
@[simp] theorem takeSelection_env (s : State) : (takeSelection s).env = s.env := rfl
@[simp] theorem takeSelection_ctl (s : State) : (takeSelection s).ctl = s.ctl := rfl
@[simp] theorem takeSelection_sel (s : State) : (takeSelection s).sel = s.sel := rfl
@[simp] theorem takeSelection_mbx (s : State) : (takeSelection s).mbx = { s.mbx with full := false } := rfl
@[simp] theorem takeSelection_enc (s : State) : (takeSelection s).enc = s.enc := rfl
@[simp] theorem takeSelection_btn (s : State) : (takeSelection s).btn = s.btn := rfl
@[simp] theorem takeSelection_cfg (s : State) : (takeSelection s).cfg = s.cfg := rfl
@[simp] theorem takeSelection_flash (s : State) : (takeSelection s).flash = s.flash := rfl
@[simp] theorem takeSelection_disp (s : State) : (takeSelection s).disp = s.disp := rfl
@[simp] theorem takeSelection_aud (s : State) :
    (takeSelection s).aud = { s.aud with sel := .set s.mbx.val, ph := .config } := rfl
@[simp] theorem takeSelection_sm (s : State) : (takeSelection s).sm = s.sm := rfl
@[simp] theorem takeSelection_fifo (s : State) : (takeSelection s).fifo = s.fifo := rfl
@[simp] theorem takeSelection_dma (s : State) : (takeSelection s).dma = s.dma := rfl
@[simp] theorem takeSelection_rom (s : State) : (takeSelection s).rom = s.rom := rfl
@[simp] theorem takeSelection_latch (s : State) : (takeSelection s).latch = s.latch := rfl
@[simp] theorem takeSelection_reflash (s : State) : (takeSelection s).reflash = s.reflash := rfl
@[simp] theorem takeSelection_logs (s : State) :
    (takeSelection s).logs = { s.logs with mbxLog := s.logs.mbxLog ++ [.recv s.mbx.val] } := rfl

/-! `applyPair`. -/

@[simp] theorem applyPair_par (t : Bool) (d : Word32) (e : Bool) (s : State) : (applyPair t d e s).par = s.par := rfl
@[simp] theorem applyPair_now (t : Bool) (d : Word32) (e : Bool) (s : State) : (applyPair t d e s).now = s.now := rfl
@[simp] theorem applyPair_fresh (t : Bool) (d : Word32) (e : Bool) (s : State) :
    (applyPair t d e s).fresh = s.fresh := rfl
@[simp] theorem applyPair_lines (t : Bool) (d : Word32) (e : Bool) (s : State) :
    (applyPair t d e s).lines = s.lines := rfl
@[simp] theorem applyPair_script (t : Bool) (d : Word32) (e : Bool) (s : State) :
    (applyPair t d e s).script = s.script := rfl
@[simp] theorem applyPair_env (t : Bool) (d : Word32) (e : Bool) (s : State) : (applyPair t d e s).env = s.env := rfl
@[simp] theorem applyPair_ctl (t : Bool) (d : Word32) (e : Bool) (s : State) : (applyPair t d e s).ctl = s.ctl := rfl
@[simp] theorem applyPair_sel (t : Bool) (d : Word32) (e : Bool) (s : State) : (applyPair t d e s).sel = s.sel := rfl
@[simp] theorem applyPair_mbx (t : Bool) (d : Word32) (e : Bool) (s : State) : (applyPair t d e s).mbx = s.mbx := rfl
@[simp] theorem applyPair_enc (t : Bool) (d : Word32) (e : Bool) (s : State) : (applyPair t d e s).enc = s.enc := rfl
@[simp] theorem applyPair_btn (t : Bool) (d : Word32) (e : Bool) (s : State) : (applyPair t d e s).btn = s.btn := rfl
@[simp] theorem applyPair_cfg (t : Bool) (d : Word32) (e : Bool) (s : State) : (applyPair t d e s).cfg = s.cfg := rfl
@[simp] theorem applyPair_flash (t : Bool) (d : Word32) (e : Bool) (s : State) :
    (applyPair t d e s).flash = s.flash := rfl
@[simp] theorem applyPair_disp (t : Bool) (d : Word32) (e : Bool) (s : State) :
    (applyPair t d e s).disp = s.disp := rfl
@[simp] theorem applyPair_aud (t : Bool) (d : Word32) (e : Bool) (s : State) :
    (applyPair t d e s).aud = { s.aud with divOut := (t, d), tableSel := .set t, ph := .push } := rfl
@[simp] theorem applyPair_sm (t : Bool) (d : Word32) (e : Bool) (s : State) :
    (applyPair t d e s).sm = { s.sm with en := e, clkdiv := .set d } := rfl
@[simp] theorem applyPair_fifo (t : Bool) (d : Word32) (e : Bool) (s : State) :
    (applyPair t d e s).fifo = s.fifo := rfl
@[simp] theorem applyPair_dma (t : Bool) (d : Word32) (e : Bool) (s : State) : (applyPair t d e s).dma = s.dma := rfl
@[simp] theorem applyPair_rom (t : Bool) (d : Word32) (e : Bool) (s : State) : (applyPair t d e s).rom = s.rom := rfl
@[simp] theorem applyPair_latch (t : Bool) (d : Word32) (e : Bool) (s : State) :
    (applyPair t d e s).latch = s.latch := rfl
@[simp] theorem applyPair_reflash (t : Bool) (d : Word32) (e : Bool) (s : State) :
    (applyPair t d e s).reflash = s.reflash := rfl
@[simp] theorem applyPair_logs (t : Bool) (d : Word32) (e : Bool) (s : State) :
    (applyPair t d e s).logs = s.logs := rfl

/-! `settleTo`. -/

@[simp] theorem settleTo_par (st : EncSt) (s : State) : (settleTo st s).par = s.par := rfl
@[simp] theorem settleTo_now (st : EncSt) (s : State) : (settleTo st s).now = s.now := rfl
@[simp] theorem settleTo_fresh (st : EncSt) (s : State) : (settleTo st s).fresh = s.fresh := rfl
@[simp] theorem settleTo_lines (st : EncSt) (s : State) : (settleTo st s).lines = s.lines := rfl
@[simp] theorem settleTo_script (st : EncSt) (s : State) : (settleTo st s).script = s.script := rfl
@[simp] theorem settleTo_env (st : EncSt) (s : State) : (settleTo st s).env = s.env := rfl
@[simp] theorem settleTo_ctl (st : EncSt) (s : State) : (settleTo st s).ctl = s.ctl := rfl
@[simp] theorem settleTo_sel (st : EncSt) (s : State) : (settleTo st s).sel = s.sel := rfl
@[simp] theorem settleTo_mbx (st : EncSt) (s : State) : (settleTo st s).mbx = s.mbx := rfl
@[simp] theorem settleTo_enc (st : EncSt) (s : State) :
    (settleTo st s).enc = { s.enc with st := st, deadline := s.now + tSettle s.par.val } := rfl
@[simp] theorem settleTo_btn (st : EncSt) (s : State) : (settleTo st s).btn = s.btn := rfl
@[simp] theorem settleTo_cfg (st : EncSt) (s : State) : (settleTo st s).cfg = s.cfg := rfl
@[simp] theorem settleTo_flash (st : EncSt) (s : State) : (settleTo st s).flash = s.flash := rfl
@[simp] theorem settleTo_disp (st : EncSt) (s : State) : (settleTo st s).disp = s.disp := rfl
@[simp] theorem settleTo_aud (st : EncSt) (s : State) : (settleTo st s).aud = s.aud := rfl
@[simp] theorem settleTo_sm (st : EncSt) (s : State) : (settleTo st s).sm = s.sm := rfl
@[simp] theorem settleTo_fifo (st : EncSt) (s : State) : (settleTo st s).fifo = s.fifo := rfl
@[simp] theorem settleTo_dma (st : EncSt) (s : State) : (settleTo st s).dma = s.dma := rfl
@[simp] theorem settleTo_rom (st : EncSt) (s : State) : (settleTo st s).rom = s.rom := rfl
@[simp] theorem settleTo_latch (st : EncSt) (s : State) : (settleTo st s).latch = s.latch := rfl
@[simp] theorem settleTo_reflash (st : EncSt) (s : State) : (settleTo st s).reflash = s.reflash := rfl
@[simp] theorem settleTo_logs (st : EncSt) (s : State) : (settleTo st s).logs = s.logs := rfl

/-! `setEnc`. -/

@[simp] theorem setEnc_par (st : EncSt) (s : State) : (setEnc st s).par = s.par := rfl
@[simp] theorem setEnc_now (st : EncSt) (s : State) : (setEnc st s).now = s.now := rfl
@[simp] theorem setEnc_fresh (st : EncSt) (s : State) : (setEnc st s).fresh = s.fresh := rfl
@[simp] theorem setEnc_lines (st : EncSt) (s : State) : (setEnc st s).lines = s.lines := rfl
@[simp] theorem setEnc_script (st : EncSt) (s : State) : (setEnc st s).script = s.script := rfl
@[simp] theorem setEnc_env (st : EncSt) (s : State) : (setEnc st s).env = s.env := rfl
@[simp] theorem setEnc_ctl (st : EncSt) (s : State) : (setEnc st s).ctl = s.ctl := rfl
@[simp] theorem setEnc_sel (st : EncSt) (s : State) : (setEnc st s).sel = s.sel := rfl
@[simp] theorem setEnc_mbx (st : EncSt) (s : State) : (setEnc st s).mbx = s.mbx := rfl
@[simp] theorem setEnc_enc (st : EncSt) (s : State) : (setEnc st s).enc = { s.enc with st := st } := rfl
@[simp] theorem setEnc_btn (st : EncSt) (s : State) : (setEnc st s).btn = s.btn := rfl
@[simp] theorem setEnc_cfg (st : EncSt) (s : State) : (setEnc st s).cfg = s.cfg := rfl
@[simp] theorem setEnc_flash (st : EncSt) (s : State) : (setEnc st s).flash = s.flash := rfl
@[simp] theorem setEnc_disp (st : EncSt) (s : State) : (setEnc st s).disp = s.disp := rfl
@[simp] theorem setEnc_aud (st : EncSt) (s : State) : (setEnc st s).aud = s.aud := rfl
@[simp] theorem setEnc_sm (st : EncSt) (s : State) : (setEnc st s).sm = s.sm := rfl
@[simp] theorem setEnc_fifo (st : EncSt) (s : State) : (setEnc st s).fifo = s.fifo := rfl
@[simp] theorem setEnc_dma (st : EncSt) (s : State) : (setEnc st s).dma = s.dma := rfl
@[simp] theorem setEnc_rom (st : EncSt) (s : State) : (setEnc st s).rom = s.rom := rfl
@[simp] theorem setEnc_latch (st : EncSt) (s : State) : (setEnc st s).latch = s.latch := rfl
@[simp] theorem setEnc_reflash (st : EncSt) (s : State) : (setEnc st s).reflash = s.reflash := rfl
@[simp] theorem setEnc_logs (st : EncSt) (s : State) : (setEnc st s).logs = s.logs := rfl

/-! `classify`. -/

@[simp] theorem classify_par (e : Event) (st : BtnSt) (p : CtlPhase) (s : State) :
    (classify e st p s).par = s.par := rfl
@[simp] theorem classify_now (e : Event) (st : BtnSt) (p : CtlPhase) (s : State) :
    (classify e st p s).now = s.now := rfl
@[simp] theorem classify_fresh (e : Event) (st : BtnSt) (p : CtlPhase) (s : State) :
    (classify e st p s).fresh = s.fresh := rfl
@[simp] theorem classify_lines (e : Event) (st : BtnSt) (p : CtlPhase) (s : State) :
    (classify e st p s).lines = s.lines := rfl
@[simp] theorem classify_script (e : Event) (st : BtnSt) (p : CtlPhase) (s : State) :
    (classify e st p s).script = s.script := rfl
@[simp] theorem classify_env (e : Event) (st : BtnSt) (p : CtlPhase) (s : State) :
    (classify e st p s).env = s.env := rfl
@[simp] theorem classify_ctl (e : Event) (st : BtnSt) (p : CtlPhase) (s : State) :
    (classify e st p s).ctl = { s.ctl with event := e, ph := p } := rfl
@[simp] theorem classify_sel (e : Event) (st : BtnSt) (p : CtlPhase) (s : State) :
    (classify e st p s).sel = s.sel := rfl
@[simp] theorem classify_mbx (e : Event) (st : BtnSt) (p : CtlPhase) (s : State) :
    (classify e st p s).mbx = s.mbx := rfl
@[simp] theorem classify_enc (e : Event) (st : BtnSt) (p : CtlPhase) (s : State) :
    (classify e st p s).enc = s.enc := rfl
@[simp] theorem classify_btn (e : Event) (st : BtnSt) (p : CtlPhase) (s : State) :
    (classify e st p s).btn = { s.btn with st := st } := rfl
@[simp] theorem classify_cfg (e : Event) (st : BtnSt) (p : CtlPhase) (s : State) :
    (classify e st p s).cfg = s.cfg := rfl
@[simp] theorem classify_flash (e : Event) (st : BtnSt) (p : CtlPhase) (s : State) :
    (classify e st p s).flash = s.flash := rfl
@[simp] theorem classify_disp (e : Event) (st : BtnSt) (p : CtlPhase) (s : State) :
    (classify e st p s).disp = s.disp := rfl
@[simp] theorem classify_aud (e : Event) (st : BtnSt) (p : CtlPhase) (s : State) :
    (classify e st p s).aud = s.aud := rfl
@[simp] theorem classify_sm (e : Event) (st : BtnSt) (p : CtlPhase) (s : State) : (classify e st p s).sm = s.sm := rfl
@[simp] theorem classify_fifo (e : Event) (st : BtnSt) (p : CtlPhase) (s : State) :
    (classify e st p s).fifo = s.fifo := rfl
@[simp] theorem classify_dma (e : Event) (st : BtnSt) (p : CtlPhase) (s : State) :
    (classify e st p s).dma = s.dma := rfl
@[simp] theorem classify_rom (e : Event) (st : BtnSt) (p : CtlPhase) (s : State) :
    (classify e st p s).rom = s.rom := rfl
@[simp] theorem classify_latch (e : Event) (st : BtnSt) (p : CtlPhase) (s : State) :
    (classify e st p s).latch = s.latch := rfl
@[simp] theorem classify_reflash (e : Event) (st : BtnSt) (p : CtlPhase) (s : State) :
    (classify e st p s).reflash = s.reflash := rfl
@[simp] theorem classify_logs (e : Event) (st : BtnSt) (p : CtlPhase) (s : State) :
    (classify e st p s).logs = s.logs := rfl

/-! `stepTo`. -/

@[simp] theorem stepTo_par (i : Word32) (s : State) : (stepTo i s).par = s.par := rfl
@[simp] theorem stepTo_now (i : Word32) (s : State) : (stepTo i s).now = s.now := rfl
@[simp] theorem stepTo_fresh (i : Word32) (s : State) : (stepTo i s).fresh = s.fresh := rfl
@[simp] theorem stepTo_lines (i : Word32) (s : State) : (stepTo i s).lines = s.lines := rfl
@[simp] theorem stepTo_script (i : Word32) (s : State) : (stepTo i s).script = s.script := rfl
@[simp] theorem stepTo_env (i : Word32) (s : State) : (stepTo i s).env = s.env := rfl
@[simp] theorem stepTo_ctl (i : Word32) (s : State) :
    (stepTo i s).ctl = { s.ctl with event := .none, ph := .publish } := rfl
@[simp] theorem stepTo_sel (i : Word32) (s : State) : (stepTo i s).sel = { s.sel with index := .set i } := rfl
@[simp] theorem stepTo_mbx (i : Word32) (s : State) : (stepTo i s).mbx = s.mbx := rfl
@[simp] theorem stepTo_enc (i : Word32) (s : State) : (stepTo i s).enc = s.enc := rfl
@[simp] theorem stepTo_btn (i : Word32) (s : State) : (stepTo i s).btn = s.btn := rfl
@[simp] theorem stepTo_cfg (i : Word32) (s : State) : (stepTo i s).cfg = s.cfg := rfl
@[simp] theorem stepTo_flash (i : Word32) (s : State) : (stepTo i s).flash = s.flash := rfl
@[simp] theorem stepTo_disp (i : Word32) (s : State) : (stepTo i s).disp = s.disp := rfl
@[simp] theorem stepTo_aud (i : Word32) (s : State) : (stepTo i s).aud = s.aud := rfl
@[simp] theorem stepTo_sm (i : Word32) (s : State) : (stepTo i s).sm = s.sm := rfl
@[simp] theorem stepTo_fifo (i : Word32) (s : State) : (stepTo i s).fifo = s.fifo := rfl
@[simp] theorem stepTo_dma (i : Word32) (s : State) : (stepTo i s).dma = s.dma := rfl
@[simp] theorem stepTo_rom (i : Word32) (s : State) : (stepTo i s).rom = s.rom := rfl
@[simp] theorem stepTo_latch (i : Word32) (s : State) : (stepTo i s).latch = s.latch := rfl
@[simp] theorem stepTo_reflash (i : Word32) (s : State) : (stepTo i s).reflash = s.reflash := rfl
@[simp] theorem stepTo_logs (i : Word32) (s : State) : (stepTo i s).logs = s.logs := rfl

/-! `trailFrom`. -/

@[simp] theorem trailFrom_par (s : State) : (trailFrom s).par = s.par := rfl
@[simp] theorem trailFrom_now (s : State) : (trailFrom s).now = s.now := rfl
@[simp] theorem trailFrom_fresh (s : State) : (trailFrom s).fresh = s.fresh := rfl
@[simp] theorem trailFrom_lines (s : State) : (trailFrom s).lines = s.lines := rfl
@[simp] theorem trailFrom_script (s : State) : (trailFrom s).script = s.script := rfl
@[simp] theorem trailFrom_env (s : State) : (trailFrom s).env = s.env := rfl
@[simp] theorem trailFrom_ctl (s : State) :
    (trailFrom s).ctl = { s.ctl with deadline := s.now + tSettle s.par.val, ph := .trail } := rfl
@[simp] theorem trailFrom_sel (s : State) : (trailFrom s).sel = s.sel := rfl
@[simp] theorem trailFrom_mbx (s : State) : (trailFrom s).mbx = s.mbx := rfl
@[simp] theorem trailFrom_enc (s : State) : (trailFrom s).enc = s.enc := rfl
@[simp] theorem trailFrom_btn (s : State) : (trailFrom s).btn = s.btn := rfl
@[simp] theorem trailFrom_cfg (s : State) : (trailFrom s).cfg = s.cfg := rfl
@[simp] theorem trailFrom_flash (s : State) : (trailFrom s).flash = s.flash := rfl
@[simp] theorem trailFrom_disp (s : State) : (trailFrom s).disp = s.disp := rfl
@[simp] theorem trailFrom_aud (s : State) : (trailFrom s).aud = s.aud := rfl
@[simp] theorem trailFrom_sm (s : State) : (trailFrom s).sm = s.sm := rfl
@[simp] theorem trailFrom_fifo (s : State) : (trailFrom s).fifo = s.fifo := rfl
@[simp] theorem trailFrom_dma (s : State) : (trailFrom s).dma = s.dma := rfl
@[simp] theorem trailFrom_rom (s : State) : (trailFrom s).rom = s.rom := rfl
@[simp] theorem trailFrom_latch (s : State) : (trailFrom s).latch = s.latch := rfl
@[simp] theorem trailFrom_reflash (s : State) : (trailFrom s).reflash = s.reflash := rfl
@[simp] theorem trailFrom_logs (s : State) : (trailFrom s).logs = s.logs := rfl

end Sys2Proof.Machine
end

