-- ==== Sys2Proof/Laws/Memory.lean ====
section
/-! SUPPORT. The flash memory: every operation keeps the canonical form, a read after a write gives what was written,
and a write leaves every other byte alone (spec/20_memory.md R63 to R66). -/

namespace Sys2Proof.Machine

/-! The canonical form. -/

theorem wf_nil : Memory.wf [] = true := by decide

theorem wf_cons {c : Host.Cell} {m : Memory} :
    Memory.wf (c :: m) = true ↔ (∀ d ∈ m, c.1 < d.1) ∧ c.2 ≠ blankByte ∧ Memory.wf m = true := by
  simp only [Memory.wf, List.pairwise_cons, List.all_cons, Bool.and_eq_true, decide_eq_true_eq, bne_iff_ne]
  tauto

/-- Every address of a memory that `memSet` gives was there, or is the one written. -/
theorem memSet_address {m : Memory} {a : Nat} {v : Byte} {d : Host.Cell} (h : d ∈ memSet m a v) :
    d.1 = a ∨ ∃ e ∈ m, e.1 = d.1 := by
  induction m with
  | nil =>
    simp only [memSet] at h
    split at h <;> simp_all
  | cons c r ih =>
    obtain ⟨b, w⟩ := c
    simp only [memSet] at h
    split at h
    · split at h
      · exact .inr ⟨d, h, rfl⟩
      · rcases List.mem_cons.mp h with rfl | h
        · exact .inl rfl
        · exact .inr ⟨d, h, rfl⟩
    · split at h
      · split at h
        · exact .inr ⟨d, List.mem_cons_of_mem _ h, rfl⟩
        · rcases List.mem_cons.mp h with rfl | h
          · exact .inl rfl
          · exact .inr ⟨d, List.mem_cons_of_mem _ h, rfl⟩
      · rcases List.mem_cons.mp h with rfl | h
        · exact .inr ⟨_, List.mem_cons_self, rfl⟩
        · rcases ih h with h | ⟨e, he, h⟩
          · exact .inl h
          · exact .inr ⟨e, List.mem_cons_of_mem _ he, h⟩

/-- `memSet` keeps the canonical form. -/
theorem memSet_wf {m : Memory} (a : Nat) (v : Byte) (h : Memory.wf m = true) : Memory.wf (memSet m a v) = true := by
  induction m with
  | nil =>
    simp only [memSet]
    split
    · exact wf_nil
    · exact wf_cons.mpr ⟨by simp, by assumption, wf_nil⟩
  | cons c r ih =>
    obtain ⟨b, w⟩ := c
    obtain ⟨hb, hw, hr⟩ := wf_cons.mp h
    simp only at hb hw
    simp only [memSet]
    split
    · split
      · exact h
      · refine wf_cons.mpr ⟨?_, by assumption, h⟩
        intro d hd
        rcases List.mem_cons.mp hd with rfl | hd
        · assumption
        · exact Nat.lt_trans (by assumption) (hb d hd)
    · split
      · subst_vars
        split
        · exact hr
        · exact wf_cons.mpr ⟨hb, by assumption, hr⟩
      · refine wf_cons.mpr ⟨?_, hw, ih hr⟩
        intro d hd
        rcases memSet_address hd with hd | ⟨e, he, hd⟩
        · simp only; omega
        · simp only [← hd]; exact hb e he

/-- `memErase` keeps the canonical form. -/
theorem memErase_wf {m : Memory} (off len : Nat) (h : Memory.wf m = true) :
    Memory.wf (memErase m off len) = true := by
  induction m with
  | nil => exact wf_nil
  | cons c r ih =>
    obtain ⟨hb, hw, hr⟩ := wf_cons.mp h
    rw [memErase, List.filter_cons]
    split
    · exact wf_cons.mpr ⟨fun d hd => hb d (List.mem_filter.mp hd).1, hw, ih hr⟩
    · exact ih hr

/-- `memStore` keeps the canonical form. -/
theorem memStore_wf {m : Memory} (off : Nat) (vs : List Byte) (h : Memory.wf m = true) :
    Memory.wf (memStore m off vs) = true := by
  induction vs generalizing m off with
  | nil => exact h
  | cons v vs ih => exact ih _ (memSet_wf _ _ h)

/-- `memProgram` keeps the canonical form. -/
theorem memProgram_wf {m : Memory} (off : Nat) (vs : List Byte) (h : Memory.wf m = true) :
    Memory.wf (memProgram m off vs) = true := by
  induction vs generalizing m off with
  | nil => exact h
  | cons v vs ih => exact ih _ (memSet_wf _ _ h)

/-- The memory of the machine after reset is in its canonical form. -/
theorem reset_flash_wf : Memory.wf State.reset.flash = true := wf_nil

/-! One byte. -/

/-- An address below every listed one reads as a blank byte. -/
theorem memByte_below {m : Memory} {a : Nat} (h : ∀ d ∈ m, a < d.1) : memByte m a = blankByte := by
  induction m with
  | nil => rfl
  | cons c r ih =>
    obtain ⟨b, w⟩ := c
    have hb : a < b := h (b, w) List.mem_cons_self
    simp only [memByte, if_neg (Nat.ne_of_gt hb)]
    exact ih fun d hd => h d (List.mem_cons_of_mem _ hd)

/-- A byte written reads as written. -/
theorem memByte_memSet_same {m : Memory} (a : Nat) (v : Byte) (h : Memory.wf m = true) :
    memByte (memSet m a v) a = v := by
  induction m with
  | nil =>
    simp only [memSet]
    split <;> simp_all [memByte]
  | cons c r ih =>
    obtain ⟨b, w⟩ := c
    obtain ⟨hb, hw, hr⟩ := wf_cons.mp h
    simp only at hb hw
    simp only [memSet]
    split
    · split
      · subst_vars
        refine memByte_below fun d hd => ?_
        rcases List.mem_cons.mp hd with rfl | hd
        · assumption
        · exact Nat.lt_trans (by assumption) (hb d hd)
      · simp [memByte]
    · split
      · subst_vars
        split
        · subst_vars
          exact memByte_below hb
        · simp [memByte]
      · rw [memByte, if_neg (by omega)]
        exact ih hr

/-- A byte written leaves every other byte alone. -/
theorem memByte_memSet_other (m : Memory) {a b : Nat} (v : Byte) (h : b ≠ a) :
    memByte (memSet m a v) b = memByte m b := by
  induction m with
  | nil =>
    simp only [memSet]
    split
    · rfl
    · simp [memByte, Ne.symm h]
  | cons c r ih =>
    obtain ⟨k, w⟩ := c
    simp only [memSet]
    split
    · split
      · rfl
      · rw [memByte, if_neg (Ne.symm h)]
    · split
      · subst_vars
        split
        · rw [memByte, if_neg (Ne.symm h)]
        · rw [memByte, memByte, if_neg (Ne.symm h), if_neg (Ne.symm h)]
      · rw [memByte, memByte, ih]

/-- The byte at `b` after `memSet` at `a`. -/
theorem memByte_memSet {m : Memory} (a b : Nat) (v : Byte) (h : Memory.wf m = true) :
    memByte (memSet m a v) b = if b = a then v else memByte m b := by
  split
  · subst_vars; exact memByte_memSet_same _ _ h
  · exact memByte_memSet_other _ _ (by assumption)

/-- An erased byte is blank, every other byte is unchanged (R65). -/
theorem memByte_memErase (m : Memory) (off len a : Nat) :
    memByte (memErase m off len) a = if off ≤ a ∧ a < off + len then blankByte else memByte m a := by
  induction m with
  | nil => simp [memErase, memByte]
  | cons c r ih =>
    obtain ⟨b, w⟩ := c
    rw [memErase, List.filter_cons]
    rw [memErase] at ih
    by_cases hr : off ≤ b ∧ b < off + len
    · rw [if_neg (by simpa using hr), ih, memByte]
      by_cases hab : b = a
      · subst hab; simp [hr]
      · simp [hab]
    · rw [if_pos (by simp only [Bool.not_eq_true', Bool.and_eq_false_iff, decide_eq_false_iff_not]; omega),
        memByte, ih, memByte]
      by_cases hab : b = a
      · subst hab; simp [hr]
      · simp [hab]

/-- `memStore`: the byte at `off + k` is the `k`-th one stored, every other byte is unchanged. -/
theorem memByte_memStore {m : Memory} (off : Nat) (vs : List Byte) (a : Nat) (h : Memory.wf m = true) :
    memByte (memStore m off vs) a =
      if off ≤ a ∧ a < off + vs.length then vs.getD (a - off) 0 else memByte m a := by
  induction vs generalizing m off with
  | nil => simp [memStore]
  | cons v vs ih =>
    rw [memStore, ih _ (memSet_wf _ _ h), memByte_memSet _ _ _ h]
    simp only [List.length_cons]
    by_cases ha : a = off
    · subst ha
      rw [if_neg (by omega), if_pos rfl, if_pos (by omega)]
      simp
    · by_cases hb : off + 1 ≤ a ∧ a < off + 1 + vs.length
      · rw [if_pos hb, if_pos (by omega), show a - off = (a - (off + 1)) + 1 by omega]
        simp
      · rw [if_neg hb, if_neg ha, if_neg (by omega)]

/-- `memProgram`: the byte at `off + k` is its bitwise AND with the `k`-th one given, every other byte is unchanged
(R66). -/
theorem memByte_memProgram {m : Memory} (off : Nat) (vs : List Byte) (a : Nat) (h : Memory.wf m = true) :
    memByte (memProgram m off vs) a =
      if off ≤ a ∧ a < off + vs.length then memByte m a &&& vs.getD (a - off) 0 else memByte m a := by
  induction vs generalizing m off with
  | nil => simp [memProgram]
  | cons v vs ih =>
    rw [memProgram, ih _ (memSet_wf _ _ h), memByte_memSet _ _ _ h]
    simp only [List.length_cons]
    by_cases ha : a = off
    · subst ha
      rw [if_neg (by omega), if_pos rfl, if_pos (by omega)]
      simp
    · by_cases hb : off + 1 ≤ a ∧ a < off + 1 + vs.length
      · rw [if_pos hb, if_neg ha, if_pos (by omega), show a - off = (a - (off + 1)) + 1 by omega]
        simp
      · rw [if_neg hb, if_neg ha, if_neg (by omega)]

/-! Several bytes. -/

@[simp] theorem memRead_length (m : Memory) (off n : Nat) : (memRead m off n).length = n := by
  simp [memRead]

/-- The `k`-th byte read (R64). -/
theorem memRead_getD (m : Memory) (off n k : Nat) (d : Byte) (h : k < n) :
    (memRead m off n).getD k d = memByte m (off + k) := by
  simp [memRead, List.getD_eq_getElem?_getD, h]

/-- Two memories that agree on a range read alike there. -/
theorem memRead_congr {m m' : Memory} {off n : Nat} (h : ∀ k < n, memByte m (off + k) = memByte m' (off + k)) :
    memRead m off n = memRead m' off n := by
  simp only [memRead]
  exact List.map_congr_left fun k hk => h k (List.mem_range.mp hk)

/-- A range that has just been erased reads as blank bytes (R65). -/
theorem memRead_memErase (m : Memory) {off len n : Nat} (h : n ≤ len) :
    memRead (memErase m off len) off n = List.replicate n blankByte := by
  apply List.ext_getElem (by simp)
  intro k hk _
  have hk' : k < n := by simpa using hk
  simp only [memRead, List.getElem_map, List.getElem_range, List.getElem_replicate, memByte_memErase]
  rw [if_pos (by omega)]

/-- Programming blank bytes stores the new ones exactly (R66). -/
theorem memRead_memProgram_blank {m : Memory} {off : Nat} (vs : List Byte) (h : Memory.wf m = true)
    (hb : memRead m off vs.length = List.replicate vs.length blankByte) :
    memRead (memProgram m off vs) off vs.length = vs := by
  apply List.ext_getElem (by simp)
  intro k hk hk'
  have hblank : memByte m (off + k) = blankByte := by
    have := congrArg (fun l => l.getD k 0) hb
    simpa [memRead, List.getD_eq_getElem?_getD, hk'] using this
  simp only [memRead, List.getElem_map, List.getElem_range, memByte_memProgram off vs _ h]
  rw [if_pos (by omega), hblank, show off + k - off = k by omega, List.getD_eq_getElem?_getD,
    List.getElem?_eq_getElem hk', Option.getD_some]
  exact BitVec.allOnes_and

end Sys2Proof.Machine
end

