-- ==== Sys2Proof/Laws/Ops.lean ====
section
/-! SUPPORT. For each operation that several operations share, what it can do. -/

namespace Sys2Proof.Machine

/-! Outcomes. -/

/-- An operation with a `when` clause has a next state exactly where the clause holds, and then its effect. -/
theorem take_next {ready : Bool} {f : State → State} {s t : State} :
    take ready f s = .next t ↔ ready = true ∧ t = f s := by
  unfold take
  split <;> simp_all [eq_comm]

/-- A control-side step does the same, and the tick is no longer fresh (R273). -/
theorem takeCtl_next {ready : Bool} {f : State → State} {s t : State} :
    takeCtl ready f s = .next t ↔ ready = true ∧ t = { f s with fresh := false } := take_next

/-- Where the `when` clause holds the operation has its effect. -/
theorem take_ready {ready : Bool} (f : State → State) (s : State) (h : ready = true) :
    take ready f s = .next (f s) := by simp [take, h]

/-- Where the `when` clause holds a control-side step has its effect. -/
theorem takeCtl_ready {ready : Bool} (f : State → State) (s : State) (h : ready = true) :
    takeCtl ready f s = .next { f s with fresh := false } := take_ready _ _ h

/-- Where the `when` clause is false there is no transition (R14). -/
theorem take_not_ready {ready : Bool} (f : State → State) (s : State) (h : ready = false) :
    take ready f s = .refused .notEnabled := by simp [take, h]

/-- Where the `when` clause is false there is no control-side transition (R14). -/
theorem takeCtl_not_ready {ready : Bool} (f : State → State) (s : State) (h : ready = false) :
    takeCtl ready f s = .refused .notEnabled := take_not_ready _ _ h

/-! Draws. -/

/-- An answer in the queue is the next one. -/
theorem nextFail_cons {s : State} {f : Bool} {fs : List Bool} (h : s.env.fails = f :: fs) : nextFail s = f := by
  simp [nextFail, h]

/-- An answer in the queue is used up. -/
theorem popFail_cons {s : State} {f : Bool} {fs : List Bool} (h : s.env.fails = f :: fs) :
    popFail s = { s with env := { s.env with fails := fs } } := by
  simp [popFail, h]

/-- A duration in the queue is the next one. -/
theorem nextDuration_cons {s : State} {d : Nat} {ds : List Nat} (h : s.env.durations = d :: ds) :
    nextDuration s = d := by
  simp [nextDuration, h]

/-- A duration in the queue is used up. -/
theorem popDuration_cons {s : State} {d : Nat} {ds : List Nat} (h : s.env.durations = d :: ds) :
    popDuration s = { s with env := { s.env with durations := ds } } := by
  simp [popDuration, h]

/-- The durations in the queue after a `draw fail`. -/
@[simp] theorem popFail_durations (s : State) : (popFail s).env.durations = s.env.durations := by
  unfold popFail
  split <;> rfl

/-- The failure answers in the queue after a `draw d`. -/
@[simp] theorem popDuration_fails (s : State) : (popDuration s).env.fails = s.env.fails := by
  unfold popDuration
  split <;> rfl

/-! The fault latch. -/

/-- A raise leaves the latch set (R255). -/
@[simp] theorem Latch.record_fault (c : Byte) (l : Latch) : (l.record c).fault = true := rfl

/-- The first code is kept (R255, R265). -/
theorem Latch.record_keeps (c : Byte) (l : Latch) (h : l.fault = true) : l.record c = l := by
  cases l
  simp_all [Latch.record]

/-- A first raise records its code (R255). -/
theorem Latch.record_first (c : Byte) (l : Latch) (h : l.fault = false) : l.record c = ⟨true, c⟩ := by
  simp [Latch.record, h]

/-- The latch holds the code of a raise, or the one it held. -/
theorem Latch.record_code (c : Byte) (l : Latch) :
    (l.record c).code = c ∨ l.fault = true ∧ (l.record c).code = l.code := by
  unfold Latch.record
  dsimp
  split <;> simp_all

/-! Waiting. -/

/-- A wait of no tick is over at once (R11). -/
theorem await_zero (b : Busy) (rest : State → State) {s : State} (h : nextDuration s = 0) :
    await b rest s = rest (popDuration s) := by simp [await, h]

/-- A longer wait stands, with its deadline (R11, R38). -/
theorem await_pos (b : Busy) (rest : State → State) {s : State} (h : nextDuration s ≠ 0) :
    await b rest s =
      { popDuration s with ctl := { s.ctl with busy := some b, deadline := s.now + nextDuration s } } := by
  simp [await, h]

/-- What a wait can do: go on at once, or stand. -/
theorem await_cases {P : State → Prop} {b : Busy} {rest : State → State} {s : State}
    (go : P (rest (popDuration s)))
    (stand : P { popDuration s with ctl := { s.ctl with busy := some b, deadline := s.now + nextDuration s } }) :
    P (await b rest s) := by
  by_cases h : nextDuration s = 0
  · rw [await_zero _ _ h]; exact go
  · rw [await_pos _ _ h]; exact stand

/-! Registers that can be unwritten (R48). -/

/-- What a read of `SEL` can do: hand on the selection, or raise `UNWRITTEN`. -/
theorem withSelection_cases {P : State → Prop} {k : Selection → State → State} {s : State}
    (go : s.sel.index.written = true → s.sel.enabled.written = true →
      P (k ⟨s.sel.index.val, s.sel.enabled.val⟩ s))
    (stop : P (raiseControl faultUnwritten s)) : P (withSelection k s) := by
  unfold withSelection
  split
  · rename_i h
    rw [Bool.and_eq_true] at h
    exact go h.1 h.2
  · exact stop

/-- What a read of `SEL.index` can do. -/
theorem withIndex_cases {P : State → Prop} {k : Word32 → State → State} {s : State}
    (go : s.sel.index.written = true → P (k s.sel.index.val s))
    (stop : P (raiseControl faultUnwritten s)) : P (withIndex k s) := by
  unfold withIndex
  split
  · exact go (by assumption)
  · exact stop

/-- What a read of `SEL.enabled` can do. -/
theorem withEnabled_cases {P : State → Prop} {k : Bool → State → State} {s : State}
    (go : s.sel.enabled.written = true → P (k s.sel.enabled.val s))
    (stop : P (raiseControl faultUnwritten s)) : P (withEnabled k s) := by
  unfold withEnabled
  split
  · exact go (by assumption)
  · exact stop

/-- A written `SEL` is handed on. -/
theorem withSelection_written {k : Selection → State → State} {s : State} (h : s.sel.index.written = true)
    (h' : s.sel.enabled.written = true) : withSelection k s = k ⟨s.sel.index.val, s.sel.enabled.val⟩ s := by
  simp [withSelection, h, h']

/-- A written `SEL.index` is handed on. -/
theorem withIndex_written {k : Word32 → State → State} {s : State} (h : s.sel.index.written = true) :
    withIndex k s = k s.sel.index.val s := by
  simp [withIndex, h]

/-- A written `SEL.enabled` is handed on. -/
theorem withEnabled_written {k : Bool → State → State} {s : State} (h : s.sel.enabled.written = true) :
    withEnabled k s = k s.sel.enabled.val s := by
  simp [withEnabled, h]

/-! The display (R270, R271). -/

/-- What a `DISP.DRAW` can do: queue the glyph and go on, or raise `DISPLAY`. -/
theorem drawGlyph_cases {P : State → Prop} {d : Glyph × Slot} {rest : State → State} {s : State}
    (go : nextFail s = false → P (rest (queueDraw d (popFail s))))
    (stop : nextFail s = true → P (raiseControl faultDisplay (popFail s))) : P (drawGlyph d rest s) := by
  unfold drawGlyph
  dsimp
  split
  · exact stop (by assumption)
  · exact go (by simp_all)

/-- Several draws keep whatever each draw keeps, and go on with it. -/
theorem drawAll_induct {P Q : State → Prop} {rest : State → State} (ds : List (Glyph × Slot)) {s : State}
    (h : Q s) (draw : ∀ d ∈ ds, ∀ t, Q t → Q (queueDraw d (popFail t)))
    (stop : ∀ t, Q t → P (raiseControl faultDisplay (popFail t))) (go : ∀ t, Q t → P (rest t)) :
    P (drawAll ds rest s) := by
  induction ds generalizing s with
  | nil => exact go s h
  | cons d ds ih =>
    exact drawGlyph_cases
      (fun _ => ih (draw d List.mem_cons_self s h) fun e he => draw e (List.mem_cons_of_mem _ he))
      (fun _ => stop s h)

/-- What a `DISP.FLUSH` can do: show the frame and wait, or raise `DISPLAY`. -/
theorem flush_cases {P : State → Prop} {issuer : FlushBy} {s : State}
    (go : nextFail s = false → P (await (.flush issuer) (afterFlush issuer) (showFrame (popFail s))))
    (stop : nextFail s = true → P (raiseControl faultDisplay (popFail s))) : P (flush issuer s) := by
  unfold flush
  dsimp
  split
  · exact stop (by assumption)
  · exact go (by simp_all)

/-! The flash primitives (R206 to R208). -/

/-! The draws depend on the environment's answers alone. -/

/-- The next answer to `draw fail` depends on the answers alone. -/
theorem nextFail_env {s t : State} (h : s.env = t.env) : nextFail s = nextFail t := by simp [nextFail, h]

/-- The next answer to `draw d` depends on the answers alone. -/
theorem nextDuration_env {s t : State} (h : s.env = t.env) : nextDuration s = nextDuration t := by
  simp [nextDuration, h]

/-- The answers left after one `draw fail` depend on the answers alone. -/
theorem popFail_env {s t : State} (h : s.env = t.env) : (popFail s).env = (popFail t).env := by
  simp [popFail, h]

/-- The answers left after one `draw d` depend on the answers alone. -/
theorem popDuration_env {s t : State} (h : s.env = t.env) : (popDuration s).env = (popDuration t).env := by
  simp [popDuration, h]

/-- Whether the next answers report no failure depends on the answers alone. -/
theorem noFailures_env (n : Nat) {s t : State} (h : s.env = t.env) : noFailures n s = noFailures n t := by
  induction n generalizing s t with
  | zero => rfl
  | succ n ih => simp only [noFailures, nextFail_env h, ih (popFail_env h)]

/-- The answers left after `n` draws of `fail` depend on the answers alone. -/
theorem popFails_env (n : Nat) {s t : State} (h : s.env = t.env) : (popFails n s).env = (popFails n t).env := by
  induction n generalizing s t with
  | zero => exact h
  | succ n ih => exact ih (popFail_env h)

/-- `n + 1` draws of `fail` are `n` draws and one more. -/
theorem popFails_succ (n : Nat) (s : State) : popFails (n + 1) s = popFail (popFails n s) := by
  induction n generalizing s with
  | zero => rfl
  | succ n ih => exact ih (popFail s)

/-- A list of draws none of which fails, and then what follows them. -/
theorem drawAll_noFailures (ds : List (Glyph × Slot)) (rest : State → State) (m : Nat) (s : State)
    (h : noFailures (ds.length + m) s = true) :
    drawAll ds rest s = rest
        { s with
          env := (popFails ds.length s).env
          disp := { s.disp with pending := s.disp.pending ++ ds }
          logs := { s.logs with dispOut := s.logs.dispOut ++ ds.map (fun d => .draw d.1 d.2) } } ∧
      noFailures m (popFails ds.length s) = true := by
  induction ds generalizing s with
  | nil => simp [drawAll, popFails] at *; exact h
  | cons d ds ih =>
    simp only [List.length_cons, Nat.add_right_comm, noFailures, Bool.and_eq_true, Bool.not_eq_true'] at h
    have h2 : noFailures (ds.length + m) (queueDraw d (popFail s)) = true := by
      rw [← h.2]; exact noFailures_env _ rfl
    obtain ⟨e1, e2⟩ := ih _ h2
    constructor
    · simp only [drawAll, drawGlyph, h.1, Bool.false_eq_true, if_false, e1]
      congr 1
      simp [popFails]
      exact popFails_env _ rfl
    · rw [← e2]
      simp only [List.length_cons, popFails]
      exact noFailures_env _ (popFails_env _ rfl)

/-- A `DISP.FLUSH` that does not fail shows the frame and begins its wait. -/
theorem flush_shows (issuer : FlushBy) {s : State} (h : nextFail s = false) :
    flush issuer s = await (.flush issuer) (afterFlush issuer) (showFrame (popFail s)) := by
  simp [flush, h]

/-- A list of draws and a flush none of which fails: the frame shows the draws, and the flush's wait begins. -/
theorem drawAll_flush {ds : List (Glyph × Slot)} (issuer : FlushBy) {s : State}
    (h : noFailures (ds.length + 1) s = true) {fr : Five (Option Glyph)}
    (hfr : fr = (s.disp.pending ++ ds).foldl putGlyph s.disp.frame) :
    drawAll ds (flush issuer) s = await (.flush issuer) (afterFlush issuer)
      { s with
        env := (popFails (ds.length + 1) s).env
        disp := ⟨[], fr⟩
        logs := { s.logs with dispOut := s.logs.dispOut ++ ds.map (fun d => .draw d.1 d.2) ++ [.flush fr] } } := by
  obtain ⟨e1, e2⟩ := drawAll_noFailures ds (flush issuer) 1 s h
  simp only [noFailures, Bool.and_true, Bool.not_eq_true'] at e2
  subst hfr
  rw [e1, popFails_succ, flush_shows issuer (by rw [← e2]; exact nextFail_env rfl)]
  simp [showFrame, flushedFrame, popFail]

/-- A list of draws of which the one after the first `k` fails: those `k` are queued, fault 4 is raised, and nothing that
follows is done (R264). -/
theorem drawAll_fails (ds : List (Glyph × Slot)) (rest : State → State) (k : Nat) (s : State) (hk : k < ds.length)
    (h : noFailures k s = true) (hf : nextFail (popFails k s) = true) :
    drawAll ds rest s = raiseControl faultDisplay
      { s with
        env := (popFails (k + 1) s).env
        disp := { s.disp with pending := s.disp.pending ++ ds.take k }
        logs := { s.logs with dispOut := s.logs.dispOut ++ (ds.take k).map (fun d => .draw d.1 d.2) } } := by
  induction ds generalizing k s with
  | nil => exact absurd hk (Nat.not_lt_zero k)
  | cons d ds ih =>
    cases k with
    | zero =>
      have h0 : nextFail s = true := hf
      simp only [drawAll, drawGlyph, h0, if_true]
      congr 1
      simp [popFails, popFail]
    | succ k =>
      simp only [noFailures, Bool.and_eq_true, Bool.not_eq_true'] at h
      have he : (queueDraw d (popFail s)).env = (popFail s).env := rfl
      rw [drawAll, drawGlyph, h.1, if_neg (by decide),
        ih k _ (Nat.lt_of_succ_lt_succ hk) ((noFailures_env k he).trans h.2) ((nextFail_env (popFails_env k he)).trans hf)]
      congr 1
      simp [popFails, popFails_env k (popFail_env he)]

/-- A list of draws and a flush of which one fails, the flush where all draws do not: the draws before it are queued,
fault 4 is raised, and nothing is shown (R264). -/
theorem drawAll_flush_fails {ds : List (Glyph × Slot)} (issuer : FlushBy) {k : Nat} {s : State} (hk : k ≤ ds.length)
    (h : noFailures k s = true) (hf : nextFail (popFails k s) = true) :
    drawAll ds (flush issuer) s = raiseControl faultDisplay
      { s with
        env := (popFails (k + 1) s).env
        disp := { s.disp with pending := s.disp.pending ++ ds.take k }
        logs := { s.logs with dispOut := s.logs.dispOut ++ (ds.take k).map (fun d => .draw d.1 d.2) } } := by
  rcases Nat.lt_or_eq_of_le hk with hk | rfl
  · exact drawAll_fails ds _ k s hk h hf
  · rw [(drawAll_noFailures ds _ 0 s h).1, List.take_length, flush]
    dsimp only
    rw [if_pos (by rw [← hf]; exact nextFail_env rfl), popFails_succ]
    congr 1

/-- What an `FL.READ` can do after its wait. -/
theorem readFlash_cases {P : State → Prop} {issuer : ReadBy} {s : State}
    (go : nextFail s = false →
      P (afterRead issuer { popFail s with
        cfg := { s.cfg with buf := memRead s.flash (cfgOffset s.par.val) recordBytes } }))
    (stop : nextFail s = true → P (raiseControl faultFlashRead (popFail s))) : P (readFlash issuer s) := by
  unfold readFlash
  dsimp
  split
  · exact stop (by assumption)
  · exact go (by simp_all)

/-- What an `FL.ERASE` can do after its wait. -/
theorem eraseFlash_cases {P : State → Prop} {issuer : FlashBy} {s : State}
    (go : nextFail s = false →
      P (afterErase issuer { popFail s with
        flash := memErase s.flash (cfgOffset s.par.val) (blockBytes s.par.val)
        logs := { s.logs with
          flashLog := s.logs.flashLog ++ [.erase (cfgOffset s.par.val) (blockBytes s.par.val)] } }))
    (stop : nextFail s = true →
      P (raiseControl faultFlashErase (scramble (cfgOffset s.par.val) (blockBytes s.par.val) (popFail s)))) :
    P (eraseFlash issuer s) := by
  unfold eraseFlash
  dsimp
  split
  · exact stop (by assumption)
  · exact go (by simp_all)

/-- What an `FL.PROG` can do after its wait. -/
theorem progFlash_cases {P : State → Prop} {issuer : FlashBy} {s : State}
    (go : nextFail s = false →
      P (afterProg issuer { popFail s with
        flash := memProgram s.flash (cfgOffset s.par.val) (encodeRecord s.cfg.new)
        logs := { s.logs with
          flashLog := s.logs.flashLog ++ [.prog (cfgOffset s.par.val) (encodeRecord s.cfg.new)] } }))
    (stop : nextFail s = true →
      P (raiseControl faultFlashProg (scramble (cfgOffset s.par.val) recordBytes (popFail s)))) :
    P (progFlash issuer s) := by
  unfold progFlash
  dsimp
  split
  · exact stop (by assumption)
  · exact go (by simp_all)

/-! The record and the divider. -/

/-- A record read is always in range (R210). -/
theorem decodeRecord_range (p : Params) (b : List Byte) (h : 1 ≤ toneCount p) :
    (decodeRecord p b).index.toNat < toneCount p := by
  unfold decodeRecord defaultCfg
  dsimp
  repeat' split
  all_goals (dsimp; omega)

/-- A pair `DIV.CALC` returns: the index is in range, the divider legal, the table one that exists (R126, R128). -/
theorem calcDivider_pair {p : Params} {i : Word32} {t : Bool} {d : Word32} (h : calcDivider p i = .pair t d) :
    i.toNat < toneCount p ∧ 256 ≤ d.toNat ∧ (t = true → p.dualTable = true) := by
  unfold calcDivider at h
  split at h
  · cases h
  · rename_i f hf
    split at h
    · cases h
    · split at h
      · injection h with h1 h2
        subst h1 h2
        rename_i hd
        refine ⟨(List.getElem?_eq_some_iff.mp hf).1, ?_, ?_⟩
        · rw [BitVec.toNat_ofNat, Nat.mod_eq_of_lt hd.2]; exact hd.1
        · simp only [usesT8, Bool.and_eq_true]; exact fun h => h.1
      · cases h

/-- A table has at least one word. -/
theorem tableWords_pos (p : Params) : 0 < tableWords p := by
  unfold tableWords bitDepth
  rw [Nat.pow_add]
  simp

/-- A block holds the record. -/
theorem recordBytes_le_blockBytes (p : Params) : recordBytes ≤ blockBytes p := by
  unfold recordBytes blockBytes
  rw [Nat.pow_add]
  exact Nat.le_mul_of_pos_right 8 (Nat.two_pow_pos _)

/-- A packed table has the words asked for (R122). -/
@[simp] theorem packTable_length (bits : List Bool) (n : Nat) : (packTable bits n).length = n := by
  simp [packTable]

/-- What a valid parameter assignment says of the index range (R9). -/
theorem paramsValid_counts {p : Params} (h : paramsValid p = true) :
    1 ≤ toneCount p ∧ toneCount p < 2 ^ 32 ∧ 1 ≤ wrapLen p ∧ wrapLen p ≤ toneCount p := by
  simp only [paramsValid, Bool.and_eq_true, decide_eq_true_eq] at h
  refine ⟨by tauto, by tauto, by tauto, ?_⟩
  unfold wrapLen
  omega

/-- Under a valid parameter assignment every index in range has a divider (R9). -/
theorem calcDivider_valid {p : Params} {i : Word32} (h : paramsValid p = true) (hi : i.toNat < toneCount p) :
    ∃ f, toneRead p i = some f ∧ calcDivider p i = .pair (usesT8 p f) (BitVec.ofNat 32 (dividerOf p f)) := by
  have hr : toneRead p i = some p.toneTable[i.toNat] := List.getElem?_eq_some_iff.mpr ⟨hi, rfl⟩
  have hv : toneValid p p.toneTable[i.toNat] = true := by
    simp only [paramsValid, Bool.and_eq_true, List.all_eq_true] at h
    exact h.1.1.1.1.1.1.2 _ (List.getElem_mem _)
  simp only [toneValid, Bool.and_eq_true, decide_eq_true_eq] at hv
  refine ⟨_, hr, ?_⟩
  simp only [calcDivider, hr]
  rw [if_neg (by omega), if_pos ⟨hv.1.2, hv.2⟩]

/-- Under a valid parameter assignment `DIV.CALC` never ends in `DIV_PRECONDITION` (R256). -/
theorem calcDivider_ne_precondition (p : ValidParams) (i : Word32) : calcDivider p.val i ≠ .precondition := by
  intro h
  rcases Nat.lt_or_ge i.toNat (toneCount p.val) with hi | hi
  · obtain ⟨f, -, hf⟩ := calcDivider_valid p.valid hi
    rw [hf] at h
    cases h
  · simp [calcDivider, toneRead, List.getElem?_eq_none hi] at h

/-- Under a valid parameter assignment `DIV.CALC` always has a result (R9, R126). -/
theorem calcDivider_ne_invalid (p : ValidParams) (i : Word32) : calcDivider p.val i ≠ .invalid := by
  intro h
  rcases Nat.lt_or_ge i.toNat (toneCount p.val) with hi | hi
  · obtain ⟨f, -, hf⟩ := calcDivider_valid p.valid hi
    rw [hf] at h
    cases h
  · simp [calcDivider, toneRead, List.getElem?_eq_none hi] at h

/-! The glyphs the block draws (R99, R100, U17). -/

/-- A digit is a legal glyph. -/
theorem glyphLegal_digit (n : Nat) : glyphLegal (glyphDigit n) = true := by
  simp only [glyphLegal, glyphDigit, BitVec.toNat_ofNat, decide_eq_true_eq]
  omega

/-- A digit or a space is a legal glyph. -/
theorem glyphLegal_digitOrSpace (w k : Nat) : glyphLegal (digitOrSpace w k) = true := by
  unfold digitOrSpace
  split
  · decide
  · exact glyphLegal_digit _

/-- The default readout has legal glyphs (R230). -/
theorem defaultLayout_legal (f : Nat) (e : Bool) : glyphsLegal (defaultLayout f e) = true := by
  unfold defaultLayout
  have hfree : ∀ slot, glyphLegal (BitVec.ofNat 8 (Config.freeGlyph f slot % 15)) = true := by
    intro slot
    simp only [glyphLegal, BitVec.toNat_ofNat, decide_eq_true_eq]
    omega
  have hdot : glyphLegal glyphDot = true := by decide
  split
  · decide
  · split
    · simp only [glyphsLegal, glyphLegal_digit, glyphLegal_digitOrSpace, hdot, Bool.and_self]
    · split
      · simp only [glyphsLegal, glyphLegal_digit, glyphLegal_digitOrSpace, Bool.and_self]
      · simp only [glyphsLegal, hfree, Bool.and_self]

/-- Every readout of a valid parameter assignment has legal glyphs (R230, U17). -/
theorem readout_legal (p : ValidParams) (f : Nat) (e : Bool) : glyphsLegal (readout p.val f e) = true := by
  have hv := p.valid
  simp only [paramsValid, Bool.and_eq_true, List.all_eq_true] at hv
  unfold readout
  split
  · rename_i r hr
    exact hv.1.1.2 r (List.mem_of_find?_eq_some hr)
  · exact defaultLayout_legal f e

/-- Every pair that `CTL.RENDER` draws is one that `DISP.DRAW` is enabled for (R230, R270). -/
theorem drawsOf_legal (p : ValidParams) (f : Nat) (e : Bool) : (drawsOf (readout p.val f e)).all drawLegal = true := by
  have h := readout_legal p f e
  simp only [glyphsLegal, Bool.and_eq_true] at h
  simp [drawsOf, drawLegal, slotLegal, h]

/-- Every pair that `CTL.RECOVERY` draws is one that `DISP.DRAW` is enabled for (R227, R270). -/
theorem diagMsg_legal (p : ValidParams) : p.val.diagMsg.all drawLegal = true := by
  have hv := p.valid
  simp only [paramsValid, Bool.and_eq_true] at hv
  exact hv.1.2

/-! The passing of time (R11, R279). -/

/-- One tick more. -/
theorem afterTicks_tick (k : Nat) (s : State) : afterTicks k (tick s) = afterTicks (k + 1) s := by
  unfold afterTicks
  split
  · simp_all [tick]
  · simp only [tick, Nat.add_one_ne_zero, if_false, Nat.add_assoc, Nat.add_comm 1]

/-- Single advances can all be made where every tick left behind can pass, and then only time has passed. -/
theorem advance_all (n : Nat) (s : State) (h : ∀ k < n, tickReady (afterTicks k s) = true) :
    advance n s = some (afterTicks n s) := by
  induction n generalizing s with
  | zero => rfl
  | succ n ih =>
    have h0 : tickReady s = true := h 0 (Nat.succ_pos n)
    rw [advance, if_pos h0, ih _ fun k hk => by rw [afterTicks_tick]; exact h (k + 1) (by omega), afterTicks_tick]

/-- Where one tick left behind cannot pass, they cannot. -/
theorem advance_none {n k : Nat} {s : State} (hk : k < n) (h : tickReady (afterTicks k s) = false) :
    advance n s = none := by
  induction n generalizing s k with
  | zero => omega
  | succ n ih =>
    rw [advance]
    split
    · rename_i h0
      cases k with
      | zero => exact absurd (h0.symm.trans h) (by decide)
      | succ k => exact ih (Nat.lt_of_succ_lt_succ hk) (by rw [afterTicks_tick]; exact h)
    · rfl

end Sys2Proof.Machine
end

