-- ==== Sys2Proof/Laws/Exec.lean ====
section
/-! SUPPORT. For each operation, exactly when it has a next state and which one. A proof about an operation cites its
lemma and does not unfold `exec`. -/

namespace Sys2Proof.Machine

variable {s t : State}

/-- `envLine`. -/
theorem exec_envLine_next {line : LineId} {level : Bool} :
    exec (.envLine line level) s = .next t ↔ envLineReady s = true ∧
      t = { s with lines := setLine line level s.lines } := by
  unfold exec execEnvLine
  exact take_next

/-- `genPdmgen`. -/
theorem exec_genPdmgen_next :
    exec .genPdmgen s = .next t ↔ (genReady s && romOpen s s.rom.t1 (tableOf s.par.val 1)) = true ∧
      t = { s with rom := { s.rom with t1 := tableOf s.par.val 1 } } := by
  unfold exec execGenPdmgen
  exact take_next

/-- `genPdmgen8`. -/
theorem exec_genPdmgen8_next :
    exec .genPdmgen8 s = .next t ↔
      (genReady s && s.par.val.dualTable && romOpen s s.rom.t8 (tableOf s.par.val 8)) = true ∧
      t = { s with rom := { s.rom with t8 := tableOf s.par.val 8 } } := by
  unfold exec execGenPdmgen8
  exact take_next

/-- `smSetdiv`. -/
theorem exec_smSetdiv_next {val : Word32} :
    exec (.smSetdiv val) s = .next t ↔ setDivReady val s = true ∧ t = setDivider val s := take_next

/-- `smEnable`. -/
theorem exec_smEnable_next {b : Bool} :
    exec (.smEnable b) s = .next t ↔ audLive s = true ∧ t = enableOutput b s := take_next

/-- `smPull`. -/
theorem exec_smPull_next :
    exec .smPull s = .next t ↔ smPullReady s = true ∧ t = pullWord s := take_next

/-- `smShift`. -/
theorem exec_smShift_next :
    exec .smShift s = .next t ↔ smShiftReady s = true ∧ t = shiftBit s := take_next

/-- `dmaArm`. -/
theorem exec_dmaArm_next {b : Bool} :
    exec (.dmaArm b) s = .next t ↔ dmaArmReady b s = true ∧ t = armDma b s := take_next

/-- `dmaAbort`. -/
theorem exec_dmaAbort_next :
    exec .dmaAbort s = .next t ↔ audLive s = true ∧ t = abortDma s := take_next

/-- `mbxSend`. -/
theorem exec_mbxSend_next {en : Bool} {idx : Word32} :
    exec (.mbxSend en idx) s = .next t ↔ ctlLive s = true ∧ t = { sendSelection ⟨idx, en⟩ s with fresh := false }
      := takeCtl_next

/-- `mbxRecv`. -/
theorem exec_mbxRecv_next :
    exec .mbxRecv s = .next t ↔ mbxRecvReady s = true ∧ t = receiveSelection s := take_next

/-- `audStart`. -/
theorem exec_audStart_next :
    exec .audStart s = .next t ↔ audStartReady s = true ∧ t = takeSelection s := take_next

/-- `audPush`. -/
theorem exec_audPush_next :
    exec .audPush s = .next t ↔ audPushReady s = true ∧ t = pushTable s := take_next

/-- `audRearm`. -/
theorem exec_audRearm_next :
    exec .audRearm s = .next t ↔ audRearmReady s = true ∧
      t = { s with dma := { s.dma with done := false }, aud := { s.aud with ph := .push } } := by
  unfold exec execAudRearm
  exact take_next

/-- `audPreempt`. -/
theorem exec_audPreempt_next :
    exec .audPreempt s = .next t ↔ audPreemptReady s = true ∧ t = takeSelection (abortDma s) := take_next

/-- `encStart`. -/
theorem exec_encStart_next :
    exec .encStart s = .next t ↔ encStartReady s = true ∧ t = { startEncoder s with fresh := false } := takeCtl_next

/-- `encRest`. -/
theorem exec_encRest_next :
    exec .encRest s = .next t ↔ encRestReady s = true ∧ t = { settleTo .restSettle s with fresh := false }
      := takeCtl_next

/-- `encArm`. -/
theorem exec_encArm_next :
    exec .encArm s = .next t ↔ encArmReady s = true ∧
      t = { setEnc (if linePair s = (true, true) then .armed else .restWait) s with fresh := false } := takeCtl_next

/-- `encFall`. -/
theorem exec_encFall_next {b : Bool} :
    exec (.encFall b) s = .next t ↔ encFallReady b s = true ∧
      t = { settleTo .wait1 { s with enc := { s.enc with dir := b } } with fresh := false } := takeCtl_next

/-- `encAdvance`. -/
theorem exec_encAdvance_next {code : Byte} :
    exec (.encAdvance code) s = .next t ↔ encAdvanceReady code s = true ∧
      t = { settleTo (stageAfter code.toNat) s with fresh := false } := takeCtl_next

/-- `encDrop`. -/
theorem exec_encDrop_next :
    exec .encDrop s = .next t ↔ encDropReady s = true ∧ t = { setEnc .restWait s with fresh := false } := takeCtl_next

/-- `encEmit`. -/
theorem exec_encEmit_next {b : Bool} :
    exec (.encEmit b) s = .next t ↔ encEmitReady b s = true ∧
      t = { encoderWins b (setEnc .off { s with ctl := { s.ctl with event := eventOf b } }) with fresh := false }
      := takeCtl_next

/-- `encAbandon`. -/
theorem exec_encAbandon_next :
    exec .encAbandon s = .next t ↔ ctlLive s = true ∧ t = { abandonEncoder s with fresh := false } := takeCtl_next

/-- `btnStart`. -/
theorem exec_btnStart_next :
    exec .btnStart s = .next t ↔ btnStartReady s = true ∧ t = { startButton s with fresh := false } := takeCtl_next

/-- `btnEdge`. -/
theorem exec_btnEdge_next :
    exec .btnEdge s = .next t ↔ btnEdgeReady s = true ∧
      t = { buttonWins { s with btn := { s.btn with st := .debounce, deadline := s.now + tSettle s.par.val } } with fresh := false }
      := takeCtl_next

/-- `btnConfirm`. -/
theorem exec_btnConfirm_next :
    exec .btnConfirm s = .next t ↔ btnConfirmReady s = true ∧
      t = { { s with btn := { s.btn with st := .held, deadline := s.now + tLong s.par.val } } with fresh := false }
      := by
  unfold exec execBtnConfirm
  exact takeCtl_next

/-- `btnRelease`. -/
theorem exec_btnRelease_next :
    exec .btnRelease s = .next t ↔ btnReleaseReady s = true ∧
      t = { classify .toggle .doneToggle .handleToggle s with fresh := false } := takeCtl_next

/-- `btnTimeout`. -/
theorem exec_btnTimeout_next :
    exec .btnTimeout s = .next t ↔ btnTimeoutReady s = true ∧
      t = { classify .persist .donePersist .persistAck s with fresh := false } := takeCtl_next

/-- `btnTrail`. -/
theorem exec_btnTrail_next :
    exec .btnTrail s = .next t ↔ btnTrailReady s = true ∧ t = { classify .none .off .publish s with fresh := false }
      := takeCtl_next

/-- `btnAbandon`. -/
theorem exec_btnAbandon_next :
    exec .btnAbandon s = .next t ↔ btnAbandonReady s = true ∧ t = { abandonButton s with fresh := false }
      := takeCtl_next

/-- `cfgRead`. -/
theorem exec_cfgRead_next :
    exec .cfgRead s = .next t ↔ ctlIdle s = true ∧ t = { beginRead .cfgRead s with fresh := false } := takeCtl_next

/-- `cfgWrite`. -/
theorem exec_cfgWrite_next {en : Bool} {idx : Word32} :
    exec (.cfgWrite en idx) s = .next t ↔ cfgWriteReady idx s = true ∧
      t = { beginWrite .direct ⟨idx, en⟩ s with fresh := false } := takeCtl_next

/-- `flRead`. -/
theorem exec_flRead_next :
    exec .flRead s = .next t ↔ (ctlIdle s || readDue s) = true ∧ t = { flReadEffect s with fresh := false }
      := takeCtl_next

/-- `flErase`. -/
theorem exec_flErase_next :
    exec .flErase s = .next t ↔ (ctlIdle s || eraseDue s) = true ∧ t = { flEraseEffect s with fresh := false }
      := takeCtl_next

/-- `flProg`. -/
theorem exec_flProg_next :
    exec .flProg s = .next t ↔ (ctlIdle s || progDue s) = true ∧ t = { flProgEffect s with fresh := false }
      := takeCtl_next

/-- `ctlBoot`. -/
theorem exec_ctlBoot_next :
    exec .ctlBoot s = .next t ↔ ctlAt .boot s = true ∧
      t = { setPhase (if s.lines.recov then .load else .recovery) s with fresh := false } := takeCtl_next

/-- `ctlRecovery`. -/
theorem exec_ctlRecovery_next :
    exec .ctlRecovery s = .next t ↔ ctlAt .recovery s = true ∧
      t = { drawAll s.par.val.diagMsg (flush .recovery) s with fresh := false } := takeCtl_next

/-- `ctlLoad`. -/
theorem exec_ctlLoad_next :
    exec .ctlLoad s = .next t ↔ ctlAt .load s = true ∧ t = { beginRead .load s with fresh := false } := takeCtl_next

/-- `ctlPublish`. -/
theorem exec_ctlPublish_next :
    exec .ctlPublish s = .next t ↔ ctlPublishReady s = true ∧ t = { publishEffect s with fresh := false }
      := takeCtl_next

/-- `ctlRender`. -/
theorem exec_ctlRender_next :
    exec .ctlRender s = .next t ↔ ctlRenderReady s = true ∧ t = { renderEffect s with fresh := false } := takeCtl_next

/-- `ctlWait`. -/
theorem exec_ctlWait_next :
    exec .ctlWait s = .next t ↔ ctlWaitReady s = true ∧ t = { startButton (startEncoder s) with fresh := false }
      := takeCtl_next

/-- `ctlUp`. -/
theorem exec_ctlUp_next :
    exec .ctlUp s = .next t ↔ ctlAt .handleUp s = true ∧
      t = { withIndex (fun i s => stepTo (indexUp s.par.val i) s) s with fresh := false } := takeCtl_next

/-- `ctlDown`. -/
theorem exec_ctlDown_next :
    exec .ctlDown s = .next t ↔ ctlAt .handleDown s = true ∧
      t = { withIndex (fun i s => stepTo (indexDown s.par.val i) s) s with fresh := false } := takeCtl_next

/-- `ctlToggle`. -/
theorem exec_ctlToggle_next :
    exec .ctlToggle s = .next t ↔ ctlAt .handleToggle s = true ∧
      t = { withEnabled (fun e s => trailFrom { s with sel := { s.sel with enabled := .set (!e) } }) s with fresh := false }
      := takeCtl_next

/-- `ctlPersist`. -/
theorem exec_ctlPersist_next :
    exec .ctlPersist s = .next t ↔ ctlPersistReady s = true ∧ t = { persistEffect s with fresh := false }
      := takeCtl_next

/-- `dispDraw`. -/
theorem exec_dispDraw_next {glyph : Glyph} {slot : Slot} :
    exec (.dispDraw glyph slot) s = .next t ↔ dispDrawReady glyph slot s = true ∧
      t = { drawGlyph (glyph, slot) id s with fresh := false } := takeCtl_next

/-- `dispFlush`. -/
theorem exec_dispFlush_next :
    exec .dispFlush s = .next t ↔ (ctlIdle s || flushDue s) = true ∧ t = { flushEffect s with fresh := false }
      := takeCtl_next

/-- `ENV.RESET` always has a next state. -/
theorem exec_envReset_next : exec .envReset s = .next t ↔ t = resetState s := by
  simp only [exec, execEnvReset, Host.Outcome.next.injEq]
  exact eq_comm

/-- `ENV.ADV` has a next state exactly where its single advances all can be made. -/
theorem exec_envAdv_next {ticks : BitVec 40} :
    exec (.envAdv ticks) s = .next t ↔ ticks ≠ 0 ∧ advance ticks.toNat s = some t := by
  simp only [exec, execEnvAdv]
  split
  · simp_all
  · split <;> simp_all

/-- `DIV.CALC`: which state follows which result of the computation. -/
theorem exec_divCalc_next {val : Word32} :
    exec (.divCalc val) s = .next t ↔ audLive s = true ∧
      ((calcDivider s.par.val val = .indexRange ∧ t = raiseAudio faultIndexRange s) ∨
        (calcDivider s.par.val val = .precondition ∧ t = raiseAudio faultDivPrecondition s) ∨
        ∃ b d, calcDivider s.par.val val = .pair b d ∧ t = { s with aud := { s.aud with divOut := (b, d) } }) := by
  simp only [exec, execDivCalc]
  split
  · split <;> simp_all <;> exact eq_comm
  · simp_all

/-- `DMA.XFER`: it moves the word of `ROM` that it points to. -/
theorem exec_dmaXfer_next :
    exec .dmaXfer s = .next t ↔ dmaXferReady s = true ∧ ∃ w, romRead s.par.val s.rom s.dma.tbl s.dma.idx = some w ∧
      t = { s with
        fifo := s.fifo ++ [w]
        dma := dmaAfterWord s.par.val s.dma
        rom := { s.rom with read := true } } := by
  simp only [exec, execDmaXfer]
  split
  · split
    · simp_all
      exact eq_comm
    · simp_all
  · simp_all

/-- `AUD.CONFIG`: which state follows which result of the computation. -/
theorem exec_audConfig_next :
    exec .audConfig s = .next t ↔ audConfigReady s = true ∧
      ((s.aud.sel.written = false ∧ t = raiseAudio faultUnwritten s) ∨
        s.aud.sel.written = true ∧
          ((calcDivider s.par.val s.aud.sel.val.index = .indexRange ∧ t = raiseAudio faultIndexRange s) ∨
            (calcDivider s.par.val s.aud.sel.val.index = .precondition ∧
              t = raiseAudio faultDivPrecondition (enableOutput false s)) ∨
            ∃ b d, calcDivider s.par.val s.aud.sel.val.index = .pair b d ∧
              t = applyPair b d s.aud.sel.val.enabled s)) := by
  simp only [exec, execAudConfig]
  split
  · split
    · split <;> simp_all <;> exact eq_comm
    · simp_all
      exact eq_comm
  · simp_all

/-- `FAULT` has a next state for every code that is not reserved. -/
theorem exec_fault_next {code : Byte} :
    exec (.fault code) s = .next t ↔ (1 ≤ code.toNat ∧ code.toNat ≤ 7) ∧ t = faultEffect code s := by
  simp only [exec, execFault, Instr.wellFormed, decide_eq_true_eq]
  split
  · simp_all
    exact eq_comm
  · simp_all

/-- What the effect of a `FAULT` can be: a raise by one of the sides, after at most one free value (R255, R256). -/
theorem faultEffect_cases {P : State → Prop} (code : Byte) (s : State)
    (control : ∀ n, P (raiseControl code { s with env := { s.env with count := n } }))
    (audio : ∀ n, P (raiseAudio code { s with env := { s.env with count := n } })) : P (faultEffect code s) := by
  unfold faultEffect
  dsimp
  split <;> split
  · exact control s.env.count
  · exact control (s.env.count + 1)
  · exact audio s.env.count
  · exact audio (s.env.count + 1)

end Sys2Proof.Machine
end

