-- ==== Sys2Proof/Laws/Generator.lean ====
section
/-! SUPPORT. The table generator (Machine/Gen.lean) against real numbers: what the recurrence does over any exact numbers
(R120), and, for the exact arithmetic of the default waveform (R121), the number a `CosSum` stands for, one lemma per
operation, and that `cosPositive` decides its sign. -/

namespace Sys2Proof.Machine

/-! The recurrence. -/

/-- What the recurrence of R120 does, over numbers that stand for the reals `val`: bit `k` says whether `qe + w` is
positive, and the next `qe` is what the bit leaves of it. -/
theorem pdmBits_spec {α : Type} {addWave : Nat → α → α} {positive : α → Bool} {shift : Int → α → α} {good : α → Prop}
    {val : α → ℝ} {w : Nat → ℝ}
    (hadd : ∀ i q, good q → good (addWave i q) ∧ val (addWave i q) = val q + w i)
    (hpos : ∀ q, good q → (positive q = true ↔ 0 < val q))
    (hshift : ∀ (c : Int) q, good q → good (shift c q) ∧ val (shift c q) = val q + c) :
    ∀ (n i : Nat) (q : α), good q →
      (pdmBits addWave positive shift n i q).length = n ∧
      ∃ qe : Nat → ℝ, qe 0 = val q ∧ ∀ k < n,
        ((pdmBits addWave positive shift n i q).getD k false = true ↔ 0 < qe k + w (i + k)) ∧
        qe (k + 1) = qe k + w (i + k) - if (pdmBits addWave positive shift n i q).getD k false then 1 else -1
  | 0, i, q, _ => ⟨rfl, fun _ => val q, rfl, fun _ h => absurd h (Nat.not_lt_zero _)⟩
  | n + 1, i, q, hq => by
    obtain ⟨ga, va⟩ := hadd i q hq
    have hb := hpos _ ga
    have cons : ∀ (b : Bool) (c : Int), (b = true ↔ 0 < val q + w i) → (c : ℝ) = -(if b then 1 else -1) →
        pdmBits addWave positive shift (n + 1) i q =
          b :: pdmBits addWave positive shift n (i + 1) (shift c (addWave i q)) →
        (pdmBits addWave positive shift (n + 1) i q).length = n + 1 ∧
        ∃ qe : Nat → ℝ, qe 0 = val q ∧ ∀ k < n + 1,
          ((pdmBits addWave positive shift (n + 1) i q).getD k false = true ↔ 0 < qe k + w (i + k)) ∧
          qe (k + 1) = qe k + w (i + k) -
            if (pdmBits addWave positive shift (n + 1) i q).getD k false then 1 else -1 := by
      intro b c hbit hc e
      obtain ⟨gs, vs⟩ := hshift c _ ga
      obtain ⟨hl, qe, h0, h⟩ := pdmBits_spec hadd hpos hshift n (i + 1) _ gs
      rw [e]
      refine ⟨by rw [List.length_cons, hl], fun k => if k = 0 then val q else qe (k - 1), rfl, ?_⟩
      intro k hk
      cases k with
      | zero =>
        refine ⟨hbit, ?_⟩
        change qe 0 = val q + w i - if b then 1 else -1
        rw [h0, vs, va, hc]
        ring
      | succ k =>
        have hk' := h k (Nat.lt_of_succ_lt_succ hk)
        rw [show i + 1 + k = i + (k + 1) by omega] at hk'
        exact hk'
    by_cases hp : positive (addWave i q) = true
    · exact cons true (-1) (by rw [← va]; exact iff_of_true rfl (hb.1 hp)) (by simp) (by simp [pdmBits, hp])
    · refine cons false 1 (by rw [← va]; exact iff_of_false (by decide) fun h => hp (hb.2 h)) (by simp) ?_
      simp [pdmBits, hp]

/-! The numbers of the default waveform. -/

/-- `2 cos(2 pi m / n)`. -/
noncomputable def twoCos (n m : Nat) : ℝ := 2 * Real.cos (2 * Real.pi * m / n)

/-- The sum of `xs[i] * 2 cos(2 pi (j + i) / n)`. -/
noncomputable def rowVal (n : Nat) : Nat → List Int → ℝ
  | _, [] => 0
  | j, x :: xs => x * twoCos n j + rowVal n (j + 1) xs

/-- The number a combination for `n` stands for. -/
noncomputable def cosVal (n : Nat) (q : CosSum) : ℝ := q.unit + rowVal n 1 q.coeffs

/-- A combination for `n` has a coefficient for every `0 < k < n / 4`. -/
def CosSum.fits (n : Nat) (q : CosSum) : Prop := q.coeffs.length = n / 4 - 1

/-! Cosines. -/

theorem twoCos_zero (n : Nat) : twoCos n 0 = 2 := by simp [twoCos]

theorem twoCos_double (n m : Nat) : twoCos (2 * n) (2 * m) = twoCos n m := by
  unfold twoCos
  push_cast
  rcases Nat.eq_zero_or_pos n with rfl | h
  · simp
  · congr 2
    have : (n : ℝ) ≠ 0 := by positivity
    field_simp

theorem twoCos_mul (n a b : Nat) (h : b ≤ a) : twoCos n a * twoCos n b = twoCos n (a + b) + twoCos n (a - b) := by
  unfold twoCos
  have e1 : 2 * Real.pi * ((a + b : Nat) : ℝ) / n = 2 * Real.pi * a / n + 2 * Real.pi * b / n := by push_cast; ring
  have e2 : 2 * Real.pi * ((a - b : Nat) : ℝ) / n = 2 * Real.pi * a / n - 2 * Real.pi * b / n := by
    rw [Nat.cast_sub h]; ring
  rw [e1, e2, Real.cos_add, Real.cos_sub]
  ring

theorem twoCos_mod (n m : Nat) (h : 0 < n) : twoCos n (m % n) = twoCos n m := by
  unfold twoCos
  congr 1
  have hn : (n : ℝ) ≠ 0 := by positivity
  have e : 2 * Real.pi * (m : ℝ) / n = 2 * Real.pi * ((m % n : Nat) : ℝ) / n + (m / n : Nat) * (2 * Real.pi) := by
    have : (m : ℝ) = ((m % n : Nat) : ℝ) + n * ((m / n : Nat) : ℝ) := by exact_mod_cast (Nat.mod_add_div m n).symm
    rw [this]; field_simp
  rw [e, Real.cos_add_nat_mul_two_pi]

theorem twoCos_reflect (n m : Nat) (h : 0 < n) (hm : m ≤ n) : twoCos n (n - m) = twoCos n m := by
  unfold twoCos
  have hn : (n : ℝ) ≠ 0 := by positivity
  have e : 2 * Real.pi * ((n - m : Nat) : ℝ) / n = 2 * Real.pi - 2 * Real.pi * m / n := by
    rw [Nat.cast_sub hm]; field_simp
  rw [e, Real.cos_two_pi_sub]

theorem twoCos_half (n m : Nat) (h : 0 < n) (hm : m ≤ n) : twoCos (2 * n) (n - m) = -twoCos (2 * n) m := by
  unfold twoCos
  have hn : (n : ℝ) ≠ 0 := by positivity
  have e : 2 * Real.pi * ((n - m : Nat) : ℝ) / (2 * n : Nat) = Real.pi - 2 * Real.pi * m / (2 * n : Nat) := by
    rw [Nat.cast_sub hm]; push_cast; field_simp
  rw [e, Real.cos_pi_sub]
  ring

theorem twoCos_quarter (m : Nat) (h : 0 < m) : twoCos (4 * m) m = 0 := by
  unfold twoCos
  have hm : (m : ℝ) ≠ 0 := by positivity
  have e : 2 * Real.pi * (m : ℝ) / (4 * m : Nat) = Real.pi / 2 := by push_cast; field_simp; norm_num
  rw [e, Real.cos_pi_div_two, mul_zero]

/-- `s = 2 cos(2 pi / 2 ^ (j + 2))` is not negative, and it is positive where `j` is. -/
theorem twoCos_one_nonneg (j : Nat) : 0 ≤ twoCos (2 ^ (j + 2)) 1 := by
  unfold twoCos
  refine mul_nonneg (by norm_num) (Real.cos_nonneg_of_neg_pi_div_two_le_of_le ?_ ?_)
  · have := Real.pi_pos; have : 0 ≤ 2 * Real.pi * ((1 : Nat) : ℝ) / ((2 ^ (j + 2) : Nat) : ℝ) := by positivity
    linarith
  · push_cast
    rw [div_le_iff₀ (by positivity), pow_add]
    have : (1 : ℝ) ≤ 2 ^ j := one_le_pow₀ (by norm_num)
    nlinarith [Real.pi_pos]

/-- The half angle: `s * s = 2 + 2 cos` of twice the angle. -/
theorem twoCos_one_sq (j : Nat) :
    twoCos (2 ^ (j + 3)) 1 * twoCos (2 ^ (j + 3)) 1 = 2 + twoCos (2 ^ (j + 2)) 1 := by
  rw [twoCos_mul _ 1 1 le_rfl, Nat.sub_self, twoCos_zero,
    show 2 ^ (j + 3) = 2 * 2 ^ (j + 2) by ring, show 1 + 1 = 2 * 1 from rfl, twoCos_double]
  ring

theorem twoCos_one_pos (j : Nat) : 0 < twoCos (2 ^ (j + 3)) 1 := by
  have h := twoCos_one_sq j
  have h1 := twoCos_one_nonneg j
  have h2 := twoCos_one_nonneg (j + 1)
  rcases h2.lt_or_eq with h2 | h2
  · exact h2
  · rw [show j + 1 + 2 = j + 3 from rfl] at h2
    rw [← h2] at h
    linarith

/-! Each operation. -/

theorem bumpAt_length (l : List Int) (k : Nat) (c : Int) : (bumpAt l k c).length = l.length := by
  induction l generalizing k with
  | nil => rfl
  | cons x xs ih => cases k <;> simp [bumpAt, ih]

theorem rowVal_bumpAt (n : Nat) (l : List Int) (j k : Nat) (c : Int) (h : k < l.length) :
    rowVal n j (bumpAt l k c) = rowVal n j l + c * twoCos n (j + k) := by
  induction l generalizing j k with
  | nil => exact absurd h (Nat.not_lt_zero k)
  | cons x xs ih =>
    cases k with
    | zero => simp only [bumpAt, rowVal, Nat.add_zero]; push_cast; ring
    | succ k =>
      simp only [bumpAt, rowVal]
      rw [ih (j + 1) k (Nat.lt_of_succ_lt_succ h), show j + 1 + k = j + (k + 1) by omega]
      ring

theorem addQuarter_spec {n m : Nat} {c : Int} {q : CosSum} (h : 4 * m ≤ n) (h4 : 4 ∣ n) (hn : 0 < n) (hq : q.fits n) :
    (addQuarter n m c q).fits n ∧ cosVal n (addQuarter n m c q) = cosVal n q + c * twoCos n m := by
  unfold addQuarter
  split
  · subst_vars
    refine ⟨hq, ?_⟩
    rw [twoCos_zero]
    simp only [cosVal]
    push_cast
    ring
  · split
    · rename_i h0 h1
      subst h1
      refine ⟨hq, ?_⟩
      rw [twoCos_quarter m (Nat.pos_of_ne_zero h0)]
      ring
    · rename_i h0 h1
      unfold CosSum.fits at hq ⊢
      refine ⟨by rw [bumpAt_length, hq], ?_⟩
      simp only [cosVal]
      rw [rowVal_bumpAt _ _ _ _ _ (by rw [hq]; omega), show 1 + (m - 1) = m by omega]
      ring

theorem addCos_spec {n : Nat} (m : Nat) (c : Int) {q : CosSum} (h4 : 4 ∣ n) (hn : 0 < n) (hq : q.fits n) :
    (addCos n m c q).fits n ∧ cosVal n (addCos n m c q) = cosVal n q + c * twoCos n m := by
  have hr : m % n < n := Nat.mod_lt _ hn
  unfold addCos
  dsimp only
  rw [← twoCos_mod n m hn]
  generalize m % n = r at hr
  have hh : twoCos n (if n < 2 * r then n - r else r) = twoCos n r := by
    split
    · exact twoCos_reflect n r hn hr.le
    · rfl
  have hle : 2 * (if n < 2 * r then n - r else r) ≤ n := by split <;> omega
  rw [← hh]
  generalize (if n < 2 * r then n - r else r) = h at hle
  split
  · have e : twoCos n h = -twoCos n (n / 2 - h) := by
      obtain ⟨x, rfl⟩ := h4
      rw [show 4 * x = 2 * (2 * x) by ring, Nat.mul_div_cancel_left _ (by norm_num), twoCos_half _ _ (by omega) (by omega)]
      ring
    obtain ⟨f, v⟩ := addQuarter_spec (n := n) (m := n / 2 - h) (c := -c) (q := q) (by omega) h4 hn hq
    refine ⟨f, ?_⟩
    rw [v, e]
    push_cast
    ring
  · exact addQuarter_spec (by omega) h4 hn hq

theorem addRow_spec {n : Nat} (k : Nat) (c : Int) (ys : List Int) (j : Nat) {q : CosSum} (h4 : 4 ∣ n) (hn : 0 < n)
    (hq : q.fits n) :
    (addRow n k c j ys q).fits n ∧ cosVal n (addRow n k c j ys q) = cosVal n q + c * twoCos n k * rowVal n j ys := by
  induction ys generalizing j q with
  | nil => exact ⟨hq, by simp [addRow, rowVal]⟩
  | cons y ys ih =>
    obtain ⟨f1, v1⟩ := addCos_spec (if k ≤ j then j - k else k - j) (c * y) h4 hn hq
    obtain ⟨f2, v2⟩ := addCos_spec (k + j) (c * y) h4 hn f1
    obtain ⟨f3, v3⟩ := ih (j + 1) f2
    refine ⟨f3, ?_⟩
    have e : twoCos n k * twoCos n j = twoCos n (k + j) + twoCos n (if k ≤ j then j - k else k - j) := by
      split
      · rename_i h; rw [mul_comm, twoCos_mul n j k h, Nat.add_comm]
      · rename_i h; exact twoCos_mul n k j (by omega)
    rw [addRow, v3, v2, v1]
    simp only [rowVal]
    push_cast
    linear_combination -(c : ℝ) * y * e

theorem addRows_spec {n : Nat} (y : CosSum) (xs : List Int) (k : Nat) {q : CosSum} (h4 : 4 ∣ n) (hn : 0 < n)
    (hq : q.fits n) :
    (addRows n y k xs q).fits n ∧ cosVal n (addRows n y k xs q) = cosVal n q + rowVal n k xs * cosVal n y := by
  induction xs generalizing k q with
  | nil => exact ⟨hq, by simp [addRows, rowVal]⟩
  | cons x xs ih =>
    obtain ⟨f1, v1⟩ := addCos_spec k (x * y.unit) h4 hn hq
    obtain ⟨f2, v2⟩ := addRow_spec k x y.coeffs 1 h4 hn f1
    obtain ⟨f3, v3⟩ := ih (k + 1) f2
    refine ⟨f3, ?_⟩
    rw [addRows, v3, v2, v1]
    simp only [rowVal, cosVal]
    push_cast
    ring

theorem rowVal_map (n : Nat) (c : Int) (l : List Int) (j : Nat) : rowVal n j (l.map (c * ·)) = c * rowVal n j l := by
  induction l generalizing j with
  | nil => simp [rowVal]
  | cons x xs ih => simp only [List.map_cons, rowVal, ih]; push_cast; ring

theorem cosScale_spec {n : Nat} (c : Int) {x : CosSum} (hx : x.fits n) :
    (cosScale c x).fits n ∧ cosVal n (cosScale c x) = c * cosVal n x := by
  refine ⟨by simpa [CosSum.fits, cosScale] using hx, ?_⟩
  simp only [cosVal, cosScale, rowVal_map]
  push_cast
  ring

theorem rowVal_zipWith (n : Nat) (l m : List Int) (j : Nat) (h : l.length = m.length) :
    rowVal n j (List.zipWith (· + ·) l m) = rowVal n j l + rowVal n j m := by
  induction l generalizing m j with
  | nil =>
    cases m with
    | nil => simp [rowVal]
    | cons y ys => simp at h
  | cons x xs ih =>
    cases m with
    | nil => simp at h
    | cons y ys =>
      simp only [List.zipWith_cons_cons, rowVal]
      rw [ih ys (j + 1) (by simpa using h)]
      push_cast
      ring

theorem cosPlus_spec {n : Nat} {x y : CosSum} (hx : x.fits n) (hy : y.fits n) :
    (cosPlus x y).fits n ∧ cosVal n (cosPlus x y) = cosVal n x + cosVal n y := by
  unfold CosSum.fits at hx hy
  refine ⟨by simp [CosSum.fits, cosPlus, hx, hy], ?_⟩
  simp only [cosVal, cosPlus, rowVal_zipWith n _ _ 1 (hx.trans hy.symm)]
  push_cast
  ring

theorem cosTimes_spec {n : Nat} (x : CosSum) {y : CosSum} (h4 : 4 ∣ n) (hn : 0 < n) (hy : y.fits n) :
    (cosTimes n x y).fits n ∧ cosVal n (cosTimes n x y) = cosVal n x * cosVal n y := by
  obtain ⟨f1, v1⟩ := cosScale_spec x.unit hy
  obtain ⟨f2, v2⟩ := addRows_spec y x.coeffs 1 h4 hn f1
  refine ⟨f2, ?_⟩
  rw [cosTimes, v2, v1]
  simp only [cosVal]
  ring

theorem rowVal_replicate (n m j : Nat) : rowVal n j (List.replicate m 0) = 0 := by
  induction m generalizing j with
  | zero => rfl
  | succ m ih => simp [List.replicate_succ, rowVal, ih]

theorem cosZero_spec (n : Nat) : (cosZero n).fits n ∧ cosVal n (cosZero n) = 0 := by
  refine ⟨by simp [CosSum.fits, cosZero], by simp [cosVal, cosZero, rowVal_replicate]⟩

/-! Halving: a number is `a + s * b`. -/

/-- The sum of `xs[i] * 2 cos(2 pi (2 (a + i) + 1) / n)`. -/
noncomputable def oddVal (n : Nat) : Nat → List Int → ℝ
  | _, [] => 0
  | a, x :: xs => x * twoCos n (2 * a + 1) + oddVal n (a + 1) xs

theorem rowVal_split (n : Nat) : ∀ (l : List Int) (a : Nat),
    rowVal (2 * n) (2 * a + 1) l = oddVal (2 * n) a (odds l) + rowVal n (a + 1) (evens l)
  | [], a => by simp [rowVal, oddVal, odds, evens]
  | [x], a => by simp [rowVal, oddVal, odds, evens]
  | x :: y :: r, a => by
    have ih := rowVal_split n r (a + 1)
    simp only [rowVal, oddVal, odds, evens]
    rw [show 2 * a + 1 + 1 = 2 * (a + 1) by ring, twoCos_double, show 2 * (a + 1) + 1 = 2 * (a + 1) + 1 from rfl, ih]
    ring

theorem oddVal_alternate (n : Nat) (l : List Int) (a : Nat) :
    oddVal (2 * n) a l = (alternate l).headD 0 * twoCos (2 * n) (2 * a + 1)
      + twoCos (2 * n) 1 * rowVal n (a + 1) (alternate l).tail := by
  induction l generalizing a with
  | nil => simp [oddVal, alternate, rowVal]
  | cons x r ih =>
    have e : twoCos (2 * n) 1 * twoCos n (a + 1) = twoCos (2 * n) (2 * (a + 1) + 1) + twoCos (2 * n) (2 * a + 1) := by
      rw [← twoCos_double n (a + 1), mul_comm, twoCos_mul _ _ _ (by omega)]
      rfl
    simp only [oddVal, alternate, List.headD_cons, List.tail_cons]
    rw [ih (a + 1)]
    cases alternate r with
    | nil => simp [rowVal]
    | cons h t =>
      simp only [List.headD_cons, List.tail_cons, rowVal]
      push_cast
      linear_combination -(h : ℝ) * e

theorem evens_length : ∀ l : List Int, (evens l).length = l.length / 2
  | [] => by simp [evens]
  | [_] => by simp [evens]
  | _ :: _ :: r => by
    simp only [evens, List.length_cons, evens_length r]
    omega

theorem odds_length : ∀ l : List Int, (odds l).length = (l.length + 1) / 2
  | [] => by simp [odds]
  | [_] => by simp [odds]
  | _ :: _ :: r => by
    simp only [odds, List.length_cons, odds_length r]
    omega

theorem alternate_length (l : List Int) : (alternate l).length = l.length := by
  induction l with
  | nil => rfl
  | cons x r ih => simp [alternate, ih]

theorem parts_spec {j : Nat} {q : CosSum} (hq : q.fits (2 ^ (j + 3))) :
    (evenPart q).fits (2 ^ (j + 2)) ∧ (oddPart q).fits (2 ^ (j + 2)) ∧
      cosVal (2 ^ (j + 3)) q =
        cosVal (2 ^ (j + 2)) (evenPart q) + twoCos (2 ^ (j + 3)) 1 * cosVal (2 ^ (j + 2)) (oddPart q) := by
  have hj := Nat.two_pow_pos j
  have e3 : 2 ^ (j + 3) = 2 * 2 ^ (j + 2) := by ring
  have e2 : 2 ^ (j + 2) = 4 * 2 ^ j := by ring
  unfold CosSum.fits at *
  refine ⟨?_, ?_, ?_⟩
  · simp only [evenPart, evens_length]; omega
  · simp only [oddPart, List.length_tail, alternate_length, odds_length]; omega
  · rw [e3]
    have h1 := rowVal_split (2 ^ (j + 2)) q.coeffs 0
    have h2 := oddVal_alternate (2 ^ (j + 2)) (odds q.coeffs) 0
    simp only [Nat.mul_zero, Nat.zero_add] at h1 h2
    simp only [cosVal, evenPart, oddPart]
    rw [h1, h2]
    ring

/-! The sign. -/

/-- An integer is the sign of a real number. -/
def IsSign (z : Int) (v : ℝ) : Prop := z = 1 ∧ 0 < v ∨ z = 0 ∧ v = 0 ∨ z = -1 ∧ v < 0

theorem isSign_unit (z : Int) : IsSign z.sign z := by
  rcases lt_trichotomy z 0 with h | h | h
  · exact .inr (.inr ⟨Int.sign_eq_neg_one_of_neg h, by exact_mod_cast h⟩)
  · subst h; exact .inr (.inl ⟨rfl, by simp⟩)
  · exact .inl ⟨Int.sign_eq_one_of_pos h, by exact_mod_cast h⟩

/-- `cosSign` is the sign, exactly. -/
theorem cosSign_spec : ∀ (j : Nat) (q : CosSum), q.fits (2 ^ (j + 2)) → IsSign (cosSign j q) (cosVal (2 ^ (j + 2)) q)
  | 0, q, hq => by
    have : q.coeffs = [] := List.length_eq_zero_iff.1 (by simpa [CosSum.fits] using hq)
    simpa [cosSign, cosVal, this, rowVal] using isSign_unit q.unit
  | j + 1, q, hq => by
    obtain ⟨fa, fb, hv⟩ := parts_spec hq
    have ha := cosSign_spec j _ fa
    have hb := cosSign_spec j _ fb
    have hs := twoCos_one_pos j
    have h4 : 4 ∣ 2 ^ (j + 2) := ⟨2 ^ j, by ring⟩
    have hn := Nat.two_pow_pos (j + 2)
    have z := cosZero_spec (2 ^ (j + 2))
    obtain ⟨fs, vs⟩ := addCos_spec (q := { cosZero (2 ^ (j + 2)) with unit := 2 }) 1 1 h4 hn z.1
    have vs' : cosVal (2 ^ (j + 2)) { cosZero (2 ^ (j + 2)) with unit := 2 } = 2 := by
      simp [cosVal, cosZero, rowVal_replicate]
    obtain ⟨f1, v1⟩ := cosTimes_spec (evenPart q) h4 hn fa
    obtain ⟨f2, v2⟩ := cosTimes_spec (oddPart q) h4 hn fb
    obtain ⟨f3, v3⟩ := cosTimes_spec (addCos (2 ^ (j + 2)) 1 1 { cosZero (2 ^ (j + 2)) with unit := 2 }) h4 hn f2
    obtain ⟨f4, v4⟩ := cosScale_spec (-1) f3
    obtain ⟨f5, v5⟩ := cosPlus_spec f1 f4
    have hd := cosSign_spec j _ f5
    rw [v5, v4, v3, v2, v1, vs, vs'] at hd
    have hsq := twoCos_one_sq j
    rw [show j + 1 + 2 = j + 3 from rfl, hv]
    simp only [cosSign]
    generalize cosVal (2 ^ (j + 2)) (evenPart q) = va at *
    generalize cosVal (2 ^ (j + 2)) (oddPart q) = vb at *
    generalize twoCos (2 ^ (j + 3)) 1 = t at *
    have hd' : ((-1 : Int) : ℝ) * ((2 + ((1 : Int) : ℝ) * twoCos (2 ^ (j + 2)) 1) * (vb * vb)) = -(t * vb) * (t * vb) := by
      push_cast
      linear_combination vb * vb * hsq
    rw [hd'] at hd
    generalize cosSign j (cosPlus _ _) = zd at *
    generalize cosSign j (evenPart q) = za at *
    generalize cosSign j (oddPart q) = zb at *
    have tb : IsSign zb (t * vb) := by
      rcases hb with ⟨h, h'⟩ | ⟨h, h'⟩ | ⟨h, h'⟩
      · exact .inl ⟨h, by positivity⟩
      · exact .inr (.inl ⟨h, by rw [h', mul_zero]⟩)
      · exact .inr (.inr ⟨h, mul_neg_of_pos_of_neg hs h'⟩)
    generalize t * vb = w at *
    rcases ha with ⟨rfl, ha⟩ | ⟨rfl, ha⟩ | ⟨rfl, ha⟩ <;> rcases tb with ⟨rfl, hb'⟩ | ⟨rfl, hb'⟩ | ⟨rfl, hb'⟩ <;>
      simp only [reduceCtorEq, if_true, if_false, or_true, or_false, zero_ne_one, one_ne_zero, Int.reduceNeg, one_mul,
        neg_mul, or_self]
    · exact .inl ⟨rfl, by linarith⟩
    · exact .inl ⟨rfl, by linarith⟩
    · rcases hd with ⟨rfl, hd⟩ | ⟨rfl, hd⟩ | ⟨rfl, hd⟩
      · exact .inl ⟨rfl, by nlinarith⟩
      · exact .inr (.inl ⟨rfl, by nlinarith⟩)
      · exact .inr (.inr ⟨rfl, by nlinarith⟩)
    · exact .inl ⟨rfl, by linarith⟩
    · exact .inr (.inl ⟨rfl, by linarith⟩)
    · exact .inr (.inr ⟨rfl, by linarith⟩)
    · rcases hd with ⟨rfl, hd⟩ | ⟨rfl, hd⟩ | ⟨rfl, hd⟩
      · exact .inr (.inr ⟨rfl, by nlinarith⟩)
      · exact .inr (.inl ⟨rfl, by nlinarith⟩)
      · exact .inl ⟨rfl, by nlinarith⟩
    · exact .inr (.inr ⟨rfl, by linarith⟩)
    · exact .inr (.inr ⟨rfl, by linarith⟩)

/-! The integer bounds. -/

theorem sqrtBits_le (n b r : Nat) (h : r * r ≤ n) : sqrtBits n b r * sqrtBits n b r ≤ n := by
  induction b generalizing r with
  | zero => exact h
  | succ b ih =>
    rw [sqrtBits]
    split
    · exact ih _ (by assumption)
    · exact ih _ h

theorem lt_sqrtBits (n b r : Nat) (h : n < (r + 2 ^ b) * (r + 2 ^ b)) :
    n < (sqrtBits n b r + 1) * (sqrtBits n b r + 1) := by
  induction b generalizing r with
  | zero => exact h
  | succ b ih =>
    rw [sqrtBits]
    split
    · exact ih _ (by rwa [Nat.add_assoc, ← Nat.two_mul, ← Nat.pow_succ'])
    · exact ih _ (by omega)

theorem sqrtBits_full (n b r : Nat) (h : (r + 2 ^ b) * (r + 2 ^ b) ≤ n) : sqrtBits n b r + 1 = r + 2 ^ b := by
  induction b generalizing r with
  | zero => rfl
  | succ b ih =>
    have e : r + 2 ^ b + 2 ^ b = r + 2 ^ (b + 1) := by ring
    have : (r + 2 ^ b) * (r + 2 ^ b) ≤ n := le_trans (Nat.mul_self_le_mul_self (by rw [← e]; exact Nat.le_add_right _ _)) h
    rw [sqrtBits, if_pos this, ih _ (by rw [e]; exact h), e]

theorem twoCos_le (n m : Nat) : twoCos n m ≤ 2 := by
  unfold twoCos
  linarith [Real.cos_le_one (2 * Real.pi * m / n)]

/-- The first entry bounds `s` for `2 ^ (j + 2)`. -/
theorem halfBounds_spec (bits j : Nat) :
    (((halfBounds bits j).headD (0, 0)).1 : ℝ) ≤ twoCos (2 ^ (j + 2)) 1 * 2 ^ bits ∧
      twoCos (2 ^ (j + 2)) 1 * 2 ^ bits ≤ ((halfBounds bits j).headD (0, 0)).2 := by
  induction j with
  | zero =>
    have : twoCos (2 ^ (0 + 2)) 1 = 0 := twoCos_quarter 1 one_pos
    rw [this]
    simp [halfBounds]
  | succ j ih =>
    simp only [halfBounds, List.headD_cons]
    generalize (halfBounds bits j).headD (0, 0) = b at ih
    have hs := twoCos_one_nonneg (j + 1)
    have hsq := twoCos_one_sq j
    rw [show j + 1 + 2 = j + 3 from rfl] at hs ⊢
    have hp : (0 : ℝ) < 2 ^ bits := by positivity
    have h2 := twoCos_le (2 ^ (j + 3)) 1
    generalize twoCos (2 ^ (j + 3)) 1 = t at *
    generalize twoCos (2 ^ (j + 2)) 1 = u at *
    have hsquare : t * 2 ^ bits * (t * 2 ^ bits) = (2 + u) * (2 ^ bits * 2 ^ bits) := by
      linear_combination 2 ^ bits * 2 ^ bits * hsq
    have le_of_sq_le : ∀ {x y : ℝ}, 0 ≤ y → x * x ≤ y * y → x ≤ y := fun hy h => le_of_not_gt fun h' => by nlinarith
    refine ⟨?_, ?_⟩
    · have h := sqrtBits_le ((2 * 2 ^ bits + b.1) * 2 ^ bits) (bits + 1) 0 (Nat.zero_le _)
      generalize sqrtBits ((2 * 2 ^ bits + b.1) * 2 ^ bits) (bits + 1) 0 = r at h ⊢
      have h' : (r : ℝ) * r ≤ (2 * 2 ^ bits + b.1) * 2 ^ bits := by exact_mod_cast h
      refine le_of_sq_le (mul_nonneg hs hp.le) (le_trans h' ?_)
      rw [hsquare]
      nlinarith [mul_le_mul_of_nonneg_right ih.1 hp.le]
    · have hr : t * 2 ^ bits * (t * 2 ^ bits) ≤ (2 * 2 ^ bits + b.2) * 2 ^ bits := by
        rw [hsquare]
        nlinarith [mul_le_mul_of_nonneg_right ih.2 hp.le]
      rcases Nat.lt_or_ge ((2 * 2 ^ bits + b.2) * 2 ^ bits) ((0 + 2 ^ (bits + 1)) * (0 + 2 ^ (bits + 1))) with h | h
      · have h := lt_sqrtBits _ _ _ h
        generalize sqrtBits ((2 * 2 ^ bits + b.2) * 2 ^ bits) (bits + 1) 0 = r at h ⊢
        have h' : (2 * 2 ^ bits + (b.2 : ℝ)) * 2 ^ bits ≤ ((r + 1 : Nat) : ℝ) * ((r + 1 : Nat) : ℝ) := by
          exact_mod_cast h.le
        exact le_of_sq_le (by positivity) (le_trans hr h')
      · rw [sqrtBits_full _ _ _ h]
        push_cast
        rw [zero_add, pow_succ]
        nlinarith

/-- The bounds hold. -/
theorem cosBounds_spec (bits : Nat) : ∀ (j : Nat) (q : CosSum), q.fits (2 ^ (j + 2)) →
    ((cosBounds bits (halfBounds bits j) q).1 : ℝ) ≤ cosVal (2 ^ (j + 2)) q * 2 ^ bits ∧
      cosVal (2 ^ (j + 2)) q * 2 ^ bits ≤ ((cosBounds bits (halfBounds bits j) q).2 : ℝ)
  | 0, q, hq => by
    have : q.coeffs = [] := List.length_eq_zero_iff.1 (by simpa [CosSum.fits] using hq)
    simp [halfBounds, cosBounds, cosVal, this, rowVal]
  | j + 1, q, hq => by
    obtain ⟨fa, fb, hv⟩ := parts_spec hq
    have ha := cosBounds_spec bits j _ fa
    have hb := cosBounds_spec bits j _ fb
    have hs := halfBounds_spec bits (j + 1)
    have h0 := twoCos_one_nonneg (j + 1)
    rw [show j + 1 + 2 = j + 3 from rfl] at hs h0 ⊢
    rw [hv]
    simp only [halfBounds, List.headD_cons] at hs
    simp only [halfBounds, cosBounds]
    generalize cosBounds bits (halfBounds bits j) (evenPart q) = a at ha ⊢
    generalize cosBounds bits (halfBounds bits j) (oddPart q) = b at hb ⊢
    generalize cosVal (2 ^ (j + 2)) (evenPart q) = va at ha ⊢
    generalize cosVal (2 ^ (j + 2)) (oddPart q) = vb at hb ⊢
    generalize twoCos (2 ^ (j + 3)) 1 = t at hs h0 ⊢
    generalize sqrtBits ((2 * 2 ^ bits + ((halfBounds bits j).headD (0, 0)).1) * 2 ^ bits) (bits + 1) 0 = lo at hs ⊢
    generalize sqrtBits ((2 * 2 ^ bits + ((halfBounds bits j).headD (0, 0)).2) * 2 ^ bits) (bits + 1) 0 + 1 = hi at hs ⊢
    have hp : (0 : ℝ) < 2 ^ bits := by positivity
    have hpz : (0 : Int) < 2 ^ bits := by positivity
    have lower : ∀ z : Int, ((z / 2 ^ bits : Int) : ℝ) * 2 ^ bits ≤ z := fun z => by
      exact_mod_cast Int.ediv_mul_le z hpz.ne'
    have upper : ∀ z : Int, (z : ℝ) ≤ (((z / 2 ^ bits : Int) : ℝ) + 1) * 2 ^ bits := fun z => by
      exact_mod_cast (Int.lt_ediv_add_one_mul_self z hpz).le
    have e : (va + t * vb) * 2 ^ bits = va * 2 ^ bits + t * (vb * 2 ^ bits) := by ring
    rw [e]
    generalize va * 2 ^ bits = va at *
    generalize vb * 2 ^ bits = vb at *
    refine ⟨?_, ?_⟩
    · have h1 := lower (b.1 * (if 0 ≤ b.1 then (lo : Int) else hi))
      have h2 : ((b.1 * (if 0 ≤ b.1 then (lo : Int) else hi) : Int) : ℝ) ≤ t * 2 ^ bits * b.1 := by
        split
        · have hb0 : (0 : ℝ) ≤ b.1 := by exact_mod_cast (by assumption)
          push_cast
          nlinarith [hs.1]
        · have hb0 : (b.1 : ℝ) ≤ 0 := by exact_mod_cast (by omega)
          push_cast
          nlinarith [hs.2]
      have h3 : ((b.1 * (if 0 ≤ b.1 then (lo : Int) else hi) / 2 ^ bits : Int) : ℝ) ≤ t * b.1 :=
        le_of_mul_le_mul_right (by nlinarith) hp
      push_cast at h3 ⊢
      nlinarith [mul_le_mul_of_nonneg_left hb.1 h0]
    · have h1 := upper (b.2 * (if 0 ≤ b.2 then (hi : Int) else lo))
      have h2 : t * 2 ^ bits * b.2 ≤ ((b.2 * (if 0 ≤ b.2 then (hi : Int) else lo) : Int) : ℝ) := by
        split
        · have hb0 : (0 : ℝ) ≤ b.2 := by exact_mod_cast (by assumption)
          push_cast
          nlinarith [hs.2]
        · have hb0 : (b.2 : ℝ) ≤ 0 := by exact_mod_cast (by omega)
          push_cast
          nlinarith [hs.1]
      have h3 : t * b.2 ≤ ((b.2 * (if 0 ≤ b.2 then (hi : Int) else lo) / 2 ^ bits : Int) : ℝ) + 1 :=
        le_of_mul_le_mul_right (by nlinarith) hp
      push_cast at h3 ⊢
      nlinarith [mul_le_mul_of_nonneg_left hb.2 h0]

theorem halfBounds_length (bits j : Nat) : (halfBounds bits j).length = j := by
  induction j with
  | zero => rfl
  | succ j ih => simp [halfBounds, ih]

/-- `cosPositive` decides whether the number is positive, whatever the fraction bits of its bounds. -/
theorem cosPositive_iff (bits : Nat) {j : Nat} {q : CosSum} (hq : q.fits (2 ^ (j + 2))) :
    cosPositive bits (halfBounds bits j) q = true ↔ 0 < cosVal (2 ^ (j + 2)) q := by
  obtain ⟨h1, h2⟩ := cosBounds_spec bits j q hq
  have hp : (0 : ℝ) < 2 ^ bits := by positivity
  unfold cosPositive
  dsimp only
  split
  · rename_i h
    have : (0 : ℝ) < ((cosBounds bits (halfBounds bits j) q).1 : ℝ) := by exact_mod_cast h
    exact iff_of_true rfl (pos_of_mul_pos_left (lt_of_lt_of_le this h1) hp.le)
  · split
    · rename_i h
      have : (((cosBounds bits (halfBounds bits j) q).2 : Int) : ℝ) < 0 := by exact_mod_cast h
      refine iff_of_false (by decide) fun h' => ?_
      have := mul_pos h' hp
      linarith
    · rw [halfBounds_length, beq_iff_eq]
      rcases cosSign_spec j q hq with ⟨h, h'⟩ | ⟨h, h'⟩ | ⟨h, h'⟩ <;> rw [h]
      · exact iff_of_true rfl h'
      · exact iff_of_false (by decide) h'.not_gt
      · exact iff_of_false (by decide) h'.not_gt

end Sys2Proof.Machine
end

