-- ==== Sys2Proof/Laws/PerInstr.lean ====
section
/-! SUPPORT. What is shown of every operation, one lemma for each: the identifier of its word is in the opcode map
(spec/30_encoding.md R106). -/

namespace Sys2Proof.Laws.Identifier

/-- The identifier of the operation's word is one of the 53 of R106. -/
def Statement (i : Instr) : Prop := opOf (encode i) ∈ Machine.operationIds

/-- A word with a known identifier. -/
theorem of_opWord {i : Instr} {o : Byte} {a : Arg} (h : encode i = opWord o a) (ho : knownOp o = true) : Statement i := by
  unfold Statement
  rw [h, opOf_opWord]
  exact (knownOp_iff o).mp ho

theorem envReset : Statement .envReset := of_opWord rfl rfl

theorem envLine (line : LineId) (level : Bool) : Statement (.envLine line level) := of_opWord rfl rfl

theorem envAdv (ticks : BitVec 40) : Statement (.envAdv ticks) := of_opWord rfl rfl

theorem genPdmgen : Statement .genPdmgen := of_opWord rfl rfl

theorem genPdmgen8 : Statement .genPdmgen8 := of_opWord rfl rfl

theorem divCalc (val : Word32) : Statement (.divCalc val) := of_opWord rfl rfl

theorem smSetdiv (val : Word32) : Statement (.smSetdiv val) := of_opWord rfl rfl

theorem smEnable (b : Bool) : Statement (.smEnable b) := of_opWord rfl rfl

theorem smPull : Statement .smPull := of_opWord rfl rfl

theorem smShift : Statement .smShift := of_opWord rfl rfl

theorem dmaArm (b : Bool) : Statement (.dmaArm b) := of_opWord rfl rfl

theorem dmaXfer : Statement .dmaXfer := of_opWord rfl rfl

theorem dmaAbort : Statement .dmaAbort := of_opWord rfl rfl

theorem mbxSend (en : Bool) (idx : Word32) : Statement (.mbxSend en idx) := of_opWord rfl rfl

theorem mbxRecv : Statement .mbxRecv := of_opWord rfl rfl

theorem audStart : Statement .audStart := of_opWord rfl rfl

theorem audConfig : Statement .audConfig := of_opWord rfl rfl

theorem audPush : Statement .audPush := of_opWord rfl rfl

theorem audRearm : Statement .audRearm := of_opWord rfl rfl

theorem audPreempt : Statement .audPreempt := of_opWord rfl rfl

theorem encStart : Statement .encStart := of_opWord rfl rfl

theorem encRest : Statement .encRest := of_opWord rfl rfl

theorem encArm : Statement .encArm := of_opWord rfl rfl

theorem encFall (b : Bool) : Statement (.encFall b) := of_opWord rfl rfl

theorem encAdvance (code : Byte) : Statement (.encAdvance code) := of_opWord rfl rfl

theorem encDrop : Statement .encDrop := of_opWord rfl rfl

theorem encEmit (b : Bool) : Statement (.encEmit b) := of_opWord rfl rfl

theorem encAbandon : Statement .encAbandon := of_opWord rfl rfl

theorem btnStart : Statement .btnStart := of_opWord rfl rfl

theorem btnEdge : Statement .btnEdge := of_opWord rfl rfl

theorem btnConfirm : Statement .btnConfirm := of_opWord rfl rfl

theorem btnRelease : Statement .btnRelease := of_opWord rfl rfl

theorem btnTimeout : Statement .btnTimeout := of_opWord rfl rfl

theorem btnTrail : Statement .btnTrail := of_opWord rfl rfl

theorem btnAbandon : Statement .btnAbandon := of_opWord rfl rfl

theorem cfgRead : Statement .cfgRead := of_opWord rfl rfl

theorem cfgWrite (en : Bool) (idx : Word32) : Statement (.cfgWrite en idx) := of_opWord rfl rfl

theorem flRead : Statement .flRead := of_opWord rfl rfl

theorem flErase : Statement .flErase := of_opWord rfl rfl

theorem flProg : Statement .flProg := of_opWord rfl rfl

theorem ctlBoot : Statement .ctlBoot := of_opWord rfl rfl

theorem ctlRecovery : Statement .ctlRecovery := of_opWord rfl rfl

theorem ctlLoad : Statement .ctlLoad := of_opWord rfl rfl

theorem ctlPublish : Statement .ctlPublish := of_opWord rfl rfl

theorem ctlRender : Statement .ctlRender := of_opWord rfl rfl

theorem ctlWait : Statement .ctlWait := of_opWord rfl rfl

theorem ctlUp : Statement .ctlUp := of_opWord rfl rfl

theorem ctlDown : Statement .ctlDown := of_opWord rfl rfl

theorem ctlToggle : Statement .ctlToggle := of_opWord rfl rfl

theorem ctlPersist : Statement .ctlPersist := of_opWord rfl rfl

theorem dispDraw (glyph : Glyph) (slot : Slot) : Statement (.dispDraw glyph slot) := of_opWord rfl rfl

theorem dispFlush : Statement .dispFlush := of_opWord rfl rfl

theorem fault (code : Byte) : Statement (.fault code) := of_opWord rfl rfl

end Sys2Proof.Laws.Identifier
end

