-- ==== Sys2Proof/Tests/Slice0.lean ====
section
/-! SUPPORT. Tests on fixed values, their expected results from the vectors `V<n>` of spec/95_test_vectors.md or from
a rule's own example, and for every statement with hypotheses a state and operands that meet them (`witness_…`). -/

namespace Sys2Proof.Tests

open Sys2Proof Sys2Proof.Machine

/-! ## Well-formedness: one ill-formed term for each check (R279, R176, R256). -/

theorem test_adv_zero_ill_formed : (Instr.envAdv 0).wellFormed = false := by decide
theorem test_stage_zero_ill_formed : (Instr.encAdvance 0).wellFormed = false := by decide
theorem test_stage_four_ill_formed : (Instr.encAdvance 4).wellFormed = false := by decide
theorem test_code_zero_ill_formed : (Instr.fault 0).wellFormed = false := by decide
theorem test_code_eight_ill_formed : (Instr.fault 8).wellFormed = false := by decide
theorem test_boundaries_well_formed :
    (Instr.envAdv 1).wellFormed = true ∧ (Instr.encAdvance 1).wellFormed = true ∧
      (Instr.encAdvance 3).wellFormed = true ∧ (Instr.fault 1).wellFormed = true ∧
      (Instr.fault 7).wellFormed = true := by decide

/-! ## Decoding: the word of every operation, written out from R91, R92 and R106 (V25 gives twenty-four of them). -/

theorem test_decode_env :
    operationOf 0x000000000000 = some .envReset ∧ operationOf 0x010000000000 = some (.envLine .lineA false) ∧
      operationOf 0x010000000001 = some (.envLine .lineA true) ∧
      operationOf 0x010000000100 = some (.envLine .lineB false) ∧
      operationOf 0x010000000101 = some (.envLine .lineB true) ∧
      operationOf 0x010000000201 = some (.envLine .lineBtn true) ∧
      operationOf 0x010000000300 = some (.envLine .lineRec false) ∧
      operationOf 0x020000000064 = some (.envAdv 100) ∧
      operationOf 0x02FFFFFFFFFF = some (.envAdv 0xFFFFFFFFFF) := by decide
theorem test_decode_gen : operationOf 0x100000000000 = some .genPdmgen ∧ operationOf 0x110000000000 = some .genPdmgen8 := by
  decide
theorem test_decode_div_sm :
    operationOf 0x200000000000 = some (.divCalc 0) ∧ operationOf 0x300000038EF8 = some (.smSetdiv 0x38EF8) ∧
      operationOf 0x310000000001 = some (.smEnable true) ∧ operationOf 0x320000000000 = some .smPull ∧
      operationOf 0x330000000000 = some .smShift := by decide
theorem test_decode_dma_mbx :
    operationOf 0x400000000000 = some (.dmaArm false) ∧ operationOf 0x410000000000 = some .dmaXfer ∧
      operationOf 0x420000000000 = some .dmaAbort ∧ operationOf 0x500100000005 = some (.mbxSend true 5) ∧
      operationOf 0x500000000005 = some (.mbxSend false 5) ∧ operationOf 0x510000000000 = some .mbxRecv := by decide
theorem test_decode_aud :
    operationOf 0x600000000000 = some .audStart ∧ operationOf 0x610000000000 = some .audConfig ∧
      operationOf 0x620000000000 = some .audPush ∧ operationOf 0x630000000000 = some .audRearm ∧
      operationOf 0x640000000000 = some .audPreempt := by decide
theorem test_decode_enc :
    operationOf 0x700000000000 = some .encStart ∧ operationOf 0x710000000000 = some .encRest ∧
      operationOf 0x720000000000 = some .encArm ∧ operationOf 0x730000000000 = some (.encFall false) ∧
      operationOf 0x740000000001 = some (.encAdvance 1) ∧ operationOf 0x750000000000 = some .encDrop ∧
      operationOf 0x760000000001 = some (.encEmit true) ∧ operationOf 0x770000000000 = some .encAbandon := by decide
theorem test_decode_btn :
    operationOf 0x800000000000 = some .btnStart ∧ operationOf 0x810000000000 = some .btnEdge ∧
      operationOf 0x820000000000 = some .btnConfirm ∧ operationOf 0x830000000000 = some .btnRelease ∧
      operationOf 0x840000000000 = some .btnTimeout ∧ operationOf 0x850000000000 = some .btnTrail ∧
      operationOf 0x860000000000 = some .btnAbandon := by decide
theorem test_decode_cfg :
    operationOf 0x900000000000 = some .cfgRead ∧ operationOf 0x910000000005 = some (.cfgWrite false 5) ∧
      operationOf 0x910100000001 = some (.cfgWrite true 1) ∧ operationOf 0x920000000000 = some .flRead ∧
      operationOf 0x930000000000 = some .flErase ∧ operationOf 0x940000000000 = some .flProg := by decide
theorem test_decode_ctl :
    operationOf 0xA00000000000 = some .ctlBoot ∧ operationOf 0xA10000000000 = some .ctlRecovery ∧
      operationOf 0xA20000000000 = some .ctlLoad ∧ operationOf 0xA30000000000 = some .ctlPublish ∧
      operationOf 0xA40000000000 = some .ctlRender ∧ operationOf 0xA50000000000 = some .ctlWait ∧
      operationOf 0xA60000000000 = some .ctlUp ∧ operationOf 0xA70000000000 = some .ctlDown ∧
      operationOf 0xA80000000000 = some .ctlToggle ∧ operationOf 0xA90000000000 = some .ctlPersist := by decide
theorem test_decode_disp_fault :
    operationOf 0xB00000000E04 = some (.dispDraw 14 4) ∧ operationOf 0xB10000000000 = some .dispFlush ∧
      operationOf 0xF00000000002 = some (.fault 2) := by decide

/-- The words R107 refuses, as V25 lists them. -/
theorem test_refused_words :
    operationOf 0x030000000000 = none ∧ operationOf 0x000000000001 = none ∧ operationOf 0x500200000005 = none ∧
      operationOf 0x010000000400 = none := by decide
theorem test_refused_by_name :
    decode 0x030000000000 = .error (.unknownOp 0x03) ∧ decode 0x010000000400 = .error (.reservedBits 0x01) :=
  ⟨rfl, rfl⟩
theorem test_table_word : decodeTableWord 48 0xA90000000000 = some .ctlPersist ∧ decodeTableWord 49 0 = none := by
  decide

/-! ## Computed operands. -/

/-- Small parameters: `N = 32`, three tones, one byte block below the record's block, 1 tick a millisecond. -/
def small : Params where
  bitDepthExp := 0
  bitClock := 1000
  toneTable := [100, 200, 300]
  reserveLast := false
  dualTable := true
  threshold := 250
  ticksPerMs := 1
  fifoDepth := 2
  blockExp := 0
  blocksBelow := 1
  layout := []
  diagMsg := defaultDiagMsg
  waveform := .negCosine

/-- The example configuration EX1 of spec/95_test_vectors.md, with a reserved last slot or without. -/
def ex1 (reserve : Bool) : Params :=
  { small with
    bitDepthExp := 6, bitClock := 125000000, toneTable := (List.range 51).map (fun i => 670 + 35 * i)
    reserveLast := reserve, dualTable := false, fifoDepth := 4, blockExp := 9, blocksBelow := 511 }

/-- Section 0 of spec/95: `WORDS = 64`, `CFG_OFFSET = 0x1FF000`, `WRAP_LEN = 51`. -/
theorem test_ex1_derived : tableWords (ex1 false) = 64 ∧ cfgOffset (ex1 false) = 0x1FF000 ∧
    flashSize (ex1 false) = 2097152 ∧ wrapLen (ex1 false) = 51 ∧ wrapLen (ex1 true) = 50 := by decide
/-- The divider table of EX1. -/
theorem test_ex1_dividers :
    [0, 1, 2, 3, 4, 5, 49, 50].map (calcDivider (ex1 false)) =
      [0x38EF8, 0x361BF, 0x338CC, 0x3138C, 0x2F185, 0x2D24F, 0xFFE9, 0xFC36].map (.pair false) := by decide
/-- V6: the truncation, the 8x pair, the table switch at the threshold. -/
theorem test_dividers_v6 :
    [670, 719, 770, 885, 1000, 2541, 17500].map (dividerOf (ex1 false)) =
      [233208, 217315, 202922, 176553, 156250, 61491, 8928] ∧
    [1000, 1001, 17500].map (dividerOf { ex1 false with dualTable := true, threshold := 1000 }) =
      [156250, 1248751, 71428] := by decide
/-- V6: index 51 of the 51-entry table; a tone of 0. -/
theorem test_divider_faults : calcDivider (ex1 false) 51 = .indexRange ∧
    calcDivider { small with toneTable := [0] } 0 = .precondition := by decide
/-- R9: what makes an assignment invalid, one each. -/
theorem test_invalid_params :
    paramsValid small = true ∧ paramsValid { small with toneTable := [0] } = false ∧
      paramsValid { small with toneTable := [] } = false ∧
      paramsValid { small with toneTable := [100], reserveLast := true } = false ∧
      paramsValid { small with fifoDepth := 0 } = false ∧ paramsValid { small with ticksPerMs := 0 } = false ∧
      paramsValid { small with bitClock := 0 } = false ∧ paramsValid { small with diagMsg := [(15, 0)] } = false ∧
      paramsValid { small with layout := [⟨100, true, ⟨0, 0, 0, 0, 15⟩⟩] } = false ∧
      paramsValid { small with waveform := .sampled 1 [2] } = false := by decide +kernel
/-- V8: the ten rows of the decode table. -/
theorem test_record_v8 :
    [[0xFF, 0xFF, 0xFF, 0xFF, 0xFF, 0xFF, 0xFF, 0xFF], [0, 0, 0, 0, 1, 0, 0, 0], [5, 0, 0, 0, 0, 0, 0, 0],
      [0x32, 0, 0, 0, 1, 0, 0, 0], [0x33, 0, 0, 0, 1, 0, 0, 0], [0x33, 0, 0, 0, 0, 0, 0, 0], [5, 1, 0, 0, 1, 0, 0, 0],
      [5, 0, 0, 0, 2, 0, 0, 0], [5, 0, 0, 0, 0xFF, 0, 0, 0], [5, 0, 0, 0, 1, 0xAA, 0xBB, 0xCC]].map
        (decodeRecord (ex1 false)) =
      [⟨0, true⟩, ⟨0, true⟩, ⟨5, false⟩, ⟨50, true⟩, ⟨0, true⟩, ⟨0, true⟩, ⟨0, true⟩, ⟨0, true⟩, ⟨0, true⟩, ⟨5, true⟩] := by
  decide
theorem test_encode_v8 : encodeRecord ⟨5, true⟩ = [5, 0, 0, 0, 1, 0, 0, 0] ∧
    encodeRecord ⟨50, false⟩ = [0x32, 0, 0, 0, 0, 0, 0, 0] := by decide
/-- V19: the default readout. -/
theorem test_layout_v19 :
    [670, 885, 1000, 2541, 95, 9999, 10000, 17500].map (fun f => drawsOf (defaultLayout f true)) =
      [[(10, 0), (6, 1), (7, 2), (12, 3), (0, 4)], [(10, 0), (8, 1), (8, 2), (12, 3), (5, 4)],
        [(1, 0), (0, 1), (0, 2), (12, 3), (0, 4)], [(2, 0), (5, 1), (4, 2), (12, 3), (1, 4)],
        [(10, 0), (10, 1), (9, 2), (12, 3), (5, 4)], [(9, 0), (9, 1), (9, 2), (12, 3), (9, 4)],
        [(10, 0), (1, 1), (0, 2), (0, 3), (0, 4)], [(10, 0), (1, 1), (7, 2), (5, 3), (0, 4)]] ∧
    drawsOf (defaultLayout 670 false) = [(10, 0), (10, 1), (10, 2), (10, 3), (13, 4)] := by decide
/-- V18: the two rows of the wrap table. -/
theorem test_index_v18 :
    (indexUp (ex1 false) 4 = 5 ∧ indexUp (ex1 false) 49 = 50 ∧ indexUp (ex1 false) 50 = 0 ∧
      indexDown (ex1 false) 0 = 50 ∧ indexDown (ex1 false) 50 = 49) ∧
    indexUp (ex1 true) 4 = 5 ∧ indexUp (ex1 true) 49 = 0 ∧ indexUp (ex1 true) 50 = 0 ∧
      indexDown (ex1 true) 0 = 49 ∧ indexDown (ex1 true) 50 = 49 := by decide

/-! ## The table generator. -/

/-- V1: `N = 32`, with its exact tie at sample 15. -/
theorem test_generator_v1 : packTable (cosineBits 1 5) 1 = [0x04BEFE90] := by decide +kernel
/-- V2: `N = 64`. -/
theorem test_generator_v2 : packTable (cosineBits 1 6) 2 = [0x00455BFE, 0xFFED5100] := by decide +kernel
/-- V4: the companion table, `N = 64`. -/
theorem test_generator_v4 : packTable (cosineBits 8 6) 2 = [0x2E2E2E2E, 0x2E2E2E2E] := by decide +kernel
/-- V3: constant waveforms 0, +1, -1, +1/2, -1/2, +1/4. -/
theorem test_generator_v3 :
    [0, 4, -4, 2, -2, 1].map (fun x => packTable (sampledBits 4 [x] 1 32) 1) =
      [[0x55555555], [0xFFFFFFFF], [0], [0xBBBBBBBB], [0x22222222], [0xADADADAD]] := by decide +kernel

/-! ## Single steps on a small state. -/

/-- Eight answers of no failure, eight durations of 0. -/
def answers : Draws := ⟨List.replicate 8 0, List.replicate 8 false, 0⟩

/-- The block at reset with the small parameters. -/
def start : State := State.powerOn ⟨small, by decide⟩ ⟨[0x04BEFE90], [0x2E2E2E2E], false⟩ [] Lines.high [] answers

/-- The same with a single table and one tone, which is legal. -/
def single (f : Nat) (h : paramsValid { small with toneTable := [f], dualTable := false } = true := by decide) : State :=
  { start with par := ⟨{ small with toneTable := [f], dualTable := false }, h⟩ }

/-- The controller in a phase. -/
def inPhase (p : CtlPhase) : State := { start with ctl := { start.ctl with ph := p } }

/-- The controller in a phase of the loop, the selection written. -/
def inLoop (p : CtlPhase) (i : Word32) (e : Bool) : State := { inPhase p with sel := ⟨⟨i, true⟩, ⟨e, true⟩⟩ }

/-- The same with an operation in progress, its deadline now. -/
def busyWith (b : Busy) : State := { inLoop .wait 0 true with ctl := ⟨.wait, .none, 0, some b⟩ }

/-- The audio driver in a phase, with a received selection and a written divider and table. -/
def audioIn (p : AudPhase) (i : Word32) : State :=
  { start with
    aud := { start.aud with ph := p, sel := ⟨⟨i, true⟩, true⟩, tableSel := ⟨false, true⟩ }
    sm := { start.sm with clkdiv := ⟨256, true⟩ } }

/-- The decoder in a state, its deadline now, in phase `WAIT` with an idle button. -/
def decoding (st : EncSt) (dir a b : Bool) : State :=
  { inLoop .wait 0 true with
    enc := ⟨st, dir, 0⟩, btn := ⟨.idle, 0, 0⟩, lines := { Lines.high with a := a, b := b } }

/-- The classifier in a state, in phase `BTN_ACTIVE`. -/
def pressed (st : BtnSt) (deadline : Nat) (level : Bool) : State :=
  { inLoop .btnActive 0 true with btn := ⟨st, 0, deadline⟩, lines := { Lines.high with btn := level } }

/-- The state after an outcome meets a test. -/
def landed (r : Result) (ok : State → Bool) : Bool :=
  match r with
  | .next s => ok s
  | .fault _ | .refused _ => false

/-- An outcome is a refusal of a name. -/
def refusedAs (r : Result) (e : Refusal) : Bool :=
  match r with
  | .refused x => x == e
  | .next _ | .fault _ => false

/-- R290: out of a fault and of everything else. -/
theorem test_reset_clears : landed (exec .envReset (raiseControl 2 (inLoop .wait 2 true)))
    (fun s => s == { start with lines := s.lines }) = true := by decide +kernel
/-- R273's example `@120 B=0`. -/
theorem test_line : landed (exec (.envLine .lineB false) start)
    (fun s => s.lines.b == false && s.lines.a && s.lines.btn && s.lines.recov) = true := by decide
/-- R279's example: 5 ticks to the deadline of `REST_SETTLE`, and not a sixth. -/
theorem test_adv : landed (exec (.envAdv 5) { decoding .restSettle false true true with enc := ⟨.restSettle, false, 5⟩ })
      (fun s => s.now == 5 && ctlMoves s == [.encArm]) = true ∧
    refusedAs (exec (.envAdv 6) { decoding .restSettle false true true with enc := ⟨.restSettle, false, 5⟩ })
      .notEnabled = true := by decide
/-- The same with a waveform that is 0 throughout (V3). -/
def flat : State := { start with par := ⟨{ small with waveform := .sampled 1 [0] }, by decide⟩ }
theorem test_gen : landed (exec .genPdmgen8 flat)
    (fun s => s.rom == ⟨[0x04BEFE90], [0x55555555], false⟩) = true := by decide +kernel
/-- R80, R77: no table is rewritten under an armed push, nor after a read; the same table may be. -/
theorem test_gen_refused :
    refusedAs (runOps [.dmaArm false, .genPdmgen] start) .notEnabled = true ∧
      refusedAs (exec .genPdmgen { flat with rom := { flat.rom with read := true } }) .notEnabled = true ∧
      landed (exec .genPdmgen { flat with rom := ⟨[0x55555555], [], true⟩ }) (fun s => s.rom.t1 == [0x55555555]) = true := by
  decide +kernel
/-- R40: the generator does not look at the FIFO. -/
theorem test_gen_fifo : landed (exec .genPdmgen { flat with fifo := [0] })
    (fun s => s.rom.t1 == [0x55555555] && s.fifo == [0]) = true := by decide +kernel
/-- R126 by hand: `floor(2560 * 8 * 1000 / (32 * 300)) = 2133`, from `T8`. -/
theorem test_div_calc : landed (exec (.divCalc 2) start) (fun s => s.aud.divOut == (true, 2133)) = true := by decide
theorem test_setdiv : refusedAs (exec (.smSetdiv 256) { start with sm := { start.sm with en := true } }) .notEnabled = true := by
  decide
theorem test_enable : landed (exec (.smEnable true) start) (fun s => s == { start with sm := { start.sm with en := true } }) = true := by
  decide +kernel
/-- A running output with one word in the FIFO. -/
def playing : State :=
  { audioIn .race 0 with sm := ⟨true, 0, 0, false, ⟨256, true⟩⟩, fifo := [0x80000001], dma := ⟨1, false, false, true⟩ }
theorem test_pull_shift : landed (runOps [.smPull, .smShift, .smShift] playing)
    (fun s => s.logs.pdmOut == [true, false] && s.sm.osrCnt == 30 && s.sm.osr == 0x00000004 && s.fifo == []) = true := by
  decide
/-- R140's and R138's examples at `WORDS = 1`: the only word completes the push. -/
theorem test_dma : landed (runOps [.dmaArm true, .dmaXfer] start)
      (fun s => s.fifo == [0x2E2E2E2E] && s.dma == ⟨1, true, false, true⟩) = true ∧
    landed (runOps [.dmaArm true, .dmaAbort] start) (fun s => s.dma == ⟨0, true, false, false⟩) = true := by decide
/-- V12: the newest value alone is received. -/
theorem test_mailbox_v12 : landed (runOps [.mbxSend true 0, .mbxSend true 1, .mbxSend true 2, .mbxRecv] start)
      (fun s => s.logs.mbxLog == [.send ⟨0, true⟩, .send ⟨1, true⟩, .send ⟨2, true⟩, .recv ⟨2, true⟩]
        && s.mbx.full == false) = true ∧
    refusedAs (runOps [.mbxSend true 0, .mbxRecv, .mbxRecv] start) .notEnabled = true := by decide
/-- R141 to R144 in order, from a disabled selection (V11): the enable stays 0. -/
theorem test_audio : landed (runOps [.mbxSend false 0, .audStart, .audConfig, .audPush, .dmaXfer, .audRearm] start)
    (fun s => s.aud.ph == .push && s.sm.en == false && s.sm.clkdiv == ⟨800, true⟩
      && s.aud.tableSel == ⟨false, true⟩ && s.fifo == [0x04BEFE90] && s.dma == ⟨1, false, false, false⟩) = true := by
  decide
/-- V10, step 1: the abort, then the receive. -/
theorem test_preempt : landed (runOps [.mbxSend true 1, .audPreempt] { playing with dma := ⟨0, false, true, false⟩ })
    (fun s => s.aud.ph == .config && s.aud.sel == ⟨⟨1, true⟩, true⟩ && s.dma == ⟨0, false, false, false⟩
      && s.fifo == [0x80000001] && s.sm.en) = true := by decide
/-- R171 to R173 and R179: rest, settle, armed. -/
theorem test_encoder_arms : landed (runOps [.encStart, .encRest, .envAdv 5, .encArm] (inLoop .persistHold 0 true |>
      fun s => { s with ctl := { s.ctl with deadline := 9 } }))
    (fun s => s.enc.st == .armed && s.now == 5) = true := by decide
theorem test_encoder_abandons : landed (exec .encAbandon (decoding .wait2 true false false))
    (fun s => s.enc == ⟨.off, true, 0⟩) = true := by decide
/-- A full turn with `A` first is Up, with `B` first Down, each 4 settle delays long (V13, R183). -/
def turn (b : Bool) : List Instr :=
  let first := if b then LineId.lineB else .lineA
  let second := if b then LineId.lineA else .lineB
  [.envLine first false, .encFall b, .envAdv 5, .envLine second false, .encAdvance 1, .envAdv 5,
    .envLine first true, .encAdvance 2, .envAdv 5, .envLine second true, .encAdvance 3, .envAdv 5, .encEmit b]
theorem test_turn_up : landed (runOps (turn false) (decoding .armed false true true))
    (fun s => s.ctl.event == .up && s.ctl.ph == .handleUp && s.now == 20 && s.btn.st == .off) = true := by decide
theorem test_turn_down : landed (runOps (turn true) (decoding .armed false true true))
    (fun s => s.ctl.event == .down && s.ctl.ph == .handleDown && s.enc.st == .off) = true := by decide
/-- R177's example: in stage 1 of the Up path the pair `(1,0)` breaks the sequence; `(0,1)` does not. -/
theorem test_drop : landed (exec .encDrop (decoding .wait1 false true false)) (fun s => s.enc.st == .restWait) = true ∧
    refusedAs (exec .encDrop (decoding .wait1 false false true)) .notEnabled = true := by decide
/-- R193: the press is confirmed and the long deadline set; V15: a release one tick before it is a Toggle. -/
theorem test_press_749 : landed (exec .btnConfirm (pressed .debounce 0 false)) (fun s => s.btn == ⟨.held, 0, 750⟩) = true ∧
    landed (exec .btnRelease (pressed .held 1 true))
      (fun s => s.btn.st == .doneToggle && s.ctl.event == .toggle && s.ctl.ph == .handleToggle) = true := by decide
/-- V15: at the deadline itself it is a Persist. -/
theorem test_press_750 : landed (exec .btnTimeout (pressed .held 0 true))
      (fun s => s.ctl.event == .persist && s.ctl.ph == .persistAck && s.btn.st == .donePersist) = true ∧
    refusedAs (exec .btnRelease (pressed .held 0 true)) .notEnabled = true := by decide
/-- R192, R232: the button's fall abandons the decoder. -/
theorem test_edge : landed (runOps [.envAdv 1, .envLine .lineBtn false, .btnEdge] (decoding .armed false true true))
    (fun s => s.btn == ⟨.debounce, 0, 6⟩ && s.enc.st == .off && s.ctl.ph == .btnActive) = true := by decide
theorem test_button_start_abandon : landed (runOps [.btnStart, .btnAbandon] start) (fun s => s.btn.st == .off) = true := by
  decide
theorem test_trail : landed (exec .btnTrail (inPhase .trail)) (fun s => s.ctl.ph == .publish && s.ctl.event == .none) = true := by
  decide
/-- V17: a first save erases and programs, the second does neither, and the record reads back. -/
theorem test_save : landed (runOps [.cfgWrite false 2, .flErase, .flProg, .cfgRead] start)
      (fun s => memRead s.flash 8 8 == [2, 0, 0, 0, 0, 0, 0, 0] && s.cfg.cur == ⟨2, false⟩
        && s.logs.flashLog == [.erase 8 8, .prog 8 [2, 0, 0, 0, 0, 0, 0, 0]]) = true := by decide
theorem test_save_twice : landed (runOps [.cfgWrite true 1, .flErase, .flProg, .cfgWrite true 1] start)
    (fun s => s.logs.flashLog.length == 2 && s.ctl.busy == none) = true := by decide
/-- V22: a reset between the erase and the program leaves blank bytes. -/
theorem test_interrupted_save : landed (runOps [.cfgWrite true 1, .flErase, .envReset] start)
    (fun s => memRead s.flash 8 8 == List.replicate 8 0xFF && s.ctl.ph == .boot) = true := by decide
/-- V21: a failed erase is fault 2 and halts the control side. -/
theorem test_erase_fails : landed (exec .flErase { start with env := { answers with fails := [true] } })
    (fun s => s.latch == ⟨true, 2⟩ && s.ctl.ph == .halt && s.logs.flashLog == []) = true := by decide
theorem test_read : landed (exec .flRead { start with flash := [(8, 1)] })
    (fun s => s.cfg.buf == [1, 0xFF, 0xFF, 0xFF, 0xFF, 0xFF, 0xFF, 0xFF]) = true := by decide
/-- Boot to the wait on a blank memory: `LOAD`, the default record, one send, the readout of tone 0 (V22). -/
theorem test_boot : landed (runOps [.ctlBoot, .ctlLoad, .ctlPublish, .ctlRender, .ctlWait] start)
    (fun s => s.ctl.ph == .wait && s.sel == ⟨⟨0, true⟩, ⟨true, true⟩⟩ && s.logs.mbxLog == [.send ⟨0, true⟩]
      && s.disp.frame == ⟨some 10, some 1, some 0, some 12, some 0⟩ && s.enc.st == .restWait && s.btn.st == .idle) = true := by
  decide
/-- R227: five dashes and the terminal mode. -/
theorem test_recovery : landed (runOps [.ctlBoot, .ctlRecovery] { start with lines := { Lines.high with recov := false } })
    (fun s => s.reflash && s.ctl.ph == .reflash && s.disp.frame == ⟨some 11, some 11, some 11, some 11, some 11⟩
      && mode s == .reflash) = true := by decide
theorem test_up_down : landed (exec .ctlUp (inLoop .handleUp 2 true)) (fun s => s.sel.index == ⟨0, true⟩) = true ∧
    landed (exec .ctlDown (inLoop .handleDown 0 true)) (fun s => s.sel.index == ⟨2, true⟩) = true := by decide
theorem test_toggle : landed (exec .ctlToggle (inLoop .handleToggle 1 true))
    (fun s => s.sel == ⟨⟨1, true⟩, ⟨false, true⟩⟩ && s.ctl.deadline == 5 && s.ctl.ph == .trail && s.flash == []) = true := by
  decide
/-- R237: the acknowledgement in slot 4, the forced send, the stored flag as it stands, the hold. -/
theorem test_persist :
    landed (runOps [.ctlPersist, .ctlPersist, .ctlPersist, .flErase, .flProg] (inLoop .persistAck 1 false))
      (fun s => s.disp.frame.s4 == some 14 && s.logs.mbxLog == [.send ⟨1, true⟩]
        && memRead s.flash 8 8 == [1, 0, 0, 0, 0, 0, 0, 0] && s.ctl.ph == .persistHold && s.ctl.deadline == 750) = true := by
  decide
/-- V20: the frame keeps what is not redrawn, and the later draw to a slot wins. -/
theorem test_frame_v20 :
    landed (runOps [.dispDraw 10 0, .dispDraw 8 1, .dispDraw 8 2, .dispDraw 12 3, .dispDraw 5 4, .dispFlush,
        .dispDraw 14 4] { start with env := { answers with fails := List.replicate 20 false } })
      (fun s => s.disp == ⟨[(14, 4)], ⟨some 10, some 8, some 8, some 12, some 5⟩⟩) = true ∧
    [((1 : Glyph), (0 : Slot)), (2, 0)].foldl putGlyph ⟨some 10, some 8, some 8, some 12, some 14⟩ =
      ⟨some 2, some 8, some 8, some 12, some 14⟩ := by decide
/-- V25, R270: glyph 15 is never enabled. -/
theorem test_draw_reserved : refusedAs (exec (.dispDraw 15 4) start) .notEnabled = true := by decide
/-- R265: the first code is kept. -/
theorem test_fault : landed (runOps [.fault 2, .fault 5] start)
    (fun s => s.latch == ⟨true, 2⟩ && s.ctl.ph == .halt && s.aud.halted) = true := by decide
/-- A drawn duration that is not 0: the operation stands in its wait, and ends at its deadline (V26, R229). -/
theorem test_publish_waits :
    landed (runOps [.ctlPublish, .envAdv 3, .ctlPublish] { inLoop .publish 1 true with env := { answers with durations := [3] } })
      (fun s => s.ctl.ph == .render && s.now == 3 && s.logs.mbxLog == [.send ⟨1, true⟩]) = true := by decide

/-! ## Witnesses: states and operands that meet the hypotheses of each statement. -/

/-- The invariant at `start`. -/
theorem start_inv : StateInv start := by
  constructor <;> decide

/-- The same, whatever stands in the schedule. -/
theorem scheduled_inv (ws : List OpWord) : StateInv { start with script := ws } :=
  ⟨start_inv.rom, start_inv.flash, start_inv.osrCnt, start_inv.fifo, start_inv.dmaIdx, start_inv.dmaBusy,
    start_inv.dmaDone, start_inv.clkdiv, start_inv.tableSel, start_inv.index, start_inv.buffer, start_inv.halt,
    start_inv.audHalt, start_inv.reflashed, start_inv.drawn, start_inv.code⟩

/-- The second invariant at `start`, whatever stands in the schedule. -/
theorem scheduled_coherent (ws : List OpWord) : Coherent { start with script := ws } where
  inv := scheduled_inv ws
  selWritten := by simp [start, State.powerOn, looping]
  encoder := by simp [start, State.powerOn]
  button := by simp [start, State.powerOn, buttonPhase]
  race := by simp [start, State.powerOn]
  busy := by simp [start, State.powerOn]
  erased := by simp [start, State.powerOn]
  mailbox := by simp [start, State.powerOn]
  audSel := by simp [start, State.powerOn]
  audConfig := by simp [start, State.powerOn]
  audLoop := by simp [start, State.powerOn]
  audPush := by simp [start, State.powerOn]
  audRace := by simp [start, State.powerOn]
  silent := by simp [start, State.powerOn]
  output := by simp [start, State.powerOn]
  faults := by simp [start, State.powerOn]
  reflashOnly := by simp [start, State.powerOn]
  encTimer := by simp [start, State.powerOn]
  btnTimer := by simp [start, State.powerOn]
  ctlTimer := by simp [start, State.powerOn]

theorem witness_EncodeOfDecode : decode 0x500100000005 = .ok (.mbxSend true 5) := rfl

/-- A word with an unknown identifier. -/
theorem witness_IllegalWordsAreRefusedByName_unknown :
    (∀ i, encode i ≠ 0x030000000000) ∧ ({ start with script := [0x030000000000] } : State).script = 0x030000000000 :: [] := by
  refine ⟨fun i h => ?_, rfl⟩
  have h2 : opOf (encode i) = 0x03 := by rw [h]; decide
  revert h2
  cases i <;> simp only [encode, opOf_opWord] <;> decide

/-- A word with a reserved bit: `ENV.RESET` with bit 0 set. -/
theorem witness_IllegalWordsAreRefusedByName_reserved :
    (∀ i, encode i ≠ 0x000000000001) ∧ ({ start with script := [0x000000000001] } : State).script = 0x000000000001 :: [] := by
  refine ⟨fun i h => ?_, rfl⟩
  have h2 : opOf (encode i) = 0x00 := by rw [h]; decide
  have h3 : argOf (encode i) = 1 := by rw [h]; decide
  revert h2 h3
  cases i <;> simp only [encode, opOf_opWord, argOf_opWord] <;> intro h2 <;>
    first | exact absurd h2 (by decide) | decide

theorem witness_StepRunsTheScheduledWord :
    ({ start with script := [0xA00000000000] } : State).script = 0xA00000000000 :: [] ∧
      decode 0xA00000000000 = .ok .ctlBoot := ⟨rfl, rfl⟩

theorem witness_UnscheduledStepTakesAnEnabledMove : start.script = [] := rfl

theorem witness_BlockIsNeverStuck : StateInv start ∧ start.script = [] := ⟨start_inv, rfl⟩

theorem witness_EveryStepKeepsStateInv :
    StateInv { start with script := [0xA00000000000] } ∧ ∃ t, step { start with script := [0xA00000000000] } = .next t :=
  ⟨scheduled_inv _, _, rfl⟩

theorem witness_BlockStepsKeepCoherent :
    Coherent { start with script := [0x000000000000] } ∧
      (∀ w ∈ ({ start with script := [0x000000000000] } : State).script, ∃ i, decode w = .ok i ∧ isOutside i = true) ∧
      ∃ t, step { start with script := [0x000000000000] } = .next t := by
  refine ⟨scheduled_coherent _, fun w hw => ?_, _, rfl⟩
  obtain rfl : w = 0 := by simpa using hw
  exact ⟨.envReset, rfl, rfl⟩

theorem witness_ResetStatesAreCoherent :
    romValid start.par.val start.rom = true ∧ Memory.wf [(8, 1), (9, 0)] = true := by decide

theorem witness_EnvLineSetsOneLevel_fresh : start.fresh = true := rfl
theorem witness_EnvLineSetsOneLevel_late : ({ start with fresh := false } : State).fresh = false := rfl

/-- The controller in `TRAIL`, five ticks before its deadline. -/
def trailing : State := { inPhase .trail with ctl := { start.ctl with ph := .trail, deadline := 5 } }

/-- Five ticks may pass, to the deadline itself. -/
theorem witness_TimePassesWhileTheControlSideWaits_passes :
    (5 : BitVec 40) ≠ 0 ∧ ∀ k < (5 : BitVec 40).toNat, ctlMoves (afterTicks k trailing) = [] := by decide
/-- A sixth may not. -/
theorem witness_TimePassesWhileTheControlSideWaits_refused :
    (6 : BitVec 40) ≠ 0 ∧ ∃ k < (6 : BitVec 40).toNat, ctlMoves (afterTicks k trailing) ≠ [] :=
  ⟨by decide, 5, by decide, by decide⟩

/-- After an audio-side fault, where the control side could go on. -/
theorem witness_TimePassesWhileTheControlSideWaits_halted :
    (6 : BitVec 40) ≠ 0 ∧ (raiseAudio 5 trailing).aud.halted = true ∧ trailing.aud.halted = false := by decide

/-- Nothing read yet, and everything as at reset. -/
theorem witness_GeneratorStoresTheBitsInOrder :
    start.ctl.ph = .boot ∧ start.ctl.busy = none ∧ start.enc.st = .off ∧ start.btn.st = .off ∧ start.mbx.full = false ∧
      start.aud.ph = .waitFirst ∧ start.sm.en = false ∧ start.sm.osrCnt = 0 ∧
      start.dma.busy = false ∧ start.dma.done = false ∧ start.par.val.dualTable = true ∧ start.rom.read = false := by
  decide
/-- After a first read, with other tables and with the generated ones, in a state otherwise as at reset; and where the
generator is refused. -/
theorem witness_GeneratorStoresTheBitsInOrder_read :
    ({ flat with rom := { flat.rom with read := true } } : State).rom.read = true ∧ flat.rom.t1 ≠ tableOf flat.par.val 1 ∧
      flat.rom.t8 ≠ tableOf flat.par.val 8 ∧ ({ flat with rom := ⟨[0x55555555], [0x55555555], true⟩ } : State).rom.t1 =
        tableOf flat.par.val 1 ∧ ({ flat with rom := ⟨[0x55555555], [0x55555555], true⟩ } : State).rom.t8 =
        tableOf flat.par.val 8 ∧ flat.ctl = start.ctl ∧ flat.aud = start.aud ∧ flat.sm = start.sm ∧
      (inPhase .load).ctl.ph ≠ .boot ∧ (audioIn .config 0).aud.ph ≠ .waitFirst ∧
      ({ start with dma := ⟨0, true, true, false⟩ } : State).dma.busy = true := by decide +kernel
/-- No companion table. -/
theorem witness_GeneratorStoresTheBitsInOrder_single :
    (single 100).par.val.dualTable = false ∧ (single 100).ctl = start.ctl ∧ (single 100).aud = start.aud ∧
      (single 100).dma = start.dma ∧ (single 100).rom.read = false := by decide

/-- The default waveform and a sampled one, each with the reals the statement names; a window at the end of the table. -/
theorem witness_GeneratorDensityBound :
    waveformValid small.waveform = true ∧
      (∃ w : Nat → ℝ, ∀ i, w i =
        match small.waveform with
        | .negCosine => -Real.cos (2 * Real.pi * (8 * i : Nat) / (bitDepth small : Nat))
        | .sampled scale xs => ((xs.getD (8 * i % xs.length) 0 : Int) : ℝ) / (scale : ℝ)) ∧
      waveformValid flat.par.val.waveform = true ∧
      (∃ w : Nat → ℝ, ∀ i, w i =
        match flat.par.val.waveform with
        | .negCosine => -Real.cos (2 * Real.pi * (1 * i : Nat) / (bitDepth flat.par.val : Nat))
        | .sampled scale xs => ((xs.getD (1 * i % xs.length) 0 : Int) : ℝ) / (scale : ℝ)) ∧
      (31 ≤ bitDepth small ∧ bitDepth small ≤ bitDepth small) ∧
      waveformValid (.sampled 4 [-4, 1, 4]) = true ∧ 3 ≤ 8 ∧ 8 ≤ 8 :=
  ⟨rfl, ⟨_, fun _ => rfl⟩, rfl, ⟨_, fun _ => rfl⟩, by decide, by decide, by decide, le_rfl⟩

/-- A single table of other tones. -/
def tones (fs : List Nat) : Params := { small with toneTable := fs, dualTable := false }

/-- The last tone of the table, above the threshold: the companion table. -/
theorem witness_DivCalcReturnsTheTruncatedPair_pair :
    start.aud.halted = false ∧ start.par.val.toneTable[(2 : Word32).toNat]? = some 300 ∧
      true = (start.par.val.dualTable && decide (start.par.val.threshold < 300)) ∧
      2133 = 2560 * (if true then 8 else 1) * start.par.val.bitClock / (2 ^ (5 + start.par.val.bitDepthExp) * 300) := by
  decide
/-- The first index outside the table. -/
theorem witness_DivCalcReturnsTheTruncatedPair_range :
    start.aud.halted = false ∧ start.par.val.toneTable.length ≤ (3 : Word32).toNat := by decide
/-- Assignments that no state has: a tone of 0, and tones whose dividers are 255 and `2 ^ 32`. -/
theorem witness_DivCalcReturnsTheTruncatedPair_invalid :
    (tones [0]).toneTable[(0 : Word32).toNat]? = some 0 ∧
      (tones [313]).toneTable[(0 : Word32).toNat]? = some 313 ∧ 0 < 313 ∧
      255 = 2560 * (if (tones [313]).dualTable && decide ((tones [313]).threshold < 313) then 8 else 1) *
        (tones [313]).bitClock / (2 ^ (5 + (tones [313]).bitDepthExp) * 313) ∧ 255 < 256 ∧
      2 ^ 32 ≤ 2560 * 1 * (2 ^ 32) / (2 ^ (5 + 0) * 1) := by
  decide

theorem witness_DividerFallsAsTheToneRises :
    0 < 670 ∧ 670 < 671 ∧ usesT8 (ex1 false) 670 = usesT8 (ex1 false) 671 ∧
      bitDepth (ex1 false) * 670 * 671 ≤
        2560 * (if usesT8 (ex1 false) 670 then 8 else 1) * (ex1 false).bitClock * (671 - 670) := by decide

theorem witness_SetDividerAndEnable :
    start.aud.halted = false ∧ start.sm.en = false ∧ 256 ≤ (256 : Word32).toNat := by decide
theorem witness_SetDividerAndEnable_refused :
    playing.aud.halted = false ∧ playing.sm.en = true ∧ (255 : Word32).toNat < 256 := by decide

theorem witness_PullAndShift_pull :
    playing.aud.halted = false ∧ playing.sm.en = true ∧ playing.sm.osrCnt = 0 ∧ playing.fifo = 0x80000001 :: [] := by
  decide
/-- The last bit of a word. -/
theorem witness_PullAndShift_shift :
    ({ playing with sm := { playing.sm with osrCnt := 1 } } : State).aud.halted = false ∧
      ({ playing with sm := { playing.sm with osrCnt := 1 } } : State).sm.en = true ∧
      ({ playing with sm := { playing.sm with osrCnt := 1 } } : State).sm.osrCnt = 0 + 1 := by decide
theorem witness_PullAndShift_stalled :
    start.aud.halted = false ∧ start.sm.en = false ∧ ({ playing with fifo := [] } : State).aud.halted = false ∧
      ({ playing with fifo := [] } : State).sm.osrCnt = 0 ∧ ({ playing with fifo := [] } : State).fifo = [] := by decide

/-- An enabled output with a full `OSR`. -/
def fullOsr : State := { playing with sm := ⟨true, 0x80000001, 32, false, ⟨256, true⟩⟩ }
theorem witness_WordLeavesMostSignificantBitFirst :
    fullOsr.aud.halted = false ∧ fullOsr.sm.en = true ∧ fullOsr.sm.osrCnt = 32 := by decide

theorem witness_DmaArmTransferAbort_arm :
    start.aud.halted = false ∧ start.dma.busy = false ∧ (true = true → start.par.val.dualTable = true) := by decide
/-- A push in progress before its last word. -/
def pushing : State := { start with dma := ⟨0, true, true, false⟩ }
theorem witness_DmaArmTransferAbort_transfer :
    pushing.aud.halted = false ∧ pushing.dma.busy = true ∧ pushing.fifo.length < pushing.par.val.fifoDepth ∧
      pushing.dma.idx < tableWords pushing.par.val ∧ (pushing.dma.tbl = true → pushing.par.val.dualTable = true) ∧
      (if pushing.dma.tbl then pushing.rom.t8 else pushing.rom.t1)[pushing.dma.idx]? = some 0x2E2E2E2E := by decide

/-- Busy; no second table; idle; a full FIFO. -/
theorem witness_DmaArmTransferAbort_refused :
    pushing.aud.halted = false ∧ pushing.dma.busy = true ∧ (single 1).aud.halted = false ∧
      (single 1).par.val.dualTable = false ∧ start.dma.busy = false ∧
      ({ pushing with fifo := [0, 0] } : State).par.val.fifoDepth ≤ ({ pushing with fifo := [0, 0] } : State).fifo.length := by
  decide

theorem witness_PushMovesTheWholeTableInOrder :
    start.aud.halted = false ∧ start.dma.busy = false ∧ romValid start.par.val start.rom = true ∧
      (true = true → start.par.val.dualTable = true) ∧ start.fifo.length + tableWords start.par.val ≤ start.par.val.fifoDepth := by
  decide

theorem witness_MailboxSendAndReceive :
    start.ctl.ph ≠ .halt ∧ start.ctl.ph ≠ .reflash ∧ start.aud.halted = false ∧ start.mbx.full = false ∧
      (sendSelection ⟨1, true⟩ start).mbx.full = true := by decide

theorem witness_MailboxDeliversInOrder :
    MailboxOrdered { start with script := [0x500100000005] } ∧ ∃ t, step { start with script := [0x500100000005] } = .next t :=
  ⟨List.nil_sublist _, _, rfl⟩

/-- A pending selection for a driver in a phase. -/
def pendingIn (p : AudPhase) : State := sendSelection ⟨2, true⟩ (audioIn p 0)
theorem witness_AudioTakesASelection_start :
    (pendingIn .waitFirst).aud.halted = false ∧ (pendingIn .waitFirst).aud.ph = .waitFirst ∧
      (pendingIn .waitFirst).mbx.full = true := by decide
theorem witness_AudioTakesASelection_preempt :
    (pendingIn .race).aud.halted = false ∧ (pendingIn .race).aud.ph = .race ∧ (pendingIn .race).mbx.full = true := by
  decide
theorem witness_AudioTakesASelection_empty : (audioIn .race 0).aud.halted = false ∧ (audioIn .race 0).mbx.full = false := by
  decide

/-- The last index of the table. -/
theorem witness_AudioConfigWritesTheWholePair :
    (audioIn .config 2).aud.halted = false ∧ (audioIn .config 2).aud.ph = .config ∧
      (audioIn .config 2).aud.sel = ⟨⟨2, true⟩, true⟩ ∧ small.toneTable[(2 : Word32).toNat]? = some 300 ∧
      true = (small.dualTable && decide (small.threshold < 300)) ∧
      2133 = 2560 * (if true then 8 else 1) * small.bitClock / (2 ^ (5 + small.bitDepthExp) * 300) := by decide
/-- The first index outside the table. -/
theorem witness_AudioConfigFaults_range :
    (audioIn .config 3).aud.halted = false ∧ (audioIn .config 3).aud.ph = .config ∧
      (audioIn .config 3).aud.sel.written = true ∧
      (audioIn .config 3).par.val.toneTable.length ≤ (audioIn .config 3).aud.sel.val.index.toNat := by decide
/-- The last index of the table. -/
theorem witness_AudioConfigFaults_never :
    (audioIn .config 2).aud.halted = false ∧ (audioIn .config 2).aud.ph = .config ∧
      (audioIn .config 2).aud.sel.written = true ∧
      (audioIn .config 2).aud.sel.val.index.toNat < (audioIn .config 2).par.val.toneTable.length := by decide
theorem witness_AudioConfigFaults_unwritten :
    start.aud.halted = false ∧ ({ start with aud := { start.aud with ph := .config } } : State).aud.ph = .config ∧
      ({ start with aud := { start.aud with ph := .config } } : State).aud.sel.written = false := by decide

theorem witness_AudioPushAndRearm_push :
    (audioIn .push 0).aud.halted = false ∧ (audioIn .push 0).aud.ph = .push ∧
      (audioIn .push 0).aud.tableSel = ⟨false, true⟩ ∧ (audioIn .push 0).dma.busy = false := by decide
theorem witness_AudioPushAndRearm_unwritten :
    start.aud.halted = false ∧ ({ start with aud := { start.aud with ph := .push } } : State).aud.ph = .push ∧
      ({ start with aud := { start.aud with ph := .push } } : State).aud.tableSel.written = false := by decide
theorem witness_AudioPushAndRearm_rearm :
    playing.aud.halted = false ∧ playing.aud.ph = .race ∧ playing.dma.done = true := by decide

theorem witness_EncoderReachesArmed_start : start.ctl.ph ≠ .halt ∧ start.ctl.ph ≠ .reflash ∧ start.enc.st = .off := by
  decide
theorem witness_EncoderReachesArmed_rest :
    (decoding .restWait false true true).ctl.ph ≠ .halt ∧ (decoding .restWait false true true).ctl.ph ≠ .reflash ∧
      (decoding .restWait false true true).enc.st = .restWait ∧ (decoding .restWait false true true).lines.a = true ∧
      (decoding .restWait false true true).lines.b = true := by decide
theorem witness_EncoderReachesArmed_arm :
    (decoding .restSettle false true false).ctl.ph ≠ .halt ∧ (decoding .restSettle false true false).ctl.ph ≠ .reflash ∧
      (decoding .restSettle false true false).enc.st = .restSettle ∧
      (decoding .restSettle false true false).now = (decoding .restSettle false true false).enc.deadline := by decide

theorem witness_EncoderFollowsTheStageTable_fall :
    (decoding .armed false true false).ctl.ph ≠ .halt ∧ (decoding .armed false true false).ctl.ph ≠ .reflash ∧
      (decoding .armed false true false).enc.st = .armed ∧ (decoding .armed false true false).lines.a = true ∧
      (decoding .armed false true false).lines.b = !true := by decide
theorem witness_EncoderFollowsTheStageTable_one :
    (decoding .wait1 false false false).ctl.ph ≠ .halt ∧ (decoding .wait1 false false false).ctl.ph ≠ .reflash ∧
      (decoding .wait1 false false false).enc.deadline ≤ (decoding .wait1 false false false).now ∧
      (decoding .wait1 false false false).enc.st = .wait1 ∧ (decoding .wait1 false false false).lines.a = false ∧
      (decoding .wait1 false false false).lines.b = false := by decide
theorem witness_EncoderFollowsTheStageTable_two :
    (decoding .wait2 true false true).ctl.ph ≠ .halt ∧ (decoding .wait2 true false true).ctl.ph ≠ .reflash ∧
      (decoding .wait2 true false true).enc.deadline ≤ (decoding .wait2 true false true).now ∧
      (decoding .wait2 true false true).enc.st = .wait2 ∧
      (decoding .wait2 true false true).lines.a = !(decoding .wait2 true false true).enc.dir ∧
      (decoding .wait2 true false true).lines.b = (decoding .wait2 true false true).enc.dir := by decide
theorem witness_EncoderFollowsTheStageTable_three :
    (decoding .wait3 true true true).ctl.ph ≠ .halt ∧ (decoding .wait3 true true true).ctl.ph ≠ .reflash ∧
      (decoding .wait3 true true true).enc.deadline ≤ (decoding .wait3 true true true).now ∧
      (decoding .wait3 true true true).enc.st = .wait3 ∧ (decoding .wait3 true true true).lines.a = true ∧
      (decoding .wait3 true true true).lines.b = true := by decide

/-- Both lines high, the codes next to the stages, one tick before the deadline. -/
theorem witness_EncoderFollowsTheStageTable_refused :
    (decoding .armed false true true).ctl.ph ≠ .halt ∧ (decoding .armed false true true).ctl.ph ≠ .reflash ∧
      (decoding .armed false true true).lines.a = !false ∧ 4 ≤ (4 : Byte).toNat ∧
      ({ decoding .wait1 false true true with enc := ⟨.wait1, false, 1⟩ } : State).now <
        ({ decoding .wait1 false true true with enc := ⟨.wait1, false, 1⟩ } : State).enc.deadline := by decide

theorem witness_EncoderDropsABrokenSequence_armed :
    (decoding .armed false false false).ctl.ph ≠ .halt ∧ (decoding .armed false false false).ctl.ph ≠ .reflash ∧
      (decoding .armed false false false).enc.st = .armed ∧ (decoding .armed false false false).lines.a = false ∧
      (decoding .armed false false false).lines.b = false := by decide
/-- Stage 1 of the Up path at `(1,1)` and at `(1,0)`, stage 2 at `(1,1)`, stage 3 at `(0,0)`, each at its deadline. -/
theorem witness_EncoderDropsABrokenSequence_stages :
    (decoding .wait1 false true true).ctl.ph ≠ .halt ∧ (decoding .wait1 false true true).ctl.ph ≠ .reflash ∧
      (decoding .wait1 false true true).enc.st = .wait1 ∧ (decoding .wait1 false true true).enc.deadline ≤ (decoding .wait1 false true true).now ∧
      ((true, true) : Pair) ≠ (false, !false) ∧ ((true, true) : Pair) ≠ (false, false) ∧
      ((true, false) : Pair) ≠ (false, !false) ∧ ((true, false) : Pair) ≠ (false, false) ∧
      ((true, true) : Pair) ≠ (!false, false) ∧ ((false, false) : Pair) ≠ (!false, false) ∧
      ((false, false) : Pair) ≠ (true, true) := by decide
/-- One tick before the deadline. -/
theorem witness_EncoderDropsABrokenSequence_early :
    (decoding .wait1 false true true).ctl.ph ≠ .halt ∧ (decoding .wait1 false true true).ctl.ph ≠ .reflash ∧
      ({ decoding .wait1 false true true with enc := ⟨.wait1, false, 1⟩ } : State).enc.st = .wait1 ∧
      ({ decoding .wait1 false true true with enc := ⟨.wait1, false, 1⟩ } : State).now < 1 := by decide

theorem witness_EncoderDeliversItsEvent_race :
    (decoding .finalSettle true true true).ctl.ph ≠ .halt ∧ (decoding .finalSettle true true true).ctl.ph ≠ .reflash ∧
      (decoding .finalSettle true true true).enc.st = .finalSettle ∧
      (decoding .finalSettle true true true).now = (decoding .finalSettle true true true).enc.deadline ∧
      (decoding .finalSettle true true true).ctl.ph = .wait := by decide
theorem witness_EncoderDeliversItsEvent_elsewhere :
    start.ctl.ph ≠ .halt ∧ start.ctl.ph ≠ .reflash ∧
      ({ start with enc := ⟨.finalSettle, false, 0⟩ } : State).enc.st = .finalSettle ∧
      ({ start with enc := ⟨.finalSettle, false, 0⟩ } : State).now = 0 ∧ start.ctl.ph ≠ .wait := by decide

theorem witness_OneDetentGivesOneEvent :
    (decoding .armed false true true).fresh = true ∧ (decoding .armed false true true).ctl.ph = .wait ∧
      (decoding .armed false true true).ctl.busy = none ∧ (decoding .armed false true true).enc.st = .armed ∧
      (decoding .armed false true true).btn.st = .idle ∧ (decoding .armed false true true).lines.a = true ∧
      (decoding .armed false true true).lines.b = true ∧ (decoding .armed false true true).lines.btn = true ∧
      0 < tSettle small ∧ tSettle small < 2 ^ 40 := by decide

theorem witness_ButtonStartsAndSeesItsEdge_start : start.ctl.ph ≠ .halt ∧ start.ctl.ph ≠ .reflash ∧ start.btn.st = .off := by
  decide
/-- One tick after `BTN.START`, the line just fallen. -/
def falling : State := { pressed .idle 0 false with now := 1 }
theorem witness_ButtonStartsAndSeesItsEdge_edge :
    falling.ctl.ph ≠ .halt ∧ falling.ctl.ph ≠ .reflash ∧ falling.btn.st = .idle ∧ falling.btn.tStart < falling.now ∧
      falling.lines.btnPrev = true ∧ falling.lines.btn = false ∧ falling.ctl.ph ≠ .wait ∧
      ({ falling with ctl := { falling.ctl with ph := .wait } } : State).ctl.ph = .wait := by decide
theorem witness_ButtonStartsAndSeesItsEdge_none :
    (pressed .idle 0 false).ctl.ph ≠ .halt ∧ (pressed .idle 0 false).ctl.ph ≠ .reflash ∧
      (pressed .idle 0 false).now ≤ (pressed .idle 0 false).btn.tStart ∧ (pressed .idle 0 true).lines.btn = true ∧
      start.btn.st ≠ .idle := by decide

theorem witness_ButtonClassifies_confirm :
    (pressed .debounce 0 false).ctl.ph ≠ .halt ∧ (pressed .debounce 0 false).ctl.ph ≠ .reflash ∧
      (pressed .debounce 0 false).btn.st = .debounce ∧
      (pressed .debounce 0 false).now = (pressed .debounce 0 false).btn.deadline := by decide
/-- One tick before the deadline. -/
theorem witness_ButtonClassifies_release :
    (pressed .held 1 true).ctl.ph ≠ .halt ∧ (pressed .held 1 true).ctl.ph ≠ .reflash ∧
      (pressed .held 1 true).btn.st = .held ∧ (pressed .held 1 true).now < (pressed .held 1 true).btn.deadline ∧
      (pressed .held 1 true).lines.btn = true := by decide
theorem witness_ButtonClassifies_timeout :
    (pressed .held 0 true).ctl.ph ≠ .halt ∧ (pressed .held 0 true).ctl.ph ≠ .reflash ∧
      (pressed .held 0 true).btn.st = .held ∧ (pressed .held 0 true).now = (pressed .held 0 true).btn.deadline := by
  decide
theorem witness_ButtonClassifies_trail :
    (inPhase .trail).ctl.ph ≠ .halt ∧ (inPhase .trail).ctl.ph ≠ .reflash ∧ (inPhase .trail).ctl.ph = .trail ∧
      (inPhase .trail).ctl.busy = none ∧ (inPhase .trail).now = (inPhase .trail).ctl.deadline := by decide

/-- The line high at the tick of the confirmation, and low there; the release at ticks 1 and 749. -/
theorem witness_PressBoundary :
    (pressed .held 750 false).aud.halted = false ∧ (pressed .held 750 false).ctl.ph = .btnActive ∧ (pressed .held 750 false).ctl.busy = none ∧
      (pressed .held 750 false).enc.st = .off ∧ (pressed .held 750 false).btn.st = .held ∧
      (pressed .held 750 false).btn.deadline = (pressed .held 750 false).now + tLong small ∧ 0 < tLong small ∧
      tLong small < 2 ^ 40 ∧ (pressed .held 750 true).lines.btn = true ∧ (pressed .held 750 false).lines.btn = false ∧
      0 < 1 ∧ 749 < tLong small := by decide

/-- A free control process, a duration of 0 and no failure to come; and a duration that is not 0. -/
theorem witness_FlashReadAndConfigRead_begin :
    start.ctl.ph ≠ .halt ∧ start.ctl.ph ≠ .reflash ∧ start.ctl.busy = none ∧ nextDuration start = 0 ∧
      nextFail (popDuration start) = false ∧
      nextDuration { start with env := { answers with durations := [1] } } ≠ 0 := by decide
theorem witness_FlashReadAndConfigRead_end :
    (busyWith (.flRead .direct)).ctl.ph ≠ .halt ∧ (busyWith (.flRead .direct)).ctl.ph ≠ .reflash ∧
      (busyWith (.flRead .direct)).now = (busyWith (.flRead .direct)).ctl.deadline ∧
      nextFail (busyWith (.flRead .direct)) = false ∧ (busyWith (.flRead .direct)).ctl.busy = some (.flRead .direct) ∧
      (busyWith (.flRead .cfgRead)).ctl.busy = some (.flRead .cfgRead) := by decide

/-- The last index in range, a record that differs; and the first index out of range. -/
theorem witness_ConfigWriteReadsAndCompares_begin :
    start.ctl.ph ≠ .halt ∧ start.ctl.ph ≠ .reflash ∧
      (⟨0, true⟩ : Selection) = decodeRecord small (memRead start.flash (cfgOffset small) 8) ∧ start.ctl.busy = none ∧
      (2 : Word32).toNat < toneCount small ∧ nextDuration start = 0 ∧ nextFail (popDuration start) = false ∧
      nextDuration { start with env := { answers with durations := [1] } } ≠ 0 ∧
      toneCount small ≤ (3 : Word32).toNat := by decide
theorem witness_ConfigWriteReadsAndCompares_end :
    (busyWith (.flRead (.write .direct))).ctl.ph ≠ .halt ∧ (busyWith (.flRead (.write .direct))).ctl.ph ≠ .reflash ∧
      (busyWith (.flRead (.write .direct))).ctl.busy = some (.flRead (.write .direct)) ∧
      (busyWith (.flRead (.write .direct))).now = (busyWith (.flRead (.write .direct))).ctl.deadline ∧
      nextFail (busyWith (.flRead (.write .direct))) = false ∧
      (busyWith (.flRead (.write .persist))).ctl.busy = some (.flRead (.write .persist)) ∧
      (⟨0, true⟩ : Selection) =
        decodeRecord small (memRead (busyWith (.flRead (.write .persist))).flash (cfgOffset small) 8) ∧
      (busyWith (.flRead (.write .persist))).cfg.new ≠ ⟨0, true⟩ ∧
      ({ busyWith (.flRead (.write .persist)) with cfg := ⟨[], ⟨0, false⟩, ⟨0, true⟩⟩ } : State).cfg.new = ⟨0, true⟩ := by
  decide

/-- The erase and the program: begun on their own, next in a write, and at the end of their waits. -/
theorem witness_FlashEraseAndProgram :
    start.ctl.ph ≠ .halt ∧ start.ctl.ph ≠ .reflash ∧ Memory.wf start.flash = true ∧ start.ctl.busy = none ∧
      nextDuration start = 0 ∧ nextFail (popDuration start) = false ∧
      (busyWith (.eraseNext .persist)).ctl.busy = some (.eraseNext .persist) ∧
      (busyWith (.progNext .direct)).ctl.busy = some (.progNext .direct) ∧
      nextDuration (busyWith (.eraseNext .persist)) = 0 ∧ nextDuration (busyWith (.progNext .direct)) = 0 ∧
      (busyWith (.flErase (.write .direct))).ctl.busy = some (.flErase (.write .direct)) ∧
      (busyWith (.flProg (.write .persist))).ctl.busy = some (.flProg (.write .persist)) ∧
      (busyWith (.flProg (.write .persist))).now = (busyWith (.flProg (.write .persist))).ctl.deadline ∧
      nextFail (busyWith (.flProg (.write .persist))) = false ∧
      nextDuration { start with env := { answers with durations := [1] } } ≠ 0 := by decide

/-- A failure to come at the end of a wait. -/
def failing (b : Busy) : State := { busyWith b with env := { answers with fails := [true] } }
/-- A failure to come where the drawn duration is 0. -/
def failingNow (s : State) : State := { s with env := { answers with fails := [true] } }
theorem witness_FlashFailuresAreFatal_begin :
    nextDuration (failingNow start) = 0 ∧ nextFail (popDuration (failingNow start)) = true ∧
      (failingNow start).ctl.busy = none ∧ (failingNow start).ctl.ph ≠ .halt ∧ (failingNow start).ctl.ph ≠ .reflash ∧
      (failingNow (inPhase .load)).ctl.ph = .load ∧ (failingNow (inPhase .load)).ctl.busy = none ∧
      (failingNow (inLoop .persistWrite 2 false)).ctl.ph = .persistWrite ∧
      (failingNow (inLoop .persistWrite 2 false)).sel = ⟨⟨2, true⟩, ⟨false, true⟩⟩ ∧
      (2 : Word32).toNat < toneCount (failingNow (inLoop .persistWrite 2 false)).par.val ∧
      (failingNow (busyWith (.eraseNext .persist))).ctl.busy = some (.eraseNext .persist) ∧
      (failingNow (busyWith (.progNext .direct))).ctl.busy = some (.progNext .direct) := by decide
theorem witness_FlashFailuresAreFatal :
    (failing (.flErase .direct)).ctl.ph ≠ .halt ∧ (failing (.flErase .direct)).ctl.ph ≠ .reflash ∧
      (failing (.flErase .direct)).now = (failing (.flErase .direct)).ctl.deadline ∧
      nextFail (failing (.flErase .direct)) = true ∧
      (failing (.flRead .load)).ctl.busy = some (.flRead .load) ∧
      (failing (.flErase .direct)).ctl.busy = some (.flErase .direct) ∧
      (failing (.flProg (.write .persist))).ctl.busy = some (.flProg (.write .persist)) ∧
      8 = blockBytes (failing (.flErase .direct)).par.val := by decide

/-- The last index in range, and the first out of range. -/
theorem witness_RecordRoundTrip :
    (2 : Word32) = (0 : Byte) ++ (0 : Byte) ++ (0 : Byte) ++ (2 : Byte) ∧ (⟨2, false⟩ : Selection).index.toNat < toneCount small := by
  decide

/-- The stored record is `{0, true}`: one that differs from it, and one that equals it. -/
theorem witness_SaveThenReadReturnsTheRecord :
    start.ctl.ph ≠ .halt ∧ start.ctl.ph ≠ .reflash ∧ start.ctl.busy = none ∧ Memory.wf start.flash = true ∧
      (2 : Word32).toNat < toneCount start.par.val ∧ start.env.durations = 0 :: 0 :: 0 :: 0 :: [0, 0, 0, 0] ∧
      start.env.fails = false :: false :: false :: false :: [false, false, false, false] ∧
      decodeRecord start.par.val (memRead start.flash (cfgOffset start.par.val) 8) ≠ ⟨2, false⟩ ∧
      (0 : Word32).toNat < toneCount start.par.val ∧
      decodeRecord start.par.val (memRead start.flash (cfgOffset start.par.val) 8) = ⟨0, true⟩ := by decide
/-- A stored record that differs from `{2, false}`, and equals `{0, true}`. -/
theorem witness_SecondSaveIsANoOp :
    start.ctl.ph ≠ .halt ∧ start.ctl.ph ≠ .reflash ∧ start.ctl.busy = none ∧ Memory.wf start.flash = true ∧
      (2 : Word32).toNat < toneCount start.par.val ∧ start.env.durations = 0 :: 0 :: 0 :: 0 :: [0, 0, 0, 0] ∧
      start.env.fails = false :: false :: false :: false :: [false, false, false, false] ∧
      decodeRecord start.par.val (memRead start.flash (cfgOffset start.par.val) 8) ≠ ⟨2, false⟩ ∧
      decodeRecord start.par.val (memRead start.flash (cfgOffset start.par.val) 8) = ⟨0, true⟩ ∧
      (0 : Word32).toNat < toneCount start.par.val := by decide

theorem witness_ResetBetweenEraseAndProgram :
    (busyWith (.eraseNext .persist)).ctl.ph ≠ .halt ∧ (busyWith (.eraseNext .persist)).ctl.ph ≠ .reflash ∧
      (busyWith (.eraseNext .persist)).ctl.busy = some (.eraseNext .persist) ∧
      toneCount (busyWith (.eraseNext .persist)).par.val < 2 ^ 32 ∧ nextDuration (busyWith (.eraseNext .persist)) = 0 ∧
      nextFail (popDuration (busyWith (.eraseNext .persist))) = false := by decide

/-- The answers report a failure after `k` that report none. -/
def failingAt (k : Nat) (s : State) : State := { s with env := { answers with fails := List.replicate k false ++ [true] } }
theorem witness_BootAndRecovery :
    start.ctl.busy = none ∧ start.ctl.ph = .boot ∧ (inPhase .recovery).ctl.busy = none ∧
      (inPhase .recovery).ctl.ph = .recovery ∧
      noFailures ((inPhase .recovery).par.val.diagMsg.length + 1) (inPhase .recovery) = true ∧
      nextDuration (popFails ((inPhase .recovery).par.val.diagMsg.length + 1) (inPhase .recovery)) = 0 ∧
      nextDuration (popFails 6 { inPhase .recovery with env := { answers with durations := [1] } }) ≠ 0 := by decide

/-- The first draw, the last draw and the flush of the message fail. -/
theorem witness_BootAndRecovery_fails :
    defaultDiagMsg.length = 5 ∧ noFailures 0 (failingNow (inPhase .recovery)) = true ∧
      nextFail (popFails 0 (failingNow (inPhase .recovery))) = true ∧
      noFailures 4 (failingAt 4 (inPhase .recovery)) = true ∧ nextFail (popFails 4 (failingAt 4 (inPhase .recovery))) = true ∧
      noFailures 5 (failingAt 5 (inPhase .recovery)) = true ∧ nextFail (popFails 5 (failingAt 5 (inPhase .recovery))) = true ∧
      (failingAt 5 (inPhase .recovery)).ctl.ph = .recovery ∧ (failingAt 5 (inPhase .recovery)).ctl.busy = none ∧
      (failingAt 5 (inPhase .recovery)).par.val.diagMsg.length = 5 := by decide

theorem witness_LoadTakesTheStoredSelection :
    (inPhase .load).ctl.ph = .load ∧
      (⟨0, true⟩ : Selection) = decodeRecord small (memRead (inPhase .load).flash (cfgOffset small) 8) ∧
      (inPhase .load).ctl.busy = none ∧ nextDuration (inPhase .load) = 0 ∧
      nextFail (popDuration (inPhase .load)) = false ∧
      nextDuration { inPhase .load with env := { answers with durations := [1] } } ≠ 0 ∧ 1 ≤ toneCount small := by
  decide
/-- `CTL.LOAD` at the end of its read. -/
def loading : State := { inPhase .load with ctl := ⟨.load, .none, 0, some (.flRead .load)⟩ }
theorem witness_LoadTakesTheStoredSelection_end :
    loading.ctl.ph = .load ∧ loading.ctl.busy = some (.flRead .load) ∧ loading.now = loading.ctl.deadline ∧
      nextFail loading = false := by decide

theorem witness_PublishSendsTheSelection :
    (inLoop .publish 2 true).ctl.ph = .publish ∧ (inLoop .publish 2 true).sel = ⟨⟨2, true⟩, ⟨true, true⟩⟩ ∧
      (inLoop .publish 2 true).ctl.busy = none ∧ (inPhase .publish).ctl.busy = none ∧
      (inPhase .publish).sel.index.written = false := by decide
/-- `CTL.PUBLISH` at the end of its wait. -/
def published : State := { inLoop .publish 2 true with ctl := ⟨.publish, .none, 0, some .publish⟩ }
theorem witness_PublishSendsTheSelection_end :
    published.ctl.ph = .publish ∧ published.ctl.busy = some .publish ∧ published.now = published.ctl.deadline := by
  decide

/-- The last index of the table. -/
theorem witness_RenderDrawsAllFiveSlots_draws :
    (inLoop .render 2 true).ctl.ph = .render ∧ (inLoop .render 2 true).ctl.busy = none ∧
      (inLoop .render 2 true).sel = ⟨⟨2, true⟩, ⟨true, true⟩⟩ ∧
      (inLoop .render 2 true).par.val.toneTable[(2 : Word32).toNat]? = some 300 ∧
      noFailures 6 (inLoop .render 2 true) = true := by decide
/-- The first index outside the table, and an unwritten selection. -/
theorem witness_RenderDrawsAllFiveSlots_faults :
    (inLoop .render 3 true).ctl.ph = .render ∧ (inLoop .render 3 true).ctl.busy = none ∧
      (inLoop .render 3 true).sel.index.written = true ∧ (inLoop .render 3 true).sel.enabled.written = true ∧
      (inLoop .render 3 true).par.val.toneTable.length ≤ (inLoop .render 3 true).sel.index.val.toNat ∧
      (inPhase .render).ctl.busy = none ∧ (inPhase .render).sel.enabled.written = false := by decide
/-- The first draw, the last draw and the flush fail. -/
theorem witness_RenderDrawsAllFiveSlots_fails :
    (failingAt 5 (inLoop .render 2 true)).ctl.ph = .render ∧ (failingAt 5 (inLoop .render 2 true)).ctl.busy = none ∧
      (failingAt 5 (inLoop .render 2 true)).sel = ⟨⟨2, true⟩, ⟨true, true⟩⟩ ∧
      (failingAt 5 (inLoop .render 2 true)).par.val.toneTable[(2 : Word32).toNat]? = some 300 ∧
      noFailures 0 (failingAt 0 (inLoop .render 2 true)) = true ∧
      nextFail (popFails 0 (failingAt 0 (inLoop .render 2 true))) = true ∧
      noFailures 4 (failingAt 4 (inLoop .render 2 true)) = true ∧
      nextFail (popFails 4 (failingAt 4 (inLoop .render 2 true))) = true ∧
      noFailures 5 (failingAt 5 (inLoop .render 2 true)) = true ∧
      nextFail (popFails 5 (failingAt 5 (inLoop .render 2 true))) = true := by decide
/-- The flush of `CTL.RENDER` at the end of its wait, the next duration 0 and not 0. -/
def flushing (d : Nat) : State :=
  { inLoop .render 2 true with
    ctl := ⟨.render, .none, 0, some (.flush .render)⟩
    env := { answers with durations := [d] } }
theorem witness_RenderDrawsAllFiveSlots_flushed :
    (flushing 0).ctl.ph = .render ∧ (flushing 0).ctl.busy = some (.flush .render) ∧
      (flushing 0).now = (flushing 0).ctl.deadline ∧ nextDuration (flushing 0) = 0 ∧
      (flushing 3).ctl.ph = .render ∧ (flushing 3).ctl.busy = some (.flush .render) ∧
      (flushing 3).now = (flushing 3).ctl.deadline ∧ nextDuration (flushing 3) = 3 := by decide
/-- `CTL.RENDER` at the end of its own wait. -/
def rendered : State := { inLoop .render 2 true with ctl := ⟨.render, .none, 0, some .render⟩ }
theorem witness_RenderDrawsAllFiveSlots_end :
    rendered.ctl.ph = .render ∧ rendered.ctl.busy = some .render ∧ rendered.now = rendered.ctl.deadline := by decide

theorem witness_WaitAndHandlers :
    (inLoop .wait 0 true).ctl.busy = none ∧ (inLoop .wait 0 true).ctl.ph = .wait ∧ (inLoop .wait 0 true).enc.st = .off ∧
      (inLoop .wait 0 true).btn.st = .off ∧ (inLoop .handleUp 2 true).sel.index = ⟨2, true⟩ ∧
      (inLoop .handleUp 2 true).ctl.ph = .handleUp ∧ (inLoop .handleDown 0 true).sel.index = ⟨0, true⟩ ∧
      (inLoop .handleDown 0 true).ctl.ph = .handleDown ∧ (inLoop .handleToggle 0 true).sel.enabled = ⟨true, true⟩ ∧
      (inLoop .handleToggle 0 true).ctl.ph = .handleToggle ∧ (inLoop .handleUp 2 true).ctl.busy = none := by decide

/-- The last index below `WRAP_LEN`; the tables of V18; the reserved index. -/
theorem witness_IndexLaws :
    paramsValid (ex1 false) = true ∧ paramsValid (ex1 true) = true ∧ (50 : Word32).toNat < wrapLen (ex1 false) ∧
      toneCount (ex1 false) = 51 ∧ (ex1 false).reserveLast = false ∧ (ex1 true).reserveLast = true ∧
      (50 : Word32).toNat = wrapLen (ex1 true) := by decide

theorem witness_PersistTakesItsFourSteps :
    (inLoop .persistAck 1 false).ctl.busy = none ∧ (inLoop .persistAck 1 false).ctl.ph = .persistAck ∧
      noFailures 2 (inLoop .persistAck 1 false) = true ∧ (inLoop .persistForce 1 false).ctl.ph = .persistForce ∧
      (inLoop .persistForce 1 false).sel.index = ⟨1, true⟩ ∧ (inLoop .persistWrite 2 false).ctl.ph = .persistWrite ∧
      (inLoop .persistWrite 2 false).sel = ⟨⟨2, true⟩, ⟨false, true⟩⟩ ∧ (2 : Word32).toNat < toneCount small ∧
      nextDuration (inLoop .persistWrite 2 false) = 0 ∧ nextFail (popDuration (inLoop .persistWrite 2 false)) = false ∧
      nextDuration { inLoop .persistWrite 2 false with env := { answers with durations := [1] } } ≠ 0 ∧
      (inLoop .persistHold 1 false).ctl.ph = .persistHold ∧
      (inLoop .persistHold 1 false).now = (inLoop .persistHold 1 false).ctl.deadline := by decide

/-- The draw fails, and the flush. -/
theorem witness_PersistTakesItsFourSteps_fails :
    (failingAt 1 (inLoop .persistAck 1 false)).ctl.ph = .persistAck ∧
      (failingAt 1 (inLoop .persistAck 1 false)).ctl.busy = none ∧
      noFailures 0 (failingAt 0 (inLoop .persistAck 1 false)) = true ∧
      nextFail (popFails 0 (failingAt 0 (inLoop .persistAck 1 false))) = true ∧
      noFailures 1 (failingAt 1 (inLoop .persistAck 1 false)) = true ∧
      nextFail (popFails 1 (failingAt 1 (inLoop .persistAck 1 false))) = true := by decide

/-- The last legal glyph and slot, and the first reserved ones. -/
theorem witness_DrawAndFlush :
    start.ctl.ph ≠ .halt ∧ start.ctl.ph ≠ .reflash ∧ (14 : Glyph).toNat ≤ 14 ∧ (4 : Slot).toNat ≤ 4 ∧
      14 < (15 : Glyph).toNat ∧ 4 < (5 : Slot).toNat ∧ start.ctl.busy = none ∧ nextFail start = false ∧
      nextFail { start with env := { answers with fails := [true] } } = true ∧
      (busyWith (.flush .direct)).ctl.busy = some (.flush .direct) ∧
      (busyWith (.flush .direct)).now = (busyWith (.flush .direct)).ctl.deadline ∧
      (busyWith (.flush .recovery)).ctl.busy = some (.flush .recovery) ∧
      (busyWith (.flush .persistAck)).ctl.busy = some (.flush .persistAck) := by decide

/-- Codes 1 and 4, 5, 6 and 7, 0 and 8. -/
theorem witness_FaultRecordsAndStopsItsSide :
    (⟨true, 1⟩ : Latch) = ⟨true, if start.latch.fault then start.latch.code else 1⟩ ∧ 1 ≤ (1 : Byte).toNat ∧
      (4 : Byte).toNat ≤ 4 ∧ 8 ≤ (8 : Byte).toNat := by decide

/-- Both sides stopped, and an operation that still has a next state. -/
def dead : State := raiseAudio 5 (raiseControl 2 start)
theorem witness_FaultIsStickyAndItsSideStops :
    isControl .ctlBoot = true ∧ dead.ctl.ph = .halt ∧ (inPhase .reflash).ctl.ph = .reflash ∧ isAudio .smPull = true ∧
      dead.aud.halted = true ∧ Instr.envAdv 1 ≠ .envReset ∧ dead.latch.fault = true ∧ dead.ctl.ph = .halt ∧ dead.aud.halted = true ∧
      ∃ t, exec (.envAdv 1) dead = .next t :=
  ⟨rfl, rfl, rfl, rfl, rfl, by decide, rfl, rfl, rfl, _, rfl⟩

theorem witness_InputsRaiseNoFault :
    (∃ t, exec .smPull playing = .next t) ∧ (∃ t, exec (.smEnable true) start = .next t) ∧
      (∃ t, exec (.smSetdiv 256) start = .next t) ∧ (∃ t, exec (.encAdvance 3) (decoding .wait3 false true true) = .next t) ∧
      ∃ t, exec (.mbxSend true 2) start = .next t :=
  ⟨⟨_, rfl⟩, ⟨_, rfl⟩, ⟨_, rfl⟩, ⟨_, rfl⟩, _, rfl⟩

/-- Two states that differ in the audio side and the fault latch alone. -/
theorem witness_ControlSideSeesNoAudioState :
    isControl .ctlBoot = true ∧ (∃ t, exec .ctlBoot start = .next t) ∧ controlView start = controlView (raiseAudio 5 start) ∧
      start ≠ raiseAudio 5 start := by
  refine ⟨rfl, ⟨_, rfl⟩, rfl, by decide⟩

/-- Two states that differ in the control side and the fault latch alone. -/
theorem witness_AudioSideSeesNoControlState :
    isAudio (.smEnable true) = true ∧ (∃ t, exec (.smEnable true) start = .next t) ∧
      audioView start = audioView (raiseControl 2 start) ∧ start ≠ raiseControl 2 start := by
  refine ⟨rfl, ⟨_, rfl⟩, rfl, by decide⟩

theorem witness_ConstantsAndTheFlashBlock :
    (∃ t, exec .flErase start = .next t) ∧ Instr.ctlBoot ≠ .flErase ∧ (∃ t, exec .ctlBoot start = .next t) ∧
      7 < cfgOffset start.par.val ∧ cfgOffset start.par.val + blockBytes start.par.val ≤ 16 := by
  refine ⟨⟨_, rfl⟩, by decide, ⟨_, rfl⟩, by decide, by decide⟩

end Sys2Proof.Tests
end

section
/-! PROOFS. With nothing scheduled a step is one of the moves of the state (spec/00_scope.md R11, R12). -/

namespace Sys2Proof.Machine

/-! The moves of a state (R11, R12). -/

/-- A fact about the chosen operations is one about each entry whose condition holds. -/
theorem forall_mem_chosen {P : Instr → Prop} {l : List (Bool × Instr)} :
    (∀ i ∈ chosen l, P i) ↔ ∀ p ∈ l, p.1 = true → P p.2 := by
  simp [chosen]

/-- There is always a move: where the control side has none, a tick can pass (R279). -/
theorem moves_ne_nil (s : State) : moves s ≠ [] := by
  unfold moves tickReady
  cases h : ctlMoves s with
  | nil => simp
  | cons i is => simp

/-- The free values have no part in which operations are enabled (R14). -/
@[simp] theorem moves_env (s : State) (e : Draws) : moves { s with env := e } = moves s := rfl

/-- What `takeMove` can do: one of the moves, after at most one free value. -/
theorem takeMove_eq_exec (s : State) :
    ∃ i ∈ moves s, ∃ n, takeMove s = exec i { s with env := { s.env with count := n } } := by
  unfold takeMove
  split
  · exact absurd (by assumption) (moves_ne_nil s)
  · rename_i i hi
    exact ⟨i, by simp [hi], s.env.count, rfl⟩
  · rename_i i j rest hi
    have hk : Config.freeChoice s.env.count % (rest.length + 2) < (i :: j :: rest).length :=
      Nat.mod_lt _ (Nat.succ_pos _)
    refine ⟨_, ?_, s.env.count + 1, rfl⟩
    rw [hi, List.getD_eq_getElem _ _ hk]
    exact List.getElem_mem hk

/-- With nothing scheduled a step takes a move. -/
theorem step_unscheduled {s : State} (h : s.script = []) : step s = takeMove s := by
  simp [step, h]

/-- Settles O7: `takeMove` runs an element of `moves`, which is never empty. -/
theorem unscheduledStepTakesAnEnabledMove : Obligations.UnscheduledStepTakesAnEnabledMove := by
  intro s hs
  rw [step_unscheduled hs]
  exact takeMove_eq_exec s

end Sys2Proof.Machine
end

section
/-! PROOFS. `StateInv` falls into four parts, each about the fields it reads, so that an update outside a part's fields
keeps the part as it stands; and what the shared operations keep of it. -/

namespace Sys2Proof.Machine

/-! The four parts. -/

/-- The part of `StateInv` about the tables and the output path. -/
structure OutputInv (p : Params) (rom : Rom) (osrCnt : Nat) (clkdiv : Reg Word32) (fifo : List Word32) (dma : Dma)
    (tableSel : Reg Bool) : Prop where
  tables : romValid p rom = true
  osrCnt : osrCnt ≤ 32
  depth : fifo.length ≤ p.fifoDepth
  idx : dma.idx ≤ tableWords p
  busy : dma.busy = true → dma.idx < tableWords p ∧ dma.done = false ∧ (dma.tbl = true → p.dualTable = true)
  done : dma.done = true → dma.idx = tableWords p
  clkdiv : clkdiv.written = true → 256 ≤ clkdiv.val.toNat
  tableSel : tableSel.written = true → tableSel.val = true → p.dualTable = true

/-- The part of `StateInv` about the selection, the store and the display. -/
structure StoreInv (p : Params) (index : Reg Word32) (buf : List Byte) (flash : Memory)
    (pending : List (Glyph × Slot)) (shown : List DispEvent) : Prop where
  index : index.written = true → index.val.toNat < toneCount p
  buffer : buf.length = recordBytes
  flash : Memory.wf flash = true
  pending : pending.all drawLegal = true
  shown : shown.all eventLegal = true

/-- The part of `StateInv` about the latch and the audio side's stop. -/
structure LatchInv (latch : Latch) (halted : Bool) : Prop where
  halted : halted = true → latch.fault = true
  code : latch.fault = true → 1 ≤ latch.code.toNat ∧ latch.code.toNat ≤ 7

/-- The part of `StateInv` about the two phases in which the control side takes no step. -/
structure PhaseInv (ctl : Ctl) (enc : EncSt) (btn : BtnSt) (fault reflash : Bool) : Prop where
  halt : ctl.ph = .halt → fault = true ∧ enc = .off ∧ btn = .off ∧ ctl.busy = none
  reflash : ctl.ph = .reflash → reflash = true ∧ ctl.busy = none

/-- `StateInv` but for its part about the phases. -/
abbrev DataInv (s : State) : Prop :=
  OutputInv s.par.val s.rom s.sm.osrCnt s.sm.clkdiv s.fifo s.dma s.aud.tableSel ∧
    StoreInv s.par.val s.sel.index s.cfg.buf s.flash s.disp.pending s.logs.dispOut ∧ LatchInv s.latch s.aud.halted

theorem DataInv.output {s : State} (h : DataInv s) :
    OutputInv s.par.val s.rom s.sm.osrCnt s.sm.clkdiv s.fifo s.dma s.aud.tableSel := h.1

theorem DataInv.store {s : State} (h : DataInv s) :
    StoreInv s.par.val s.sel.index s.cfg.buf s.flash s.disp.pending s.logs.dispOut := h.2.1

theorem DataInv.latch {s : State} (h : DataInv s) : LatchInv s.latch s.aud.halted := h.2.2

/-- `StateInv` is its four parts. -/
theorem stateInv_iff {s : State} :
    StateInv s ↔ DataInv s ∧ PhaseInv s.ctl s.enc.st s.btn.st s.latch.fault s.reflash :=
  ⟨fun h =>
    ⟨⟨⟨h.rom, h.osrCnt, h.fifo, h.dmaIdx, h.dmaBusy, h.dmaDone, h.clkdiv, h.tableSel⟩,
      ⟨h.index, h.buffer, h.flash, h.drawn.1, h.drawn.2⟩, ⟨h.audHalt, h.code⟩⟩, ⟨h.halt, h.reflashed⟩⟩,
    fun ⟨⟨o, st, l⟩, ph⟩ =>
      { rom := o.tables, flash := st.flash, osrCnt := o.osrCnt, fifo := o.depth, dmaIdx := o.idx, dmaBusy := o.busy,
        dmaDone := o.done, clkdiv := o.clkdiv, tableSel := o.tableSel, index := st.index, buffer := st.buffer,
        halt := ph.halt, audHalt := l.halted, reflashed := ph.reflash, drawn := ⟨st.pending, st.shown⟩,
        code := l.code }⟩

theorem StateInv.data {s : State} (h : StateInv s) : DataInv s := (stateInv_iff.mp h).1

theorem StateInv.phase {s : State} (h : StateInv s) : PhaseInv s.ctl s.enc.st s.btn.st s.latch.fault s.reflash :=
  (stateInv_iff.mp h).2

/-- The invariant where the control side can take steps. -/
abbrev LiveInv (s : State) : Prop := DataInv s ∧ ctlLive s = true

/-- The invariant where, besides, no operation is in progress. -/
abbrev IdleInv (s : State) : Prop := LiveInv s ∧ s.ctl.busy = none

theorem LiveInv.data {s : State} (h : LiveInv s) : DataInv s := h.1

theorem LiveInv.live {s : State} (h : LiveInv s) : ctlLive s = true := h.2

theorem IdleInv.toLive {s : State} (h : IdleInv s) : LiveInv s := h.1

theorem IdleInv.idle {s : State} (h : IdleInv s) : s.ctl.busy = none := h.2

/-- Outside `HALT` and `REFLASH` the part about the phases says nothing. -/
theorem LiveInv.stateInv {s : State} (h : LiveInv s) : StateInv s := by
  obtain ⟨hdata, hlive⟩ := h
  simp only [ctlLive, Bool.and_eq_true, bne_iff_ne] at hlive
  exact stateInv_iff.mpr ⟨hdata, fun hp => absurd hp hlive.1, fun hp => absurd hp hlive.2⟩

/-- `fresh` is no part of the invariant, so a control-side step keeps it where its effect does. -/
theorem StateInv.stale {s : State} (h : StateInv s) : StateInv { s with fresh := false } :=
  stateInv_iff.mpr ⟨h.data, h.phase⟩

/-- No answer of the environment is part of the invariant. -/
theorem StateInv.withEnv {s : State} (h : StateInv s) (e : Draws) : StateInv { s with env := e } :=
  stateInv_iff.mpr ⟨h.data, h.phase⟩

/-! Faults (R255, R256). -/

/-- A raise leaves a code that R256 does not reserve. -/
theorem LatchInv.record {l : Latch} {halted : Bool} (h : LatchInv l halted) {c : Byte}
    (hc : 1 ≤ c.toNat ∧ c.toNat ≤ 7) (halted' : Bool) : LatchInv (l.record c) halted' where
  halted _ := rfl
  code _ := by
    rcases Latch.record_code c l with hcode | ⟨hf, hcode⟩
    · rw [hcode]; exact hc
    · rw [hcode]; exact h.code hf

/-- A fault of the control side is recorded and turns everything on that side off. -/
theorem DataInv.raiseControl {s : State} (h : DataInv s) {c : Byte} (hc : 1 ≤ c.toNat ∧ c.toNat ≤ 7) :
    StateInv (raiseControl c s) :=
  stateInv_iff.mpr ⟨⟨h.output, h.store, h.latch.record hc _⟩, fun _ => ⟨rfl, rfl, rfl, rfl⟩, nofun⟩

/-- A fault of the audio side is recorded. -/
theorem StateInv.raiseAudio {s : State} (h : StateInv s) {c : Byte} (hc : 1 ≤ c.toNat ∧ c.toNat ≤ 7) :
    StateInv (raiseAudio c s) :=
  stateInv_iff.mpr
    ⟨⟨h.data.output, h.data.store, h.data.latch.record hc _⟩, fun hp => ⟨rfl, (h.phase.halt hp).2⟩, h.phase.reflash⟩

/-! Waiting and the registers of the loop. -/

/-- A wait keeps the invariant where what follows it does. -/
theorem LiveInv.await {s : State} (h : LiveInv s) {b : Busy} {rest : State → State}
    (go : StateInv (rest (popDuration s))) : StateInv (await b rest s) :=
  await_cases go (LiveInv.stateInv h)

theorem LiveInv.popDuration {s : State} (h : LiveInv s) : LiveInv (popDuration s) := h

theorem LiveInv.popFail {s : State} (h : LiveInv s) : LiveInv (popFail s) := h

theorem LiveInv.clearBusy {s : State} (h : LiveInv s) : IdleInv (clearBusy s) :=
  ⟨h, rfl⟩

/-- A phase in which the control side takes steps can be entered. -/
theorem DataInv.setPhase {s : State} (h : DataInv s) {p : CtlPhase} (hp : p ≠ .halt) (hp' : p ≠ .reflash) :
    StateInv (setPhase p s) :=
  LiveInv.stateInv ⟨h, by simp [ctlLive, hp, hp']⟩

/-- The mailbox and its log are no part of the invariant. -/
theorem LiveInv.sendSelection {s : State} (h : LiveInv s) (v : Selection) : LiveInv (sendSelection v s) := h

/-- A read of `SEL` keeps the invariant where what follows it does. -/
theorem LiveInv.withSelection {s : State} (h : LiveInv s) {k : Selection → State → State}
    (go : s.sel.index.written = true → StateInv (k ⟨s.sel.index.val, s.sel.enabled.val⟩ s)) :
    StateInv (withSelection k s) :=
  withSelection_cases (fun hi _ => go hi) (h.data.raiseControl (by decide))

/-- A read of `SEL.index` keeps the invariant where what follows it does. -/
theorem LiveInv.withIndex {s : State} (h : LiveInv s) {k : Word32 → State → State}
    (go : s.sel.index.written = true → StateInv (k s.sel.index.val s)) : StateInv (withIndex k s) :=
  withIndex_cases go (h.data.raiseControl (by decide))

/-! The display. -/

/-- A legal draw can be queued. -/
theorem LiveInv.queueDraw {s : State} (h : LiveInv s) {d : Glyph × Slot} (hd : drawLegal d = true) :
    LiveInv (queueDraw d s) := by
  obtain ⟨⟨hout, hst, hlatch⟩, hlive⟩ := h
  refine ⟨⟨hout, { hst with pending := ?_, shown := ?_ }, hlatch⟩, hlive⟩
  · simp [hst.pending, hd]
  · simp [hst.shown, eventLegal, hd]

/-- A legal `DISP.DRAW` of its own. -/
theorem LiveInv.drawGlyph {s : State} (h : LiveInv s) {d : Glyph × Slot} (hd : drawLegal d = true) :
    StateInv (drawGlyph d id s) :=
  drawGlyph_cases (fun _ => (h.popFail.queueDraw hd).stateInv) (fun _ => h.popFail.data.raiseControl (by decide))

/-- Legal draws keep the invariant where what follows them does. -/
theorem IdleInv.drawAll {s : State} (h : IdleInv s) {ds : List (Glyph × Slot)} (hds : ds.all drawLegal = true)
    {rest : State → State} (go : ∀ t, IdleInv t → StateInv (rest t)) : StateInv (drawAll ds rest s) :=
  drawAll_induct ds h (fun d hd _ ht => ⟨ht.toLive.popFail.queueDraw (List.all_eq_true.mp hds d hd), ht.idle⟩)
    (fun _ ht => ht.toLive.popFail.data.raiseControl (by decide)) go

/-- The end of a flush: the phase that follows it, `REFLASH` with its flag among them (R227). -/
theorem IdleInv.afterFlush {s : State} (h : IdleInv s) (issuer : FlushBy) : StateInv (afterFlush issuer s) := by
  obtain ⟨hlive, hidle⟩ := h
  cases issuer with
  | direct => exact hlive.stateInv
  | recovery => exact stateInv_iff.mpr ⟨hlive.data, nofun, fun _ => ⟨rfl, hidle⟩⟩
  | render => exact hlive.await (hlive.popDuration.data.setPhase (by decide) (by decide))
  | persistAck => exact hlive.data.setPhase (by decide) (by decide)

/-- A flush puts no draw on the display that was not pending. -/
theorem LiveInv.showFrame {s : State} (h : LiveInv s) : LiveInv (showFrame s) := by
  obtain ⟨⟨hout, hst, hlatch⟩, hlive⟩ := h
  refine ⟨⟨hout, { hst with pending := rfl, shown := ?_ }, hlatch⟩, hlive⟩
  simp [hst.shown, eventLegal]

/-- A flush keeps the invariant, whoever issued it. -/
theorem IdleInv.flush {s : State} (h : IdleInv s) (issuer : FlushBy) : StateInv (flush issuer s) := by
  have hshown : LiveInv (Machine.showFrame (Machine.popFail s)) := h.toLive.popFail.showFrame
  exact flush_cases (fun _ => hshown.await (IdleInv.afterFlush ⟨hshown.popDuration, h.idle⟩ issuer))
    (fun _ => h.toLive.popFail.data.raiseControl (by decide))

/-! The configuration store. -/

theorem LiveInv.afterWrite {s : State} (h : LiveInv s) (issuer : WriteBy) : LiveInv (afterWrite issuer s) := by
  cases issuer with
  | direct => exact h
  | persist => exact ⟨h.data, rfl⟩

theorem LiveInv.decodeBuffer {s : State} (h : LiveInv s) : LiveInv (decodeBuffer s) := h

/-- A selection that is loaded is in range, whatever the record holds (R210). -/
theorem LiveInv.afterRead {s : State} (h : LiveInv s) (issuer : ReadBy) : LiveInv (afterRead issuer s) := by
  cases issuer with
  | direct => exact h
  | cfgRead => exact h.decodeBuffer
  | load =>
    have hr := decodeRecord_range s.par.val s.cfg.buf (paramsValid_counts s.par.valid).1
    exact ⟨⟨h.data.output, { h.data.store with index := fun _ => hr }, h.data.latch⟩, rfl⟩
  | write by' =>
    simp only [Machine.afterRead]
    split
    · exact h.decodeBuffer.afterWrite by'
    · exact h

theorem LiveInv.readFlash {s : State} (h : LiveInv s) (issuer : ReadBy) : StateInv (readFlash issuer s) :=
  readFlash_cases
    (fun _ => by
      refine (LiveInv.afterRead ?_ issuer).stateInv
      exact ⟨⟨h.data.output, { h.data.store with buffer := memRead_length _ _ _ }, h.data.latch⟩, h.live⟩)
    (fun _ => h.popFail.data.raiseControl (by decide))

theorem LiveInv.beginRead {s : State} (h : LiveInv s) (issuer : ReadBy) : StateInv (beginRead issuer s) :=
  h.await (h.popDuration.readFlash issuer)

theorem LiveInv.beginWrite {s : State} (h : LiveInv s) (issuer : WriteBy) (v : Selection) :
    StateInv (beginWrite issuer v s) := by
  refine LiveInv.beginRead ?_ (.write issuer)
  exact h

/-- Free bytes keep the canonical form of `FLASH`. -/
theorem DataInv.scramble {s : State} (h : DataInv s) (off n : Nat) : DataInv (scramble off n s) :=
  ⟨h.output, { h.store with flash := memStore_wf _ _ h.store.flash }, h.latch⟩

theorem LiveInv.afterErase {s : State} (h : LiveInv s) (issuer : FlashBy) : LiveInv (afterErase issuer s) := by
  cases issuer with
  | direct => exact h
  | write by' => exact h

theorem LiveInv.eraseFlash {s : State} (h : LiveInv s) (issuer : FlashBy) : StateInv (eraseFlash issuer s) :=
  eraseFlash_cases
    (fun _ => by
      refine (LiveInv.afterErase ?_ issuer).stateInv
      exact ⟨⟨h.data.output, { h.data.store with flash := memErase_wf _ _ h.data.store.flash }, h.data.latch⟩,
        h.live⟩)
    (fun _ => (h.popFail.data.scramble _ _).raiseControl (by decide))

theorem LiveInv.beginErase {s : State} (h : LiveInv s) (issuer : FlashBy) : StateInv (beginErase issuer s) :=
  h.await (h.popDuration.eraseFlash issuer)

theorem LiveInv.afterProg {s : State} (h : LiveInv s) (issuer : FlashBy) : LiveInv (afterProg issuer s) := by
  cases issuer with
  | direct => exact h
  | write by' => exact h.afterWrite by'

theorem LiveInv.progFlash {s : State} (h : LiveInv s) (issuer : FlashBy) : StateInv (progFlash issuer s) :=
  progFlash_cases
    (fun _ => by
      refine (LiveInv.afterProg ?_ issuer).stateInv
      exact ⟨⟨h.data.output, { h.data.store with flash := memProgram_wf _ _ h.data.store.flash }, h.data.latch⟩,
        h.live⟩)
    (fun _ => (h.popFail.data.scramble _ _).raiseControl (by decide))

theorem LiveInv.beginProg {s : State} (h : LiveInv s) (issuer : FlashBy) : StateInv (beginProg issuer s) :=
  h.await (h.popDuration.progFlash issuer)

end Sys2Proof.Machine
end

section
/-! PROOFS. Which states an operation of the control side can start from, and that it keeps `StateInv`. -/

namespace Sys2Proof.Machine

/-! The `when` clauses. -/

theorem ctlIdle_iff {s : State} : ctlIdle s = true ↔ ctlLive s = true ∧ s.ctl.busy = none := by
  simp [ctlIdle]

theorem ctlAt_iff {p : CtlPhase} {s : State} :
    ctlAt p s = true ↔ ctlLive s = true ∧ s.ctl.busy = none ∧ s.ctl.ph = p := by
  simp [ctlAt, ctlIdle_iff, and_assoc]

theorem ctlLive_of_readDue {s : State} (h : readDue s = true) : ctlLive s = true := by
  unfold readDue at h
  split at h <;> simp_all

theorem ctlLive_of_eraseDue {s : State} (h : eraseDue s = true) : ctlLive s = true := by
  unfold eraseDue at h
  split at h <;> simp_all

theorem ctlLive_of_progDue {s : State} (h : progDue s = true) : ctlLive s = true := by
  unfold progDue at h
  split at h <;> simp_all

/-- A flush that is due is the operation in progress. -/
theorem flushDue_iff {s : State} :
    flushDue s = true ↔ (∃ issuer, s.ctl.busy = some (.flush issuer)) ∧ ctlLive s = true ∧ ctlDue s = true := by
  unfold flushDue
  split <;> simp_all

theorem ctlLive_of_encAdvanceReady {c : Byte} {s : State} (h : encAdvanceReady c s = true) : ctlLive s = true := by
  unfold encAdvanceReady at h
  split at h <;> simp_all

theorem ctlLive_of_encDropReady {s : State} (h : encDropReady s = true) : ctlLive s = true := by
  unfold encDropReady at h
  split at h <;> simp_all

theorem ctlLive_of_ctlPublishReady {s : State} (h : ctlPublishReady s = true) : ctlLive s = true := by
  simp only [ctlPublishReady, Bool.or_eq_true, Bool.and_eq_true, ctlAt_iff] at h
  tauto

/-- `CTL.RENDER` is enabled with no operation in progress, or at the end of its own wait. -/
theorem ctlLive_of_ctlRenderReady {s : State} (h : ctlRenderReady s = true) :
    ctlLive s = true ∧ (s.ctl.busy = none ∨ s.ctl.busy = some .render) := by
  simp only [ctlRenderReady, Bool.or_eq_true, Bool.and_eq_true, ctlAt_iff, beq_iff_eq] at h
  tauto

/-! The effects. -/

theorem LiveInv.flReadEffect {s : State} (h : LiveInv s) : StateInv (flReadEffect s) := by
  unfold Machine.flReadEffect
  split
  · exact h.clearBusy.toLive.readFlash _
  · exact h.beginRead .direct

theorem LiveInv.flEraseEffect {s : State} (h : LiveInv s) : StateInv (flEraseEffect s) := by
  unfold Machine.flEraseEffect
  split
  · exact h.clearBusy.toLive.beginErase _
  · exact h.clearBusy.toLive.eraseFlash _
  · exact h.beginErase .direct

theorem LiveInv.flProgEffect {s : State} (h : LiveInv s) : StateInv (flProgEffect s) := by
  unfold Machine.flProgEffect
  split
  · exact h.clearBusy.toLive.beginProg _
  · exact h.clearBusy.toLive.progFlash _
  · exact h.beginProg .direct

/-- `DISP.FLUSH` ends its wait, or begins with no operation in progress. -/
theorem DataInv.flushEffect {s : State} (h : DataInv s) (hr : (ctlIdle s || flushDue s) = true) :
    StateInv (flushEffect s) := by
  simp only [Bool.or_eq_true, ctlIdle_iff, flushDue_iff] at hr
  unfold Machine.flushEffect
  split
  · have hlive : ctlLive s = true := by tauto
    exact (LiveInv.clearBusy ⟨h, hlive⟩).afterFlush _
  · rename_i hb
    rcases hr with ⟨hlive, hidle⟩ | ⟨⟨issuer, hbusy⟩, -⟩
    · exact IdleInv.flush ⟨⟨h, hlive⟩, hidle⟩ .direct
    · exact absurd hbusy (hb issuer)

theorem LiveInv.publishEffect {s : State} (h : LiveInv s) : StateInv (publishEffect s) := by
  unfold Machine.publishEffect
  split
  · exact h.clearBusy.toLive.data.setPhase (by decide) (by decide)
  · exact h.withSelection fun _ => (h.sendSelection _).await
      ((h.sendSelection _).popDuration.data.setPhase (by decide) (by decide))

/-- `CTL.RENDER` draws legal glyphs alone (R230, U17). -/
theorem LiveInv.renderEffect {s : State} (h : LiveInv s) (hb : s.ctl.busy = none ∨ s.ctl.busy = some .render) :
    StateInv (renderEffect s) := by
  unfold Machine.renderEffect
  split
  · exact h.clearBusy.toLive.data.setPhase (by decide) (by decide)
  · have hidle : IdleInv s := ⟨h, by tauto⟩
    refine h.withSelection fun _ => ?_
    dsimp only
    split
    · exact h.data.raiseControl (by decide)
    · exact hidle.drawAll (drawsOf_legal _ _ _) fun _ ht => ht.flush .render

/-- A new index in range can be selected. -/
theorem DataInv.stepTo {s : State} (h : DataInv s) {i : Word32} (hi : i.toNat < toneCount s.par.val) :
    StateInv (stepTo i s) :=
  LiveInv.stateInv ⟨⟨h.output, { h.store with index := fun _ => hi }, h.latch⟩, rfl⟩

/-- The next index is in range (R233). -/
theorem indexUp_lt (p : ValidParams) (i : Word32) : (indexUp p.val i).toNat < toneCount p.val := by
  obtain ⟨hone, hcount, -, hwrap⟩ := paramsValid_counts p.valid
  unfold indexUp
  split
  · exact hone
  · have h1 : BitVec.toNat (1 : Word32) = 1 := rfl
    rw [BitVec.toNat_add, h1]
    omega

/-- The previous index is in range where the index is (R234). -/
theorem indexDown_lt (p : ValidParams) {i : Word32} (hi : i.toNat < toneCount p.val) :
    (indexDown p.val i).toNat < toneCount p.val := by
  obtain ⟨-, hcount, hpos, hwrap⟩ := paramsValid_counts p.valid
  unfold indexDown
  split
  · rw [BitVec.toNat_ofNat, Nat.mod_eq_of_lt (by omega)]
    omega
  · rename_i hne
    have hi0 : i.toNat ≠ 0 := fun h0 => hne (BitVec.eq_of_toNat_eq h0)
    have h1 : BitVec.toNat (1 : Word32) = 1 := rfl
    rw [BitVec.toNat_sub, h1]
    omega

theorem DataInv.trailFrom {s : State} (h : DataInv s) : StateInv (trailFrom s) :=
  LiveInv.stateInv ⟨h, rfl⟩

theorem IdleInv.persistEffect {s : State} (h : IdleInv s) : StateInv (persistEffect s) := by
  unfold Machine.persistEffect
  split
  · exact h.drawAll (ds := [(glyphMem, 4)]) (by decide) fun _ ht => ht.flush .persistAck
  · exact h.toLive.withIndex fun _ => (h.toLive.sendSelection _).data.setPhase (by decide) (by decide)
  · exact h.toLive.withSelection fun _ => h.toLive.beginWrite .persist _
  · exact h.toLive.data.trailFrom

/-- The decoder's registers matter to the invariant in `HALT` alone. -/
theorem LiveInv.withEnc {s : State} (h : LiveInv s) (e : Enc) : LiveInv { s with enc := e } := h

/-- The classifier's registers matter to the invariant in `HALT` alone. -/
theorem LiveInv.withBtn {s : State} (h : LiveInv s) (b : Btn) : LiveInv { s with btn := b } := h

/-- `CTL.event` is no part of the invariant. -/
theorem LiveInv.withEvent {s : State} (h : LiveInv s) (e : Event) :
    LiveInv { s with ctl := { s.ctl with event := e } } := h

/-- `SEL.enabled` is no part of the invariant. -/
theorem DataInv.withEnabledReg {s : State} (h : DataInv s) (r : Reg Bool) :
    DataInv { s with sel := { s.sel with enabled := r } } := h

theorem LiveInv.buttonWins {s : State} (h : LiveInv s) : StateInv (buttonWins s) := by
  unfold Machine.buttonWins
  split
  · exact (h.withEnc _).data.setPhase (by decide) (by decide)
  · exact h.stateInv

theorem LiveInv.encoderWins {s : State} (h : LiveInv s) (b : Bool) : StateInv (encoderWins b s) := by
  unfold Machine.encoderWins
  split
  · exact (h.withBtn _).data.setPhase (by cases b <;> decide) (by cases b <;> decide)
  · exact h.stateInv

/-- A button's verdict moves `CTL` into a phase in which it takes steps. -/
theorem DataInv.classify {s : State} (h : DataInv s) (e : Event) (st : BtnSt) {p : CtlPhase} (hp : p ≠ .halt)
    (hp' : p ≠ .reflash) : StateInv (classify e st p s) :=
  LiveInv.stateInv ⟨h, by simp [ctlLive, hp, hp']⟩

/-! The operations. -/

/-- No operation of the control side has a next state in `HALT` or `REFLASH` (R255, R227). -/
theorem ctlLive_of_exec_control {i : Instr} {s t : State} (hi : isControl i = true) (h : exec i s = .next t) :
    ctlLive s = true := by
  cases i with
  | mbxSend en idx => exact (exec_mbxSend_next.mp h).1
  | encStart =>
    have hr := (exec_encStart_next.mp h).1
    simp_all [encStartReady]
  | encRest =>
    have hr := (exec_encRest_next.mp h).1
    simp_all [encRestReady]
  | encArm =>
    have hr := (exec_encArm_next.mp h).1
    simp_all [encArmReady]
  | encFall b =>
    have hr := (exec_encFall_next.mp h).1
    simp_all [encFallReady]
  | encAdvance code => exact ctlLive_of_encAdvanceReady (exec_encAdvance_next.mp h).1
  | encDrop => exact ctlLive_of_encDropReady (exec_encDrop_next.mp h).1
  | encEmit b =>
    have hr := (exec_encEmit_next.mp h).1
    simp_all [encEmitReady]
  | encAbandon => exact (exec_encAbandon_next.mp h).1
  | btnStart =>
    have hr := (exec_btnStart_next.mp h).1
    simp_all [btnStartReady]
  | btnEdge =>
    have hr := (exec_btnEdge_next.mp h).1
    simp_all [btnEdgeReady]
  | btnConfirm =>
    have hr := (exec_btnConfirm_next.mp h).1
    simp_all [btnConfirmReady]
  | btnRelease =>
    have hr := (exec_btnRelease_next.mp h).1
    simp_all [btnReleaseReady]
  | btnTimeout =>
    have hr := (exec_btnTimeout_next.mp h).1
    simp_all [btnTimeoutReady]
  | btnTrail =>
    have hr := (exec_btnTrail_next.mp h).1
    simp_all [btnTrailReady, ctlAt_iff]
  | btnAbandon =>
    have hr := (exec_btnAbandon_next.mp h).1
    simp_all [btnAbandonReady]
  | cfgRead => exact (ctlIdle_iff.mp (exec_cfgRead_next.mp h).1).1
  | cfgWrite en idx =>
    have hr := (exec_cfgWrite_next.mp h).1
    simp_all [cfgWriteReady, ctlIdle_iff]
  | flRead =>
    rcases Bool.or_eq_true_iff.mp (exec_flRead_next.mp h).1 with hidle | hdue
    · exact (ctlIdle_iff.mp hidle).1
    · exact ctlLive_of_readDue hdue
  | flErase =>
    rcases Bool.or_eq_true_iff.mp (exec_flErase_next.mp h).1 with hidle | hdue
    · exact (ctlIdle_iff.mp hidle).1
    · exact ctlLive_of_eraseDue hdue
  | flProg =>
    rcases Bool.or_eq_true_iff.mp (exec_flProg_next.mp h).1 with hidle | hdue
    · exact (ctlIdle_iff.mp hidle).1
    · exact ctlLive_of_progDue hdue
  | ctlBoot => exact (ctlAt_iff.mp (exec_ctlBoot_next.mp h).1).1
  | ctlRecovery => exact (ctlAt_iff.mp (exec_ctlRecovery_next.mp h).1).1
  | ctlLoad => exact (ctlAt_iff.mp (exec_ctlLoad_next.mp h).1).1
  | ctlPublish => exact ctlLive_of_ctlPublishReady (exec_ctlPublish_next.mp h).1
  | ctlRender => exact (ctlLive_of_ctlRenderReady (exec_ctlRender_next.mp h).1).1
  | ctlWait =>
    have hr := (exec_ctlWait_next.mp h).1
    simp_all [ctlWaitReady, ctlAt_iff]
  | ctlUp => exact (ctlAt_iff.mp (exec_ctlUp_next.mp h).1).1
  | ctlDown => exact (ctlAt_iff.mp (exec_ctlDown_next.mp h).1).1
  | ctlToggle => exact (ctlAt_iff.mp (exec_ctlToggle_next.mp h).1).1
  | ctlPersist =>
    have hr := (exec_ctlPersist_next.mp h).1
    simp_all [ctlPersistReady, ctlIdle_iff]
  | dispDraw glyph slot =>
    have hr := (exec_dispDraw_next.mp h).1
    simp_all [dispDrawReady]
  | dispFlush =>
    rcases Bool.or_eq_true_iff.mp (exec_dispFlush_next.mp h).1 with hidle | hdue
    · exact (ctlIdle_iff.mp hidle).1
    · exact (flushDue_iff.mp hdue).2.1
  | _ => cases hi

/-- A control-side step keeps the invariant where its effect does. -/
theorem takeCtl_stateInv {ready : Bool} {f : State → State} {s t : State} (h : takeCtl ready f s = .next t)
    (hf : StateInv (f s)) : StateInv t := by
  obtain ⟨-, rfl⟩ := takeCtl_next.mp h
  exact hf.stale

/-- Every operation of the control side keeps the invariant, whoever issues it. -/
theorem exec_control_stateInv {i : Instr} {s t : State} (hi : isControl i = true) (hs : StateInv s)
    (h : exec i s = .next t) : StateInv t := by
  have hl : LiveInv s := ⟨hs.data, ctlLive_of_exec_control hi h⟩
  cases i with
  | mbxSend => exact takeCtl_stateInv h (hl.sendSelection _).stateInv
  | encStart | encRest | encArm | encFall | encAdvance | encDrop | encAbandon =>
    exact takeCtl_stateInv h (hl.withEnc _).stateInv
  | encEmit b => exact takeCtl_stateInv h (((hl.withEvent _).withEnc _).encoderWins b)
  | btnStart | btnAbandon => exact takeCtl_stateInv h (hl.withBtn _).stateInv
  | btnConfirm =>
    obtain ⟨-, rfl⟩ := exec_btnConfirm_next.mp h
    exact (hl.withBtn _).stateInv.stale
  | btnEdge => exact takeCtl_stateInv h (hl.withBtn _).buttonWins
  | btnRelease | btnTimeout | btnTrail =>
    exact takeCtl_stateInv h (hl.data.classify _ _ (by decide) (by decide))
  | cfgRead | ctlLoad => exact takeCtl_stateInv h (hl.beginRead _)
  | cfgWrite => exact takeCtl_stateInv h (hl.beginWrite _ _)
  | flRead => exact takeCtl_stateInv h hl.flReadEffect
  | flErase => exact takeCtl_stateInv h hl.flEraseEffect
  | flProg => exact takeCtl_stateInv h hl.flProgEffect
  | ctlBoot => exact takeCtl_stateInv h (hl.data.setPhase (by split <;> decide) (by split <;> decide))
  | ctlRecovery =>
    obtain ⟨-, hidle, -⟩ := ctlAt_iff.mp (exec_ctlRecovery_next.mp h).1
    exact takeCtl_stateInv h (IdleInv.drawAll ⟨hl, hidle⟩ (diagMsg_legal _) fun _ ht => ht.flush .recovery)
  | ctlPublish => exact takeCtl_stateInv h hl.publishEffect
  | ctlRender =>
    have hr := (exec_ctlRender_next.mp h).1
    exact takeCtl_stateInv h (hl.renderEffect (ctlLive_of_ctlRenderReady hr).2)
  | ctlWait => exact takeCtl_stateInv h ((hl.withEnc _).withBtn _).stateInv
  | ctlUp =>
    refine takeCtl_stateInv h (hl.withIndex fun _ => ?_)
    exact hl.data.stepTo (indexUp_lt _ _)
  | ctlDown =>
    refine takeCtl_stateInv h (hl.withIndex fun hi => ?_)
    exact hl.data.stepTo (indexDown_lt _ (hl.data.store.index hi))
  | ctlToggle =>
    refine takeCtl_stateInv h (withEnabled_cases (fun _ => ?_) (hl.data.raiseControl (by decide)))
    exact (hl.data.withEnabledReg _).trailFrom
  | ctlPersist =>
    have hr := (exec_ctlPersist_next.mp h).1
    simp only [ctlPersistReady, Bool.and_eq_true, ctlIdle_iff] at hr
    obtain ⟨⟨-, hidle⟩, -⟩ := hr
    exact takeCtl_stateInv h (IdleInv.persistEffect ⟨hl, hidle⟩)
  | dispDraw glyph slot =>
    have hr := (exec_dispDraw_next.mp h).1
    simp only [dispDrawReady, Bool.and_assoc, Bool.and_eq_true] at hr
    exact takeCtl_stateInv h (hl.drawGlyph (by simpa [drawLegal] using hr.2))
  | dispFlush => exact takeCtl_stateInv h (hl.data.flushEffect (exec_dispFlush_next.mp h).1)
  | _ => cases hi

end Sys2Proof.Machine
end

section
/-! PROOFS. The other operations keep `StateInv`: those of the audio side, of the environment and the generator, and the
bare fault. With the control side, every operation does. -/

namespace Sys2Proof.Machine

/-! The output path. -/

section
variable {p : Params} {rom : Rom} {cnt : Nat} {div : Reg Word32} {fifo : List Word32} {dma : Dma} {tableSel : Reg Bool}

/-- A push can be armed for a table that exists (R137). -/
theorem OutputInv.arm (h : OutputInv p rom cnt div fifo dma tableSel) {b : Bool} (hb : b = true → p.dualTable = true) :
    OutputInv p rom cnt div fifo ⟨0, b, true, false⟩ tableSel :=
  { h with
    idx := Nat.zero_le _
    busy := fun _ => ⟨tableWords_pos p, rfl, hb⟩
    done := nofun }

/-- A push can be dropped at any word (R140). -/
theorem OutputInv.abort (h : OutputInv p rom cnt div fifo dma tableSel) :
    OutputInv p rom cnt div fifo { dma with busy := false, done := false } tableSel :=
  { h with
    busy := nofun
    done := nofun }

/-- A push in progress can move a word where the FIFO has room; after the last one it is done (R138, R139). -/
theorem OutputInv.transfer (h : OutputInv p rom cnt div fifo dma tableSel) (hbusy : dma.busy = true)
    (hroom : fifo.length < p.fifoDepth) (w : Word32) :
    OutputInv p { rom with read := true } cnt div (fifo ++ [w]) (dmaAfterWord p dma) tableSel := by
  obtain ⟨hidx, hdone, htbl⟩ := h.busy hbusy
  have hdepth : (fifo ++ [w]).length ≤ p.fifoDepth := by
    simp only [List.length_append, List.length_singleton]
    omega
  unfold dmaAfterWord
  split
  · rename_i hlast
    exact { h with depth := hdepth, idx := hlast.le, busy := nofun, done := fun _ => hlast }
  · refine { h with depth := hdepth, idx := hidx, busy := fun _ => ⟨?_, hdone, htbl⟩, done := fun hd => ?_ }
    · dsimp only
      omega
    · exact absurd hdone (by simp_all)

end

/-- The word a push in progress moves is one of the table (R61). -/
theorem romRead_of_busy {s : State} (h : StateInv s) (hbusy : s.dma.busy = true) :
    ∃ w, romRead s.par.val s.rom s.dma.tbl s.dma.idx = some w := by
  obtain ⟨hidx, -, htbl⟩ := h.dmaBusy hbusy
  have hrom := h.rom
  simp only [romValid, Bool.and_eq_true, Bool.or_eq_true, Bool.not_eq_true', beq_iff_eq] at hrom
  obtain ⟨ht1, ht8⟩ := hrom
  unfold romRead
  rw [if_pos ⟨hidx, htbl⟩]
  cases hb : s.dma.tbl with
  | false => exact ⟨_, List.getElem?_eq_getElem (by simpa [ht1] using hidx)⟩
  | true =>
    have hlen : s.rom.t8.length = tableWords s.par.val := ht8.resolve_left (by simp [htbl hb])
    exact ⟨_, List.getElem?_eq_getElem (by simpa [hlen] using hidx)⟩

/-- A push is armed only for a table that exists (R137, U21). -/
theorem dualTable_of_dmaArmReady {b : Bool} {s : State} (h : dmaArmReady b s = true) (hb : b = true) :
    s.par.val.dualTable = true := by
  simpa [dmaArmReady, hb] using (Bool.and_eq_true_iff.mp h).2

/-- An update of the output path keeps the invariant where it keeps the part about that path. -/
theorem StateInv.withAudio {s : State} (h : StateInv s) {m : Mbx} {a : Aud} {sm : Sm} {f : List Word32} {d : Dma}
    {r : Rom} {l : Logs} (ho : OutputInv s.par.val r sm.osrCnt sm.clkdiv f d a.tableSel)
    (ha : a.halted = s.aud.halted := by rfl) (hl : l.dispOut = s.logs.dispOut := by rfl) :
    StateInv { s with mbx := m, aud := a, sm := sm, fifo := f, dma := d, rom := r, logs := l } := by
  refine stateInv_iff.mpr ⟨⟨ho, ?_, ?_⟩, h.phase⟩
  · dsimp only
    rw [hl]
    exact h.data.store
  · dsimp only
    rw [ha]
    exact h.data.latch

/-- Every operation of the audio side keeps the invariant, whoever issues it. -/
theorem exec_audio_stateInv {i : Instr} {s t : State} (hi : isAudio i = true) (hs : StateInv s)
    (h : exec i s = .next t) : StateInv t := by
  have ho := hs.data.output
  cases i with
  | divCalc val =>
    obtain ⟨-, ⟨-, rfl⟩ | ⟨-, rfl⟩ | ⟨b, d, -, rfl⟩⟩ := exec_divCalc_next.mp h
    · exact hs.raiseAudio (by decide)
    · exact hs.raiseAudio (by decide)
    · exact hs.withAudio ho
  | smSetdiv val =>
    obtain ⟨hr, rfl⟩ := exec_smSetdiv_next.mp h
    simp only [setDivReady, Bool.and_eq_true, decide_eq_true_eq] at hr
    exact hs.withAudio { ho with clkdiv := fun _ => hr.2 }
  | smEnable b =>
    obtain ⟨-, rfl⟩ := exec_smEnable_next.mp h
    exact hs.withAudio ho
  | smPull =>
    obtain ⟨-, rfl⟩ := exec_smPull_next.mp h
    refine hs.withAudio { ho with osrCnt := Nat.le_refl 32, depth := ?_ }
    rw [List.length_tail]
    exact Nat.le_trans (Nat.sub_le _ _) ho.depth
  | smShift =>
    obtain ⟨-, rfl⟩ := exec_smShift_next.mp h
    exact hs.withAudio { ho with osrCnt := Nat.le_trans (Nat.sub_le _ _) ho.osrCnt }
  | dmaArm b =>
    obtain ⟨hr, rfl⟩ := exec_dmaArm_next.mp h
    exact hs.withAudio (ho.arm (dualTable_of_dmaArmReady hr))
  | dmaXfer =>
    obtain ⟨hr, w, -, rfl⟩ := exec_dmaXfer_next.mp h
    simp only [dmaXferReady, Bool.and_eq_true, decide_eq_true_eq] at hr
    obtain ⟨⟨-, hbusy⟩, hroom⟩ := hr
    exact hs.withAudio (ho.transfer hbusy hroom w)
  | dmaAbort =>
    obtain ⟨-, rfl⟩ := exec_dmaAbort_next.mp h
    exact hs.withAudio ho.abort
  | mbxRecv =>
    obtain ⟨-, rfl⟩ := exec_mbxRecv_next.mp h
    exact hs.withAudio ho
  | audStart =>
    obtain ⟨-, rfl⟩ := exec_audStart_next.mp h
    exact hs.withAudio ho
  | audConfig =>
    obtain ⟨-, ⟨-, rfl⟩ | ⟨-, ⟨-, rfl⟩ | ⟨-, rfl⟩ | ⟨b, d, hpair, rfl⟩⟩⟩ := exec_audConfig_next.mp h
    · exact hs.raiseAudio (by decide)
    · exact hs.raiseAudio (by decide)
    · refine StateInv.raiseAudio (s := enableOutput false s) ?_ (by decide)
      exact hs.withAudio ho
    · obtain ⟨-, hdiv, hdual⟩ := calcDivider_pair hpair
      exact hs.withAudio { ho with clkdiv := fun _ => hdiv, tableSel := fun _ => hdual }
  | audPush =>
    obtain ⟨-, rfl⟩ := exec_audPush_next.mp h
    unfold pushTable
    split
    · rename_i hw
      exact hs.withAudio (ho.arm (ho.tableSel hw))
    · exact hs.raiseAudio (by decide)
  | audRearm =>
    obtain ⟨-, rfl⟩ := exec_audRearm_next.mp h
    refine hs.withAudio { ho with busy := fun hb => ?_, done := nofun }
    obtain ⟨hidx, -, htbl⟩ := ho.busy hb
    exact ⟨hidx, rfl, htbl⟩
  | audPreempt =>
    obtain ⟨-, rfl⟩ := exec_audPreempt_next.mp h
    exact hs.withAudio ho.abort
  | _ => cases hi

/-! The environment, the generator and the bare fault. -/

/-- The machine after power-on satisfies the invariant, with whole tables and a canonical `FLASH` (R47, R290). -/
theorem powerOn_stateInv {p : ValidParams} {r : Rom} {m : Memory} (hr : romValid p.val r = true)
    (hm : Memory.wf m = true) (l : Lines) (w : List OpWord) (e : Draws) : StateInv (State.powerOn p r m l w e) :=
  stateInv_iff.mpr
    ⟨⟨⟨hr, Nat.zero_le _, Nat.zero_le _, Nat.zero_le _, nofun, nofun, nofun, nofun⟩, ⟨nofun, rfl, hm, rfl, rfl⟩,
      nofun, nofun⟩, nofun, nofun⟩

/-- A reset keeps the constants, and of `FLASH` the canonical form (R217, R290). -/
theorem StateInv.resetState {s : State} (h : StateInv s) : StateInv (resetState s) := by
  unfold Machine.resetState interruptedFlash
  split
  · exact powerOn_stateInv h.rom (memStore_wf _ _ h.flash) _ _ _
  · exact powerOn_stateInv h.rom h.flash _ _ _

/-- Time is no part of the invariant. -/
theorem StateInv.tick {s : State} (h : StateInv s) : StateInv (tick s) := stateInv_iff.mpr ⟨h.data, h.phase⟩

/-- Ticks keep whatever one tick keeps. -/
theorem advance_induct {P : State → Prop} (step : ∀ u, P u → P (tick u)) {n : Nat} {s t : State} (hs : P s)
    (h : advance n s = some t) : P t := by
  induction n generalizing s with
  | zero => cases h; exact hs
  | succ n ih =>
    rw [advance] at h
    split at h
    · exact ih (step s hs) h
    · cases h

/-- Every operation of the environment and the generator keeps the invariant. -/
theorem exec_outside_stateInv {i : Instr} {s t : State} (hi : isOutside i = true) (hs : StateInv s)
    (h : exec i s = .next t) : StateInv t := by
  have ho := hs.data.output
  have hrom := hs.rom
  simp only [romValid, Bool.and_eq_true, beq_iff_eq] at hrom
  cases i with
  | envReset =>
    obtain rfl := exec_envReset_next.mp h
    exact hs.resetState
  | envLine line level =>
    obtain ⟨-, rfl⟩ := exec_envLine_next.mp h
    exact stateInv_iff.mpr ⟨hs.data, hs.phase⟩
  | envAdv ticks => exact advance_induct (fun _ hu => hu.tick) hs (exec_envAdv_next.mp h).2
  | genPdmgen =>
    obtain ⟨-, rfl⟩ := exec_genPdmgen_next.mp h
    exact hs.withAudio { ho with tables := by simp [romValid, tableOf, hrom.2] }
  | genPdmgen8 =>
    obtain ⟨-, rfl⟩ := exec_genPdmgen8_next.mp h
    exact hs.withAudio { ho with tables := by simp [romValid, tableOf, hrom.1] }
  | _ => cases hi

/-- An operation is of the control side, of the audio side or of the outside, or it is the bare fault. -/
theorem instr_side (i : Instr) :
    isControl i = true ∨ isAudio i = true ∨ isOutside i = true ∨ ∃ code, i = .fault code := by
  cases i <;> simp [isControl, isAudio, isOutside]

/-- Every operation keeps the invariant, whoever issues it. -/
theorem exec_stateInv {i : Instr} {s t : State} (hs : StateInv s) (h : exec i s = .next t) : StateInv t := by
  rcases instr_side i with hi | hi | hi | ⟨code, rfl⟩
  · exact exec_control_stateInv hi hs h
  · exact exec_audio_stateInv hi hs h
  · exact exec_outside_stateInv hi hs h
  · obtain ⟨hcode, rfl⟩ := exec_fault_next.mp h
    exact faultEffect_cases code s (fun _ => (hs.withEnv _).data.raiseControl hcode)
      (fun _ => (hs.withEnv _).raiseAudio hcode)

end Sys2Proof.Machine
end

section
/-! PROOFS. No operation touches the schedule: it is the step that takes a word from it (assumption log 1). -/

namespace Sys2Proof.Machine

/-! The shared operations. -/

theorem await_script {b : Busy} {rest : State → State} {s : State}
    (go : (rest (popDuration s)).script = s.script) : (await b rest s).script = s.script :=
  await_cases (P := fun t => t.script = s.script) go rfl

theorem withSelection_script {k : Selection → State → State} {s : State}
    (go : ∀ v, (k v s).script = s.script) : (withSelection k s).script = s.script :=
  withSelection_cases (P := fun t => t.script = s.script) (fun _ _ => go _) rfl

theorem withIndex_script {k : Word32 → State → State} {s : State}
    (go : ∀ i, (k i s).script = s.script) : (withIndex k s).script = s.script :=
  withIndex_cases (P := fun t => t.script = s.script) (fun _ => go _) rfl

theorem withEnabled_script {k : Bool → State → State} {s : State}
    (go : ∀ e, (k e s).script = s.script) : (withEnabled k s).script = s.script :=
  withEnabled_cases (P := fun t => t.script = s.script) (fun _ => go _) rfl

theorem drawAll_script (ds : List (Glyph × Slot)) {rest : State → State} {s : State}
    (go : ∀ t, (rest t).script = t.script) : (drawAll ds rest s).script = s.script :=
  drawAll_induct (P := fun t => t.script = s.script) (Q := fun t => t.script = s.script) ds rfl
    (fun _ _ _ ht => ht) (fun _ ht => ht) (fun t ht => (go t).trans ht)

@[simp] theorem afterFlush_script (issuer : FlushBy) (s : State) : (afterFlush issuer s).script = s.script := by
  cases issuer with
  | direct | recovery | persistAck => rfl
  | render => exact await_script rfl

@[simp] theorem flush_script (issuer : FlushBy) (s : State) : (flush issuer s).script = s.script :=
  flush_cases (P := fun t => t.script = s.script) (fun _ => await_script (afterFlush_script _ _)) (fun _ => rfl)

@[simp] theorem afterWrite_script (issuer : WriteBy) (s : State) : (afterWrite issuer s).script = s.script := by
  cases issuer <;> rfl

@[simp] theorem afterRead_script (issuer : ReadBy) (s : State) : (afterRead issuer s).script = s.script := by
  cases issuer with
  | direct | cfgRead | load => rfl
  | write by' =>
    simp only [afterRead]
    split
    · exact afterWrite_script _ _
    · rfl

@[simp] theorem readFlash_script (issuer : ReadBy) (s : State) : (readFlash issuer s).script = s.script :=
  readFlash_cases (P := fun t => t.script = s.script) (fun _ => afterRead_script _ _) (fun _ => rfl)

@[simp] theorem beginRead_script (issuer : ReadBy) (s : State) : (beginRead issuer s).script = s.script :=
  await_script (readFlash_script _ _)

@[simp] theorem beginWrite_script (issuer : WriteBy) (v : Selection) (s : State) :
    (beginWrite issuer v s).script = s.script := beginRead_script _ _

@[simp] theorem afterErase_script (issuer : FlashBy) (s : State) : (afterErase issuer s).script = s.script := by
  cases issuer <;> rfl

@[simp] theorem eraseFlash_script (issuer : FlashBy) (s : State) : (eraseFlash issuer s).script = s.script :=
  eraseFlash_cases (P := fun t => t.script = s.script) (fun _ => afterErase_script _ _) (fun _ => rfl)

@[simp] theorem beginErase_script (issuer : FlashBy) (s : State) : (beginErase issuer s).script = s.script :=
  await_script (eraseFlash_script _ _)

@[simp] theorem afterProg_script (issuer : FlashBy) (s : State) : (afterProg issuer s).script = s.script := by
  cases issuer with
  | direct => rfl
  | write by' => exact afterWrite_script _ _

@[simp] theorem progFlash_script (issuer : FlashBy) (s : State) : (progFlash issuer s).script = s.script :=
  progFlash_cases (P := fun t => t.script = s.script) (fun _ => afterProg_script _ _) (fun _ => rfl)

@[simp] theorem beginProg_script (issuer : FlashBy) (s : State) : (beginProg issuer s).script = s.script :=
  await_script (progFlash_script _ _)

/-! The effects. -/

@[simp] theorem flReadEffect_script (s : State) : (flReadEffect s).script = s.script := by
  unfold flReadEffect
  split <;> simp

@[simp] theorem flEraseEffect_script (s : State) : (flEraseEffect s).script = s.script := by
  unfold flEraseEffect
  split <;> simp

@[simp] theorem flProgEffect_script (s : State) : (flProgEffect s).script = s.script := by
  unfold flProgEffect
  split <;> simp

@[simp] theorem flushEffect_script (s : State) : (flushEffect s).script = s.script := by
  unfold flushEffect
  split <;> simp

@[simp] theorem publishEffect_script (s : State) : (publishEffect s).script = s.script := by
  unfold publishEffect
  split
  · rfl
  · exact withSelection_script fun _ => await_script rfl

@[simp] theorem renderEffect_script (s : State) : (renderEffect s).script = s.script := by
  unfold renderEffect
  split
  · rfl
  · refine withSelection_script fun _ => ?_
    split
    · rfl
    · exact drawAll_script _ (flush_script _)

@[simp] theorem persistEffect_script (s : State) : (persistEffect s).script = s.script := by
  unfold persistEffect
  split
  · exact drawAll_script [(glyphMem, 4)] (flush_script _)
  · exact withIndex_script fun _ => rfl
  · exact withSelection_script fun _ => beginWrite_script _ _ _
  · rfl

@[simp] theorem buttonWins_script (s : State) : (buttonWins s).script = s.script := by
  unfold buttonWins
  split <;> rfl

@[simp] theorem encoderWins_script (b : Bool) (s : State) : (encoderWins b s).script = s.script := by
  unfold encoderWins
  split <;> rfl

@[simp] theorem pushTable_script (s : State) : (pushTable s).script = s.script := by
  unfold pushTable
  split <;> rfl

@[simp] theorem resetState_script (s : State) : (resetState s).script = s.script := by
  unfold resetState interruptedFlash
  split <;> rfl

/-! The operations. -/

theorem take_script {ready : Bool} {f : State → State} {s t : State} (h : take ready f s = .next t)
    (hf : (f s).script = s.script) : t.script = s.script := by
  obtain ⟨-, rfl⟩ := take_next.mp h
  exact hf

theorem takeCtl_script {ready : Bool} {f : State → State} {s t : State} (h : takeCtl ready f s = .next t)
    (hf : (f s).script = s.script) : t.script = s.script := take_script h hf

/-- No operation touches the schedule. -/
theorem exec_script {i : Instr} {s t : State} (h : exec i s = .next t) : t.script = s.script := by
  cases i with
  | envReset =>
    obtain rfl := exec_envReset_next.mp h
    exact resetState_script s
  | envAdv => exact advance_induct (P := fun u => u.script = s.script) (fun _ hu => hu) rfl (exec_envAdv_next.mp h).2
  | smSetdiv | smEnable | smPull | smShift | dmaArm | dmaAbort | mbxRecv | audStart => exact take_script h rfl
  | envLine =>
    obtain ⟨-, rfl⟩ := exec_envLine_next.mp h
    rfl
  | genPdmgen =>
    obtain ⟨-, rfl⟩ := exec_genPdmgen_next.mp h
    rfl
  | genPdmgen8 =>
    obtain ⟨-, rfl⟩ := exec_genPdmgen8_next.mp h
    rfl
  | audRearm =>
    obtain ⟨-, rfl⟩ := exec_audRearm_next.mp h
    rfl
  | audPreempt =>
    obtain ⟨-, rfl⟩ := exec_audPreempt_next.mp h
    rfl
  | audPush => exact take_script h (pushTable_script s)
  | divCalc => obtain ⟨-, ⟨-, rfl⟩ | ⟨-, rfl⟩ | ⟨b, d, -, rfl⟩⟩ := exec_divCalc_next.mp h <;> rfl
  | dmaXfer =>
    obtain ⟨-, w, -, rfl⟩ := exec_dmaXfer_next.mp h
    rfl
  | audConfig =>
    obtain ⟨-, ⟨-, rfl⟩ | ⟨-, ⟨-, rfl⟩ | ⟨-, rfl⟩ | ⟨b, d, -, rfl⟩⟩⟩ := exec_audConfig_next.mp h <;> rfl
  | mbxSend | encStart | encRest | encArm | encAdvance | encDrop | encAbandon | btnStart | btnRelease | btnTimeout
  | btnTrail | btnAbandon | ctlBoot => exact takeCtl_script h rfl
  | encFall =>
    obtain ⟨-, rfl⟩ := exec_encFall_next.mp h
    rfl
  | btnConfirm =>
    obtain ⟨-, rfl⟩ := exec_btnConfirm_next.mp h
    rfl
  | ctlWait =>
    obtain ⟨-, rfl⟩ := exec_ctlWait_next.mp h
    rfl
  | encEmit =>
    obtain ⟨-, rfl⟩ := exec_encEmit_next.mp h
    exact encoderWins_script _ _
  | btnEdge =>
    obtain ⟨-, rfl⟩ := exec_btnEdge_next.mp h
    exact buttonWins_script _
  | cfgRead | ctlLoad => exact takeCtl_script h (beginRead_script _ _)
  | cfgWrite => exact takeCtl_script h (beginWrite_script _ _ _)
  | flRead => exact takeCtl_script h (flReadEffect_script s)
  | flErase => exact takeCtl_script h (flEraseEffect_script s)
  | flProg => exact takeCtl_script h (flProgEffect_script s)
  | ctlRecovery => exact takeCtl_script h (drawAll_script _ (flush_script _))
  | ctlPublish => exact takeCtl_script h (publishEffect_script s)
  | ctlRender => exact takeCtl_script h (renderEffect_script s)
  | ctlUp | ctlDown => exact takeCtl_script h (withIndex_script fun _ => rfl)
  | ctlToggle => exact takeCtl_script h (withEnabled_script fun _ => rfl)
  | ctlPersist => exact takeCtl_script h (persistEffect_script s)
  | dispDraw glyph slot => exact takeCtl_script h (drawAll_script [(glyph, slot)] fun _ => rfl)
  | dispFlush => exact takeCtl_script h (flushEffect_script s)
  | fault code =>
    obtain ⟨-, rfl⟩ := exec_fault_next.mp h
    exact faultEffect_cases (P := fun u => u.script = s.script) code s (fun _ => rfl) (fun _ => rfl)

end Sys2Proof.Machine
end

section
/-! PROOFS. Every move of a state that satisfies `StateInv` has a next state, so the block goes on for ever (R13). -/

namespace Sys2Proof.Machine

/-- A control-side move is one whose `when` clause holds. -/
theorem exec_next_of_mem_ctlMoves {s : State} : ∀ i ∈ ctlMoves s, ∃ t, exec i s = .next t := by
  unfold ctlMoves
  rw [forall_mem_chosen]
  simp only [List.forall_mem_cons]
  exact
    ⟨fun h => ⟨_, exec_ctlBoot_next.mpr ⟨h, rfl⟩⟩,
      fun h => ⟨_, exec_ctlRecovery_next.mpr ⟨h, rfl⟩⟩,
      fun h => ⟨_, exec_ctlLoad_next.mpr ⟨h, rfl⟩⟩,
      fun h => ⟨_, exec_ctlPublish_next.mpr ⟨h, rfl⟩⟩,
      fun h => ⟨_, exec_ctlRender_next.mpr ⟨h, rfl⟩⟩,
      fun h => ⟨_, exec_ctlWait_next.mpr ⟨h, rfl⟩⟩,
      fun h => ⟨_, exec_ctlUp_next.mpr ⟨h, rfl⟩⟩,
      fun h => ⟨_, exec_ctlDown_next.mpr ⟨h, rfl⟩⟩,
      fun h => ⟨_, exec_ctlToggle_next.mpr ⟨h, rfl⟩⟩,
      fun h => ⟨_, exec_ctlPersist_next.mpr ⟨h, rfl⟩⟩,
      fun h => ⟨_, exec_btnTrail_next.mpr ⟨h, rfl⟩⟩,
      fun h => ⟨_, exec_flRead_next.mpr ⟨Bool.or_eq_true_iff.mpr (.inr h), rfl⟩⟩,
      fun h => ⟨_, exec_flErase_next.mpr ⟨Bool.or_eq_true_iff.mpr (.inr h), rfl⟩⟩,
      fun h => ⟨_, exec_flProg_next.mpr ⟨Bool.or_eq_true_iff.mpr (.inr h), rfl⟩⟩,
      fun h => ⟨_, exec_dispFlush_next.mpr ⟨Bool.or_eq_true_iff.mpr (.inr h), rfl⟩⟩,
      fun h => ⟨_, exec_encRest_next.mpr ⟨h, rfl⟩⟩,
      fun h => ⟨_, exec_encArm_next.mpr ⟨h, rfl⟩⟩,
      fun h => ⟨_, exec_encFall_next.mpr ⟨h, rfl⟩⟩,
      fun h => ⟨_, exec_encFall_next.mpr ⟨h, rfl⟩⟩,
      fun h => ⟨_, exec_encAdvance_next.mpr ⟨h, rfl⟩⟩,
      fun h => ⟨_, exec_encAdvance_next.mpr ⟨h, rfl⟩⟩,
      fun h => ⟨_, exec_encAdvance_next.mpr ⟨h, rfl⟩⟩,
      fun h => ⟨_, exec_encDrop_next.mpr ⟨h, rfl⟩⟩,
      fun h => ⟨_, exec_encEmit_next.mpr ⟨h, rfl⟩⟩,
      fun h => ⟨_, exec_encEmit_next.mpr ⟨h, rfl⟩⟩,
      fun h => ⟨_, exec_btnEdge_next.mpr ⟨h, rfl⟩⟩,
      fun h => ⟨_, exec_btnConfirm_next.mpr ⟨h, rfl⟩⟩,
      fun h => ⟨_, exec_btnRelease_next.mpr ⟨h, rfl⟩⟩,
      fun h => ⟨_, exec_btnTimeout_next.mpr ⟨h, rfl⟩⟩,
      nofun⟩

/-- A transfer that is enabled finds its word in `ROM` (R61, R138). -/
theorem exec_dmaXfer_of_ready {s : State} (hs : StateInv s) (h : dmaXferReady s = true) :
    ∃ t, exec .dmaXfer s = .next t := by
  have hbusy : s.dma.busy = true := by
    simp only [dmaXferReady, Bool.and_eq_true] at h
    tauto
  obtain ⟨w, hw⟩ := romRead_of_busy hs hbusy
  exact ⟨_, exec_dmaXfer_next.mpr ⟨h, w, hw, rfl⟩⟩

/-- A configuration that is enabled ends in a pair or a fault: every valid tone has a divider (R9, R142). -/
theorem exec_audConfig_of_ready {s : State} (h : audConfigReady s = true) : ∃ t, exec .audConfig s = .next t := by
  cases hw : s.aud.sel.written with
  | false => exact ⟨_, exec_audConfig_next.mpr ⟨h, .inl ⟨hw, rfl⟩⟩⟩
  | true =>
    cases hd : calcDivider s.par.val s.aud.sel.val.index with
    | indexRange => exact ⟨_, exec_audConfig_next.mpr ⟨h, .inr ⟨hw, .inl ⟨hd, rfl⟩⟩⟩⟩
    | precondition => exact absurd hd (calcDivider_ne_precondition _ _)
    | invalid => exact absurd hd (calcDivider_ne_invalid _ _)
    | pair b d => exact ⟨_, exec_audConfig_next.mpr ⟨h, .inr ⟨hw, .inr (.inr ⟨b, d, hd, rfl⟩)⟩⟩⟩

/-- Every audio-side move has a next state. -/
theorem exec_next_of_mem_audMoves {s : State} (hs : StateInv s) : ∀ i ∈ audMoves s, ∃ t, exec i s = .next t := by
  unfold audMoves
  rw [forall_mem_chosen]
  simp only [List.forall_mem_cons]
  exact
    ⟨fun h => ⟨_, exec_smPull_next.mpr ⟨h, rfl⟩⟩,
      fun h => ⟨_, exec_smShift_next.mpr ⟨h, rfl⟩⟩,
      exec_dmaXfer_of_ready hs,
      fun h => ⟨_, exec_audStart_next.mpr ⟨h, rfl⟩⟩,
      exec_audConfig_of_ready,
      fun h => ⟨_, exec_audPush_next.mpr ⟨h, rfl⟩⟩,
      fun h => ⟨_, exec_audRearm_next.mpr ⟨h, rfl⟩⟩,
      fun h => ⟨_, exec_audPreempt_next.mpr ⟨h, rfl⟩⟩,
      nofun⟩

/-- One tick passes where it can (R279). -/
theorem exec_envAdv_one {s : State} (h : tickReady s = true) : exec (.envAdv 1) s = .next (tick s) :=
  exec_envAdv_next.mpr ⟨by decide, by simp [advance, h]⟩

/-- Every move of a state that satisfies the invariant has a next state. -/
theorem exec_next_of_mem_moves {s : State} (hs : StateInv s) {i : Instr} (hi : i ∈ moves s) :
    ∃ t, exec i s = .next t := by
  unfold moves at hi
  rcases List.mem_append.mp hi with hi | hi
  · rcases List.mem_append.mp hi with hi | hi
    · exact exec_next_of_mem_ctlMoves i hi
    · exact exec_next_of_mem_audMoves hs i hi
  · split at hi
    · rename_i htick
      obtain rfl := List.mem_singleton.mp hi
      exact ⟨_, exec_envAdv_one htick⟩
    · cases hi

/-- With nothing scheduled, a state that satisfies the invariant has a next state, which satisfies it, and still nothing
is scheduled. -/
theorem step_unscheduled_next {s : State} (hs : StateInv s) (hscript : s.script = []) :
    ∃ t, step s = .next t ∧ StateInv t ∧ t.script = [] := by
  obtain ⟨i, hi, n, hstep⟩ := unscheduledStepTakesAnEnabledMove s hscript
  have hs' : StateInv { s with env := { s.env with count := n } } := hs.withEnv _
  obtain ⟨t, ht⟩ := exec_next_of_mem_moves hs' hi
  exact ⟨t, hstep.trans ht, exec_stateInv hs' ht, (exec_script ht).trans hscript⟩

/-- A run goes on from the state its first step leads to. -/
theorem run_succ_of_next (M : Host.Core) {s t : M.State} (h : M.step s = .next t) (n : Nat) :
    M.run (n + 1) s = M.run n t := by
  simp [Host.Core.run, h]

/-- Settles O8, by induction on the number of steps: each step has a next state, which satisfies the invariant. -/
theorem blockIsNeverStuck : Obligations.BlockIsNeverStuck := by
  intro n
  induction n with
  | zero => exact fun s hs _ => ⟨s, rfl, hs⟩
  | succ n ih =>
    intro s hs hscript
    obtain ⟨u, hu, hinv, hscript'⟩ := step_unscheduled_next hs hscript
    obtain ⟨t, ht, htinv⟩ := ih u hinv hscript'
    exact ⟨t, (run_succ_of_next Sys2Proof.core hu n).trans ht, htinv⟩

end Sys2Proof.Machine
end

section
/-! PROOFS. What a step can be, and so that every step keeps `StateInv`; and the registers after reset. -/

namespace Sys2Proof.Machine

/-- What a step with a next state can be: the first scheduled word's operation, or with none scheduled a move. -/
theorem step_next_cases {s t : State} (h : step s = .next t) :
    (∃ w ∈ s.script, ∃ i rest, decode w = .ok i ∧ exec i { s with script := rest } = .next t) ∨
      ∃ i ∈ moves s, ∃ n, exec i { s with env := { s.env with count := n } } = .next t := by
  by_cases hs : s.script = []
  · obtain ⟨i, hi, n, hstep⟩ := unscheduledStepTakesAnEnabledMove s hs
    exact .inr ⟨i, hi, n, hstep.symm.trans h⟩
  · obtain ⟨w, rest, hs⟩ := List.exists_cons_of_ne_nil hs
    simp only [step, hs] at h
    split at h
    · rename_i i hi
      exact .inl ⟨w, by simp [hs], i, rest, hi, h⟩
    · cases h

/-- No schedule is part of the invariant. -/
theorem StateInv.withScript {s : State} (h : StateInv s) (l : List OpWord) : StateInv { s with script := l } :=
  stateInv_iff.mpr ⟨h.data, h.phase⟩

/-- Settles O9: a step is one operation, and every operation keeps the invariant. -/
theorem everyStepKeepsStateInv : Obligations.EveryStepKeepsStateInv := by
  intro s t hs hstep
  rcases step_next_cases hstep with ⟨w, -, i, rest, -, h⟩ | ⟨i, -, n, h⟩
  · exact exec_stateInv (hs.withScript rest) h
  · exact exec_stateInv (hs.withEnv _) h

/-- Settles O12: each register is read off `State.powerOn` (R47). -/
theorem resetRegisters : Obligations.ResetRegisters := by
  have hmode : mode State.reset = .booting := rfl
  exact ⟨rfl, rfl, rfl, rfl, rfl, rfl, rfl, rfl, rfl, rfl, rfl, rfl, rfl, rfl, rfl, rfl, rfl, rfl, rfl, rfl, rfl, rfl,
    rfl, rfl, hmode⟩

end Sys2Proof.Machine
end

section
/-! PROOFS. `Coherent` is `StateInv` and two parts more, one for each side; what the shared operations of the control
side keep of them. -/

namespace Sys2Proof.Machine

/-! The two parts. -/

/-- The part of `Coherent` about the control side; `blank` says whether the record's bytes are blank. -/
structure ControlOrder (now : Nat) (ctl : Ctl) (sel : Sel) (enc : Enc) (btn : Btn) (latch : Latch)
    (reflash blank : Bool) : Prop where
  selWritten : looping ctl.ph = true → sel.index.written = true ∧ sel.enabled.written = true
  encoder : enc.st ≠ .off → ctl.ph = .wait
  button : ctl.ph = .halt ∨ buttonPhase btn.st ctl.ph = true
  race : ctl.ph = .wait → (enc.st = .off ↔ btn.st = .off)
  busy : ∀ b, ctl.busy = some b → busyPhase b = some ctl.ph
  erased : ctl.busy = some (.progNext .persist) ∨ ctl.busy = some (.flProg (.write .persist)) → blank = true
  faults : latch.fault = true → ctl.ph = .halt ∧ latch.code.toNat ≤ 4
  reflashOnly : reflash = true → ctl.ph = .reflash
  encTimer : enc.st = .restSettle ∨ enc.st = .finalSettle → now ≤ enc.deadline
  btnTimer : btn.st = .debounce ∨ btn.st = .held → now ≤ btn.deadline
  ctlTimer : ctl.busy ≠ none ∨ ctl.ph = .persistHold ∨ ctl.ph = .trail → now ≤ ctl.deadline

/-- The part of `Coherent` about the mailbox and the audio side. -/
structure AudioOrder (count : Nat) (mbx : Mbx) (aud : Aud) (sm : Sm) (fifo : List Word32) (dma : Dma)
    (pdmOut : List Bool) : Prop where
  mailbox : mbx.full = true → mbx.val.index.toNat < count
  sel : aud.sel.written = true → aud.sel.val.index.toNat < count
  config : aud.ph = .config → aud.sel.written = true
  loop : aud.ph = .push ∨ aud.ph = .race → aud.tableSel.written = true ∧ sm.clkdiv.written = true
  push : aud.ph = .config ∨ aud.ph = .push → dma.busy = false
  race : aud.ph = .race → dma.busy = true ∨ dma.done = true
  silent : aud.ph = .waitFirst → sm.en = false ∧ pdmOut = [] ∧ sm.pin = false ∧ fifo = [] ∧ dma.busy = false
  output : sm.en = true → sm.clkdiv.written = true
  running : aud.halted = false

/-- `Coherent` but for `StateInv`. -/
abbrev Ordered (s : State) : Prop :=
  ControlOrder s.now s.ctl s.sel s.enc s.btn s.latch s.reflash (recordBlank s) ∧
    AudioOrder (toneCount s.par.val) s.mbx s.aud s.sm s.fifo s.dma s.logs.pdmOut

theorem Ordered.control {s : State} (h : Ordered s) :
    ControlOrder s.now s.ctl s.sel s.enc s.btn s.latch s.reflash (recordBlank s) := h.1

theorem Ordered.audio {s : State} (h : Ordered s) :
    AudioOrder (toneCount s.par.val) s.mbx s.aud s.sm s.fifo s.dma s.logs.pdmOut := h.2

/-- `Coherent` is `StateInv` and its two parts. -/
theorem coherent_iff {s : State} : Coherent s ↔ StateInv s ∧ Ordered s :=
  ⟨fun h =>
    ⟨h.inv,
      ⟨h.selWritten, h.encoder, h.button, h.race, h.busy, h.erased, h.faults.2, h.reflashOnly, h.encTimer, h.btnTimer,
        h.ctlTimer⟩,
      ⟨h.mailbox, h.audSel, h.audConfig, h.audLoop, h.audPush, h.audRace, h.silent, h.output, h.faults.1⟩⟩,
    fun ⟨hinv, c, a⟩ =>
      { inv := hinv, selWritten := c.selWritten, encoder := c.encoder, button := c.button, race := c.race,
        busy := c.busy, erased := c.erased, mailbox := a.mailbox, audSel := a.sel, audConfig := a.config,
        audLoop := a.loop, audPush := a.push, audRace := a.race, silent := a.silent, output := a.output,
        faults := ⟨a.running, c.faults⟩, reflashOnly := c.reflashOnly, encTimer := c.encTimer, btnTimer := c.btnTimer,
        ctlTimer := c.ctlTimer }⟩

theorem Coherent.ordered {s : State} (h : Coherent s) : Ordered s := (coherent_iff.mp h).2

/-! The phases. -/

/-- The phases in which `CTL` runs operations of its own: it takes steps (R255, R227), and no race is on (R231). -/
def working (p : CtlPhase) : Bool := p != .halt && p != .reflash && p != .wait

/-- An operation that `CTL` issued belongs to a phase in which it runs operations. -/
theorem working_of_busyPhase {b : Busy} {p : CtlPhase} (h : busyPhase b = some p) : working p = true := by
  unfold busyPhase at h
  split at h <;> cases h <;> rfl

/-- The classifier can keep its state from one phase to the next; it is off where the next one is `WAIT` (R231, R241).
-/
def buttonFollows (p q : CtlPhase) : Bool :=
  [BtnSt.off, .idle, .debounce, .held, .doneToggle, .donePersist].all fun b =>
    !buttonPhase b p || (buttonPhase b q && (q != .wait || b == .off))

theorem buttonPhase_of_buttonFollows {p q : CtlPhase} (h : buttonFollows p q = true) {b : BtnSt}
    (hb : buttonPhase b p = true) : buttonPhase b q = true ∧ (q = .wait → b = .off) := by
  simp only [buttonFollows, List.all_cons, List.all_nil, Bool.and_eq_true] at h
  cases b <;> simp_all

section
variable {now : Nat} {ctl ctl' : Ctl} {sel sel' : Sel} {enc enc' : Enc} {btn btn' : Btn} {latch : Latch}
  {reflash blank blank' : Bool}

/-- With no operation in progress nothing is asked of the record's bytes. -/
theorem ControlOrder.withBlank (h : ControlOrder now ctl sel enc btn latch reflash blank) (hidle : ctl.busy = none)
    (blank' : Bool) : ControlOrder now ctl sel enc btn latch reflash blank' :=
  { h with erased := by simp [hidle] }

/-- While `CTL` takes steps no fault is recorded and the flag of the terminal phase is not set. -/
theorem ControlOrder.flags (h : ControlOrder now ctl sel enc btn latch reflash blank) (hhalt : ctl.ph ≠ .halt)
    (hreflash : ctl.ph ≠ .reflash) : latch.fault = false ∧ reflash = false :=
  ⟨Bool.eq_false_iff.mpr fun hf => hhalt (h.faults hf).1, Bool.eq_false_iff.mpr fun hf => hreflash (h.reflashOnly hf)⟩

/-- What it takes for `CTL` to enter a phase, with the encoder off and no operation in progress. -/
theorem ControlOrder.enter (h : ControlOrder now ctl sel enc btn latch reflash blank) (hhalt : ctl.ph ≠ .halt)
    (hreflash : ctl.ph ≠ .reflash) (hidle : ctl'.busy = none)
    (hsel : looping ctl'.ph = true → sel'.index.written = true ∧ sel'.enabled.written = true)
    (henc : enc'.st = .off) (hbtn : buttonPhase btn'.st ctl'.ph = true) (hrace : ctl'.ph = .wait → btn'.st = .off)
    (hbtnTimer : btn'.st = .debounce ∨ btn'.st = .held → now ≤ btn'.deadline)
    (hctlTimer : ctl'.ph = .persistHold ∨ ctl'.ph = .trail → now ≤ ctl'.deadline) :
    ControlOrder now ctl' sel' enc' btn' latch reflash blank' := by
  obtain ⟨hfault, hflag⟩ := h.flags hhalt hreflash
  exact
    { selWritten := hsel
      encoder := fun he => absurd henc he
      button := .inr hbtn
      race := fun hw => iff_of_true henc (hrace hw)
      busy := by simp [hidle]
      erased := by simp [hidle]
      faults := by simp [hfault]
      reflashOnly := by simp [hflag]
      encTimer := by simp [henc]
      btnTimer := hbtnTimer
      ctlTimer := by simpa [hidle] using hctlTimer }

end

/-! A phase with no operation in progress. -/

/-- The control side is in a phase, with no operation in progress. -/
abbrev Quiet (p : CtlPhase) (s : State) : Prop := Ordered s ∧ s.ctl.ph = p ∧ s.ctl.busy = none

section
variable {p q : CtlPhase} {s : State}

theorem Quiet.ordered (h : Quiet p s) : Ordered s := h.1

theorem Quiet.phase (h : Quiet p s) : s.ctl.ph = p := h.2.1

theorem Quiet.idle (h : Quiet p s) : s.ctl.busy = none := h.2.2

/-- In the phases of the loop `SEL` is written (R48). -/
theorem Quiet.written (h : Quiet p s) (hp : looping p = true) :
    s.sel.index.written = true ∧ s.sel.enabled.written = true :=
  h.ordered.control.selWritten (by rw [h.phase]; exact hp)

/-- The classifier is in a state of the phase. -/
theorem Quiet.button (h : Quiet p s) (hp : p ≠ .halt) : buttonPhase s.btn.st p = true := by
  have hbtn := h.ordered.control.button
  rw [h.phase] at hbtn
  exact hbtn.resolve_left hp

/-- Where `CTL` runs operations it takes steps. -/
theorem Quiet.takesSteps (h : Quiet p s) (hp : working p = true) : s.ctl.ph ≠ .halt ∧ s.ctl.ph ≠ .reflash := by
  simp only [working, Bool.and_eq_true, bne_iff_ne, ← h.phase] at hp
  exact hp.1

/-- Outside `WAIT` the encoder is off (R170). -/
theorem Quiet.encOff (h : Quiet p s) (hp : working p = true) : s.enc.st = .off := by
  simp only [working, Bool.and_eq_true, bne_iff_ne, ← h.phase] at hp
  exact by_contra fun he => hp.2 (h.ordered.control.encoder he)

/-- From a phase in which `CTL` runs operations it enters another; the classifier stays as it is. -/
theorem Quiet.enter (h : Quiet p s) (hp : working p = true) {ctl' : Ctl} {sel' : Sel} {blank' : Bool}
    (hidle : ctl'.busy = none)
    (hsel : looping ctl'.ph = true → sel'.index.written = true ∧ sel'.enabled.written = true)
    (hbtn : buttonFollows p ctl'.ph = true)
    (hctlTimer : ctl'.ph = .persistHold ∨ ctl'.ph = .trail → s.now ≤ ctl'.deadline) :
    ControlOrder s.now ctl' sel' s.enc s.btn s.latch s.reflash blank' := by
  obtain ⟨hhalt, hreflash⟩ := h.takesSteps hp
  obtain ⟨hb, hrace⟩ := buttonPhase_of_buttonFollows hbtn (h.button (h.phase ▸ hhalt))
  exact h.ordered.control.enter hhalt hreflash hidle hsel (h.encOff hp) hb hrace h.ordered.control.btnTimer hctlTimer

/-- `CTL.ph <- q`, where `q` waits on no deadline. -/
theorem Quiet.setPhase (h : Quiet p s) (hp : working p = true) (hsel : looping q = true → looping p = true)
    (hbtn : buttonFollows p q = true) (hq : q ≠ .persistHold ∧ q ≠ .trail) : Quiet q (setPhase q s) :=
  ⟨⟨h.enter hp h.idle (fun hl => h.written (hsel hl)) hbtn (by simp [hq]), h.ordered.audio⟩, rfl, h.idle⟩

/-- The classifier's verdict, or its end, and the phase that follows (R194, R195, R197). -/
theorem Quiet.classify (h : Quiet p s) (hp : working p = true) (hsel : looping q = true → looping p = true) (e : Event)
    {st : BtnSt} (hst : st ≠ .debounce ∧ st ≠ .held) (hbtn : buttonPhase st q = true)
    (hq : q ≠ .wait ∧ q ≠ .persistHold ∧ q ≠ .trail) : Ordered (classify e st q s) := by
  obtain ⟨hhalt, hreflash⟩ := h.takesSteps hp
  exact
    ⟨h.ordered.control.enter hhalt hreflash h.idle (fun hl => h.written (hsel hl)) (h.encOff hp) hbtn
        (fun hw => absurd hw hq.1) (by simp [hst]) (by simp [hq]), h.ordered.audio⟩

/-- A fault of the control side, of the codes that arise there (R256). -/
theorem Quiet.raiseControl (h : Quiet p s) (hp : working p = true) {c : Byte} (hc : c.toNat ≤ 4) :
    Ordered (raiseControl c s) := by
  obtain ⟨hhalt, hreflash⟩ := h.takesSteps hp
  obtain ⟨hfault, hflag⟩ := h.ordered.control.flags hhalt hreflash
  exact
    ⟨{  selWritten := nofun
        encoder := fun he => absurd rfl he
        button := .inl rfl
        race := nofun
        busy := nofun
        erased := by simp
        faults := fun _ => ⟨rfl, by simpa [Latch.record_first c _ hfault] using hc⟩
        reflashOnly := by simp [hflag]
        encTimer := by simp
        btnTimer := by simp
        ctlTimer := by simp }, h.ordered.audio⟩

/-- An operation of the phase stands, with a deadline that has not passed. -/
theorem Quiet.stand (h : Quiet p s) {b : Busy} (hb : busyPhase b = some p) {d : Nat} (hd : s.now ≤ d)
    (hblank : b = .progNext .persist ∨ b = .flProg (.write .persist) → recordBlank s = true) :
    Ordered { s with ctl := { s.ctl with busy := some b, deadline := d } } :=
  ⟨{ h.ordered.control with
      busy := by
        intro b' hb'
        obtain rfl := Option.some.inj hb'
        exact hb.trans (congrArg some h.phase.symm)
      erased := fun hb' => hblank (hb'.imp Option.some.inj Option.some.inj)
      ctlTimer := fun _ => hd }, h.ordered.audio⟩

/-- A wait of an operation of the phase keeps the two parts where what follows it does. -/
theorem Quiet.await (h : Quiet p s) {b : Busy} (hb : busyPhase b = some p) {rest : State → State}
    (hblank : b = .progNext .persist ∨ b = .flProg (.write .persist) → recordBlank s = true)
    (go : Quiet p (popDuration s) → Ordered (rest (popDuration s))) : Ordered (await b rest s) :=
  await_cases (go h) (Quiet.stand (s := popDuration s) h hb (Nat.le_add_right _ _) hblank)

/-- The end of an operation's wait: its phase, with no operation in progress. -/
theorem Ordered.clearBusy (h : Ordered s) {b : Busy} (hb : s.ctl.busy = some b) :
    busyPhase b = some s.ctl.ph ∧ Quiet s.ctl.ph (clearBusy s) :=
  ⟨h.control.busy b hb,
    ⟨{ h.control with
        busy := nofun
        erased := by simp
        ctlTimer := fun ht => h.control.ctlTimer (ht.imp_left fun hn => absurd rfl hn) }, h.audio⟩, rfl, rfl⟩

/-- A selection in range can be sent (R110). -/
theorem Quiet.sendSelection (h : Quiet p s) {v : Selection} (hv : v.index.toNat < toneCount s.par.val) :
    Quiet p (sendSelection v s) :=
  ⟨⟨h.ordered.control, { h.ordered.audio with mailbox := fun _ => hv }⟩, h.phase, h.idle⟩

/-! The display. -/

theorem Quiet.popFail (h : Quiet p s) : Quiet p (popFail s) := h

theorem Quiet.queueDraw (h : Quiet p s) (d : Glyph × Slot) : Quiet p (queueDraw d s) := h

theorem Quiet.showFrame (h : Quiet p s) : Quiet p (showFrame s) := h

/-- Draws keep the two parts where what follows them does. -/
theorem Quiet.drawAll (h : Quiet p s) (hp : working p = true) (ds : List (Glyph × Slot)) {rest : State → State}
    (go : ∀ t, Quiet p t → Ordered (rest t)) : Ordered (drawAll ds rest s) :=
  drawAll_induct ds h (fun d _ _ ht => ht.popFail.queueDraw d) (fun _ ht => ht.popFail.raiseControl hp (by decide)) go

/-- The end of a flush that `CTL` issued: the phase that follows (R227, R230, R237). -/
theorem Quiet.afterFlush (h : Quiet p s) {issuer : FlushBy} (hb : busyPhase (.flush issuer) = some p) :
    Ordered (afterFlush issuer s) := by
  have hp := working_of_busyPhase hb
  cases issuer with
  | direct => cases hb
  | recovery =>
    obtain rfl := Option.some.inj hb
    have hq := h.setPhase (q := .reflash) hp nofun (by decide) (by decide)
    exact ⟨{ hq.ordered.control with reflashOnly := fun _ => rfl }, hq.ordered.audio⟩
  | render =>
    obtain rfl := Option.some.inj hb
    exact h.await (b := .render) rfl (by simp) fun hq => (hq.setPhase hp (fun _ => rfl) (by decide) (by decide)).ordered
  | persistAck =>
    obtain rfl := Option.some.inj hb
    exact (h.setPhase hp (fun _ => rfl) (by decide) (by decide)).ordered

/-- A flush that `CTL` issues. -/
theorem Quiet.flush (h : Quiet p s) {issuer : FlushBy} (hb : busyPhase (.flush issuer) = some p) :
    Ordered (flush issuer s) :=
  flush_cases (fun _ => h.popFail.showFrame.await hb (by simp) fun hq => hq.afterFlush hb)
    (fun _ => h.popFail.raiseControl (working_of_busyPhase hb) (by decide))

/-! The configuration store. -/

theorem Quiet.withCfg (h : Quiet p s) (c : Cfg) : Quiet p { s with cfg := c } := h

theorem Quiet.decodeBuffer (h : Quiet p s) : Quiet p (decodeBuffer s) := h.withCfg _

/-- With no operation in progress `FLASH` and its log can change. -/
theorem Quiet.withFlash (h : Quiet p s) (m : Memory) (l : List FlashEvent) (e : Draws) :
    Quiet p { s with flash := m, logs := { s.logs with flashLog := l }, env := e } :=
  ⟨⟨h.ordered.control.withBlank h.idle _, h.ordered.audio⟩, h.phase, h.idle⟩

/-- The record is written, or need not be (R237). -/
theorem Quiet.afterWrite (h : Quiet .persistWrite s) : Ordered (afterWrite .persist s) :=
  ⟨h.enter rfl h.idle (fun _ => h.written rfl) rfl fun _ => Nat.le_add_right _ _, h.ordered.audio⟩

/-- The end of a read that `CTL` issued (R211, R228). -/
theorem Quiet.afterRead (h : Quiet p s) {issuer : ReadBy} (hb : busyPhase (.flRead issuer) = some p) :
    Ordered (afterRead issuer s) := by
  cases issuer with
  | direct | cfgRead => cases hb
  | load =>
    obtain rfl := Option.some.inj hb
    exact ⟨h.enter rfl h.idle (fun _ => ⟨rfl, rfl⟩) rfl (by simp [Machine.afterRead]), h.ordered.audio⟩
  | write by' =>
    cases by' with
    | direct => cases hb
    | persist =>
      obtain rfl := Option.some.inj hb
      simp only [Machine.afterRead]
      split
      · exact h.decodeBuffer.afterWrite
      · exact h.decodeBuffer.stand rfl (Nat.le_refl _) (by simp)

theorem Quiet.readFlash (h : Quiet p s) {issuer : ReadBy} (hb : busyPhase (.flRead issuer) = some p) :
    Ordered (readFlash issuer s) :=
  readFlash_cases (fun _ => (h.popFail.withCfg _).afterRead hb)
    (fun _ => h.popFail.raiseControl (working_of_busyPhase hb) (by decide))

theorem Quiet.beginRead (h : Quiet p s) {issuer : ReadBy} (hb : busyPhase (.flRead issuer) = some p) :
    Ordered (beginRead issuer s) :=
  h.await hb (by simp) fun hq => hq.readFlash hb

/-- An erased record is blank, so the program may follow (R213). -/
theorem recordBlank_of_erased {s : State} {m : Memory}
    (h : s.flash = memErase m (cfgOffset s.par.val) (blockBytes s.par.val)) : recordBlank s = true := by
  rw [recordBlank, h, memRead_memErase m (recordBytes_le_blockBytes _), beq_self_eq_true]

/-- The erase of a `CTL.PERSIST`, after its wait (R207). -/
theorem Quiet.eraseFlash (h : Quiet .persistWrite s) : Ordered (eraseFlash (.write .persist) s) :=
  eraseFlash_cases
    (fun _ => by
      have hq := h.popFail.withFlash (memErase s.flash (cfgOffset s.par.val) (blockBytes s.par.val))
        (s.logs.flashLog ++ [.erase (cfgOffset s.par.val) (blockBytes s.par.val)]) (Machine.popFail s).env
      exact hq.stand (b := .progNext .persist) rfl (Nat.le_refl _) fun _ => recordBlank_of_erased rfl)
    (fun _ => Quiet.raiseControl (h.popFail.withFlash _ _ _) rfl (by decide))

theorem Quiet.beginErase (h : Quiet .persistWrite s) : Ordered (beginErase (.write .persist) s) :=
  h.await (b := .flErase (.write .persist)) rfl (by simp) fun hq => hq.eraseFlash

/-- The program of a `CTL.PERSIST`, after its wait (R208). -/
theorem Quiet.progFlash (h : Quiet .persistWrite s) : Ordered (progFlash (.write .persist) s) :=
  progFlash_cases (fun _ => Quiet.afterWrite (h.popFail.withFlash _ _ _))
    (fun _ => Quiet.raiseControl (h.popFail.withFlash _ _ _) rfl (by decide))

/-- The program of a `CTL.PERSIST` begins with the record blank (R213). -/
theorem Quiet.beginProg (h : Quiet .persistWrite s) (hblank : recordBlank s = true) :
    Ordered (beginProg (.write .persist) s) :=
  h.await rfl (fun _ => hblank) fun hq => hq.progFlash

end

end Sys2Proof.Machine
end

section
/-! PROOFS. Every move of the control side keeps `Coherent`. -/

namespace Sys2Proof.Machine

variable {s t : State}

/-! Where the moves start. -/

/-- An operation that starts in its phase finds no other in progress. -/
theorem Ordered.quiet (h : Ordered s) {p : CtlPhase} (hr : ctlAt p s = true) : Quiet p s := by
  obtain ⟨-, hidle, hph⟩ := ctlAt_iff.mp hr
  exact ⟨h, hph, hidle⟩

/-- A running encoder is in the race of a `CTL.WAIT`, and so is the button (R231). -/
theorem Ordered.racing (h : Ordered s) (he : s.enc.st ≠ .off) : s.ctl.ph = .wait ∧ s.btn.st ≠ .off :=
  have hw := h.control.encoder he
  ⟨hw, fun hb => he ((h.control.race hw).mpr hb)⟩

/-- While the control side takes steps the classifier is in a state of the phase (R29, R241). -/
theorem Ordered.buttonInPhase (h : Ordered s) (hlive : ctlLive s = true) : buttonPhase s.btn.st s.ctl.ph = true := by
  simp only [ctlLive, Bool.and_eq_true, bne_iff_ne] at hlive
  exact h.control.button.resolve_left hlive.1

/-- In a phase to which no operation with a wait belongs none is in progress. -/
theorem Ordered.idle_of_phase (h : Ordered s) (hp : ∀ b, busyPhase b ≠ some s.ctl.ph) : s.ctl.busy = none :=
  Option.eq_none_iff_forall_ne_some.mpr fun b hb => hp b (h.control.busy b hb)

/-- No operation with a wait belongs to `WAIT` or `BTN_ACTIVE`. -/
theorem busyPhase_ne {p : CtlPhase} (hp : p = .wait ∨ p = .btnActive) (b : Busy) : busyPhase b ≠ some p := by
  unfold busyPhase
  split <;> rcases hp with rfl | rfl <;> decide

/-! The decoder (R172 to R180). -/

/-- A running encoder can go on running. -/
theorem Ordered.withEnc (h : Ordered s) (he : s.enc.st ≠ .off) {e : Enc} (he' : e.st ≠ .off)
    (htimer : e.st = .restSettle ∨ e.st = .finalSettle → s.now ≤ e.deadline) : Ordered { s with enc := e } := by
  obtain ⟨hw, hb⟩ := h.racing he
  exact
    ⟨{ h.control with
        encoder := fun _ => hw
        race := fun _ => iff_of_false he' hb
        encTimer := htimer }, h.audio⟩

/-- A new delay begins. -/
theorem Ordered.settle (h : Ordered s) (he : s.enc.st ≠ .off) {st : EncSt} (hst : st ≠ .off) :
    Ordered (settleTo st s) :=
  h.withEnc he hst fun _ => Nat.le_add_right _ _

/-- A state without a delay. -/
theorem Ordered.withEncSt (h : Ordered s) (he : s.enc.st ≠ .off) {st : EncSt} (hst : st = .restWait ∨ st = .armed) :
    Ordered (setEnc st s) := by
  refine h.withEnc he ?_ ?_ <;> rcases hst with rfl | rfl <;> simp

theorem stageAfter_ne_off (k : Nat) : stageAfter k ≠ .off := by
  unfold stageAfter
  split <;> decide

/-- The decoder is running where a stage can be completed. -/
theorem enc_ne_off_of_encAdvanceReady {c : Byte} (hr : encAdvanceReady c s = true) : s.enc.st ≠ .off := by
  intro he
  simp [encAdvanceReady, he, stageOf] at hr

/-- The decoder is running where a pair can be dropped. -/
theorem enc_ne_off_of_encDropReady (hr : encDropReady s = true) : s.enc.st ≠ .off := by
  intro he
  simp [encDropReady, he, stageOf] at hr

theorem Ordered.encRest (h : Ordered s) (hr : encRestReady s = true) : Ordered (settleTo .restSettle s) := by
  simp only [encRestReady, Bool.and_eq_true, beq_iff_eq] at hr
  exact h.settle (by simp [hr]) (by decide)

theorem Ordered.encArm (h : Ordered s) (hr : encArmReady s = true) :
    Ordered (setEnc (if linePair s = (true, true) then .armed else .restWait) s) := by
  simp only [encArmReady, Bool.and_eq_true, beq_iff_eq] at hr
  refine h.withEncSt (by simp [hr]) ?_
  split
  · exact .inr rfl
  · exact .inl rfl

theorem Ordered.encFall (h : Ordered s) {b : Bool} (hr : encFallReady b s = true) :
    Ordered (settleTo .wait1 { s with enc := { s.enc with dir := b } }) := by
  simp only [encFallReady, Bool.and_eq_true, beq_iff_eq] at hr
  exact h.withEnc (by simp [hr]) (by simp) fun _ => Nat.le_add_right _ _

theorem Ordered.encAdvance (h : Ordered s) {c : Byte} (hr : encAdvanceReady c s = true) :
    Ordered (settleTo (stageAfter c.toNat) s) :=
  h.settle (enc_ne_off_of_encAdvanceReady hr) (stageAfter_ne_off _)

theorem Ordered.encDrop (h : Ordered s) (hr : encDropReady s = true) : Ordered (setEnc .restWait s) :=
  h.withEncSt (enc_ne_off_of_encDropReady hr) (.inl rfl)

/-- The end of the race: `CTL` leaves `WAIT`, the encoder off (R232). -/
theorem Ordered.leaveWait (h : Ordered s) (hw : s.ctl.ph = .wait) {ctl : Ctl} {e : Enc} {b : Btn}
    (hidle : ctl.busy = s.ctl.busy) (he : e.st = .off) (hb : buttonPhase b.st ctl.ph = true)
    (hbt : b.st = .debounce ∨ b.st = .held → s.now ≤ b.deadline)
    (hq : ctl.ph ≠ .wait ∧ ctl.ph ≠ .persistHold ∧ ctl.ph ≠ .trail) :
    Ordered { s with ctl := ctl, enc := e, btn := b } := by
  have hbusy : s.ctl.busy = none := h.idle_of_phase (busyPhase_ne (.inl hw))
  have hwritten := h.control.selWritten (by rw [hw]; rfl)
  exact
    ⟨h.control.enter (by simp [hw]) (by simp [hw]) (hidle.trans hbusy) (fun _ => hwritten) he hb
        (fun hw' => absurd hw' hq.1) hbt (by simp [hq]), h.audio⟩

/-- In the race the button is in its idle wait. -/
theorem Ordered.btn_idle (h : Ordered s) (he : s.enc.st ≠ .off) : s.btn.st = .idle := by
  obtain ⟨hw, hb⟩ := h.racing he
  have hbp := h.buttonInPhase (by simp [ctlLive, hw])
  rw [hw] at hbp
  cases hbs : s.btn.st <;> simp_all [buttonPhase]

/-- What `encoderWins` does in the race. -/
theorem encoderWins_wait (b : Bool) (hw : s.ctl.ph = .wait) (hb : s.btn.st = .idle) :
    encoderWins b s = { s with
      ctl := { s.ctl with ph := if b then .handleDown else .handleUp }
      btn := { s.btn with st := .off } } := by
  simp [encoderWins, hw, abandonButton, hb, setPhase]

/-- The event of a whole detent ends the race (R178, R232). -/
theorem Ordered.encEmit (h : Ordered s) {b : Bool} (hr : encEmitReady b s = true) :
    Ordered (encoderWins b (setEnc .off { s with ctl := { s.ctl with event := eventOf b } })) := by
  simp only [encEmitReady, Bool.and_eq_true, beq_iff_eq] at hr
  obtain ⟨⟨⟨-, hst⟩, -⟩, -⟩ := hr
  have he : s.enc.st ≠ .off := by simp [hst]
  have hw := (h.racing he).1
  rw [encoderWins_wait b (by exact hw) (by exact h.btn_idle he)]
  cases b with
  | false => exact h.leaveWait hw rfl rfl rfl (by simp) (by simp)
  | true => exact h.leaveWait hw rfl rfl rfl (by simp) (by simp)

/-! The classifier (R192 to R197). -/

/-- A falling edge ends the race (R192, R232). -/
theorem Ordered.btnEdge (h : Ordered s) (hr : btnEdgeReady s = true) :
    Ordered (buttonWins { s with btn := { s.btn with st := .debounce, deadline := s.now + tSettle s.par.val } }) := by
  simp only [btnEdgeReady, Bool.and_assoc, Bool.and_eq_true, beq_iff_eq] at hr
  obtain ⟨hlive, hst, -⟩ := hr
  have hw : s.ctl.ph = .wait := by simpa [buttonPhase, hst] using h.buttonInPhase hlive
  unfold buttonWins
  rw [if_pos (by exact hw)]
  exact h.leaveWait hw rfl rfl rfl (fun _ => Nat.le_add_right _ _) (by simp)

/-- A press is sampled in `BTN_ACTIVE`, where no operation is in progress (R241). -/
theorem Ordered.btnActive (h : Ordered s) (hlive : ctlLive s = true) (hst : s.btn.st = .debounce ∨ s.btn.st = .held) :
    Quiet .btnActive s := by
  have hph : s.ctl.ph = .btnActive := by
    rcases hst with hst | hst <;> simpa [buttonPhase, hst] using h.buttonInPhase hlive
  exact ⟨h, hph, h.idle_of_phase (busyPhase_ne (.inr hph))⟩

/-- The press is confirmed (R193). -/
theorem Ordered.btnConfirm (h : Ordered s) (hr : btnConfirmReady s = true) :
    Ordered { s with btn := { s.btn with st := .held, deadline := s.now + tLong s.par.val } } := by
  simp only [btnConfirmReady, Bool.and_assoc, Bool.and_eq_true, beq_iff_eq] at hr
  obtain ⟨hlive, hst, -⟩ := hr
  have hph := (h.btnActive hlive (.inl hst)).phase
  exact
    ⟨{ h.control with
        button := .inr (by rw [hph]; rfl)
        race := by simp [hph]
        btnTimer := fun _ => Nat.le_add_right _ _ }, h.audio⟩

/-- A short press (R194). -/
theorem Ordered.btnRelease (h : Ordered s) (hr : btnReleaseReady s = true) :
    Ordered (classify .toggle .doneToggle .handleToggle s) := by
  simp only [btnReleaseReady, Bool.and_assoc, Bool.and_eq_true, beq_iff_eq] at hr
  obtain ⟨hlive, hst, -⟩ := hr
  exact (h.btnActive hlive (.inr hst)).classify rfl (fun _ => rfl) _ (by decide) rfl (by decide)

/-- A long press (R195). -/
theorem Ordered.btnTimeout (h : Ordered s) (hr : btnTimeoutReady s = true) :
    Ordered (classify .persist .donePersist .persistAck s) := by
  simp only [btnTimeoutReady, Bool.and_assoc, Bool.and_eq_true, beq_iff_eq] at hr
  obtain ⟨hlive, hst, -⟩ := hr
  exact (h.btnActive hlive (.inr hst)).classify rfl (fun _ => rfl) _ (by decide) rfl (by decide)

/-- The end of the press (R197). -/
theorem Ordered.btnTrail (h : Ordered s) (hr : btnTrailReady s = true) : Ordered (classify .none .off .publish s) :=
  (h.quiet (Bool.and_eq_true_iff.mp hr).1).classify rfl (fun _ => rfl) _ (by decide) rfl (by decide)

/-! The store's and the display's operations, at the end of a wait. -/

theorem Ordered.flRead (h : Ordered s) (hr : readDue s = true) : Ordered (flReadEffect s) := by
  unfold readDue at hr
  split at hr
  · rename_i issuer hb
    obtain ⟨hp, hq⟩ := h.clearBusy hb
    simp only [flReadEffect, hb]
    exact hq.readFlash hp
  · cases hr

/-- The primitives that change `FLASH` run for `CTL.PERSIST` alone (R237). -/
theorem persist_of_busyPhase {by' : WriteBy} {p : CtlPhase}
    (h : busyPhase (.eraseNext by') = some p ∨ busyPhase (.flErase (.write by')) = some p ∨
      busyPhase (.progNext by') = some p ∨ busyPhase (.flProg (.write by')) = some p) :
    by' = .persist ∧ p = .persistWrite := by
  cases by' with
  | direct => rcases h with h | h | h | h <;> cases h
  | persist => rcases h with h | h | h | h <;> exact ⟨rfl, (Option.some.inj h).symm⟩

theorem Ordered.flErase (h : Ordered s) (hr : eraseDue s = true) : Ordered (flEraseEffect s) := by
  unfold eraseDue at hr
  split at hr
  · rename_i by' hb
    obtain ⟨hp, hq⟩ := h.clearBusy hb
    obtain ⟨rfl, hph⟩ := persist_of_busyPhase (.inl hp)
    rw [hph] at hq
    simp only [flEraseEffect, hb]
    exact hq.beginErase
  · rename_i issuer hb
    obtain ⟨hp, hq⟩ := h.clearBusy hb
    cases issuer with
    | direct => cases hp
    | write by' =>
      obtain ⟨rfl, hph⟩ := persist_of_busyPhase (.inr (.inl hp))
      rw [hph] at hq
      simp only [flEraseEffect, hb]
      exact hq.eraseFlash
  · cases hr

theorem Ordered.flProg (h : Ordered s) (hr : progDue s = true) : Ordered (flProgEffect s) := by
  unfold progDue at hr
  split at hr
  · rename_i by' hb
    obtain ⟨hp, hq⟩ := h.clearBusy hb
    obtain ⟨rfl, hph⟩ := persist_of_busyPhase (.inr (.inr (.inl hp)))
    rw [hph] at hq
    simp only [flProgEffect, hb]
    exact hq.beginProg (h.control.erased (.inl hb))
  · rename_i issuer hb
    obtain ⟨hp, hq⟩ := h.clearBusy hb
    cases issuer with
    | direct => cases hp
    | write by' =>
      obtain ⟨rfl, hph⟩ := persist_of_busyPhase (.inr (.inr (.inr hp)))
      rw [hph] at hq
      simp only [flProgEffect, hb]
      exact hq.progFlash
  · cases hr

theorem Ordered.dispFlush (h : Ordered s) (hr : flushDue s = true) : Ordered (flushEffect s) := by
  obtain ⟨⟨issuer, hb⟩, -⟩ := flushDue_iff.mp hr
  obtain ⟨hp, hq⟩ := h.clearBusy hb
  simp only [flushEffect, hb]
  exact hq.afterFlush hp

/-! The operations of `CTL` (R226 to R237). -/

theorem Ordered.ctlBoot (h : Ordered s) (hr : ctlAt .boot s = true) :
    Ordered (setPhase (if s.lines.recov then .load else .recovery) s) := by
  cases s.lines.recov with
  | false => exact ((h.quiet hr).setPhase (q := .recovery) rfl nofun rfl (by decide)).ordered
  | true => exact ((h.quiet hr).setPhase (q := .load) rfl nofun rfl (by decide)).ordered

theorem Ordered.ctlRecovery (h : Ordered s) (hr : ctlAt .recovery s = true) :
    Ordered (drawAll s.par.val.diagMsg (flush .recovery) s) :=
  (h.quiet hr).drawAll rfl _ fun _ ht => ht.flush rfl

/-- A selection that stands in `SEL` is in range (R21). -/
theorem Coherent.publish (h : Coherent s) (hr : ctlPublishReady s = true) : Ordered (publishEffect s) := by
  simp only [ctlPublishReady, Bool.or_eq_true, Bool.and_eq_true, beq_iff_eq] at hr
  unfold publishEffect
  split
  · rename_i hb
    obtain ⟨hp, hq⟩ := h.ordered.clearBusy hb
    obtain hp := Option.some.inj hp
    rw [← hp] at hq
    exact (hq.setPhase rfl (fun _ => rfl) rfl (by decide)).ordered
  · rename_i hb
    have hq : Quiet .publish s := h.ordered.quiet (hr.resolve_right fun hdue => hb hdue.1.2)
    obtain ⟨hi, he⟩ := hq.written rfl
    rw [withSelection_written hi he]
    exact Quiet.await (b := .publish) (hq.sendSelection (h.inv.index hi)) rfl (by simp) fun ht =>
      (ht.setPhase rfl (fun _ => rfl) rfl (by decide)).ordered

/-- Every selection that is written has a tone to render (R9, R230). -/
theorem Coherent.render (h : Coherent s) (hr : ctlRenderReady s = true) : Ordered (renderEffect s) := by
  simp only [ctlRenderReady, Bool.or_eq_true, Bool.and_eq_true, beq_iff_eq] at hr
  unfold renderEffect
  split
  · rename_i hb
    obtain ⟨hp, hq⟩ := h.ordered.clearBusy hb
    obtain hp := Option.some.inj hp
    rw [← hp] at hq
    exact (hq.setPhase rfl (fun _ => rfl) rfl (by decide)).ordered
  · rename_i hb
    have hq : Quiet .render s := h.ordered.quiet (hr.resolve_right fun hdue => hb hdue.1.2)
    obtain ⟨hi, he⟩ := hq.written rfl
    obtain ⟨f, hf, -⟩ := calcDivider_valid s.par.valid (h.inv.index hi)
    rw [withSelection_written hi he]
    simp only [hf]
    exact hq.drawAll rfl _ fun _ ht => ht.flush rfl

/-- Both decoders start (R231). -/
theorem Ordered.ctlWait (h : Ordered s) (hr : ctlWaitReady s = true) : Ordered (startButton (startEncoder s)) := by
  simp only [ctlWaitReady, Bool.and_assoc, Bool.and_eq_true] at hr
  have hw := (h.quiet hr.1).phase
  exact
    ⟨{ h.control with
        encoder := fun _ => hw
        button := .inr (by simp [hw, buttonPhase])
        race := fun _ => by simp
        encTimer := by simp
        btnTimer := by simp }, h.audio⟩

/-- `CTL.UP` and `CTL.DOWN` read a written index (R233, R234). -/
theorem Quiet.stepIndex {p : CtlPhase} (h : Quiet p s) (hp : p = .handleUp ∨ p = .handleDown)
    (f : Params → Word32 → Word32) : Ordered (withIndex (fun i s => stepTo (f s.par.val i) s) s) := by
  have hloop : looping p = true := by rcases hp with rfl | rfl <;> rfl
  have hworking : working p = true := by rcases hp with rfl | rfl <;> rfl
  have hbtn : buttonFollows p .publish = true := by rcases hp with rfl | rfl <;> rfl
  obtain ⟨hi, he⟩ := h.written hloop
  rw [withIndex_written hi]
  exact ⟨h.enter hworking h.idle (fun _ => ⟨rfl, he⟩) hbtn (by simp), h.ordered.audio⟩

theorem Ordered.ctlToggle (h : Ordered s) (hr : ctlAt .handleToggle s = true) :
    Ordered (withEnabled (fun e s => trailFrom { s with sel := { s.sel with enabled := .set (!e) } }) s) := by
  have hq := h.quiet hr
  obtain ⟨hi, he⟩ := hq.written rfl
  rw [withEnabled_written he]
  exact ⟨hq.enter rfl hq.idle (fun _ => ⟨hi, rfl⟩) rfl fun _ => Nat.le_add_right _ _, h.audio⟩

/-- The four steps of `CTL.PERSIST` (R237). -/
theorem Coherent.persist (h : Coherent s) (hr : ctlPersistReady s = true) : Ordered (persistEffect s) := by
  simp only [ctlPersistReady, Bool.and_eq_true, ctlIdle_iff] at hr
  obtain ⟨⟨-, hidle⟩, hr⟩ := hr
  split at hr <;> simp only [persistEffect, *]
  · rename_i hp
    have hq : Quiet .persistAck s := ⟨h.ordered, hp, hidle⟩
    exact hq.drawAll rfl [(glyphMem, 4)] fun _ ht => ht.flush rfl
  · rename_i hp
    have hq : Quiet .persistForce s := ⟨h.ordered, hp, hidle⟩
    obtain ⟨hi, -⟩ := hq.written rfl
    rw [withIndex_written hi]
    have hsent := hq.sendSelection (v := ⟨s.sel.index.val, true⟩) (h.inv.index hi)
    exact (hsent.setPhase rfl (fun _ => rfl) rfl (by decide)).ordered
  · rename_i hp
    have hq : Quiet .persistWrite s := ⟨h.ordered, hp, hidle⟩
    obtain ⟨hi, he⟩ := hq.written rfl
    rw [withSelection_written hi he]
    exact Quiet.beginRead (hq.withCfg _) rfl
  · rename_i hp
    have hq : Quiet .persistHold s := ⟨h.ordered, hp, hidle⟩
    exact ⟨hq.enter rfl hq.idle (fun _ => hq.written rfl) rfl fun _ => Nat.le_add_right _ _, h.ordered.audio⟩
  · cases hr

/-! The moves. -/

/-- `fresh` is no part of `Coherent`, so a control-side step keeps the two parts where its effect does. -/
theorem takeCtl_ordered {ready : Bool} {f : State → State} (h : takeCtl ready f s = .next t) (hf : Ordered (f s)) :
    Ordered t := by
  obtain ⟨-, rfl⟩ := takeCtl_next.mp h
  exact hf

/-- Every move of the control side keeps the two parts. -/
theorem ctlMoves_ordered (hs : Coherent s) : ∀ i ∈ ctlMoves s, ∀ t, exec i s = .next t → Ordered t := by
  have ho := hs.ordered
  unfold ctlMoves
  rw [forall_mem_chosen]
  simp only [List.forall_mem_cons]
  exact
    ⟨fun hr t h => takeCtl_ordered h (ho.ctlBoot hr),
      fun hr t h => takeCtl_ordered h (ho.ctlRecovery hr),
      fun hr t h => takeCtl_ordered h ((ho.quiet hr).beginRead (issuer := .load) rfl),
      fun hr t h => takeCtl_ordered h (hs.publish hr),
      fun hr t h => takeCtl_ordered h (hs.render hr),
      fun hr t h => takeCtl_ordered h (ho.ctlWait hr),
      fun hr t h => takeCtl_ordered h ((ho.quiet hr).stepIndex (.inl rfl) indexUp),
      fun hr t h => takeCtl_ordered h ((ho.quiet hr).stepIndex (.inr rfl) indexDown),
      fun hr t h => takeCtl_ordered h (ho.ctlToggle hr),
      fun hr t h => takeCtl_ordered h (hs.persist hr),
      fun hr t h => takeCtl_ordered h (ho.btnTrail hr),
      fun hr t h => takeCtl_ordered h (ho.flRead hr),
      fun hr t h => takeCtl_ordered h (ho.flErase hr),
      fun hr t h => takeCtl_ordered h (ho.flProg hr),
      fun hr t h => takeCtl_ordered h (ho.dispFlush hr),
      fun hr t h => takeCtl_ordered h (ho.encRest hr),
      fun hr t h => takeCtl_ordered h (ho.encArm hr),
      fun hr t h => takeCtl_ordered h (ho.encFall hr),
      fun hr t h => takeCtl_ordered h (ho.encFall hr),
      fun hr t h => takeCtl_ordered h (ho.encAdvance hr),
      fun hr t h => takeCtl_ordered h (ho.encAdvance hr),
      fun hr t h => takeCtl_ordered h (ho.encAdvance hr),
      fun hr t h => takeCtl_ordered h (ho.encDrop hr),
      fun hr t h => takeCtl_ordered h (ho.encEmit hr),
      fun hr t h => takeCtl_ordered h (ho.encEmit hr),
      fun hr t h => takeCtl_ordered h (ho.btnEdge hr),
      fun hr t h => (exec_btnConfirm_next.mp h).2 ▸ ho.btnConfirm hr,
      fun hr t h => takeCtl_ordered h (ho.btnRelease hr),
      fun hr t h => takeCtl_ordered h (ho.btnTimeout hr),
      nofun⟩

end Sys2Proof.Machine
end

section
/-! PROOFS. The moves of the audio side, the passing of time and the operations of the environment keep `Coherent`; the
states after reset satisfy it. -/

namespace Sys2Proof.Machine

variable {s t : State}

/-! The audio side. -/

section
variable {count : Nat} {mbx : Mbx} {aud : Aud} {sm : Sm} {fifo : List Word32} {dma : Dma} {pdmOut : List Bool}

/-- After the first selection the part asks nothing of the pin, the FIFO and the bits shifted out. -/
theorem AudioOrder.withOutput (h : AudioOrder count mbx aud sm fifo dma pdmOut) (hph : aud.ph ≠ .waitFirst) (sm' : Sm)
    (hen : sm'.en = sm.en) (hdiv : sm'.clkdiv = sm.clkdiv) (fifo' : List Word32) (pdmOut' : List Bool) :
    AudioOrder count mbx aud sm' fifo' dma pdmOut' :=
  { h with
    loop := hdiv ▸ h.loop
    silent := fun hw => absurd hw hph
    output := hen ▸ hdiv ▸ h.output }

/-- The driver takes the selection of the mailbox, with no push in progress any more (R141, R145). -/
theorem AudioOrder.takeSelection (h : AudioOrder count mbx aud sm fifo dma pdmOut) (hfull : mbx.full = true)
    {dma' : Dma} (hbusy : dma'.busy = false) :
    AudioOrder count { mbx with full := false } { aud with sel := .set mbx.val, ph := .config } sm fifo dma'
      pdmOut where
  mailbox := nofun
  sel _ := h.mailbox hfull
  config _ := rfl
  loop := by simp
  push _ := hbusy
  race := nofun
  silent := nofun
  output := h.output
  running := h.running

end

/-- The output runs only after the first configuration (R150). -/
theorem Ordered.smPull (h : Ordered s) (hr : smPullReady s = true) : Ordered (pullWord s) := by
  simp only [smPullReady, Bool.and_eq_true] at hr
  have hph : s.aud.ph ≠ .waitFirst := fun hw => by simp [h.audio.silent hw] at hr
  exact ⟨h.control, h.audio.withOutput hph (pullWord s).sm rfl rfl _ _⟩

theorem Ordered.smShift (h : Ordered s) (hr : smShiftReady s = true) : Ordered (shiftBit s) := by
  simp only [smShiftReady, Bool.and_eq_true] at hr
  have hph : s.aud.ph ≠ .waitFirst := fun hw => by simp [h.audio.silent hw] at hr
  exact ⟨h.control, h.audio.withOutput hph (shiftBit s).sm rfl rfl _ _⟩

/-- After a word a push is still in progress, or it is done (R138, R139). -/
theorem dmaAfterWord_busy_or_done (p : Params) {d : Dma} (h : d.busy = true) :
    (dmaAfterWord p d).busy = true ∨ (dmaAfterWord p d).done = true := by
  unfold dmaAfterWord
  split
  · exact .inr rfl
  · exact .inl h

/-- Words are moved in `RACE` alone (R143 to R145). -/
theorem Ordered.dmaXfer (h : Ordered s) (hr : dmaXferReady s = true) (w : Word32) :
    Ordered { s with
      fifo := s.fifo ++ [w]
      dma := dmaAfterWord s.par.val s.dma
      rom := { s.rom with read := true } } := by
  simp only [dmaXferReady, Bool.and_eq_true] at hr
  obtain ⟨⟨-, hbusy⟩, -⟩ := hr
  have hfirst : s.aud.ph ≠ .waitFirst := fun hw => by simp [h.audio.silent hw] at hbusy
  have hpush : ¬(s.aud.ph = .config ∨ s.aud.ph = .push) := fun hp => by simp [h.audio.push hp] at hbusy
  exact
    ⟨h.control, { h.audio with
      push := fun hp => absurd hp hpush
      race := fun _ => dmaAfterWord_busy_or_done _ hbusy
      silent := fun hw => absurd hw hfirst }⟩

theorem Ordered.audStart (h : Ordered s) (hr : audStartReady s = true) : Ordered (takeSelection s) := by
  simp only [audStartReady, Bool.and_eq_true, beq_iff_eq] at hr
  obtain ⟨⟨-, hw⟩, hfull⟩ := hr
  obtain ⟨-, -, -, -, hbusy⟩ := h.audio.silent hw
  exact ⟨h.control, h.audio.takeSelection hfull hbusy⟩

/-- A selection in range has a divider, so no configuration raises a fault (R9, R256). -/
theorem Ordered.audConfig (h : Ordered s) (hnext : exec .audConfig s = .next t) : Ordered t := by
  obtain ⟨hr, hcases⟩ := exec_audConfig_next.mp hnext
  simp only [audConfigReady, Bool.and_eq_true, beq_iff_eq] at hr
  have hsel := h.audio.config hr.2
  obtain ⟨f, -, hpair⟩ := calcDivider_valid s.par.valid (h.audio.sel hsel)
  simp only [hsel, hpair, reduceCtorEq, false_and, true_and, false_or, DivResult.pair.injEq] at hcases
  obtain ⟨b, d, -, rfl⟩ := hcases
  exact
    ⟨h.control, { h.audio with
      config := nofun
      loop := fun _ => ⟨rfl, rfl⟩
      push := fun _ => h.audio.push (.inl hr.2)
      race := nofun
      silent := nofun
      output := fun _ => rfl }⟩

/-- The table of a push is one that `AUD.CONFIG` has chosen (R143, R48). -/
theorem Ordered.audPush (h : Ordered s) (hr : audPushReady s = true) : Ordered (pushTable s) := by
  simp only [audPushReady, Bool.and_eq_true, beq_iff_eq] at hr
  obtain ⟨htable, hdiv⟩ := h.audio.loop (.inl hr.1.2)
  unfold pushTable
  rw [if_pos htable]
  exact
    ⟨h.control, { h.audio with
      config := nofun
      loop := fun _ => ⟨htable, hdiv⟩
      push := by simp
      race := fun _ => .inl rfl
      silent := nofun }⟩

/-- A push that is done is not in progress (R139, R144). -/
theorem Coherent.audRearm (h : Coherent s) (hr : audRearmReady s = true) :
    Ordered { s with dma := { s.dma with done := false }, aud := { s.aud with ph := .push } } := by
  simp only [audRearmReady, Bool.and_eq_true, beq_iff_eq] at hr
  obtain ⟨⟨-, hrace⟩, hdone⟩ := hr
  have hbusy : s.dma.busy = false := Bool.eq_false_iff.mpr fun hb => by simp [h.inv.dmaBusy hb] at hdone
  exact
    ⟨h.ordered.control, { h.ordered.audio with
      config := nofun
      loop := fun _ => h.ordered.audio.loop (.inr hrace)
      push := fun _ => hbusy
      race := nofun
      silent := nofun }⟩

theorem Ordered.audPreempt (h : Ordered s) (hr : audPreemptReady s = true) : Ordered (takeSelection (abortDma s)) := by
  simp only [audPreemptReady, Bool.and_eq_true, beq_iff_eq] at hr
  exact ⟨h.control, h.audio.takeSelection hr.2 rfl⟩

/-- Every move of the audio side keeps the two parts. -/
theorem audMoves_ordered (hs : Coherent s) : ∀ i ∈ audMoves s, ∀ t, exec i s = .next t → Ordered t := by
  have ho := hs.ordered
  unfold audMoves
  rw [forall_mem_chosen]
  simp only [List.forall_mem_cons]
  exact
    ⟨fun hr t h => (exec_smPull_next.mp h).2 ▸ ho.smPull hr,
      fun hr t h => (exec_smShift_next.mp h).2 ▸ ho.smShift hr,
      fun hr t h => by
        obtain ⟨-, w, -, rfl⟩ := exec_dmaXfer_next.mp h
        exact ho.dmaXfer hr w,
      fun hr t h => (exec_audStart_next.mp h).2 ▸ ho.audStart hr,
      fun _ t h => ho.audConfig h,
      fun hr t h => (exec_audPush_next.mp h).2 ▸ ho.audPush hr,
      fun hr t h => (exec_audRearm_next.mp h).2 ▸ hs.audRearm hr,
      fun hr t h => (exec_audPreempt_next.mp h).2 ▸ ho.audPreempt hr,
      nofun⟩

/-! Time (R11, R279): where a deadline is reached there is an operation to take, so no tick passes it. -/

/-- At the end of a decoder's delay the control side has an operation (R173, R178). -/
theorem ctlMoves_ne_nil_of_enc (h : Ordered s) (he : s.enc.st = .restSettle ∨ s.enc.st = .finalSettle)
    (hd : s.now = s.enc.deadline) : ctlMoves s ≠ [] := by
  have hw : s.ctl.ph = .wait := h.control.encoder (by rcases he with he | he <;> simp [he])
  have hlive : ctlLive s = true := by simp [ctlLive, hw]
  rcases he with he | he
  · have hr : encArmReady s = true := by simp [encArmReady, hlive, he, hd]
    exact List.ne_nil_of_mem (a := .encArm) (by simp [ctlMoves, chosen, hr])
  · have hr : encEmitReady s.enc.dir s = true := by simp [encEmitReady, hlive, he, hd]
    refine List.ne_nil_of_mem (a := .encEmit s.enc.dir) ?_
    cases hdir : s.enc.dir <;> rw [hdir] at hr <;> simp [ctlMoves, chosen, hr]

/-- At the end of a classifier's delay the control side has an operation (R193, R195). -/
theorem ctlMoves_ne_nil_of_btn (h : Coherent s) (hb : s.btn.st = .debounce ∨ s.btn.st = .held)
    (hd : s.now = s.btn.deadline) : ctlMoves s ≠ [] := by
  have hhalt : s.ctl.ph ≠ .halt := by
    intro hp
    obtain ⟨-, -, hoff, -⟩ := h.inv.halt hp
    simp [hoff] at hb
  have hph : s.ctl.ph = .btnActive := by
    rcases hb with hb | hb <;> simpa [buttonPhase, hb, hhalt] using h.button
  have hlive : ctlLive s = true := by simp [ctlLive, hph]
  rcases hb with hb | hb
  · have hr : btnConfirmReady s = true := by simp [btnConfirmReady, hlive, hb, hd]
    exact List.ne_nil_of_mem (a := .btnConfirm) (by simp [ctlMoves, chosen, hr])
  · have hr : btnTimeoutReady s = true := by simp [btnTimeoutReady, hlive, hb, hd]
    exact List.ne_nil_of_mem (a := .btnTimeout) (by simp [ctlMoves, chosen, hr])

/-- The operation that goes on under its own word at the end of a wait (assumption log 10). -/
def resumedBy : Busy → Instr
  | .flRead _ => .flRead
  | .eraseNext _ | .flErase _ => .flErase
  | .progNext _ | .flProg _ => .flProg
  | .flush _ => .dispFlush
  | .publish => .ctlPublish
  | .render => .ctlRender

/-- At the end of its wait an operation can go on. -/
theorem resumedBy_mem_ctlMoves {b : Busy} (hb : s.ctl.busy = some b) (hlive : ctlLive s = true)
    (hd : ctlDue s = true) : resumedBy b ∈ ctlMoves s := by
  cases b with
  | flRead _ =>
    have hr : readDue s = true := by simp [readDue, hb, hlive, hd]
    simp [ctlMoves, chosen, resumedBy, hr]
  | eraseNext _ | flErase _ =>
    have hr : eraseDue s = true := by simp [eraseDue, hb, hlive, hd]
    simp [ctlMoves, chosen, resumedBy, hr]
  | progNext _ | flProg _ =>
    have hr : progDue s = true := by simp [progDue, hb, hlive, hd]
    simp [ctlMoves, chosen, resumedBy, hr]
  | flush _ =>
    have hr : flushDue s = true := by simp [flushDue, hb, hlive, hd]
    simp [ctlMoves, chosen, resumedBy, hr]
  | publish =>
    have hr : ctlPublishReady s = true := by simp [ctlPublishReady, hb, hlive, hd]
    simp [ctlMoves, chosen, resumedBy, hr]
  | render =>
    have hr : ctlRenderReady s = true := by simp [ctlRenderReady, hb, hlive, hd]
    simp [ctlMoves, chosen, resumedBy, hr]

/-- At `CTL.deadline` the control side has an operation, where it waits for that tick (R11, R197, R237). -/
theorem ctlMoves_ne_nil_of_ctl (h : Ordered s)
    (hwait : s.ctl.busy ≠ none ∨ s.ctl.ph = .persistHold ∨ s.ctl.ph = .trail) (hd : s.now = s.ctl.deadline) :
    ctlMoves s ≠ [] := by
  have hdue : ctlDue s = true := by simp [ctlDue, hd]
  cases hb : s.ctl.busy with
  | some b =>
    have hp := working_of_busyPhase (h.control.busy b hb)
    simp only [working, Bool.and_eq_true] at hp
    exact List.ne_nil_of_mem (resumedBy_mem_ctlMoves hb (Bool.and_eq_true_iff.mpr hp.1) hdue)
  | none =>
    rcases hwait with hn | hp | hp
    · exact absurd hb hn
    · have hr : ctlPersistReady s = true := by simp [ctlPersistReady, ctlIdle, ctlLive, hb, hp, hdue]
      exact List.ne_nil_of_mem (a := .ctlPersist) (by simp [ctlMoves, chosen, hr])
    · have hr : btnTrailReady s = true := by simp [btnTrailReady, ctlAt, ctlIdle, ctlLive, hb, hp, hdue]
      exact List.ne_nil_of_mem (a := .btnTrail) (by simp [ctlMoves, chosen, hr])

/-- A tick that can pass goes past no deadline (R11). -/
theorem Coherent.tick (h : Coherent s) (hr : tickReady s = true) : Coherent (tick s) := by
  have hnil : ctlMoves s = [] := by simpa [tickReady, h.faults.1] using hr
  have ho := h.ordered
  exact coherent_iff.mpr
    ⟨h.inv.tick,
      { ho.control with
        encTimer := fun he =>
          Nat.lt_of_le_of_ne (h.encTimer he) fun hd => ctlMoves_ne_nil_of_enc ho he hd hnil
        btnTimer := fun hb =>
          Nat.lt_of_le_of_ne (h.btnTimer hb) fun hd => ctlMoves_ne_nil_of_btn h hb hd hnil
        ctlTimer := fun hw =>
          Nat.lt_of_le_of_ne (h.ctlTimer hw) fun hd => ctlMoves_ne_nil_of_ctl ho hw hd hnil },
      ho.audio⟩

/-- Ticks that can pass keep whatever one that can pass keeps. -/
theorem advance_induct_ready {P : State → Prop} (step : ∀ u, P u → tickReady u = true → P (tick u)) {n : Nat}
    {s t : State} (hs : P s) (h : advance n s = some t) : P t := by
  induction n generalizing s with
  | zero => cases h; exact hs
  | succ n ih =>
    rw [advance] at h
    split at h
    · rename_i hr
      exact ih (step s hs hr) h
    · cases h

/-! The environment and the generator. -/

/-- No answer of the environment is part of `Coherent`. -/
theorem Coherent.withEnv (h : Coherent s) (e : Draws) : Coherent { s with env := e } :=
  coherent_iff.mpr ⟨h.inv.withEnv e, h.ordered⟩

/-- No schedule is part of `Coherent`. -/
theorem Coherent.withScript (h : Coherent s) (l : List OpWord) : Coherent { s with script := l } :=
  coherent_iff.mpr ⟨h.inv.withScript l, h.ordered⟩

/-- The machine after power-on has nothing in progress, nothing running and nothing written (R47, R290). -/
theorem powerOn_ordered (p : ValidParams) (r : Rom) (m : Memory) (l : Lines) (w : List OpWord) (e : Draws) :
    Ordered (State.powerOn p r m l w e) where
  left :=
    { selWritten := nofun
      encoder := fun he => absurd rfl he
      button := .inr rfl
      race := nofun
      busy := nofun
      erased := by simp [State.powerOn]
      faults := nofun
      reflashOnly := nofun
      encTimer := fun _ => Nat.zero_le _
      btnTimer := fun _ => Nat.zero_le _
      ctlTimer := fun _ => Nat.zero_le _ }
  right :=
    { mailbox := nofun
      sel := nofun
      config := nofun
      loop := by simp [State.powerOn]
      push := fun _ => rfl
      race := nofun
      silent := fun _ => ⟨rfl, rfl, rfl, rfl, rfl⟩
      output := nofun
      running := rfl }

/-- Every operation of the environment and the generator keeps `Coherent`. -/
theorem exec_outside_coherent {i : Instr} (hi : isOutside i = true) (hs : Coherent s) (h : exec i s = .next t) :
    Coherent t := by
  cases i with
  | envAdv ticks => exact advance_induct_ready (fun _ hu hr => hu.tick hr) hs (exec_envAdv_next.mp h).2
  | envReset =>
    refine coherent_iff.mpr ⟨exec_stateInv hs.inv h, ?_⟩
    obtain rfl := exec_envReset_next.mp h
    exact powerOn_ordered _ _ _ _ _ _
  | envLine line level =>
    refine coherent_iff.mpr ⟨exec_stateInv hs.inv h, ?_⟩
    obtain ⟨-, rfl⟩ := exec_envLine_next.mp h
    exact hs.ordered
  | genPdmgen =>
    refine coherent_iff.mpr ⟨exec_stateInv hs.inv h, ?_⟩
    obtain ⟨-, rfl⟩ := exec_genPdmgen_next.mp h
    exact hs.ordered
  | genPdmgen8 =>
    refine coherent_iff.mpr ⟨exec_stateInv hs.inv h, ?_⟩
    obtain ⟨-, rfl⟩ := exec_genPdmgen8_next.mp h
    exact hs.ordered
  | _ => cases hi

/-- Every move keeps `Coherent`. -/
theorem moves_coherent (hs : Coherent s) {i : Instr} (hi : i ∈ moves s) (h : exec i s = .next t) : Coherent t := by
  unfold moves at hi
  rcases List.mem_append.mp hi with hi | hi
  · refine coherent_iff.mpr ⟨exec_stateInv hs.inv h, ?_⟩
    rcases List.mem_append.mp hi with hi | hi
    · exact ctlMoves_ordered hs i hi t h
    · exact audMoves_ordered hs i hi t h
  · have htick : i = .envAdv 1 := by
      split at hi
      · exact List.mem_singleton.mp hi
      · cases hi
    exact exec_outside_coherent (by rw [htick]; rfl) hs h

/-- Settles O10: a step is a move of the block, or a scheduled operation of its environment. -/
theorem blockStepsKeepCoherent : Obligations.BlockStepsKeepCoherent := by
  intro s t hs houtside hstep
  rcases step_next_cases hstep with ⟨w, hw, i, rest, hdecode, h⟩ | ⟨i, hi, n, h⟩
  · obtain ⟨j, hj, hout⟩ := houtside w hw
    obtain rfl : i = j := Except.ok.inj (hdecode.symm.trans hj)
    exact exec_outside_coherent hout (hs.withScript rest) h
  · exact moves_coherent (hs.withEnv { s.env with count := n }) hi h

/-! Reset. -/

/-- The machine after power-on, with whole tables and a canonical `FLASH`, satisfies `Coherent` (R47, R290). -/
theorem powerOn_coherent {p : ValidParams} {r : Rom} {m : Memory} (hr : romValid p.val r = true)
    (hm : Memory.wf m = true) (l : Lines) (w : List OpWord) (e : Draws) : Coherent (State.powerOn p r m l w e) :=
  coherent_iff.mpr ⟨powerOn_stateInv hr hm l w e, powerOn_ordered p r m l w e⟩

/-- The configured tables are whole (R61). -/
theorem configuredRom_valid (p : Params) : romValid p (configuredRom p) = true := by
  cases hd : p.dualTable <;> simp [romValid, configuredRom, configuredTable, hd]

/-- Settles O11: power-on satisfies both invariants, and `State.reset` is a power-on with whole tables. -/
theorem resetStatesAreCoherent : Obligations.ResetStatesAreCoherent := by
  have hreset : Coherent State.reset := powerOn_coherent (configuredRom_valid _) wf_nil _ _ _
  exact
    ⟨fun _ _ _ l w e hr hm => ⟨powerOn_stateInv hr hm l w e, powerOn_coherent hr hm l w e⟩, hreset.inv, hreset⟩

end Sys2Proof.Machine
end

section
/-! PROOFS. Encoding and decoding are inverse to each other: first how a word falls into fields, then one lemma for each
argument format, then the opcode map (spec/30_encoding.md R91, R92, R106). -/

namespace Sys2Proof

/-! Fields of a bit vector. -/

/-- A bit vector is a concatenation exactly when its two parts are the ones concatenated. -/
theorem eq_append_iff (m n : Nat) {x : BitVec (m + n)} {y : BitVec m} {z : BitVec n} :
    x = y ++ z ↔ x.extractLsb' n m = y ∧ x.extractLsb' 0 n = z := by
  constructor
  · rintro rfl
    exact ⟨BitVec.extractLsb'_append_eq_left, BitVec.extractLsb'_append_eq_right⟩
  · rintro ⟨rfl, rfl⟩
    exact BitVec.extractLsb'_append_extractLsb'.symm

/-- A field of a field. -/
theorem extractLsb'_extractLsb' {n start len s l : Nat} (x : BitVec n) (h : s + l ≤ len) :
    (x.extractLsb' start len).extractLsb' s l = x.extractLsb' (start + s) l := by
  ext i hi
  have : s + i < len := by omega
  simp [this, Nat.add_assoc]

/-- A field of one bit. -/
theorem extractLsb'_one_eq_ofBool_iff {n i : Nat} {x : BitVec n} {b : Bool} :
    x.extractLsb' i 1 = BitVec.ofBool b ↔ x.getLsbD i = b := by
  rw [BitVec.getLsbD_eq_extractLsb']
  generalize x.extractLsb' i 1 = y
  revert y b
  decide

/-- `lineOf` and `lineCode` are inverse to each other (R102). -/
theorem eq_lineCode_iff {v : BitVec 2} {line : LineId} : v = lineCode line ↔ lineOf v = line := by
  cases line <;> revert v <;> decide

/-! Words and arguments, by their fields (R91, R92). -/

theorem eq_opWord {w : OpWord} {o : Byte} {a : Arg} (ho : opOf w = o) (ha : argOf w = a) : w = opWord o a := by
  rw [← ho, ← ha, opWord_opOf_argOf]

theorem eq_argS_iff {a : Arg} {en : Bool} {idx : Word32} :
    a = argS en idx ↔ (a.extractLsb' 33 7 = 0 ∧ a.getLsbD 32 = en) ∧ a.extractLsb' 0 32 = idx := by
  rw [argS, eq_append_iff 8 32, eq_append_iff 7 1, extractLsb'_extractLsb' _ (by decide),
    extractLsb'_extractLsb' _ (by decide), extractLsb'_one_eq_ofBool_iff]
  rfl

theorem eq_argV_iff {a : Arg} {val : Word32} : a = argV val ↔ a.extractLsb' 32 8 = 0 ∧ a.extractLsb' 0 32 = val :=
  eq_append_iff 8 32

theorem eq_argB_iff {a : Arg} {b : Bool} : a = argB b ↔ a.extractLsb' 1 39 = 0 ∧ a.getLsbD 0 = b :=
  (eq_append_iff 39 1).trans (and_congr_right' extractLsb'_one_eq_ofBool_iff)

theorem eq_argL_iff {a : Arg} {line : LineId} {level : Bool} :
    a = argL line level ↔ (a.extractLsb' 10 30 = 0 ∧ lineOf (a.extractLsb' 8 2) = line) ∧
      a.extractLsb' 1 7 = 0 ∧ a.getLsbD 0 = level := by
  rw [argL, eq_append_iff 32 8, eq_append_iff 30 2, eq_append_iff 7 1, extractLsb'_extractLsb' _ (by decide),
    extractLsb'_extractLsb' _ (by decide), extractLsb'_extractLsb' _ (by decide), extractLsb'_extractLsb' _ (by decide),
    eq_lineCode_iff, extractLsb'_one_eq_ofBool_iff]
  rfl

theorem eq_argG_iff {a : Arg} {glyph : Glyph} {slot : Slot} :
    a = argG glyph slot ↔ (a.extractLsb' 16 24 = 0 ∧ a.extractLsb' 8 8 = glyph) ∧ a.extractLsb' 0 8 = slot := by
  rw [argG, eq_append_iff 32 8, eq_append_iff 24 8, extractLsb'_extractLsb' _ (by decide),
    extractLsb'_extractLsb' _ (by decide)]
  rfl

theorem eq_argC_iff {a : Arg} {code : Byte} : a = argC code ↔ a.extractLsb' 8 32 = 0 ∧ a.extractLsb' 0 8 = code :=
  eq_append_iff 32 8

/-! The formats: which arguments each accepts, and with which fields (R92). -/

theorem formZ_eq_some_iff {a : Arg} {j i : Instr} : formZ a j = some i ↔ a = argZ ∧ j = i := by
  simp [formZ, argZ]

theorem formS_eq_some_iff {a : Arg} {k : Bool → Word32 → Instr} {i : Instr} :
    formS a k = some i ↔ ∃ en idx, a = argS en idx ∧ k en idx = i := by
  simp [formS, eq_argS_iff, and_assoc]

theorem formV_eq_some_iff {a : Arg} {k : Word32 → Instr} {i : Instr} :
    formV a k = some i ↔ ∃ val, a = argV val ∧ k val = i := by
  simp [formV, eq_argV_iff, and_assoc]

theorem formB_eq_some_iff {a : Arg} {k : Bool → Instr} {i : Instr} :
    formB a k = some i ↔ ∃ b, a = argB b ∧ k b = i := by
  simp [formB, eq_argB_iff, and_assoc]

theorem formL_eq_some_iff {a : Arg} {k : LineId → Bool → Instr} {i : Instr} :
    formL a k = some i ↔ ∃ line level, a = argL line level ∧ k line level = i := by
  simp [formL, eq_argL_iff, and_assoc]

theorem formG_eq_some_iff {a : Arg} {k : Glyph → Slot → Instr} {i : Instr} :
    formG a k = some i ↔ ∃ glyph slot, a = argG glyph slot ∧ k glyph slot = i := by
  simp [formG, eq_argG_iff, and_assoc]

theorem formC_eq_some_iff {a : Arg} {k : Byte → Instr} {i : Instr} :
    formC a k = some i ↔ ∃ code, a = argC code ∧ k code = i := by
  simp [formC, eq_argC_iff, and_assoc]

theorem formT_eq_some_iff {a : Arg} {k : BitVec 40 → Instr} {i : Instr} :
    formT a k = some i ↔ ∃ ticks, a = argT ticks ∧ k ticks = i := by
  simp [formT, argT]

/-! The opcode map (R106). -/

/-- The word of an operation, with any fields, names that operation. -/
theorem operationOf_encode (i : Instr) : operationOf (encode i) = some i := by
  cases i <;> rw [encode, operationOf, opOf_opWord, argOf_opWord]
  case envLine line level => exact formL_eq_some_iff.mpr ⟨line, level, rfl, rfl⟩
  case envAdv ticks => exact formT_eq_some_iff.mpr ⟨ticks, rfl, rfl⟩
  case divCalc val | smSetdiv val => exact formV_eq_some_iff.mpr ⟨val, rfl, rfl⟩
  case smEnable b | dmaArm b | encFall b | encEmit b => exact formB_eq_some_iff.mpr ⟨b, rfl, rfl⟩
  case mbxSend en idx | cfgWrite en idx => exact formS_eq_some_iff.mpr ⟨en, idx, rfl, rfl⟩
  case encAdvance code | fault code => exact formC_eq_some_iff.mpr ⟨code, rfl, rfl⟩
  case dispDraw glyph slot => exact formG_eq_some_iff.mpr ⟨glyph, slot, rfl, rfl⟩
  all_goals exact formZ_eq_some_iff.mpr ⟨rfl, rfl⟩

/-- A word that names an operation has no bit outside its fields. The case `h_n` is row `n` of R106. -/
theorem eq_encode_of_operationOf {w : OpWord} {i : Instr} (h : operationOf w = some i) : w = encode i := by
  unfold operationOf at h
  split at h
  case h_2 =>
    obtain ⟨line, level, ha, rfl⟩ := formL_eq_some_iff.mp h
    exact eq_opWord ‹_› ha
  case h_3 =>
    obtain ⟨ticks, ha, rfl⟩ := formT_eq_some_iff.mp h
    exact eq_opWord ‹_› ha
  case h_6 | h_7 =>
    obtain ⟨val, ha, rfl⟩ := formV_eq_some_iff.mp h
    exact eq_opWord ‹_› ha
  case h_8 | h_11 | h_24 | h_27 =>
    obtain ⟨b, ha, rfl⟩ := formB_eq_some_iff.mp h
    exact eq_opWord ‹_› ha
  case h_14 | h_37 =>
    obtain ⟨en, idx, ha, rfl⟩ := formS_eq_some_iff.mp h
    exact eq_opWord ‹_› ha
  case h_25 | h_53 =>
    obtain ⟨code, ha, rfl⟩ := formC_eq_some_iff.mp h
    exact eq_opWord ‹_› ha
  case h_51 =>
    obtain ⟨glyph, slot, ha, rfl⟩ := formG_eq_some_iff.mp h
    exact eq_opWord ‹_› ha
  case h_54 => cases h
  all_goals
    obtain ⟨ha, rfl⟩ := formZ_eq_some_iff.mp h
    exact eq_opWord ‹_› ha

theorem operationOf_eq_some_iff {w : OpWord} {i : Instr} : operationOf w = some i ↔ w = encode i :=
  ⟨eq_encode_of_operationOf, fun h => h ▸ operationOf_encode i⟩

theorem operationOf_eq_none_iff {w : OpWord} : operationOf w = none ↔ ∀ i, encode i ≠ w := by
  simp only [Option.eq_none_iff_forall_ne_some, ne_eq, operationOf_eq_some_iff, eq_comm (a := w)]

/-! The decoder (R107). -/

theorem decode_eq_ok_iff {w : OpWord} {i : Instr} : decode w = .ok i ↔ operationOf w = some i := by
  unfold decode
  cases operationOf w <;> simp

/-- A word that is no operation's is refused, under the name that its identifier decides. -/
theorem decode_of_operationOf_none {w : OpWord} (h : operationOf w = none) :
    decode w = .error (if opOf w ∈ Machine.operationIds then .reservedBits (opOf w) else .unknownOp (opOf w)) := by
  simp only [decode, h, knownOp_iff]

/-- Settles O2: the opcode map and the formats lose no bit of an operation's word. -/
theorem decodeOfEncode : Obligations.DecodeOfEncode :=
  fun i => decode_eq_ok_iff.mpr (operationOf_encode i)

/-- Settles O3: each row of the opcode map accepts the words of its operation alone. -/
theorem encodeOfDecode : Obligations.EncodeOfDecode :=
  fun _ _ h => (eq_encode_of_operationOf (decode_eq_ok_iff.mp h)).symm

/-- Settles O1: each word is `encode` of the operation beside it. -/
theorem wordsDecodeToTheirOperations : Obligations.WordsDecodeToTheirOperations :=
  ⟨decodeOfEncode .envReset, decodeOfEncode (.envLine .lineBtn false), decodeOfEncode (.envAdv 5),
    decodeOfEncode .genPdmgen8, decodeOfEncode (.divCalc 50), decodeOfEncode (.smSetdiv 0x38EF8),
    decodeOfEncode (.dmaArm true), decodeOfEncode (.mbxSend true 5), decodeOfEncode .audPreempt,
    decodeOfEncode (.encFall true), decodeOfEncode (.encAdvance 2), decodeOfEncode .btnTimeout,
    decodeOfEncode (.cfgWrite false 5), decodeOfEncode .ctlPersist, decodeOfEncode (.dispDraw 14 4),
    decodeOfEncode (.fault 2)⟩

end Sys2Proof
end

section
/-! PROOFS. A step on a scheduled word (assumption log 1). -/

namespace Sys2Proof.Machine

/-- Settles O5: `step` decodes the first scheduled word and runs what it names. -/
theorem stepRunsTheScheduledWord : Obligations.StepRunsTheScheduledWord := by
  intro s w rest i hscript hdecode
  simp only [step, hscript, hdecode]

/-- A step on a word that names no operation is refused (R107). -/
theorem step_undecodable {s : State} {w : OpWord} {rest : List OpWord} {e : DecodeError}
    (hscript : s.script = w :: rest) (hdecode : decode w = .error e) : step s = .refused (.undecodable e) := by
  simp only [step, hscript, hdecode]

/-- Settles O4: a word that encodes no operation is refused by the decoder, and so by the step. -/
theorem illegalWordsAreRefusedByName : Obligations.IllegalWordsAreRefusedByName := by
  intro w hw
  have hdecode := decode_of_operationOf_none (operationOf_eq_none_iff.mpr hw)
  refine ⟨_, hdecode, ?_, fun s rest hscript => step_undecodable hscript hdecode⟩
  by_cases hop : opOf w ∈ operationIds
  · exact .inr ⟨if_pos hop, hop⟩
  · exact .inl ⟨if_neg hop, hop⟩

/-- Scheduling a 48-bit word puts it first. -/
theorem withFetchWord_eq (s : State) (w : OpWord) :
    s.withFetchWord 48 w.toNat = { s with script := w :: s.script } := by
  rw [State.withFetchWord, scheduleWord, Nat.mod_eq_of_lt w.isLt, BitVec.ofNat_toNat, BitVec.setWidth_eq]

/-- Settles O6: the word put first decodes to its operation, and the step takes it off again. -/
theorem everyOperationCanBeScheduled : Obligations.EveryOperationCanBeScheduled := by
  intro i s
  rw [withFetchWord_eq]
  exact stepRunsTheScheduledWord _ _ _ i rfl (decodeOfEncode i)

end Sys2Proof.Machine
end

section
/-! PROOFS. The persisted record: decoding by cases, and the round trip (spec/30_encoding.md R93 to R95). -/

namespace Sys2Proof.Machine

/-- The four bytes of a word, most significant first, make up the word (R69). -/
theorem append_bytes_eq (x : Word32) :
    (x.extractLsb' 24 8 ++ x.extractLsb' 16 8) ++ (x.extractLsb' 8 8 ++ x.extractLsb' 0 8) = x := by
  have hhi : x.extractLsb' 24 8 ++ x.extractLsb' 16 8 = x.extractLsb' 16 16 :=
    BitVec.extractLsb'_append_extractLsb'_eq_extractLsb' rfl
  have hlo : x.extractLsb' 8 8 ++ x.extractLsb' 0 8 = x.extractLsb' 0 16 :=
    BitVec.extractLsb'_append_extractLsb'_eq_extractLsb' rfl
  rw [hhi, hlo]
  exact BitVec.extractLsb'_append_extractLsb'

/-- The table of cases of R94, on eight bytes. -/
theorem decodeRecord_bytes (p : Params) (b0 b1 b2 b3 b4 b5 b6 b7 : Byte) :
    decodeRecord p [b0, b1, b2, b3, b4, b5, b6, b7] =
      if toneCount p ≤ (b3 ++ b2 ++ (b1 ++ b0)).toNat then ⟨0, true⟩
      else if b4 = 0x01 then ⟨b3 ++ b2 ++ (b1 ++ b0), true⟩
      else if b4 = 0x00 then ⟨b3 ++ b2 ++ (b1 ++ b0), false⟩ else ⟨0, true⟩ := rfl

/-- Decoding an encoded record in range gives it back (R95). -/
theorem decodeRecord_encodeRecord {p : Params} {c : Selection} (h : c.index.toNat < toneCount p) :
    decodeRecord p (encodeRecord c) = c := by
  obtain ⟨index, enabled⟩ := c
  rw [encodeRecord, decodeRecord_bytes, append_bytes_eq, if_neg (Nat.not_le.mpr h)]
  cases enabled <;> rfl

/-- Settles O43: the cases of R94, the bytes of R95, and the round trip. -/
theorem recordRoundTrip : Obligations.RecordRoundTrip := by
  refine ⟨fun p b0 b1 b2 b3 b4 b5 b6 b7 idx hidx => ?_, fun _ => rfl, fun _ _ => decodeRecord_encodeRecord⟩
  have hbytes : idx = b3 ++ b2 ++ (b1 ++ b0) := hidx.trans BitVec.append_assoc
  rw [decodeRecord_bytes, hbytes]

end Sys2Proof.Machine
end

section
/-! PROOFS. The `when` clauses of the audio side where it has not halted (spec/40_pdm_generator.md R130 to R145), and
what an operation answers where its clause is false. -/

namespace Sys2Proof.Machine

/-- Where the `when` clause does not hold there is no transition (R14). -/
theorem take_refused {ready : Bool} (f : State → State) (s : State) (h : ¬ready = true) :
    take ready f s = .refused .notEnabled :=
  take_not_ready f s (Bool.eq_false_of_not_eq_true h)

variable {s : State}

/-- `DMA.XFER` outside its `when` clause (R138). -/
theorem exec_dmaXfer_refused (h : ¬dmaXferReady s = true) : exec .dmaXfer s = .refused .notEnabled := by
  simp only [exec, execDmaXfer, if_neg h]

theorem audLive_of_running (hrun : s.aud.halted = false) : audLive s = true := by
  rw [audLive, hrun, Bool.not_false]

theorem setDivReady_iff (hrun : s.aud.halted = false) {v : Word32} :
    setDivReady v s = true ↔ s.sm.en = false ∧ 256 ≤ v.toNat := by
  simp [setDivReady, audLive_of_running hrun]

theorem smPullReady_iff (hrun : s.aud.halted = false) :
    smPullReady s = true ↔ s.sm.en = true ∧ s.sm.osrCnt = 0 ∧ s.fifo ≠ [] := by
  simp [smPullReady, audLive_of_running hrun, and_assoc]

theorem smShiftReady_iff (hrun : s.aud.halted = false) :
    smShiftReady s = true ↔ s.sm.en = true ∧ 0 < s.sm.osrCnt := by
  simp [smShiftReady, audLive_of_running hrun]

theorem dmaArmReady_iff (hrun : s.aud.halted = false) {b : Bool} :
    dmaArmReady b s = true ↔ s.dma.busy = false ∧ (b = true → s.par.val.dualTable = true) := by
  cases b <;> simp [dmaArmReady, audLive_of_running hrun]

theorem dmaXferReady_iff (hrun : s.aud.halted = false) :
    dmaXferReady s = true ↔ s.dma.busy = true ∧ s.fifo.length < s.par.val.fifoDepth := by
  simp [dmaXferReady, audLive_of_running hrun]

theorem audStartReady_iff (hrun : s.aud.halted = false) :
    audStartReady s = true ↔ s.aud.ph = .waitFirst ∧ s.mbx.full = true := by
  simp [audStartReady, audLive_of_running hrun]

theorem audConfigReady_iff (hrun : s.aud.halted = false) : audConfigReady s = true ↔ s.aud.ph = .config := by
  simp [audConfigReady, audLive_of_running hrun]

theorem audPushReady_iff (hrun : s.aud.halted = false) :
    audPushReady s = true ↔
      s.aud.ph = .push ∧ (s.aud.tableSel.written = true → dmaArmReady s.aud.tableSel.val s = true) := by
  cases hw : s.aud.tableSel.written <;> simp [audPushReady, audLive_of_running hrun, hw]

theorem audRearmReady_iff (hrun : s.aud.halted = false) :
    audRearmReady s = true ↔ s.aud.ph = .race ∧ s.dma.done = true := by
  simp [audRearmReady, audLive_of_running hrun]

theorem audPreemptReady_iff (hrun : s.aud.halted = false) :
    audPreemptReady s = true ↔ s.aud.ph = .race ∧ s.mbx.full = true := by
  simp [audPreemptReady, audLive_of_running hrun]

end Sys2Proof.Machine
end

section
/-! PROOFS. Several operations in a row. -/

namespace Sys2Proof.Machine

theorem runOps_cons {i : Instr} {is : List Instr} {s t : State} (h : exec i s = .next t) :
    runOps (i :: is) s = runOps is t := by
  simp only [runOps, h]

/-- One operation over and over, where the states it goes through are known. -/
theorem runOps_replicate {i : Instr} {n : Nat} {run : Nat → State}
    (h : ∀ k < n, exec i (run k) = .next (run (k + 1))) : runOps (List.replicate n i) (run 0) = .next (run n) := by
  induction n generalizing run with
  | zero => rfl
  | succ n ih =>
    rw [List.replicate_succ, runOps_cons (h 0 n.succ_pos)]
    exact ih (run := fun k => run (k + 1)) fun k hk => h (k + 1) (Nat.succ_lt_succ hk)

end Sys2Proof.Machine
end

section
/-! PROOFS. The divider of a tone (spec/40_pdm_generator.md R126 to R129): what a valid parameter assignment says of it,
what `DIV.CALC` makes of it, and that it falls as the tone rises. -/

namespace Sys2Proof.Machine

/-- Every tone of a valid parameter assignment has a legal divider (R9). -/
theorem toneValid_of_paramsValid {p : Params} {j f : Nat} (hp : paramsValid p = true) (hf : p.toneTable[j]? = some f) :
    0 < f ∧ 256 ≤ dividerOf p f ∧ dividerOf p f < 2 ^ 32 := by
  have htones : ∀ g ∈ p.toneTable, toneValid p g = true := by
    simp only [paramsValid, Bool.and_eq_true, List.all_eq_true] at hp
    tauto
  have hvalid := htones f (List.mem_of_getElem? hf)
  simp only [toneValid, Bool.and_eq_true, decide_eq_true_eq, and_assoc] at hvalid
  exact hvalid

/-- The computation for an index in range, by cases over the tone and its divider (R126). -/
theorem calcDivider_of_tone {p : Params} {i : Word32} {f : Nat} (hf : p.toneTable[i.toNat]? = some f) :
    calcDivider p i =
      if f = 0 then .precondition
      else if 256 ≤ dividerOf p f ∧ dividerOf p f < 2 ^ 32 then
        .pair (usesT8 p f) (BitVec.ofNat 32 (dividerOf p f))
      else .invalid := by
  rw [calcDivider, toneRead, hf]

/-- The computation for an index out of range (R126). -/
theorem calcDivider_of_length_le {p : Params} {i : Word32} (hi : p.toneTable.length ≤ i.toNat) :
    calcDivider p i = .indexRange := by
  rw [calcDivider, toneRead, List.getElem?_eq_none hi]

/-- Under a valid parameter assignment an index in range gives its pair (R9, R126). -/
theorem calcDivider_of_tone_valid (p : ValidParams) {i : Word32} {f : Nat} (hf : p.val.toneTable[i.toNat]? = some f) :
    calcDivider p.val i = .pair (usesT8 p.val f) (BitVec.ofNat 32 (dividerOf p.val f)) := by
  obtain ⟨hpos, hlegal⟩ := toneValid_of_paramsValid p.valid hf
  rw [calcDivider_of_tone hf, if_neg hpos.ne', if_pos hlegal]

/-- Settles O18: `DIV.CALC` follows `calcDivider`, and an assignment whose divider is not legal is not valid. -/
theorem divCalcReturnsTheTruncatedPair : Obligations.DivCalcReturnsTheTruncatedPair := by
  refine ⟨fun s v hrun => ?_, fun p v => ?_⟩
  · have hlive := audLive_of_running hrun
    refine ⟨fun f b d hf hb hd => ?_, fun hv => ?_⟩
    · subst hb hd
      obtain ⟨-, hlow, hhigh⟩ := toneValid_of_paramsValid s.par.valid hf
      exact ⟨hlow, hhigh,
        exec_divCalc_next.mpr ⟨hlive, .inr (.inr ⟨_, _, calcDivider_of_tone_valid s.par hf, rfl⟩)⟩⟩
    · exact exec_divCalc_next.mpr ⟨hlive, .inl ⟨calcDivider_of_length_le hv, rfl⟩⟩
  · refine ⟨fun hf => ⟨?_, ?_⟩, fun f d hf hpos hd hout => ?_⟩
    · rw [calcDivider_of_tone hf, if_pos rfl]
    · exact Bool.eq_false_iff.mpr fun hp => (toneValid_of_paramsValid hp hf).1.ne rfl
    · have hillegal : ¬(256 ≤ dividerOf p f ∧ dividerOf p f < 2 ^ 32) := by
        change d = dividerOf p f at hd
        omega
      refine ⟨?_, Bool.eq_false_iff.mpr fun hp => hillegal (toneValid_of_paramsValid hp hf).2⟩
      rw [calcDivider_of_tone hf, if_neg hpos.ne', if_neg hillegal]

/-- The quotient of R126 falls where the exact quotients are a unit apart. -/
theorem div_mul_lt_div_mul {a n f g : Nat} (hf : 0 < f) (hn : 0 < n) (hfg : f < g)
    (hunit : n * f * g ≤ a * (g - f)) : a / (n * g) < a / (n * f) := by
  have hg : 0 < g := hf.trans hfg
  rw [← Nat.succ_le_iff, Nat.le_div_iff_mul_le (Nat.mul_pos hn hf)]
  refine Nat.le_of_mul_le_mul_right ?_ hg
  calc (a / (n * g) + 1) * (n * f) * g
      = a / (n * g) * (n * g) * f + n * f * g := by ring
    _ ≤ a * f + a * (g - f) := Nat.add_le_add (Nat.mul_le_mul_right f (Nat.div_mul_le_self _ _)) hunit
    _ = a * g := by rw [← Nat.mul_add, Nat.add_sub_cancel' hfg.le]

/-- Settles O19: both tones have the same numerator, and the denominator of the higher one is larger. -/
theorem dividerFallsAsTheToneRises : Obligations.DividerFallsAsTheToneRises := by
  intro p f g hf hfg htable
  have hdepth : 0 < bitDepth p := Nat.two_pow_pos _
  have hg : dividerOf p g = 2560 * (if usesT8 p f then 8 else 1) * p.bitClock / (bitDepth p * g) := by
    rw [dividerOf, htable]
  rw [hg]
  exact ⟨Nat.div_le_div_left (Nat.mul_le_mul_left _ hfg.le) (Nat.mul_pos hdepth hf),
    div_mul_lt_div_mul hf hdepth hfg⟩

end Sys2Proof.Machine
end

section
/-! PROOFS. The output state machine: divider, enable, pull and shift (spec/40_pdm_generator.md R130 to R134), and a
word's way to the pin. -/

namespace Sys2Proof.Machine

/-- Settles O20: both operations under their `when` clauses. -/
theorem setDividerAndEnable : Obligations.SetDividerAndEnable := by
  intro s v b hrun
  refine ⟨fun hen hv => ?_, fun h => ?_, ?_⟩
  · exact exec_smSetdiv_next.mpr ⟨(setDivReady_iff hrun).mpr ⟨hen, hv⟩, rfl⟩
  · refine take_refused _ _ fun hready => ?_
    obtain ⟨hen, hv⟩ := (setDivReady_iff hrun).mp hready
    rcases h with h | h
    · exact Bool.false_ne_true (hen.symm.trans h)
    · exact Nat.not_lt.mpr hv h
  · exact exec_smEnable_next.mpr ⟨audLive_of_running hrun, rfl⟩

/-- Settles O21: both operations under their `when` clauses, neither of which holds while disabled or stalled. -/
theorem pullAndShift : Obligations.PullAndShift := by
  intro s hrun
  refine ⟨fun w rest hen hcnt hfifo => ?_, fun n hen hcnt => ?_, fun h => ⟨?_, ?_⟩⟩
  · refine exec_smPull_next.mpr ⟨(smPullReady_iff hrun).mpr ⟨hen, hcnt, by simp [hfifo]⟩, ?_⟩
    simp only [pullWord, hfifo, List.headD_cons, List.tail_cons]
  · refine exec_smShift_next.mpr ⟨(smShiftReady_iff hrun).mpr ⟨hen, by omega⟩, ?_⟩
    simp only [shiftBit, hcnt, Nat.add_sub_cancel, BitVec.msb_eq_getLsbD_last]
  · refine take_refused _ _ fun hready => ?_
    obtain ⟨hen, -, hfifo⟩ := (smPullReady_iff hrun).mp hready
    simp [hen, hfifo] at h
  · refine take_refused _ _ fun hready => ?_
    obtain ⟨hen, hcnt⟩ := (smShiftReady_iff hrun).mp hready
    simp [hen, hcnt.ne'] at h

/-! A word's way to the pin. -/

/-- A state after `k` bit ticks on the word in `OSR` (R133). -/
def shifted (s : State) (k : Nat) : State :=
  { s with
    sm := { s.sm with
      osr := s.sm.osr <<< k
      osrCnt := s.sm.osrCnt - k
      pin := if k = 0 then s.sm.pin else s.sm.osr.getLsbD (32 - k) }
    logs := { s.logs with pdmOut := s.logs.pdmOut ++ (List.range k).map (fun j => s.sm.osr.getLsbD (31 - j)) } }

theorem shifted_zero (s : State) : shifted s 0 = s := by
  simp [shifted]

theorem msb_shiftLeft (w : Word32) {k : Nat} (hk : k < 32) : (w <<< k).msb = w.getLsbD (31 - k) := by
  rw [BitVec.msb_eq_getLsbD_last, BitVec.getLsbD_shiftLeft]
  simp [Nat.lt_succ_iff.mp hk]

/-- One bit tick more (R133). -/
theorem shiftBit_shifted (s : State) {k : Nat} (hk : k < 32) : shiftBit (shifted s k) = shifted s (k + 1) := by
  have hbit : 32 - (k + 1) = 31 - k := by omega
  simp [shiftBit, shifted, msb_shiftLeft s.sm.osr hk, hbit, List.range_succ, BitVec.shiftLeft_add, Nat.sub_add_eq]

/-- Settles O22: each of the 32 shifts is enabled, and together they empty the word. -/
theorem wordLeavesMostSignificantBitFirst : Obligations.WordLeavesMostSignificantBitFirst := by
  intro s hrun hen hcnt
  have hshift : ∀ k < 32, exec .smShift (shifted s k) = .next (shifted s (k + 1)) := fun k hk =>
    exec_smShift_next.mpr
      ⟨(smShiftReady_iff (s := shifted s k) hrun).mpr ⟨hen, by simp only [shifted]; omega⟩,
        (shiftBit_shifted s hk).symm⟩
  have hruns := runOps_replicate hshift
  rw [shifted_zero] at hruns
  rw [hruns, shifted, BitVec.shiftLeft_eq_zero (Nat.le_refl 32), hcnt]
  rfl

end Sys2Proof.Machine
end

section
/-! PROOFS. The DMA engine: arm, transfer and abort, and a whole push (spec/40_pdm_generator.md R137 to R140, R147). -/

namespace Sys2Proof.Machine

/-- A word inside a table that exists (R61). -/
theorem romRead_eq {p : Params} {r : Rom} {b : Bool} {j : Nat} (hj : j < tableWords p)
    (hb : b = true → p.dualTable = true) : romRead p r b j = (if b then r.t8 else r.t1)[j]? :=
  if_pos ⟨hj, hb⟩

/-- Settles O23: the three operations under their `when` clauses. -/
theorem dmaArmTransferAbort : Obligations.DmaArmTransferAbort := by
  intro s hrun
  refine ⟨fun b hidle hb => ?_, fun b h => ?_, fun w hbusy hroom hidx htbl hw => ?_, fun h => ?_, ?_⟩
  · exact exec_dmaArm_next.mpr ⟨(dmaArmReady_iff hrun).mpr ⟨hidle, hb⟩, rfl⟩
  · refine take_refused _ _ fun hready => ?_
    obtain ⟨hidle, hb⟩ := (dmaArmReady_iff hrun).mp hready
    rcases h with hbusy | ⟨htrue, hsingle⟩
    · exact Bool.false_ne_true (hidle.symm.trans hbusy)
    · exact Bool.false_ne_true (hsingle.symm.trans (hb htrue))
  · exact exec_dmaXfer_next.mpr
      ⟨(dmaXferReady_iff hrun).mpr ⟨hbusy, hroom⟩, w, (romRead_eq hidx htbl).trans hw, rfl⟩
  · refine exec_dmaXfer_refused fun hready => ?_
    obtain ⟨hbusy, hroom⟩ := (dmaXferReady_iff hrun).mp hready
    rcases h with hidle | hfull
    · exact Bool.false_ne_true (hidle.symm.trans hbusy)
    · exact Nat.not_lt.mpr hfull hroom
  · exact exec_dmaAbort_next.mpr ⟨audLive_of_running hrun, rfl⟩

/-- The table a push moves (R137). -/
abbrev Rom.table (r : Rom) (b : Bool) : List Word32 := if b then r.t8 else r.t1

/-- Every table that exists is whole (R61). -/
theorem Rom.table_length {p : Params} {r : Rom} {b : Bool} (hr : romValid p r = true)
    (hb : b = true → p.dualTable = true) : (r.table b).length = tableWords p := by
  simp only [romValid, Bool.and_eq_true, Bool.or_eq_true, Bool.not_eq_true', beq_iff_eq] at hr
  obtain ⟨ht1, ht8⟩ := hr
  cases b with
  | false => exact ht1
  | true => exact ht8.resolve_left (by simp [hb rfl])

/-- A state after a push of a table has been armed and has moved `k` words (R137, R138). -/
def pushed (s : State) (b : Bool) (k : Nat) : State :=
  { s with
    fifo := s.fifo ++ (s.rom.table b).take k
    dma := if k = tableWords s.par.val then ⟨k, b, false, true⟩ else ⟨k, b, true, false⟩
    rom := { s.rom with read := s.rom.read || decide (0 < k) } }

/-- No word has been moved where a push begins (R137). -/
theorem pushed_zero (s : State) (b : Bool) : pushed s b 0 = armDma b s := by
  simp [pushed, armDma, (tableWords_pos s.par.val).ne]

/-- The next word of a push (R138, R139). -/
theorem exec_dmaXfer_pushed {s : State} {b : Bool} {k : Nat} (hrun : s.aud.halted = false)
    (hr : romValid s.par.val s.rom = true) (hb : b = true → s.par.val.dualTable = true)
    (hroom : s.fifo.length + tableWords s.par.val ≤ s.par.val.fifoDepth) (hk : k < tableWords s.par.val) :
    exec .dmaXfer (pushed s b k) = .next (pushed s b (k + 1)) := by
  have hlen := Rom.table_length hr hb
  have hword : (s.rom.table b)[k]? = some (s.rom.table b)[k] := List.getElem?_eq_getElem _
  have hdma : (pushed s b k).dma = ⟨k, b, true, false⟩ := if_neg hk.ne
  have hready : dmaXferReady (pushed s b k) = true := by
    refine (dmaXferReady_iff (s := pushed s b k) hrun).mpr ⟨by rw [hdma], ?_⟩
    simp only [pushed, List.length_append, List.length_take]
    omega
  refine exec_dmaXfer_next.mpr ⟨hready, (s.rom.table b)[k], ?_, ?_⟩
  · rw [hdma]
    exact (romRead_eq hk hb).trans hword
  · rw [hdma]
    simp only [pushed, dmaAfterWord, List.take_add_one, hword, Option.toList_some, List.append_assoc, Nat.succ_pos,
      decide_true, Bool.or_true]
    rfl

/-- Settles O24: the arming and every transfer are enabled, and the last transfer completes the push. -/
theorem pushMovesTheWholeTableInOrder : Obligations.PushMovesTheWholeTableInOrder := by
  intro s b hrun hidle hr hb hroom
  have harm : exec (.dmaArm b) s = .next (pushed s b 0) :=
    exec_dmaArm_next.mpr ⟨(dmaArmReady_iff hrun).mpr ⟨hidle, hb⟩, pushed_zero s b⟩
  have htransfers := runOps_replicate fun k hk => exec_dmaXfer_pushed hrun hr hb hroom (k := k) hk
  rw [runOps_cons harm, htransfers]
  have hall : (s.rom.table b).take (tableWords s.par.val) = s.rom.table b :=
    List.take_of_length_le (Rom.table_length hr hb).le
  simp [pushed, hall, tableWords_pos]

end Sys2Proof.Machine
end

section
/-! PROOFS. The audio driver (spec/40_pdm_generator.md R141 to R145). -/

namespace Sys2Proof.Machine

/-- Settles O27: both operations take the pending Selection under their `when` clauses. -/
theorem audioTakesASelection : Obligations.AudioTakesASelection := by
  intro s hrun
  refine ⟨fun hph hfull => ?_, fun hph hfull => ?_, fun hempty => ⟨?_, ?_⟩⟩
  · exact exec_audStart_next.mpr ⟨(audStartReady_iff hrun).mpr ⟨hph, hfull⟩, rfl⟩
  · exact exec_audPreempt_next.mpr ⟨(audPreemptReady_iff hrun).mpr ⟨hph, hfull⟩, rfl⟩
  · exact take_refused _ _ fun hready =>
      Bool.false_ne_true (hempty.symm.trans ((audStartReady_iff hrun).mp hready).2)
  · exact take_refused _ _ fun hready =>
      Bool.false_ne_true (hempty.symm.trans ((audPreemptReady_iff hrun).mp hready).2)

/-- `AUD.CONFIG` with a Selection in range applies its pair (R142). -/
theorem exec_audConfig_pair {s : State} {f : Nat} (hrun : s.aud.halted = false) (hph : s.aud.ph = .config)
    (hsel : s.aud.sel.written = true) (hf : s.par.val.toneTable[s.aud.sel.val.index.toNat]? = some f) :
    exec .audConfig s = .next
      (applyPair (usesT8 s.par.val f) (BitVec.ofNat 32 (dividerOf s.par.val f)) s.aud.sel.val.enabled s) :=
  exec_audConfig_next.mpr
    ⟨(audConfigReady_iff hrun).mpr hph, .inr ⟨hsel, .inr (.inr ⟨_, _, calcDivider_of_tone_valid s.par hf, rfl⟩)⟩⟩

/-- Settles O28: the pair that is applied is that of the tone. -/
theorem audioConfigWritesTheWholePair : Obligations.AudioConfigWritesTheWholePair := by
  intro s i e f d b hrun hph hsel hf hb hd
  subst hb hd
  rw [exec_audConfig_pair hrun hph (by rw [hsel]) (by rw [hsel]; exact hf), hsel]
  rfl

/-- Settles O29: the index is tested before the disable, and an index in range has a pair. -/
theorem audioConfigFaults : Obligations.AudioConfigFaults := by
  intro s hrun hph
  have hready := (audConfigReady_iff hrun).mpr hph
  refine ⟨fun hsel => ?_, fun hsel hrange => ?_, fun hsel hrange => ?_⟩
  · exact exec_audConfig_next.mpr ⟨hready, .inl ⟨hsel, rfl⟩⟩
  · exact exec_audConfig_next.mpr ⟨hready, .inr ⟨hsel, .inl ⟨calcDivider_of_length_le hrange, rfl⟩⟩⟩
  · exact ⟨_, exec_audConfig_pair hrun hph hsel (List.getElem?_eq_getElem hrange), rfl, hrun, rfl⟩

/-- Settles O30: `AUD.PUSH` and `AUD.REARM` under their `when` clauses. -/
theorem audioPushAndRearm : Obligations.AudioPushAndRearm := by
  intro s hrun
  refine ⟨fun b hph htable hidle hb => ?_, fun hph hunwritten => ?_, fun hph hdone => ?_⟩
  · have harm : dmaArmReady s.aud.tableSel.val s = true := by
      rw [htable]
      exact (dmaArmReady_iff hrun).mpr ⟨hidle, hb⟩
    refine exec_audPush_next.mpr ⟨(audPushReady_iff hrun).mpr ⟨hph, fun _ => harm⟩, ?_⟩
    simp [pushTable, armDma, htable]
  · refine exec_audPush_next.mpr ⟨(audPushReady_iff hrun).mpr ⟨hph, fun hw => by simp [hunwritten] at hw⟩, ?_⟩
    simp [pushTable, hunwritten, faultUnwritten]
  · exact exec_audRearm_next.mpr ⟨(audRearmReady_iff hrun).mpr ⟨hph, hdone⟩, rfl⟩

end Sys2Proof.Machine
end

section
/-! PROOFS. The table generator's operations (spec/40_pdm_generator.md R120, R122, R123): where each bit of a sequence
stands in the packed words, and the `when` clauses. -/

namespace Sys2Proof.Machine

/-- A table is `WORDS` words of 32 bits (R61). -/
theorem bitDepth_eq (p : Params) : bitDepth p = 32 * tableWords p :=
  (Nat.mul_div_cancel' (Dvd.intro _ (Nat.pow_add 2 5 p.bitDepthExp).symm)).symm

/-- One bit more is shifted in at the right. -/
theorem getLsbD_shiftLeft_or_ofBool (w : Word32) (b : Bool) {j : Nat} (hj : j < 32) :
    ((w <<< 1) ||| (BitVec.ofBool b).zeroExtend 32).getLsbD j = if j = 0 then b else w.getLsbD (j - 1) := by
  cases j with
  | zero => simp
  | succ j => simp [BitVec.getLsbD_of_ge, BitVec.getLsbD_eq_getElem (Nat.lt_of_succ_lt hj), hj]

/-- The first `n` steps of `packWord` hold the first `n` bits, the earliest highest. -/
theorem getLsbD_foldl_pack (bits : List Bool) {n j : Nat} (hn : n ≤ 32) (hj : j < n) :
    ((List.range n).foldl (fun (w : Word32) k => (w <<< 1) ||| (BitVec.ofBool (bits.getD k false)).zeroExtend 32)
      0).getLsbD j = bits.getD (n - 1 - j) false := by
  induction n generalizing j with
  | zero => exact absurd hj (Nat.not_lt_zero j)
  | succ n ih =>
    rw [List.range_succ, List.foldl_append, List.foldl_cons, List.foldl_nil,
      getLsbD_shiftLeft_or_ofBool _ _ (hj.trans_le hn)]
    obtain rfl | hpos := Nat.eq_zero_or_pos j
    · rfl
    · have hindex : n + 1 - 1 - j = n - 1 - (j - 1) := by omega
      rw [if_neg hpos.ne', ih (by omega) (by omega), hindex]

/-- Bit `i` of a sequence stands in word `i / 32` at position `31 - i % 32` (R67, R97, R122). -/
theorem getLsbD_packTable (bits : List Bool) {n i : Nat} (hi : i < 32 * n) :
    ((packTable bits n).getD (i / 32) 0).getLsbD (31 - i % 32) = bits.getD i false := by
  have hword : (packTable bits n).getD (i / 32) 0 = packWord (bits.drop (32 * (i / 32))) := by
    have hlt : i / 32 < n := by omega
    simp [packTable, List.getD_eq_getElem?_getD, hlt]
  have hpos : 32 - 1 - (31 - i % 32) = i % 32 := by omega
  rw [hword, packWord, getLsbD_foldl_pack _ (Nat.le_refl 32) (by omega), hpos, List.getD_eq_getElem?_getD,
    List.getElem?_drop, Nat.div_add_mod, List.getD_eq_getElem?_getD]

theorem genReady_iff {s : State} :
    genReady s = true ↔ s.ctl.ph = .boot ∧ s.ctl.busy = none ∧ s.enc.st = .off ∧ s.btn.st = .off ∧
      s.mbx.full = false ∧ s.aud.ph = .waitFirst ∧ s.sm.en = false ∧ s.sm.osrCnt = 0 ∧ s.dma.busy = false ∧
      s.dma.done = false := by
  simp only [genReady, Bool.and_eq_true, Bool.not_eq_true', beq_iff_eq, and_assoc]

theorem romOpen_iff {s : State} {present generated : List Word32} :
    romOpen s present generated = true ↔ s.rom.read = false ∨ present = generated := by
  simp only [romOpen, Bool.or_eq_true, Bool.not_eq_true', beq_iff_eq]

theorem genPdmgen_ready_iff {s : State} :
    (genReady s && romOpen s s.rom.t1 (tableOf s.par.val 1)) = true ↔
      genReady s = true ∧ (s.rom.read = false ∨ s.rom.t1 = tableOf s.par.val 1) := by
  rw [Bool.and_eq_true, romOpen_iff]

theorem genPdmgen8_ready_iff {s : State} :
    (genReady s && s.par.val.dualTable && romOpen s s.rom.t8 (tableOf s.par.val 8)) = true ↔
      genReady s = true ∧ s.par.val.dualTable = true ∧ (s.rom.read = false ∨ s.rom.t8 = tableOf s.par.val 8) := by
  rw [Bool.and_eq_true, Bool.and_eq_true, romOpen_iff, and_assoc]

/-- Outside its `when` clause `GEN.PDMGEN` is refused (R14, R120). -/
theorem exec_genPdmgen_refused {s : State}
    (h : genReady s = true → ¬(s.rom.read = false ∨ s.rom.t1 = tableOf s.par.val 1)) :
    exec .genPdmgen s = .refused .notEnabled := by
  unfold exec execGenPdmgen
  exact take_refused _ _ fun hready => (genPdmgen_ready_iff.mp hready).elim h

/-- Outside its `when` clause `GEN.PDMGEN8` is refused (R14, R123). -/
theorem exec_genPdmgen8_refused {s : State}
    (h : genReady s = true → s.par.val.dualTable = true →
      ¬(s.rom.read = false ∨ s.rom.t8 = tableOf s.par.val 8)) :
    exec .genPdmgen8 s = .refused .notEnabled := by
  unfold exec execGenPdmgen8
  refine take_refused _ _ fun hready => ?_
  obtain ⟨hgen, hdual, hopen⟩ := genPdmgen8_ready_iff.mp hready
  exact h hgen hdual hopen

/-- Settles O16: the two tables are the packed sequences. -/
theorem generatorStoresTheBitsInOrder : Obligations.GeneratorStoresTheBitsInOrder := by
  intro s
  refine ⟨fun h => ?_, fun hph hbusy henc hbtn hmbx haud hen hcnt hdma hdone => ?_⟩
  · have hnot : ¬genReady s = true := fun hready => by
      obtain ⟨hph, -, -, -, -, haud, -, -, hdma, -⟩ := genReady_iff.mp hready
      simp [hph, haud, hdma] at h
    exact ⟨exec_genPdmgen_refused fun hgen => absurd hgen hnot,
      exec_genPdmgen8_refused fun hgen => absurd hgen hnot⟩
  · have hgen : genReady s = true :=
      genReady_iff.mpr ⟨hph, hbusy, henc, hbtn, hmbx, haud, hen, hcnt, hdma, hdone⟩
    refine ⟨tableOf s.par.val 1, tableOf s.par.val 8, packTable_length _ _, packTable_length _ _, fun i hi => ?_,
      fun hopen => ?_, fun hread hother => ?_, fun hdual hopen => ?_, fun h => ?_⟩
    · rw [bitDepth_eq] at hi
      exact ⟨getLsbD_packTable _ hi, getLsbD_packTable _ hi⟩
    · exact exec_genPdmgen_next.mpr ⟨genPdmgen_ready_iff.mpr ⟨hgen, hopen⟩, rfl⟩
    · exact exec_genPdmgen_refused fun _ => by simp [hread, hother]
    · exact exec_genPdmgen8_next.mpr ⟨genPdmgen8_ready_iff.mpr ⟨hgen, hdual, hopen⟩, rfl⟩
    · refine exec_genPdmgen8_refused fun _ hdual => ?_
      obtain ⟨hread, hother⟩ := h.resolve_left (by simp [hdual])
      simp [hread, hother]

end Sys2Proof.Machine
end

section
/-! PROOFS. The density of the generated bits (spec/40_pdm_generator.md R120, R121, R123, R125): the error of the
recurrence stays within -1 and 1, so the ones of a window follow the waveform to within 1; both waveforms satisfy the
recurrence over the reals. -/

namespace Sys2Proof.Machine

/-! The recurrence. -/

/-- `bits` and the running errors `qe` follow the recurrence of R120 on the waveform `w`. -/
structure DeltaSigma (w : Nat → ℝ) (bits : List Bool) (qe : Nat → ℝ) : Prop where
  start : qe 0 = 0
  bit : ∀ i < bits.length, bits.getD i false = true ↔ 0 < qe i + w i
  next : ∀ i < bits.length, qe (i + 1) = qe i + w i - if bits.getD i false then 1 else -1

/-- The ones among the bits `a <= i < b`. -/
def onesIn (bits : List Bool) (a b : Nat) : Nat := ((bits.drop a).take (b - a)).count true

@[simp] theorem onesIn_self (bits : List Bool) (a : Nat) : onesIn bits a a = 0 := by
  simp [onesIn]

theorem onesIn_succ {bits : List Bool} {a b : Nat} (hab : a ≤ b) (hb : b < bits.length) :
    onesIn bits a (b + 1) = onesIn bits a b + if bits.getD b false then 1 else 0 := by
  have hbit : (bits.drop a)[b - a]? = some (bits.getD b false) := by
    rw [List.getElem?_drop, Nat.add_sub_cancel' hab, List.getD_eq_getElem?_getD, List.getElem?_eq_getElem hb,
      Option.getD_some]
  rw [onesIn, Nat.succ_sub hab, List.take_add_one, hbit, Option.toList_some, List.count_append, onesIn]
  cases bits.getD b false <;> rfl

namespace DeltaSigma

variable {w qe : Nat → ℝ} {bits : List Bool}

/-- A waveform within -1 and 1 keeps the error there (R125). -/
theorem abs_error_le (h : DeltaSigma w bits qe) (hw : ∀ i, |w i| ≤ 1) {i : Nat} (hi : i ≤ bits.length) :
    |qe i| ≤ 1 := by
  induction i with
  | zero => simp [h.start]
  | succ i ih =>
    have hbit := h.bit i hi
    obtain ⟨hq1, hq2⟩ := abs_le.mp (ih (Nat.le_of_succ_le hi))
    obtain ⟨hw1, hw2⟩ := abs_le.mp (hw i)
    rw [h.next i hi, abs_le]
    by_cases hpos : 0 < qe i + w i
    · rw [if_pos (hbit.mpr hpos)]
      constructor <;> linarith
    · rw [if_neg (mt hbit.mp hpos)]
      constructor <;> linarith

/-- What a window's ones leave over of the waveform is the change of the error (R125). -/
theorem ones_sub_sum (h : DeltaSigma w bits qe) {a b : Nat} (hab : a ≤ b) (hb : b ≤ bits.length) :
    (onesIn bits a b : ℝ) - ∑ i ∈ Finset.Ico a b, (w i + 1) / 2 = (qe a - qe b) / 2 := by
  induction b, hab using Nat.le_induction with
  | base => simp
  | succ b hab ih =>
    rw [onesIn_succ hab hb, Finset.sum_Ico_succ_top hab, h.next b hb]
    have hrest := ih (Nat.le_of_succ_le hb)
    by_cases hbit : bits.getD b false = true
    · rw [if_pos hbit, if_pos hbit]
      push_cast
      linarith
    · rw [if_neg hbit, if_neg hbit]
      push_cast
      linarith

/-- Any window has as many ones as the waveform asks for, to within 1 (R125). -/
theorem abs_ones_sub_sum_le (h : DeltaSigma w bits qe) (hw : ∀ i, |w i| ≤ 1) {a b : Nat} (hab : a ≤ b)
    (hb : b ≤ bits.length) : |(onesIn bits a b : ℝ) - ∑ i ∈ Finset.Ico a b, (w i + 1) / 2| ≤ 1 := by
  obtain ⟨ha1, ha2⟩ := abs_le.mp (h.abs_error_le hw (hab.trans hb))
  obtain ⟨hb1, hb2⟩ := abs_le.mp (h.abs_error_le hw hb)
  rw [h.ones_sub_sum hab hb, abs_le]
  constructor <;> linarith

end DeltaSigma

/-- The generator's recurrence, over exact numbers that stand for reals, is that of R120. -/
theorem pdmBits_deltaSigma {α : Type} {addWave : Nat → α → α} {positive : α → Bool} {shift : Int → α → α}
    {good : α → Prop} {val : α → ℝ} {w : Nat → ℝ} {q : α} (n : Nat)
    (hadd : ∀ i q, good q → good (addWave i q) ∧ val (addWave i q) = val q + w i)
    (hpos : ∀ q, good q → (positive q = true ↔ 0 < val q))
    (hshift : ∀ (c : Int) q, good q → good (shift c q) ∧ val (shift c q) = val q + c)
    (hgood : good q) (hzero : val q = 0) :
    (pdmBits addWave positive shift n 0 q).length = n ∧
      ∃ qe, DeltaSigma w (pdmBits addWave positive shift n 0 q) qe := by
  obtain ⟨hlen, qe, hstart, hstep⟩ := pdmBits_spec hadd hpos hshift n 0 q hgood
  simp only [Nat.zero_add] at hstep
  refine ⟨hlen, qe, hstart.trans hzero, fun i hi => (hstep i ?_).1, fun i hi => (hstep i ?_).2⟩
  · exact hlen ▸ hi
  · exact hlen ▸ hi

/-! The sampled waveforms. -/

/-- The waveform that a list of samples stands for, with the sample index multiplied by `step` (R120, R123). -/
noncomputable def sampledWave (scale : Nat) (xs : List Int) (step i : Nat) : ℝ :=
  (sampleAt xs (step * i) : ℝ) / (scale : ℝ)

theorem waveformValid_sampled {scale : Nat} {xs : List Int} (h : waveformValid (.sampled scale xs) = true) :
    0 < scale ∧ ∀ x ∈ xs, x.natAbs ≤ scale := by
  simp only [waveformValid, Bool.and_eq_true, decide_eq_true_eq, List.all_eq_true] at h
  exact ⟨h.1.1, h.2⟩

/-- A sample is one of the list, or 0. -/
theorem natAbs_sampleAt_le {scale : Nat} {xs : List Int} (h : ∀ x ∈ xs, x.natAbs ≤ scale) (i : Nat) :
    (sampleAt xs i).natAbs ≤ scale := by
  unfold sampleAt
  rw [List.getD_eq_getElem?_getD]
  cases hx : xs[i % xs.length]? with
  | none => exact Nat.zero_le _
  | some x => exact h x (List.mem_of_getElem? hx)

theorem abs_sampledWave_le {scale : Nat} {xs : List Int} (h : waveformValid (.sampled scale xs) = true)
    (step i : Nat) : |sampledWave scale xs step i| ≤ 1 := by
  obtain ⟨hscale, hsamples⟩ := waveformValid_sampled h
  have hpos : (0 : ℝ) < scale := by exact_mod_cast hscale
  have hsample : |(sampleAt xs (step * i) : ℝ)| ≤ scale := by
    rw [← Int.cast_abs, Int.abs_eq_natAbs]
    exact_mod_cast natAbs_sampleAt_le hsamples _
  rw [sampledWave, abs_div, abs_of_pos hpos]
  exact (div_le_one hpos).mpr hsample

/-- Sampled bits follow the recurrence, the integers of the generator being the errors times `scale` (R120). -/
theorem sampledBits_deltaSigma {scale : Nat} (xs : List Int) (step n : Nat) (hscale : 0 < scale) :
    (sampledBits scale xs step n).length = n ∧
      ∃ qe, DeltaSigma (sampledWave scale xs step) (sampledBits scale xs step n) qe := by
  have hpos : (0 : ℝ) < scale := by exact_mod_cast hscale
  refine pdmBits_deltaSigma (good := fun _ => True) (val := fun q : Int => (q : ℝ) / scale) n
    (fun i q _ => ⟨trivial, ?_⟩) (fun q _ => ?_) (fun c q _ => ⟨trivial, ?_⟩) trivial (by simp)
  · rw [sampledWave, Int.cast_add, add_div]
  · rw [decide_eq_true_eq, div_pos_iff_of_pos_right hpos, Int.cast_pos]
  · push_cast
    field_simp

/-! The default waveform. -/

/-- Cosine bits follow the recurrence, a `CosSum` standing for twice the error (R121). -/
theorem cosineBits_deltaSigma (step j : Nat) :
    (cosineBits step (j + 2)).length = 2 ^ (j + 2) ∧
      ∃ qe, DeltaSigma (fun i => -Real.cos (2 * Real.pi * (step * i : Nat) / (2 ^ (j + 2) : Nat)))
        (cosineBits step (j + 2)) qe := by
  have h4 : 4 ∣ 2 ^ (j + 2) := Dvd.intro_left _ (Nat.pow_add 2 j 2).symm
  obtain ⟨hfits, hzero⟩ := cosZero_spec (2 ^ (j + 2))
  refine pdmBits_deltaSigma (good := CosSum.fits (2 ^ (j + 2))) (val := fun q => cosVal (2 ^ (j + 2)) q / 2) _
    (fun i q hq => ?_) (fun q hq => ?_) (fun c q hq => ⟨hq, ?_⟩) hfits (by rw [hzero, zero_div])
  · obtain ⟨hfits', hval⟩ := addCos_spec (step * i) (-1) h4 (Nat.two_pow_pos _) hq
    refine ⟨hfits', ?_⟩
    rw [hval, twoCos]
    push_cast
    ring
  · rw [Nat.add_sub_cancel, cosPositive_iff _ hq, div_pos_iff_of_pos_right two_pos]
  · simp only [cosVal]
    push_cast
    ring

/-! The tables. -/

/-- The waveform of an assignment, with the sample index multiplied by `step` (R120, R121, R123). -/
noncomputable def waveAt (p : Params) (step i : Nat) : ℝ :=
  match p.waveform with
  | .negCosine => -Real.cos (2 * Real.pi * (step * i : Nat) / (bitDepth p : Nat))
  | .sampled scale xs => sampledWave scale xs step i

theorem abs_waveAt_le {p : Params} (h : waveformValid p.waveform = true) (step i : Nat) : |waveAt p step i| ≤ 1 := by
  unfold waveAt
  cases hw : p.waveform with
  | negCosine => simpa using Real.abs_cos_le_one _
  | sampled scale xs => exact abs_sampledWave_le (hw ▸ h) step i

/-- A table has `N` bits, and they follow the recurrence on its waveform (R120, R121, R123). -/
theorem tableBits_deltaSigma {p : Params} (h : waveformValid p.waveform = true) (step : Nat) :
    (tableBits p step).length = bitDepth p ∧ ∃ qe, DeltaSigma (waveAt p step) (tableBits p step) qe := by
  unfold tableBits waveAt
  cases hw : p.waveform with
  | negCosine =>
    have hexp : 5 + p.bitDepthExp = 3 + p.bitDepthExp + 2 := by omega
    rw [bitDepth, hexp]
    exact cosineBits_deltaSigma step (3 + p.bitDepthExp)
  | sampled scale xs =>
    rw [hw] at h
    exact sampledBits_deltaSigma xs step _ (waveformValid_sampled h).1

/-! The bound for sampled bits, without fractions (R125). -/

/-- The samples of a window, each brought up by `scale`. -/
def windowSum (scale : Nat) (xs : List Int) (step a b : Nat) : Int :=
  ((List.range (b - a)).map (fun k => sampleAt xs (step * (a + k)) + (scale : Int))).sum

/-- The window's sum is `2 * scale` times the ones that the waveform asks for. -/
theorem windowSum_eq {scale : Nat} (xs : List Int) (step a b : Nat) (hscale : 0 < scale) :
    (windowSum scale xs step a b : ℝ) =
      2 * scale * ∑ i ∈ Finset.Ico a b, (sampledWave scale xs step i + 1) / 2 := by
  have hpos : (0 : ℝ) < scale := by exact_mod_cast hscale
  have hlist : windowSum scale xs step a b =
      ∑ k ∈ Finset.range (b - a), (sampleAt xs (step * (a + k)) + (scale : Int)) := rfl
  rw [hlist, Finset.sum_Ico_eq_sum_range, Finset.mul_sum, Int.cast_sum]
  refine Finset.sum_congr rfl fun k _ => ?_
  rw [sampledWave]
  push_cast
  field_simp

theorem natAbs_ones_sub_windowSum_le {scale : Nat} {xs : List Int} (step : Nat) {n a b : Nat}
    (h : waveformValid (.sampled scale xs) = true) (hab : a ≤ b) (hb : b ≤ n) :
    (2 * (scale : Int) * onesIn (sampledBits scale xs step n) a b - windowSum scale xs step a b).natAbs ≤
      2 * scale := by
  have hscale := (waveformValid_sampled h).1
  obtain ⟨hlen, qe, hqe⟩ := sampledBits_deltaSigma xs step n hscale
  have hbound := hqe.abs_ones_sub_sum_le (abs_sampledWave_le h step) hab (hlen.symm ▸ hb)
  generalize onesIn (sampledBits scale xs step n) a b = ones at hbound ⊢
  have hreal : |((2 * scale * ones - windowSum scale xs step a b : Int) : ℝ)| ≤ 2 * scale := by
    rw [Int.cast_sub, windowSum_eq xs step a b hscale]
    push_cast
    rw [← mul_sub, abs_mul, abs_of_nonneg (by positivity)]
    exact mul_le_of_le_one_right (by positivity) hbound
  rw [← Int.cast_abs, Int.abs_eq_natAbs] at hreal
  exact_mod_cast hreal

/-- Settles O17: both waveforms stay within -1 and 1, and the bits follow the recurrence on them. -/
theorem generatorDensityBound : Obligations.GeneratorDensityBound := by
  refine ⟨fun p step w hvalid hw => ?_, fun scale xs step n a b hvalid hab hb =>
    natAbs_ones_sub_windowSum_le step hvalid hab hb⟩
  have hwave : w = waveAt p step := by
    funext i
    rw [hw i, waveAt]
    cases p.waveform <;> rfl
  subst hwave
  obtain ⟨hlen, qe, hqe⟩ := tableBits_deltaSigma hvalid step
  refine ⟨hlen, ⟨qe, hqe.start, fun i hi => ?_⟩, fun a b hab hb => ?_⟩
  · rw [← hlen] at hi
    exact ⟨hqe.bit i hi, hqe.next i hi⟩
  · exact hqe.abs_ones_sub_sum_le (abs_waveAt_le hvalid step) hab (hlen.symm ▸ hb)

end Sys2Proof.Machine
end

section
/-! PROOFS. What an operation can do to the mailbox (spec/41_mailbox.md R160 to R164), and so that every step keeps the
order of what is delivered (R75, R163). -/

namespace Sys2Proof.Machine

variable {s t : State}

/-! `MBX.SEND` and `MBX.RECV` as words of their own. -/

theorem ctlLive_iff : ctlLive s = true ↔ s.ctl.ph ≠ .halt ∧ s.ctl.ph ≠ .reflash := by
  simp [ctlLive]

theorem mbxRecvReady_iff (hrun : s.aud.halted = false) : mbxRecvReady s = true ↔ s.mbx.full = true := by
  simp [mbxRecvReady, audLive_of_running hrun]

/-- Nothing can be received from an empty mailbox, whether the audio side runs or not (R162). -/
theorem mbxRecvReady_of_empty (hempty : s.mbx.full = false) : mbxRecvReady s = false := by
  simp [mbxRecvReady, hempty]

/-- Settles O25: both operations under their `when` clauses; that of `MBX.SEND` does not look at the mailbox. -/
theorem mailboxSendAndReceive : Obligations.MailboxSendAndReceive := by
  intro s e i
  refine ⟨fun hhalt hreflash => ?_, fun hrun hfull => ?_, fun hempty => ?_⟩
  · exact exec_mbxSend_next.mpr ⟨ctlLive_iff.mpr ⟨hhalt, hreflash⟩, rfl⟩
  · exact exec_mbxRecv_next.mpr ⟨(mbxRecvReady_iff hrun).mpr hfull, rfl⟩
  · exact take_not_ready _ _ (mbxRecvReady_of_empty hempty)

/-! The mailbox and its log. -/

/-- The mailbox and its log: what `MailboxOrdered` reads of a state. -/
def mailboxOf (s : State) : Mbx × List MbxEvent := (s.mbx, s.logs.mbxLog)

/-- Two states with the same mailbox and log are in order together. -/
theorem MailboxOrdered.congr (hs : MailboxOrdered s) (h : mailboxOf t = mailboxOf s) : MailboxOrdered t := by
  obtain ⟨hmbx, hlog⟩ := Prod.mk.inj h
  unfold MailboxOrdered at hs ⊢
  rw [hmbx, hlog]
  exact hs

@[simp] theorem sentOf_append_send (l : List MbxEvent) (v : Selection) :
    sentOf (l ++ [.send v]) = sentOf l ++ [v] := by simp [sentOf]

@[simp] theorem sentOf_append_recv (l : List MbxEvent) (v : Selection) :
    sentOf (l ++ [.recv v]) = sentOf l := by simp [sentOf]

@[simp] theorem receivedOf_append_send (l : List MbxEvent) (v : Selection) :
    receivedOf (l ++ [.send v]) = receivedOf l := by simp [receivedOf]

@[simp] theorem receivedOf_append_recv (l : List MbxEvent) (v : Selection) :
    receivedOf (l ++ [.recv v]) = receivedOf l ++ [v] := by simp [receivedOf]

theorem pendingOf_full {m : Mbx} (h : m.full = true) : pendingOf m = [m.val] := if_pos h

theorem pendingOf_empty {m : Mbx} (h : m.full = false) : pendingOf m = [] := by simp [pendingOf, h]

/-- A send drops the value that was pending, if any, and appends its own to what was sent (R161, R163). -/
theorem MailboxOrdered.sendSelection (h : MailboxOrdered s) (v : Selection) :
    MailboxOrdered (sendSelection v s) := by
  have hreceived : (receivedOf s.logs.mbxLog).Sublist (sentOf s.logs.mbxLog) :=
    (List.sublist_append_left _ _).trans h
  simpa [MailboxOrdered, pendingOf_full] using hreceived.append_right [v]

/-- A receive of a full mailbox moves the pending value to the end of what was received (R162). -/
theorem MailboxOrdered.receiveSelection (h : MailboxOrdered s) (hfull : s.mbx.full = true) :
    MailboxOrdered (receiveSelection s) := by
  unfold MailboxOrdered at h
  rw [pendingOf_full hfull] at h
  simpa [MailboxOrdered, pendingOf_empty] using h

/-- After reset nothing has been sent and nothing is pending (R47). -/
theorem mailboxOrdered_reset : MailboxOrdered State.reset := List.nil_sublist _

/-- What an operation can do to the mailbox: nothing, one send, one receive of a full mailbox, or a reset. -/
inductive MailboxStep (s t : State) : Prop
  | keeps (h : mailboxOf t = mailboxOf s)
  | sends (v : Selection) (h : mailboxOf t = mailboxOf (sendSelection v s))
  | receives (hfull : s.mbx.full = true) (h : mailboxOf t = mailboxOf (receiveSelection s))
  | resets (h : mailboxOf t = mailboxOf State.reset)

theorem MailboxStep.ordered (h : MailboxStep s t) (hs : MailboxOrdered s) : MailboxOrdered t := by
  cases h with
  | keeps h => exact hs.congr h
  | sends v h => exact (hs.sendSelection v).congr h
  | receives hfull h => exact (hs.receiveSelection hfull).congr h
  | resets h => exact mailboxOrdered_reset.congr h

/-! The shared operations of the control side leave the mailbox alone. -/

theorem await_mailboxOf {b : Busy} {rest : State → State}
    (go : mailboxOf (rest (popDuration s)) = mailboxOf s) : mailboxOf (await b rest s) = mailboxOf s :=
  await_cases (P := fun t => mailboxOf t = mailboxOf s) go rfl

theorem drawAll_mailboxOf (ds : List (Glyph × Slot)) {rest : State → State}
    (go : ∀ t, mailboxOf (rest t) = mailboxOf t) : mailboxOf (drawAll ds rest s) = mailboxOf s :=
  drawAll_induct (P := fun t => mailboxOf t = mailboxOf s) (Q := fun t => mailboxOf t = mailboxOf s) ds rfl
    (fun _ _ _ ht => ht) (fun _ ht => ht) (fun t ht => (go t).trans ht)

@[simp] theorem afterFlush_mailboxOf (issuer : FlushBy) (s : State) :
    mailboxOf (afterFlush issuer s) = mailboxOf s := by
  cases issuer with
  | direct | recovery | persistAck => rfl
  | render => exact await_mailboxOf rfl

@[simp] theorem flush_mailboxOf (issuer : FlushBy) (s : State) : mailboxOf (flush issuer s) = mailboxOf s :=
  flush_cases (P := fun t => mailboxOf t = mailboxOf s) (fun _ => await_mailboxOf (afterFlush_mailboxOf _ _))
    (fun _ => rfl)

@[simp] theorem afterWrite_mailboxOf (issuer : WriteBy) (s : State) :
    mailboxOf (afterWrite issuer s) = mailboxOf s := by
  cases issuer <;> rfl

@[simp] theorem afterRead_mailboxOf (issuer : ReadBy) (s : State) :
    mailboxOf (afterRead issuer s) = mailboxOf s := by
  cases issuer with
  | direct | cfgRead | load => rfl
  | write by' =>
    simp only [afterRead]
    split
    · exact afterWrite_mailboxOf _ _
    · rfl

@[simp] theorem readFlash_mailboxOf (issuer : ReadBy) (s : State) :
    mailboxOf (readFlash issuer s) = mailboxOf s :=
  readFlash_cases (P := fun t => mailboxOf t = mailboxOf s) (fun _ => afterRead_mailboxOf _ _) (fun _ => rfl)

@[simp] theorem beginRead_mailboxOf (issuer : ReadBy) (s : State) :
    mailboxOf (beginRead issuer s) = mailboxOf s :=
  await_mailboxOf (readFlash_mailboxOf _ _)

@[simp] theorem beginWrite_mailboxOf (issuer : WriteBy) (v : Selection) (s : State) :
    mailboxOf (beginWrite issuer v s) = mailboxOf s := beginRead_mailboxOf _ _

@[simp] theorem eraseFlash_mailboxOf (issuer : FlashBy) (s : State) :
    mailboxOf (eraseFlash issuer s) = mailboxOf s :=
  eraseFlash_cases (P := fun t => mailboxOf t = mailboxOf s) (fun _ => by cases issuer <;> rfl) (fun _ => rfl)

@[simp] theorem beginErase_mailboxOf (issuer : FlashBy) (s : State) :
    mailboxOf (beginErase issuer s) = mailboxOf s :=
  await_mailboxOf (eraseFlash_mailboxOf _ _)

@[simp] theorem afterProg_mailboxOf (issuer : FlashBy) (s : State) :
    mailboxOf (afterProg issuer s) = mailboxOf s := by
  cases issuer with
  | direct => rfl
  | write by' => exact afterWrite_mailboxOf _ _

@[simp] theorem progFlash_mailboxOf (issuer : FlashBy) (s : State) :
    mailboxOf (progFlash issuer s) = mailboxOf s :=
  progFlash_cases (P := fun t => mailboxOf t = mailboxOf s) (fun _ => afterProg_mailboxOf _ _) (fun _ => rfl)

@[simp] theorem beginProg_mailboxOf (issuer : FlashBy) (s : State) :
    mailboxOf (beginProg issuer s) = mailboxOf s :=
  await_mailboxOf (progFlash_mailboxOf _ _)

/-- Clearing the operation in progress, on the way to what ends or resumes it. -/
@[simp] theorem clearBusy_mailboxOf (s : State) : mailboxOf (clearBusy s) = mailboxOf s := rfl

@[simp] theorem flReadEffect_mailboxOf (s : State) : mailboxOf (flReadEffect s) = mailboxOf s := by
  unfold flReadEffect
  split <;> simp

@[simp] theorem flEraseEffect_mailboxOf (s : State) : mailboxOf (flEraseEffect s) = mailboxOf s := by
  unfold flEraseEffect
  split <;> simp

@[simp] theorem flProgEffect_mailboxOf (s : State) : mailboxOf (flProgEffect s) = mailboxOf s := by
  unfold flProgEffect
  split <;> simp

@[simp] theorem flushEffect_mailboxOf (s : State) : mailboxOf (flushEffect s) = mailboxOf s := by
  unfold flushEffect
  split <;> simp

@[simp] theorem renderEffect_mailboxOf (s : State) : mailboxOf (renderEffect s) = mailboxOf s := by
  unfold renderEffect
  split
  · rfl
  · refine withSelection_cases (P := fun t => mailboxOf t = mailboxOf s) (fun _ _ => ?_) rfl
    dsimp only
    split
    · rfl
    · exact drawAll_mailboxOf _ (flush_mailboxOf _)

@[simp] theorem buttonWins_mailboxOf (s : State) : mailboxOf (buttonWins s) = mailboxOf s := by
  unfold buttonWins
  split <;> rfl

@[simp] theorem encoderWins_mailboxOf (b : Bool) (s : State) : mailboxOf (encoderWins b s) = mailboxOf s := by
  unfold encoderWins
  split <;> rfl

/-! The two operations of `CTL` that send: the selection in `PUBLISH`, the enabled one in `PERSIST_FORCE` (R229,
R237). -/

theorem publishEffect_mailboxStep (s : State) : MailboxStep s (publishEffect s) := by
  unfold publishEffect
  split
  · exact .keeps rfl
  · exact withSelection_cases (fun _ _ => .sends _ (await_mailboxOf rfl)) (.keeps rfl)

theorem persistEffect_mailboxStep (s : State) : MailboxStep s (persistEffect s) := by
  unfold persistEffect
  split
  · exact .keeps (drawAll_mailboxOf [(glyphMem, 4)] (flush_mailboxOf _))
  · exact withIndex_cases (fun _ => .sends _ rfl) (.keeps rfl)
  · exact withSelection_cases (fun _ _ => .keeps (beginWrite_mailboxOf _ _ _)) (.keeps rfl)
  · exact .keeps rfl

/-! The operations. -/

/-- A step with a given effect, but for `fresh`, does to the mailbox what the effect does. -/
theorem takeCtl_mailboxStep {ready : Bool} {f : State → State} (h : takeCtl ready f s = .next t)
    (hf : MailboxStep s (f s)) : MailboxStep s t := by
  obtain ⟨-, rfl⟩ := takeCtl_next.mp h
  cases hf with
  | keeps hsame => exact .keeps hsame
  | sends v hsent => exact .sends v hsent
  | receives hfull hreceived => exact .receives hfull hreceived
  | resets hreset => exact .resets hreset

/-- An operation of the control side sends at most once, and never receives (R161). -/
theorem exec_control_mailboxStep {i : Instr} (hi : isControl i = true) (h : exec i s = .next t) :
    MailboxStep s t := by
  cases i with
  | mbxSend en idx => exact takeCtl_mailboxStep h (.sends ⟨idx, en⟩ rfl)
  | ctlPublish => exact takeCtl_mailboxStep h (publishEffect_mailboxStep s)
  | ctlPersist => exact takeCtl_mailboxStep h (persistEffect_mailboxStep s)
  | encStart | encRest | encArm | encAdvance | encDrop | encAbandon | btnStart | btnRelease | btnTimeout | btnTrail
  | btnAbandon | ctlBoot => exact takeCtl_mailboxStep h (.keeps rfl)
  | encFall =>
    obtain ⟨-, rfl⟩ := exec_encFall_next.mp h
    exact .keeps rfl
  | encEmit =>
    obtain ⟨-, rfl⟩ := exec_encEmit_next.mp h
    exact .keeps (encoderWins_mailboxOf _ _)
  | btnEdge =>
    obtain ⟨-, rfl⟩ := exec_btnEdge_next.mp h
    exact .keeps (buttonWins_mailboxOf _)
  | btnConfirm =>
    obtain ⟨-, rfl⟩ := exec_btnConfirm_next.mp h
    exact .keeps rfl
  | ctlWait =>
    obtain ⟨-, rfl⟩ := exec_ctlWait_next.mp h
    exact .keeps rfl
  | cfgRead | ctlLoad => exact takeCtl_mailboxStep h (.keeps (beginRead_mailboxOf _ _))
  | cfgWrite => exact takeCtl_mailboxStep h (.keeps (beginWrite_mailboxOf _ _ _))
  | flRead => exact takeCtl_mailboxStep h (.keeps (flReadEffect_mailboxOf s))
  | flErase => exact takeCtl_mailboxStep h (.keeps (flEraseEffect_mailboxOf s))
  | flProg => exact takeCtl_mailboxStep h (.keeps (flProgEffect_mailboxOf s))
  | ctlRecovery => exact takeCtl_mailboxStep h (.keeps (drawAll_mailboxOf _ (flush_mailboxOf _)))
  | ctlRender => exact takeCtl_mailboxStep h (.keeps (renderEffect_mailboxOf s))
  | ctlUp | ctlDown => exact takeCtl_mailboxStep h (withIndex_cases (fun _ => .keeps rfl) (.keeps rfl))
  | ctlToggle => exact takeCtl_mailboxStep h (withEnabled_cases (fun _ => .keeps rfl) (.keeps rfl))
  | dispDraw glyph slot => exact takeCtl_mailboxStep h (.keeps (drawAll_mailboxOf [(glyph, slot)] fun _ => rfl))
  | dispFlush => exact takeCtl_mailboxStep h (.keeps (flushEffect_mailboxOf s))
  | _ => cases hi

/-- An operation of the audio side receives at most once, from a full mailbox, and never sends (R141, R145, R162). -/
theorem exec_audio_mailboxStep {i : Instr} (hi : isAudio i = true) (h : exec i s = .next t) : MailboxStep s t := by
  cases i with
  | mbxRecv =>
    obtain ⟨hr, rfl⟩ := exec_mbxRecv_next.mp h
    exact .receives (Bool.and_eq_true_iff.mp hr).2 rfl
  | audStart =>
    obtain ⟨hr, rfl⟩ := exec_audStart_next.mp h
    exact .receives (Bool.and_eq_true_iff.mp hr).2 rfl
  | audPreempt =>
    obtain ⟨hr, rfl⟩ := exec_audPreempt_next.mp h
    exact .receives (Bool.and_eq_true_iff.mp hr).2 rfl
  | smSetdiv | smEnable | smPull | smShift | dmaArm | dmaAbort =>
    obtain ⟨-, rfl⟩ := take_next.mp h
    exact .keeps rfl
  | audRearm =>
    obtain ⟨-, rfl⟩ := exec_audRearm_next.mp h
    exact .keeps rfl
  | audPush =>
    obtain ⟨-, rfl⟩ := exec_audPush_next.mp h
    unfold pushTable
    split <;> exact .keeps rfl
  | divCalc => obtain ⟨-, ⟨-, rfl⟩ | ⟨-, rfl⟩ | ⟨b, d, -, rfl⟩⟩ := exec_divCalc_next.mp h <;> exact .keeps rfl
  | dmaXfer =>
    obtain ⟨-, w, -, rfl⟩ := exec_dmaXfer_next.mp h
    exact .keeps rfl
  | audConfig =>
    obtain ⟨-, ⟨-, rfl⟩ | ⟨-, ⟨-, rfl⟩ | ⟨-, rfl⟩ | ⟨b, d, -, rfl⟩⟩⟩ := exec_audConfig_next.mp h <;> exact .keeps rfl
  | _ => cases hi

/-- The environment empties the mailbox and its log in a reset (R47, R290) and never touches them otherwise. -/
theorem exec_outside_mailboxStep {i : Instr} (hi : isOutside i = true) (h : exec i s = .next t) :
    MailboxStep s t := by
  cases i with
  | envReset =>
    obtain rfl := exec_envReset_next.mp h
    exact .resets rfl
  | envLine =>
    obtain ⟨-, rfl⟩ := exec_envLine_next.mp h
    exact .keeps rfl
  | genPdmgen =>
    obtain ⟨-, rfl⟩ := exec_genPdmgen_next.mp h
    exact .keeps rfl
  | genPdmgen8 =>
    obtain ⟨-, rfl⟩ := exec_genPdmgen8_next.mp h
    exact .keeps rfl
  | envAdv =>
    have hadv := (exec_envAdv_next.mp h).2
    exact .keeps (advance_induct (P := fun u => mailboxOf u = mailboxOf s) (fun _ hu => hu) rfl hadv)
  | _ => cases hi

/-- What any operation does to the mailbox, whoever issues it; a fault leaves it as it is (R164, R255). -/
theorem exec_mailboxStep {i : Instr} (h : exec i s = .next t) : MailboxStep s t := by
  rcases instr_side i with hi | hi | hi | ⟨code, rfl⟩
  · exact exec_control_mailboxStep hi h
  · exact exec_audio_mailboxStep hi h
  · exact exec_outside_mailboxStep hi h
  · obtain ⟨-, rfl⟩ := exec_fault_next.mp h
    exact faultEffect_cases code s (fun _ => .keeps rfl) (fun _ => .keeps rfl)

/-- Settles O26: a step is one operation, and what an operation can do to the mailbox keeps the order. -/
theorem mailboxDeliversInOrder : Obligations.MailboxDeliversInOrder := by
  refine ⟨fun s t hs hstep => ?_, mailboxOrdered_reset⟩
  rcases step_next_cases hstep with ⟨w, -, i, rest, -, h⟩ | ⟨i, -, n, h⟩
  · exact (exec_mailboxStep h).ordered hs
  · exact (exec_mailboxStep h).ordered hs

end Sys2Proof.Machine
end

section
/-! PROOFS. The operations of the decoders, the mailbox, the output and the DMA engine raise no fault and touch neither
the selection, nor `FLASH`, nor the display (spec/42_quadrature_encoder.md R182, spec/43_button_classifier.md R201). -/

namespace Sys2Proof.Machine

/-- The fault latch, and what the control side stores and shows. -/
def recorded (s : State) : Latch × Memory × List FlashEvent × Sel × Disp :=
  (s.latch, s.flash, s.logs.flashLog, s.sel, s.disp)

/-- The operations of the decoders, the mailbox, the output state machine and the DMA engine. -/
def isPeripheral : Instr → Bool
  | .smSetdiv _ | .smEnable _ | .smPull | .smShift | .dmaArm _ | .dmaXfer | .dmaAbort | .mbxSend _ _ | .mbxRecv
  | .encStart | .encRest | .encArm | .encFall _ | .encAdvance _ | .encDrop | .encEmit _ | .encAbandon | .btnStart
  | .btnEdge | .btnConfirm | .btnRelease | .btnTimeout | .btnTrail | .btnAbandon => true
  | _ => false

variable {s t : State}

theorem buttonWins_recorded (s : State) : recorded (buttonWins s) = recorded s := by
  unfold buttonWins
  split <;> rfl

theorem encoderWins_recorded (b : Bool) (s : State) : recorded (encoderWins b s) = recorded s := by
  unfold encoderWins
  split <;> rfl

/-- A step records nothing where its effect records nothing. -/
theorem take_recorded {ready : Bool} {f : State → State} (h : take ready f s = .next t)
    (hf : recorded (f s) = recorded s) : recorded t = recorded s := by
  obtain ⟨-, rfl⟩ := take_next.mp h
  exact hf

theorem takeCtl_recorded {ready : Bool} {f : State → State} (h : takeCtl ready f s = .next t)
    (hf : recorded (f s) = recorded s) : recorded t = recorded s := take_recorded h hf

theorem exec_peripheral_recorded {i : Instr} (hi : isPeripheral i = true) (h : exec i s = .next t) :
    recorded t = recorded s := by
  cases i with
  | smSetdiv | smEnable | smPull | smShift | dmaArm | dmaAbort | mbxRecv => exact take_recorded h rfl
  | dmaXfer =>
    obtain ⟨-, w, -, rfl⟩ := exec_dmaXfer_next.mp h
    rfl
  | mbxSend | encStart | encRest | encArm | encAdvance | encDrop | encAbandon | btnStart | btnRelease | btnTimeout
  | btnTrail | btnAbandon => exact takeCtl_recorded h rfl
  | encFall =>
    obtain ⟨-, rfl⟩ := exec_encFall_next.mp h
    rfl
  | encEmit =>
    obtain ⟨-, rfl⟩ := exec_encEmit_next.mp h
    exact encoderWins_recorded _ _
  | btnEdge =>
    obtain ⟨-, rfl⟩ := exec_btnEdge_next.mp h
    exact buttonWins_recorded _
  | btnConfirm =>
    obtain ⟨-, rfl⟩ := exec_btnConfirm_next.mp h
    rfl
  | _ => cases hi

/-- Settles O57: the operations named are among those that leave everything recorded as it is. -/
theorem inputsRaiseNoFault : Obligations.InputsRaiseNoFault := by
  intro i s t hi h
  have hperipheral : isPeripheral i = true := by
    obtain hi | ⟨b, hi⟩ | ⟨v, rfl⟩ | ⟨c, rfl⟩ | ⟨e, x, rfl⟩ := hi
    · exact (List.all_eq_true.mp (by decide : List.all _ isPeripheral = true)) i hi
    · exact (List.all_eq_true.mp (by cases b <;> rfl : List.all _ isPeripheral = true)) i hi
    · rfl
    · rfl
    · rfl
  have hsame := exec_peripheral_recorded hperipheral h
  simpa only [recorded, Prod.mk.injEq] using hsame

end Sys2Proof.Machine
end

section
/-! PROOFS. The quadrature decoder (spec/42_quadrature_encoder.md R171 to R180): its `when` clauses where the control
side can take steps, and its operations one by one. -/

namespace Sys2Proof.Machine

/-! The stage table (R175). -/

theorem stagePrev_one (dir : Bool) : stagePrev dir 1 = (dir, !dir) := by cases dir <;> rfl

theorem stagePrev_two (dir : Bool) : stagePrev dir 2 = (false, false) := by cases dir <;> rfl

theorem stagePrev_three (dir : Bool) : stagePrev dir 3 = (!dir, dir) := by cases dir <;> rfl

theorem stageNext_one (dir : Bool) : stageNext dir 1 = (false, false) := by cases dir <;> rfl

theorem stageNext_two (dir : Bool) : stageNext dir 2 = (!dir, dir) := by cases dir <;> rfl

theorem stageNext_three (dir : Bool) : stageNext dir 3 = (true, true) := by cases dir <;> rfl

/-- The stages are numbered 1 to 3. -/
theorem stageOf_range {st : EncSt} {k : Nat} (h : stageOf st = some k) : 1 ≤ k ∧ k ≤ 3 := by
  cases st <;> simp [stageOf] at h <;> omega

/-- A state that watches a stage is none of those that watch no stage. -/
theorem ne_of_stageOf {st st' : EncSt} {k : Nat} (h : stageOf st = some k) (h' : stageOf st' = none) : st ≠ st' := by
  rintro rfl
  exact Option.some_ne_none k (h.symm.trans h')

/-- A stage expects a pair other than the one it starts from. -/
theorem stagePrev_ne_stageNext {st : EncSt} {k : Nat} (h : stageOf st = some k) (dir : Bool) :
    stagePrev dir k ≠ stageNext dir k := by
  obtain ⟨hlo, hhi⟩ := stageOf_range h
  interval_cases k
  · simp [stagePrev_one, stageNext_one]
  · simp [stagePrev_two, stageNext_two]
  · simp [stagePrev_three, stageNext_three]

/-! The `when` clauses. -/

/-- Where the `when` clause does not hold there is no control-side transition (R14). -/
theorem takeCtl_refused {ready : Bool} (f : State → State) (s : State) (h : ¬ready = true) :
    takeCtl ready f s = .refused .notEnabled := take_refused _ s h

variable {s : State}

theorem encStartReady_iff (hlive : ctlLive s = true) : encStartReady s = true ↔ s.enc.st = .off := by
  simp [encStartReady, hlive]

theorem encRestReady_iff (hlive : ctlLive s = true) :
    encRestReady s = true ↔ s.enc.st = .restWait ∧ linePair s = (true, true) := by
  simp [encRestReady, hlive]

theorem encArmReady_iff (hlive : ctlLive s = true) :
    encArmReady s = true ↔ s.enc.st = .restSettle ∧ s.now = s.enc.deadline := by
  simp [encArmReady, hlive]

theorem encFallReady_iff (hlive : ctlLive s = true) {b : Bool} :
    encFallReady b s = true ↔ s.enc.st = .armed ∧ linePair s = (b, !b) := by
  simp [encFallReady, hlive]

/-- `ENC.ADVANCE` of the stage that the decoder watches, at its deadline (R176). -/
theorem encAdvanceReady_iff (hlive : ctlLive s = true) {c : Byte} :
    encAdvanceReady c s = true ↔ ∃ k, stageOf s.enc.st = some k ∧ c = BitVec.ofNat 8 k ∧ s.enc.deadline ≤ s.now ∧
      linePair s = stageNext s.enc.dir k := by
  unfold encAdvanceReady
  split
  · rename_i k hk
    simp [hlive, hk, and_assoc]
  · rename_i hnone
    simp [hnone]

/-- A drop is of a stage at its deadline, or of two falls at once in `ARMED` (R177, R180). -/
theorem encDropReady_iff (hlive : ctlLive s = true) :
    encDropReady s = true ↔
      (∃ k, stageOf s.enc.st = some k ∧ s.enc.deadline ≤ s.now ∧ linePair s ≠ stagePrev s.enc.dir k ∧
        linePair s ≠ stageNext s.enc.dir k) ∨ s.enc.st = .armed ∧ linePair s = (false, false) := by
  unfold encDropReady
  split
  · rename_i k hk
    have hst : s.enc.st ≠ .armed := ne_of_stageOf hk rfl
    simp [hlive, hk, hst, and_assoc]
  · rename_i hnone
    simp [hlive, hnone]

theorem encEmitReady_iff (hlive : ctlLive s = true) {b : Bool} :
    encEmitReady b s = true ↔ s.enc.st = .finalSettle ∧ s.now = s.enc.deadline ∧ b = s.enc.dir := by
  simp [encEmitReady, hlive, and_assoc]

/-! Start, rest, arm and abandon (R171, R172, R173, R179). -/

/-- Settles O31: each operation under its `when` clause. -/
theorem encoderReachesArmed : Obligations.EncoderReachesArmed := by
  intro s hhalt hreflash
  have hlive : ctlLive s = true := ctlLive_iff.mpr ⟨hhalt, hreflash⟩
  refine ⟨fun hst => ?_, fun hst ha hb => ?_, fun hst hnow => ?_, ?_⟩
  · exact exec_encStart_next.mpr ⟨(encStartReady_iff hlive).mpr hst, rfl⟩
  · exact exec_encRest_next.mpr ⟨(encRestReady_iff hlive).mpr ⟨hst, Prod.ext ha hb⟩, rfl⟩
  · refine exec_encArm_next.mpr ⟨(encArmReady_iff hlive).mpr ⟨hst, hnow⟩, ?_⟩
    simp only [linePair, Prod.mk.injEq, Bool.and_eq_true]
    rfl
  · exact exec_encAbandon_next.mpr ⟨hlive, rfl⟩

/-! Fall, advance and drop (R174 to R177, R180). -/

/-- Settles O32: the fall and the three stages under their `when` clauses, none of which holds in the refused cases. -/
theorem encoderFollowsTheStageTable : Obligations.EncoderFollowsTheStageTable := by
  intro s hhalt hreflash
  have hlive : ctlLive s = true := ctlLive_iff.mpr ⟨hhalt, hreflash⟩
  have hadvance {k : Nat} (hst : stageOf s.enc.st = some k) (hdue : s.enc.deadline ≤ s.now)
      (hpair : linePair s = stageNext s.enc.dir k) : encAdvanceReady (BitVec.ofNat 8 k) s = true :=
    (encAdvanceReady_iff hlive).mpr ⟨k, hst, rfl, hdue, hpair⟩
  refine ⟨fun b hst ha hb => ?_, fun hdue => ⟨fun hst ha hb => ?_, fun hst ha hb => ?_, fun hst ha hb => ?_⟩,
    fun b hpair => ?_, fun c hc => ?_⟩
  · exact exec_encFall_next.mpr ⟨(encFallReady_iff hlive).mpr ⟨hst, Prod.ext ha hb⟩, rfl⟩
  · exact exec_encAdvance_next.mpr ⟨hadvance (congrArg stageOf hst) hdue
      ((Prod.ext ha hb).trans (stageNext_one _).symm), rfl⟩
  · exact exec_encAdvance_next.mpr ⟨hadvance (congrArg stageOf hst) hdue
      ((Prod.ext ha hb).trans (stageNext_two _).symm), rfl⟩
  · exact exec_encAdvance_next.mpr ⟨hadvance (congrArg stageOf hst) hdue
      ((Prod.ext ha hb).trans (stageNext_three _).symm), rfl⟩
  · refine takeCtl_refused _ _ fun hready => ?_
    obtain ⟨ha, hb⟩ := Prod.mk.inj ((encFallReady_iff hlive).mp hready).2
    simp [ha, hb] at hpair
  · refine takeCtl_refused _ _ fun hready => ?_
    obtain ⟨k, hk, rfl, hdue, -⟩ := (encAdvanceReady_iff hlive).mp hready
    obtain ⟨hlo, hhi⟩ := stageOf_range hk
    bv_omega

/-- Settles O33: both forms of the drop's `when` clause, and the deadline that the one of the stages asks for. -/
theorem encoderDropsABrokenSequence : Obligations.EncoderDropsABrokenSequence := by
  intro s hhalt hreflash
  have hlive : ctlLive s = true := ctlLive_iff.mpr ⟨hhalt, hreflash⟩
  refine ⟨fun h => exec_encDrop_next.mpr ⟨(encDropReady_iff hlive).mpr ?_, rfl⟩, fun hst hearly => ?_⟩
  · obtain ⟨hst, ha, hb⟩ | ⟨hdue, ⟨hst, hprev, hnext⟩ | ⟨hst, hprev, hnext⟩ | ⟨hst, hprev, hnext⟩⟩ := h
    · exact .inr ⟨hst, Prod.ext ha hb⟩
    · exact .inl ⟨1, congrArg stageOf hst, hdue, stagePrev_one _ ▸ hprev, stageNext_one _ ▸ hnext⟩
    · exact .inl ⟨2, congrArg stageOf hst, hdue, stagePrev_two _ ▸ hprev, stageNext_two _ ▸ hnext⟩
    · exact .inl ⟨3, congrArg stageOf hst, hdue, stagePrev_three _ ▸ hprev, stageNext_three _ ▸ hnext⟩
  · refine takeCtl_refused _ _ fun hready => ?_
    obtain ⟨k, -, hdue, -⟩ | ⟨harmed, -⟩ := (encDropReady_iff hlive).mp hready
    · exact Nat.not_lt.mpr hdue hearly
    · simp [harmed] at hst

/-! The event (R178, R232). -/

/-- In the race the phase moves on, and only the idle button is turned off (R232, R200). -/
theorem encoderWins_race (b : Bool) (hw : s.ctl.ph = .wait) :
    encoderWins b s = { s with
      ctl := { s.ctl with ph := if b then .handleDown else .handleUp }
      btn := { s.btn with st := if s.btn.st = .idle then .off else s.btn.st } } := by
  rw [encoderWins, if_pos hw]
  unfold abandonButton setPhase
  split <;> rfl

/-- Outside the race nothing more happens. -/
theorem encoderWins_elsewhere (b : Bool) (hw : s.ctl.ph ≠ .wait) : encoderWins b s = s := if_neg hw

/-- Settles O34: the emit under its `when` clause, which holds for the recorded direction alone. -/
theorem encoderDeliversItsEvent : Obligations.EncoderDeliversItsEvent := by
  intro s hhalt hreflash hst hnow
  have hlive : ctlLive s = true := ctlLive_iff.mpr ⟨hhalt, hreflash⟩
  have hready : encEmitReady s.enc.dir s = true := (encEmitReady_iff hlive).mpr ⟨hst, hnow, rfl⟩
  refine ⟨fun hw => exec_encEmit_next.mpr ⟨hready, ?_⟩, fun hw => exec_encEmit_next.mpr ⟨hready, ?_⟩, ?_⟩
  · rw [encoderWins_race _ (by exact hw)]
    rfl
  · rw [encoderWins_elsewhere _ (by exact hw)]
    rfl
  · refine takeCtl_refused _ _ fun hother => ?_
    obtain ⟨-, -, hdir⟩ := (encEmitReady_iff hlive).mp hother
    exact Bool.not_ne_self _ hdir

end Sys2Proof.Machine
end

section
/-! PROOFS. The passing of time (spec/60_exceptions.md R279): what it leaves as it is. -/

namespace Sys2Proof.Machine

@[simp] theorem afterTicks_now (k : Nat) (s : State) : (afterTicks k s).now = s.now + k := by
  unfold afterTicks
  split <;> simp [*]

@[simp] theorem afterTicks_par (k : Nat) (s : State) : (afterTicks k s).par = s.par := by
  unfold afterTicks
  split <;> rfl

@[simp] theorem afterTicks_ctl (k : Nat) (s : State) : (afterTicks k s).ctl = s.ctl := by
  unfold afterTicks
  split <;> rfl

@[simp] theorem afterTicks_sel (k : Nat) (s : State) : (afterTicks k s).sel = s.sel := by
  unfold afterTicks
  split <;> rfl

@[simp] theorem afterTicks_enc (k : Nat) (s : State) : (afterTicks k s).enc = s.enc := by
  unfold afterTicks
  split <;> rfl

@[simp] theorem afterTicks_btn (k : Nat) (s : State) : (afterTicks k s).btn = s.btn := by
  unfold afterTicks
  split <;> rfl

@[simp] theorem afterTicks_flash (k : Nat) (s : State) : (afterTicks k s).flash = s.flash := by
  unfold afterTicks
  split <;> rfl

@[simp] theorem afterTicks_lines_btn (k : Nat) (s : State) : (afterTicks k s).lines.btn = s.lines.btn := by
  unfold afterTicks
  split <;> rfl

@[simp] theorem linePair_afterTicks (k : Nat) (s : State) : linePair (afterTicks k s) = linePair s := by
  unfold afterTicks
  split <;> rfl

/-- The tick that time has come to is fresh (R273). -/
theorem afterTicks_fresh {k : Nat} (hk : 0 < k) (s : State) : (afterTicks k s).fresh = true := by
  rw [afterTicks, if_neg hk.ne']

/-- One `ENV.ADV` passes `n` ticks where each of them can pass. -/
theorem exec_envAdv_all {n : Nat} {s : State} (hpos : 0 < n) (hlt : n < 2 ^ 40)
    (h : ∀ k < n, tickReady (afterTicks k s) = true) :
    exec (.envAdv (BitVec.ofNat 40 n)) s = .next (afterTicks n s) := by
  have hn : (BitVec.ofNat 40 n).toNat = n := Nat.mod_eq_of_lt hlt
  refine exec_envAdv_next.mpr ⟨fun h0 => ?_, by rw [hn]; exact advance_all n s h⟩
  rw [h0] at hn
  exact hpos.ne hn

end Sys2Proof.Machine
end

section
/-! PROOFS. A whole turn of the encoder (spec/42_quadrature_encoder.md R183): where the control side waits while the
lines settle, what one transition does, and the four of them in a row. -/

namespace Sys2Proof.Machine

/-! A line change (R273) and the pair of levels (R170). -/

/-- The state after a line change. -/
def changeLine (line : LineId) (level : Bool) (s : State) : State := { s with lines := setLine line level s.lines }

/-- A pair with the level of one line changed. -/
def setPair (line : LineId) (level : Bool) (p : Pair) : Pair :=
  match line with
  | .lineA => (level, p.2)
  | .lineB => (p.1, level)
  | .lineBtn | .lineRec => p

theorem exec_envLine_fresh {s : State} (hfresh : s.fresh = true) (line : LineId) (level : Bool) :
    exec (.envLine line level) s = .next (changeLine line level s) := exec_envLine_next.mpr ⟨hfresh, rfl⟩

theorem linePair_changeLine (line : LineId) (level : Bool) (s : State) :
    linePair (changeLine line level s) = setPair line level (linePair s) := by
  cases line <;> rfl

theorem changeLine_lines_btn {line : LineId} (h : line ≠ .lineBtn) (level : Bool) (s : State) :
    (changeLine line level s).lines.btn = s.lines.btn := by
  cases line with
  | lineBtn => exact absurd rfl h
  | lineA | lineB | lineRec => rfl

/-! Where the control side waits while the lines settle. -/

/-- The race of a `CTL.WAIT` with nothing done at the button (R231). -/
structure Racing (s : State) : Prop where
  phase : s.ctl.ph = .wait
  idle : s.ctl.busy = none
  button : s.btn.st = .idle
  level : s.lines.btn = true

/-- The decoder has no enabled operation: the pair of its stage has not changed, or its last delay is not over (R176,
R177, R178). -/
inductive EncoderWaits (s : State) : Prop
  | stage {k : Nat} (hst : stageOf s.enc.st = some k) (hpair : linePair s = stagePrev s.enc.dir k)
  | last (hst : s.enc.st = .finalSettle) (hnow : s.now < s.enc.deadline)

variable {s t : State}

theorem Racing.live (h : Racing s) : ctlLive s = true := by simp [ctlLive_iff, h.phase]

/-- The decoder's operations are all disabled while it waits. -/
theorem EncoderWaits.not_ready (h : EncoderWaits s) (hlive : ctlLive s = true) :
    encRestReady s = false ∧ encArmReady s = false ∧ (∀ b, encFallReady b s = false) ∧
      (∀ c, encAdvanceReady c s = false) ∧ encDropReady s = false ∧ ∀ b, encEmitReady b s = false := by
  simp only [← Bool.not_eq_true, encRestReady_iff hlive, encArmReady_iff hlive, encFallReady_iff hlive,
    encAdvanceReady_iff hlive, encDropReady_iff hlive, encEmitReady_iff hlive]
  cases h with
  | stage hst hpair =>
    have hne := stagePrev_ne_stageNext hst s.enc.dir
    have hrest : s.enc.st ≠ .restWait := ne_of_stageOf hst rfl
    have hsettle : s.enc.st ≠ .restSettle := ne_of_stageOf hst rfl
    have harmed : s.enc.st ≠ .armed := ne_of_stageOf hst rfl
    have hlast : s.enc.st ≠ .finalSettle := ne_of_stageOf hst rfl
    simp [hst, hpair, hne, hrest, hsettle, harmed, hlast]
  | last hst hnow => simp [hst, stageOf, hnow.ne]

/-- A tick can pass in the race while the decoder waits (R279). -/
theorem Racing.tickReady (h : Racing s) (hwait : EncoderWaits s) : tickReady s = true := by
  obtain ⟨hrest, harm, hfall, hadvance, hdrop, hemit⟩ := hwait.not_ready h.live
  have hst : s.enc.st ≠ .off := by
    cases hwait with
    | stage hst _ => exact ne_of_stageOf hst rfl
    | last hst _ => simp [hst]
  have hat {p : CtlPhase} (hp : p ≠ .wait) : ctlAt p s = false := by
    simp [ctlAt, h.phase, hp.symm]
  have hctl : ctlPublishReady s = false ∧ ctlRenderReady s = false ∧ ctlWaitReady s = false ∧
      ctlPersistReady s = false ∧ btnTrailReady s = false := by
    simp [ctlPublishReady, ctlRenderReady, ctlWaitReady, ctlPersistReady, btnTrailReady, hat, h.phase, h.idle, hst]
  have hdue : readDue s = false ∧ eraseDue s = false ∧ progDue s = false ∧ flushDue s = false := by
    simp [readDue, eraseDue, progDue, flushDue, h.idle]
  have hbtn : btnEdgeReady s = false ∧ btnConfirmReady s = false ∧ btnReleaseReady s = false ∧
      btnTimeoutReady s = false := by
    simp [btnEdgeReady, btnConfirmReady, btnReleaseReady, btnTimeoutReady, h.button, h.level]
  simp [Machine.tickReady, ctlMoves, chosen, hat, hctl, hdue, hbtn, hrest, harm, hfall, hadvance, hdrop, hemit]

theorem Racing.afterTicks (h : Racing s) (k : Nat) : Racing (afterTicks k s) :=
  ⟨by simp [h.phase], by simp [h.idle], by simp [h.button], by simp [h.level]⟩

theorem Racing.changeLine (h : Racing s) {line : LineId} (hline : line ≠ .lineBtn) (level : Bool) :
    Racing (changeLine line level s) :=
  ⟨h.phase, h.idle, h.button, (changeLine_lines_btn hline _ _).trans h.level⟩

/-- A step of the decoder inside the race leaves it open. -/
theorem Racing.withEnc (h : Racing s) (e : Enc) (fresh : Bool) : Racing { s with enc := e, fresh := fresh } :=
  ⟨h.phase, h.idle, h.button, h.level⟩

/-! The transitions of a turn. -/

/-- A turn from `s` in direction `dir`, right after the decoder has seen its `n + 1`-th transition: `n` settle delays
have passed, the next one has begun, the lines stand at `pair`, and the race is still open. -/
structure Turning (s : State) (dir : Bool) (n : Nat) (st : EncSt) (pair : Pair) (t : State) : Prop where
  race : Racing t
  par : t.par = s.par
  now : t.now = s.now + n * tSettle s.par.val
  enc : t.enc = ⟨st, dir, t.now + tSettle s.par.val⟩
  lines : linePair t = pair
  sel : t.sel = s.sel
  flash : t.flash = s.flash

variable {dir : Bool} {n k : Nat} {st : EncSt} {pair : Pair} {line : LineId} {level : Bool}

/-- One settle delay passes where the decoder waits: in a stage, or before its event. -/
theorem Turning.settle (h : Turning s dir n st pair t) (hpos : 0 < tSettle s.par.val)
    (hlt : tSettle s.par.val < 2 ^ 40) (hst : (∃ k, stageOf st = some k ∧ pair = stagePrev dir k) ∨ st = .finalSettle) :
    exec (.envAdv (BitVec.ofNat 40 (tSettle s.par.val))) t = .next (afterTicks (tSettle s.par.val) t) := by
  refine exec_envAdv_all hpos hlt fun j hj => (h.race.afterTicks j).tickReady ?_
  obtain ⟨k, hk, hpair⟩ | hlast := hst
  · exact .stage (k := k) (by simp [h.enc, hk]) (by simp [h.enc, h.lines, hpair])
  · exact .last (by simp [h.enc, hlast]) (by simp [h.enc, hj])

/-- The first transition: one line falls, and the decoder sees it in the same tick (R174). -/
theorem turning_of_fall (hfresh : s.fresh = true) (hrace : Racing s) (harmed : s.enc.st = .armed)
    (hline : line ≠ .lineBtn) (hpair : setPair line false (linePair s) = (dir, !dir)) :
    ∃ t, (∀ is, runOps (.envLine line false :: .encFall dir :: is) s = runOps is t) ∧
      Turning s dir 0 .wait1 (stagePrev dir 1) t := by
  have hrace' := hrace.changeLine hline false
  have hpair' := (linePair_changeLine line false s).trans hpair
  have hfall := exec_encFall_next.mpr ⟨(encFallReady_iff hrace'.live).mpr ⟨harmed, hpair'⟩, rfl⟩
  refine ⟨_, fun is => (runOps_cons (exec_envLine_fresh hfresh line false)).trans (runOps_cons hfall), ?_⟩
  exact
    { race := hrace'.withEnc _ _
      par := rfl
      now := by simp [changeLine]
      enc := rfl
      lines := hpair'.trans (stagePrev_one dir).symm
      sel := rfl
      flash := rfl }

/-- The transition of a stage: a settle delay passes, one line changes to the pair that the stage expects, and the
decoder advances in the same tick (R176). -/
theorem Turning.advance (h : Turning s dir n st pair t) (hpos : 0 < tSettle s.par.val)
    (hlt : tSettle s.par.val < 2 ^ 40) (hk : stageOf st = some k) (hprev : pair = stagePrev dir k)
    (hline : line ≠ .lineBtn) (hnext : setPair line level pair = stageNext dir k) :
    ∃ u, (∀ is, runOps (.envAdv (BitVec.ofNat 40 (tSettle s.par.val)) :: .envLine line level ::
        .encAdvance (BitVec.ofNat 8 k) :: is) t = runOps is u) ∧
      Turning s dir (n + 1) (stageAfter k) (stageNext dir k) u := by
  have hsettle := h.settle hpos hlt (.inl ⟨k, hk, hprev⟩)
  have hchange := exec_envLine_fresh (afterTicks_fresh hpos t) line level
  have hrace := (h.race.afterTicks (tSettle s.par.val)).changeLine hline level
  have hpair : linePair (changeLine line level (afterTicks (tSettle s.par.val) t)) = stageNext dir k := by
    rw [linePair_changeLine, linePair_afterTicks, h.lines, hnext]
  have hready := (encAdvanceReady_iff hrace.live (c := BitVec.ofNat 8 k)).mpr
    ⟨k, by simp [changeLine, h.enc, hk], rfl, by simp [changeLine, h.enc], hpair.trans (by simp [changeLine, h.enc])⟩
  have hcode : (BitVec.ofNat 8 k).toNat = k := by
    have := stageOf_range hk
    exact Nat.mod_eq_of_lt (by omega)
  have hadvance := exec_encAdvance_next.mpr ⟨hready, rfl⟩
  rw [hcode] at hadvance
  refine ⟨_, fun is => (runOps_cons hsettle).trans ((runOps_cons hchange).trans (runOps_cons hadvance)), ?_⟩
  exact
    { race := hrace.withEnc _ _
      par := by simp [changeLine, h.par]
      now := by simp [changeLine, h.now, Nat.succ_mul, Nat.add_assoc]
      enc := by simp [changeLine, h.enc, h.par]
      lines := hpair
      sel := by simp [changeLine, h.sel]
      flash := by simp [changeLine, h.flash] }

/-- After the last settle delay the decoder delivers its event and wins the race (R178, R232). -/
theorem Turning.emit (h : Turning s dir n .finalSettle pair t) (hpos : 0 < tSettle s.par.val)
    (hlt : tSettle s.par.val < 2 ^ 40) :
    ∃ u, runOps [.envAdv (BitVec.ofNat 40 (tSettle s.par.val)), .encEmit dir] t = .next u ∧
      u.ctl.event = (if dir then .down else .up) ∧ u.ctl.ph = (if dir then .handleDown else .handleUp) ∧
      u.enc.st = .off ∧ u.btn.st = .off ∧ u.now = s.now + (n + 1) * tSettle s.par.val ∧ u.sel = s.sel ∧
      u.flash = s.flash := by
  have hrace := h.race.afterTicks (tSettle s.par.val)
  have hready := (encEmitReady_iff hrace.live (b := dir)).mpr ⟨by simp [h.enc], by simp [h.enc], by simp [h.enc]⟩
  have hemit := exec_encEmit_next.mpr ⟨hready, rfl⟩
  rw [encoderWins_wait dir (by exact hrace.phase) (by exact hrace.button)] at hemit
  refine ⟨_, (runOps_cons (h.settle hpos hlt (.inr rfl))).trans (runOps_cons hemit), rfl, rfl, rfl, rfl, ?_, ?_, ?_⟩
  · simp [h.now, Nat.succ_mul, Nat.add_assoc]
  · simp [h.sel]
  · simp [h.flash]

/-- Settles O35: the fall, the three stages and the event, one settle delay apart. -/
theorem oneDetentGivesOneEvent : Obligations.OneDetentGivesOneEvent := by
  intro s b hfresh hph hbusy harmed hbtn ha hb hlevel hpos hlt
  have hpair : linePair s = (true, true) := Prod.ext ha hb
  obtain ⟨t0, hrun0, h0⟩ := turning_of_fall (line := if b then .lineB else .lineA) (dir := b) hfresh
    ⟨hph, hbusy, hbtn, hlevel⟩ harmed (by cases b <;> decide) (by rw [hpair]; cases b <;> rfl)
  obtain ⟨t1, hrun1, h1⟩ := h0.advance (line := if b then .lineA else .lineB) (level := false) hpos hlt rfl rfl
    (by cases b <;> decide) (by cases b <;> rfl)
  obtain ⟨t2, hrun2, h2⟩ := h1.advance (line := if b then .lineB else .lineA) (level := true) hpos hlt rfl
    (by cases b <;> rfl) (by cases b <;> decide) (by cases b <;> rfl)
  obtain ⟨t3, hrun3, h3⟩ := h2.advance (line := if b then .lineA else .lineB) (level := true) hpos hlt rfl
    (by cases b <;> rfl) (by cases b <;> decide) (by cases b <;> rfl)
  obtain ⟨u, hrun, hu⟩ := h3.emit hpos hlt
  exact ⟨u, (hrun0 _).trans ((hrun1 _).trans ((hrun2 _).trans ((hrun3 _).trans hrun))), hu⟩

end Sys2Proof.Machine
end

section
/-! PROOFS. The button classifier (spec/43_button_classifier.md R191 to R200): its `when` clauses where the control side
can take steps, and its operations one by one. -/

namespace Sys2Proof.Machine

/-! The `when` clauses. -/

variable {s : State}

theorem btnStartReady_iff (hlive : ctlLive s = true) : btnStartReady s = true ↔ s.btn.st = .off := by
  simp [btnStartReady, hlive]

/-- The edge is a fall at this tick, and none that the start itself saw (R192). -/
theorem btnEdgeReady_iff (hlive : ctlLive s = true) :
    btnEdgeReady s = true ↔
      s.btn.st = .idle ∧ s.btn.tStart < s.now ∧ s.lines.btnPrev = true ∧ s.lines.btn = false := by
  simp [btnEdgeReady, hlive, and_assoc]

theorem btnConfirmReady_iff (hlive : ctlLive s = true) :
    btnConfirmReady s = true ↔ s.btn.st = .debounce ∧ s.now = s.btn.deadline := by
  simp [btnConfirmReady, hlive]

/-- A release counts strictly before the deadline (R194, R196). -/
theorem btnReleaseReady_iff (hlive : ctlLive s = true) :
    btnReleaseReady s = true ↔ s.btn.st = .held ∧ s.now < s.btn.deadline ∧ s.lines.btn = true := by
  simp [btnReleaseReady, hlive, and_assoc]

/-- The timeout does not look at the line (R195, R196). -/
theorem btnTimeoutReady_iff (hlive : ctlLive s = true) :
    btnTimeoutReady s = true ↔ s.btn.st = .held ∧ s.now = s.btn.deadline := by
  simp [btnTimeoutReady, hlive]

theorem btnTrailReady_iff :
    btnTrailReady s = true ↔ ctlLive s = true ∧ s.ctl.busy = none ∧ s.ctl.ph = .trail ∧ s.now = s.ctl.deadline := by
  simp [btnTrailReady, ctlAt_iff, ctlDue, and_assoc]

theorem btnAbandonReady_iff (hlive : ctlLive s = true) : btnAbandonReady s = true ↔ s.btn.st = .idle := by
  simp [btnAbandonReady, hlive]

/-! Start, edge and abandon (R191, R192, R200). -/

/-- In the race the phase moves on, and the partial decode is abandoned (R232). -/
theorem buttonWins_race (hw : s.ctl.ph = .wait) :
    buttonWins s = { s with ctl := { s.ctl with ph := .btnActive }, enc := { s.enc with st := .off } } := if_pos hw

/-- Outside the race nothing more happens. -/
theorem buttonWins_elsewhere (hw : s.ctl.ph ≠ .wait) : buttonWins s = s := if_neg hw

/-- The idle wait is abandoned (R200). -/
theorem abandonButton_idle (hst : s.btn.st = .idle) :
    abandonButton s = { s with btn := { s.btn with st := .off } } := by
  rw [abandonButton, if_pos hst]

/-- Settles O36: each operation under its `when` clause, none of which holds in the refused cases. -/
theorem buttonStartsAndSeesItsEdge : Obligations.ButtonStartsAndSeesItsEdge := by
  intro s hhalt hreflash
  have hlive : ctlLive s = true := ctlLive_iff.mpr ⟨hhalt, hreflash⟩
  refine ⟨fun hst => ?_, fun hst hstart hprev hline => ?_, fun h => ?_, fun hst => ?_, fun hst => ?_⟩
  · exact exec_btnStart_next.mpr ⟨(btnStartReady_iff hlive).mpr hst, rfl⟩
  · have hready : btnEdgeReady s = true := (btnEdgeReady_iff hlive).mpr ⟨hst, hstart, hprev, hline⟩
    refine ⟨fun hw => exec_btnEdge_next.mpr ⟨hready, ?_⟩, fun hw => exec_btnEdge_next.mpr ⟨hready, ?_⟩⟩
    · rw [buttonWins_race (by exact hw)]
      rfl
    · rw [buttonWins_elsewhere (by exact hw)]
      rfl
  · refine takeCtl_refused _ _ fun hready => ?_
    obtain ⟨-, hstart, hprev, hline⟩ := (btnEdgeReady_iff hlive).mp hready
    simp [hprev, hline, Nat.not_le.mpr hstart] at h
  · exact exec_btnAbandon_next.mpr ⟨(btnAbandonReady_iff hlive).mpr hst, by rw [abandonButton_idle hst]⟩
  · exact takeCtl_refused _ _ fun hready => hst ((btnAbandonReady_iff hlive).mp hready)

/-! Confirm, release, timeout and trail (R193, R194, R195, R197). -/

/-- Settles O37: each operation under its `when` clause; that of the release ends before the deadline. -/
theorem buttonClassifies : Obligations.ButtonClassifies := by
  intro s hhalt hreflash
  have hlive : ctlLive s = true := ctlLive_iff.mpr ⟨hhalt, hreflash⟩
  refine ⟨fun hst hnow => ?_, fun hst hearly hline => ?_, fun hst hnow => ⟨?_, ?_⟩, fun hph hidle hnow => ?_⟩
  · exact exec_btnConfirm_next.mpr ⟨(btnConfirmReady_iff hlive).mpr ⟨hst, hnow⟩, rfl⟩
  · exact exec_btnRelease_next.mpr ⟨(btnReleaseReady_iff hlive).mpr ⟨hst, hearly, hline⟩, rfl⟩
  · exact exec_btnTimeout_next.mpr ⟨(btnTimeoutReady_iff hlive).mpr ⟨hst, hnow⟩, rfl⟩
  · refine takeCtl_refused _ _ fun hready => ?_
    obtain ⟨-, hearly, -⟩ := (btnReleaseReady_iff hlive).mp hready
    exact hearly.ne hnow
  · exact exec_btnTrail_next.mpr ⟨btnTrailReady_iff.mpr ⟨hlive, hidle, hph, hnow⟩, rfl⟩

end Sys2Proof.Machine
end

section
/-! PROOFS. The boundary between a short and a long press (spec/43_button_classifier.md R196): the only moves of the
control side while the button is held, what each side of the deadline allows, and the passing of time up to it. -/

namespace Sys2Proof.Machine

variable {s t : State} {k : Nat}

/-! Time, a line change, and the last of several operations. -/

theorem runOps_singleton (i : Instr) (s : State) : runOps [i] s = exec i s := by
  unfold runOps
  cases exec i s <;> rfl

/-- One tick passes exactly where it can (R279). -/
theorem exec_envAdv_one_next : exec (.envAdv 1) s = .next t ↔ tickReady s = true ∧ t = tick s := by
  refine ⟨fun h => ?_, fun ⟨hready, ht⟩ => ht ▸ exec_envAdv_one hready⟩
  obtain ⟨-, hadvance⟩ := exec_envAdv_next.mp h
  simpa [advance, eq_comm (a := t)] using hadvance

@[simp] theorem afterTicks_aud (k : Nat) (s : State) : (afterTicks k s).aud = s.aud := by
  unfold afterTicks
  split <;> rfl

@[simp] theorem changeLine_now (line : LineId) (level : Bool) (s : State) :
    (changeLine line level s).now = s.now := rfl

@[simp] theorem changeLine_btn (line : LineId) (level : Bool) (s : State) :
    (changeLine line level s).btn = s.btn := rfl

@[simp] theorem changeLine_lineBtn (level : Bool) (s : State) :
    (changeLine .lineBtn level s).lines.btn = level := rfl

/-! While the button is held. -/

/-- The button has won the race and its press is confirmed; the audio side has raised no fault (R193, R232, R255). -/
structure Holding (s : State) : Prop where
  running : s.aud.halted = false
  phase : s.ctl.ph = .btnActive
  idle : s.ctl.busy = none
  encoder : s.enc.st = .off
  button : s.btn.st = .held

theorem Holding.live (h : Holding s) : ctlLive s = true := by simp [ctlLive_iff, h.phase]

theorem Holding.afterTicks (h : Holding s) (k : Nat) : Holding (afterTicks k s) :=
  ⟨by simp [h.running], by simp [h.phase], by simp [h.idle], by simp [h.encoder], by simp [h.button]⟩

theorem Holding.changeLine (h : Holding s) (line : LineId) (level : Bool) : Holding (changeLine line level s) :=
  ⟨h.running, h.phase, h.idle, h.encoder, h.button⟩

theorem Holding.release_iff (h : Holding s) :
    btnReleaseReady s = true ↔ s.now < s.btn.deadline ∧ s.lines.btn = true := by
  simp [btnReleaseReady_iff h.live, h.button]

theorem Holding.timeout_iff (h : Holding s) : btnTimeoutReady s = true ↔ s.now = s.btn.deadline := by
  simp [btnTimeoutReady_iff h.live, h.button]

/-- The control side can do nothing but release or time out. -/
theorem Holding.ctlMoves (h : Holding s) :
    ctlMoves s = chosen [(btnReleaseReady s, .btnRelease), (btnTimeoutReady s, .btnTimeout)] := by
  have hat {p : CtlPhase} (hp : p ≠ .btnActive) : ctlAt p s = false := by simp [ctlAt, h.phase, hp.symm]
  have hctl : ctlPublishReady s = false ∧ ctlRenderReady s = false ∧ ctlWaitReady s = false ∧
      ctlPersistReady s = false ∧ btnTrailReady s = false := by
    simp [ctlPublishReady, ctlRenderReady, ctlWaitReady, ctlPersistReady, btnTrailReady, hat, h.phase, h.idle]
  have hdue : readDue s = false ∧ eraseDue s = false ∧ progDue s = false ∧ flushDue s = false := by
    simp [readDue, eraseDue, progDue, flushDue, h.idle]
  have henc : encRestReady s = false ∧ encArmReady s = false ∧ (∀ b, encFallReady b s = false) ∧
      (∀ c, encAdvanceReady c s = false) ∧ encDropReady s = false ∧ ∀ b, encEmitReady b s = false := by
    simp [encRestReady, encArmReady, encFallReady, encAdvanceReady, encDropReady, encEmitReady, stageOf, h.encoder]
  have hbtn : btnEdgeReady s = false ∧ btnConfirmReady s = false := by
    simp [btnEdgeReady, btnConfirmReady, h.button]
  simp [Machine.ctlMoves, chosen, hat, hctl, hdue, henc, hbtn]

/-- Time passes while neither is due (R279). -/
theorem Holding.tickReady_iff (h : Holding s) :
    tickReady s = true ↔ ¬btnReleaseReady s = true ∧ ¬btnTimeoutReady s = true := by
  simp [tickReady, h.ctlMoves, h.running, chosen]

/-- Before the deadline a low line leaves the control side nothing to do. -/
theorem Holding.waits (h : Holding s) (hearly : s.now < s.btn.deadline) (hlow : s.lines.btn = false) :
    ¬btnReleaseReady s = true ∧ ¬btnTimeoutReady s = true := by
  rw [h.release_iff, h.timeout_iff]
  exact ⟨fun hrelease => by simp [hlow] at hrelease, hearly.ne⟩

/-- Before the deadline a high line is a Toggle, and neither a timeout nor time comes first. -/
theorem Holding.toggles (h : Holding s) (hearly : s.now < s.btn.deadline) (hhigh : s.lines.btn = true) :
    (∃ t, exec .btnRelease s = .next t ∧ t.now = s.now ∧ t.ctl.event = .toggle ∧ t.ctl.ph = .handleToggle) ∧
      ∀ t, exec .btnTimeout s ≠ .next t ∧ exec (.envAdv 1) s ≠ .next t := by
  have hready : btnReleaseReady s = true := h.release_iff.mpr ⟨hearly, hhigh⟩
  refine ⟨⟨_, exec_btnRelease_next.mpr ⟨hready, rfl⟩, rfl, rfl, rfl⟩, fun t => ⟨fun hstep => ?_, fun hstep => ?_⟩⟩
  · exact hearly.ne (h.timeout_iff.mp (exec_btnTimeout_next.mp hstep).1)
  · exact (h.tickReady_iff.mp (exec_envAdv_one_next.mp hstep).1).1 hready

/-- At the deadline the press is a SaveAndPersist whatever the line, and neither a release nor time comes first. -/
theorem Holding.persists (h : Holding s) (hdue : s.now = s.btn.deadline) :
    (∃ t, exec .btnTimeout s = .next t ∧ t.now = s.now ∧ t.ctl.event = .persist ∧ t.ctl.ph = .persistAck) ∧
      ∀ t, exec .btnRelease s ≠ .next t ∧ exec (.envAdv 1) s ≠ .next t := by
  have hready : btnTimeoutReady s = true := h.timeout_iff.mpr hdue
  refine ⟨⟨_, exec_btnTimeout_next.mpr ⟨hready, rfl⟩, rfl, rfl, rfl⟩, fun t => ⟨fun hstep => ?_, fun hstep => ?_⟩⟩
  · exact (h.release_iff.mp (exec_btnRelease_next.mp hstep).1).1.ne hdue
  · exact (h.tickReady_iff.mp (exec_envAdv_one_next.mp hstep).1).2 hready

/-! The passing of time up to the deadline. -/

/-- Time passes as far as the deadline while the line is low. -/
theorem Holding.runOps_envAdv (h : Holding s) (hlow : s.lines.btn = false) (hpos : 0 < k)
    (hk : s.now + k ≤ s.btn.deadline) (hlt : k < 2 ^ 40) (is : List Instr) :
    runOps (.envAdv (BitVec.ofNat 40 k) :: is) s = runOps is (Machine.afterTicks k s) := by
  refine runOps_cons (exec_envAdv_all hpos hlt fun j hj => ?_)
  have hearly : (Machine.afterTicks j s).now < (Machine.afterTicks j s).btn.deadline := by
    rw [afterTicks_now, afterTicks_btn]
    omega
  exact (h.afterTicks j).tickReady_iff.mpr ((h.afterTicks j).waits hearly (by simpa using hlow))

/-- Then the line takes a level of that tick, and one operation follows. -/
theorem Holding.runOps_press (h : Holding s) (hlow : s.lines.btn = false) (hpos : 0 < k)
    (hk : s.now + k ≤ s.btn.deadline) (hlt : k < 2 ^ 40) (level : Bool) (i : Instr) :
    runOps [.envAdv (BitVec.ofNat 40 k), .envLine .lineBtn level, i] s =
      exec i (Machine.changeLine .lineBtn level (Machine.afterTicks k s)) := by
  rw [h.runOps_envAdv hlow hpos hk hlt, runOps_cons (exec_envLine_fresh (afterTicks_fresh hpos s) _ _),
    runOps_singleton]

/-- Settles O38: at each tick the state is still one of holding, so the two sides of the deadline decide. -/
theorem pressBoundary : Obligations.PressBoundary := by
  intro s hrun hph hbusy henc hbtn hdeadline hpos hlt
  have h : Holding s := ⟨hrun, hph, hbusy, henc, hbtn⟩
  refine ⟨fun hhigh => h.toggles (by omega) hhigh, fun hlow => ⟨fun t hstep => ?_, fun k hk hshort => ?_, fun up => ?_⟩⟩
  · exact (h.waits (by omega) hlow).1 (exec_btnRelease_next.mp hstep).1
  · have hearly : (afterTicks k s).now < (afterTicks k s).btn.deadline := by
      rw [afterTicks_now, afterTicks_btn]
      omega
    have hlast := h.runOps_press hlow hk (by omega) (by omega) true
    obtain ⟨htoggle, hnone⟩ := ((h.afterTicks k).changeLine .lineBtn true).toggles hearly rfl
    obtain ⟨hrelease, htimeout⟩ := (h.afterTicks k).waits hearly (by simpa using hlow)
    simp only [hlast, h.runOps_envAdv hlow hk (by omega) (by omega), runOps_singleton]
    refine ⟨by simpa using htoggle, fun t => ⟨(hnone t).1, (hnone t).2, fun hstep => ?_, fun hstep => ?_⟩⟩
    · exact hrelease (exec_btnRelease_next.mp hstep).1
    · exact htimeout (exec_btnTimeout_next.mp hstep).1
  · have hdue : (afterTicks (tLong s.par.val) s).now = (afterTicks (tLong s.par.val) s).btn.deadline := by
      rw [afterTicks_now, afterTicks_btn, hdeadline]
    simp only [h.runOps_press hlow hpos hdeadline.ge hlt]
    simpa using ((h.afterTicks _).changeLine .lineBtn up).persists hdue

end Sys2Proof.Machine
end

section
/-! PROOFS. The flash primitives (spec/44_config_store.md R206 to R208): where each begins and where its wait is over,
what it does where it succeeds and where it fails, and which bytes of `FLASH` it spares. -/

namespace Sys2Proof.Machine

variable {s s0 : State} {v : Selection}

/-! Bytes outside a range, whatever form the memory is in. -/

theorem memByte_memStore_outside (m : Memory) {off a : Nat} (vs : List Byte) (h : a < off ∨ off + vs.length ≤ a) :
    memByte (memStore m off vs) a = memByte m a := by
  induction vs generalizing m off with
  | nil => rfl
  | cons v vs ih =>
    rw [List.length_cons] at h
    rw [memStore, ih _ (by omega), memByte_memSet_other _ _ (by omega)]

theorem memByte_memProgram_outside (m : Memory) {off a : Nat} (vs : List Byte) (h : a < off ∨ off + vs.length ≤ a) :
    memByte (memProgram m off vs) a = memByte m a := by
  induction vs generalizing m off with
  | nil => rfl
  | cons v vs ih =>
    rw [List.length_cons] at h
    rw [memProgram, ih _ (by omega), memByte_memSet_other _ _ (by omega)]

theorem memByte_memErase_outside (m : Memory) {off len a : Nat} (h : a < off ∨ off + len ≤ a) :
    memByte (memErase m off len) a = memByte m a := by
  rw [memByte_memErase, if_neg (by omega)]

@[simp] theorem freeBytes_length (s : State) (n : Nat) : (freeBytes s n).length = n := by simp [freeBytes]

@[simp] theorem encodeRecord_length (c : Selection) : (encodeRecord c).length = recordBytes := rfl

theorem scramble_flash_outside {off n a : Nat} (s : State) (h : a < off ∨ off + n ≤ a) :
    memByte (scramble off n s).flash a = memByte s.flash a :=
  memByte_memStore_outside _ _ (by simpa using h)

/-! Where a primitive begins, and where it does its work. -/

theorem clearBusy_of_idle (h : s.ctl.busy = none) : clearBusy s = s := by
  have hctl : ({ s.ctl with busy := none } : Ctl) = s.ctl := by rw [← h]
  rw [clearBusy, hctl]

/-- An `FL.ERASE` or `FL.PROG` begins: as a word of its own, or as the primitive that stands next in a `CFG.WRITE`
(R207, R208, R211). -/
def Starts (next : WriteBy → Busy) (o : FlashBy) (s : State) : Prop :=
  s.ctl.busy = none ∧ o = .direct ∨ ∃ w, s.ctl.busy = some (next w) ∧ o = .write w

/-- A primitive does its work in this step, `s0` being the state after the draw of its duration: it starts with a
duration of 0, or it stands at the end of its wait (R11). -/
def Works (starts : Prop) (wait : Busy) (s s0 : State) : Prop :=
  starts ∧ nextDuration s = 0 ∧ s0 = popDuration s ∨ s.ctl.busy = some wait ∧ s.now = s.ctl.deadline ∧ s0 = s

theorem ctlDue_iff : ctlDue s = true ↔ s.now = s.ctl.deadline := beq_iff_eq

section

variable (hlive : ctlLive s = true)
include hlive

theorem exec_flRead_idle (hidle : s.ctl.busy = none) :
    exec .flRead s = .next { beginRead .direct s with fresh := false } :=
  exec_flRead_next.mpr ⟨by simp [ctlIdle_iff, hlive, hidle], by simp only [flReadEffect, hidle]⟩

theorem exec_flRead_due {o : ReadBy} (hwait : s.ctl.busy = some (.flRead o)) (hdue : s.now = s.ctl.deadline) :
    exec .flRead s = .next { readFlash o (clearBusy s) with fresh := false } :=
  exec_flRead_next.mpr
    ⟨by simp [readDue, hwait, hlive, ctlDue_iff.mpr hdue], by simp only [flReadEffect, hwait]⟩

theorem exec_cfgRead_idle (hidle : s.ctl.busy = none) :
    exec .cfgRead s = .next { beginRead .cfgRead s with fresh := false } :=
  exec_cfgRead_next.mpr ⟨ctlIdle_iff.mpr ⟨hlive, hidle⟩, rfl⟩

theorem exec_cfgWrite_idle (hidle : s.ctl.busy = none) (hrange : v.index.toNat < toneCount s.par.val) :
    exec (.cfgWrite v.enabled v.index) s = .next { beginWrite .direct v s with fresh := false } :=
  exec_cfgWrite_next.mpr ⟨by simp [cfgWriteReady, ctlIdle_iff, recordLegal, hlive, hidle, hrange], rfl⟩

theorem exec_flErase_starts {o : FlashBy} (h : Starts .eraseNext o s) :
    exec .flErase s = .next { beginErase o (clearBusy s) with fresh := false } := by
  obtain ⟨hidle, rfl⟩ | ⟨w, hnext, rfl⟩ := h
  · refine exec_flErase_next.mpr ⟨by simp [ctlIdle_iff, hlive, hidle], ?_⟩
    simp only [flEraseEffect, hidle, clearBusy_of_idle hidle]
  · exact exec_flErase_next.mpr ⟨by simp [eraseDue, hnext, hlive], by simp only [flEraseEffect, hnext]⟩

theorem exec_flProg_starts {o : FlashBy} (h : Starts .progNext o s) :
    exec .flProg s = .next { beginProg o (clearBusy s) with fresh := false } := by
  obtain ⟨hidle, rfl⟩ | ⟨w, hnext, rfl⟩ := h
  · refine exec_flProg_next.mpr ⟨by simp [ctlIdle_iff, hlive, hidle], ?_⟩
    simp only [flProgEffect, hidle, clearBusy_of_idle hidle]
  · exact exec_flProg_next.mpr ⟨by simp [progDue, hnext, hlive], by simp only [flProgEffect, hnext]⟩

theorem exec_flErase_works {o : FlashBy} (h : Works (Starts .eraseNext o s) (.flErase o) s s0) :
    exec .flErase s = .next { eraseFlash o (clearBusy s0) with fresh := false } := by
  obtain ⟨hstarts, hzero, rfl⟩ | ⟨hwait, hdue, rfl⟩ := h
  · rw [exec_flErase_starts hlive hstarts, beginErase, await_zero _ _ (by exact hzero)]
    rfl
  · exact exec_flErase_next.mpr
      ⟨by simp [eraseDue, hwait, hlive, ctlDue_iff.mpr hdue], by simp only [flEraseEffect, hwait]⟩

theorem exec_flProg_works {o : FlashBy} (h : Works (Starts .progNext o s) (.flProg o) s s0) :
    exec .flProg s = .next { progFlash o (clearBusy s0) with fresh := false } := by
  obtain ⟨hstarts, hzero, rfl⟩ | ⟨hwait, hdue, rfl⟩ := h
  · rw [exec_flProg_starts hlive hstarts, beginProg, await_zero _ _ (by exact hzero)]
    rfl
  · exact exec_flProg_next.mpr
      ⟨by simp [progDue, hwait, hlive, ctlDue_iff.mpr hdue], by simp only [flProgEffect, hwait]⟩

end

/-- The draw of a duration changes the answers alone, and the end of a wait nothing. -/
theorem Works.eq_withEnv {starts : Prop} {wait : Busy} (h : Works starts wait s s0) :
    s0 = { s with env := s0.env } := by
  obtain ⟨-, -, rfl⟩ | ⟨-, -, rfl⟩ := h <;> rfl

/-! What follows a read, and a primitive that succeeds. -/

/-- The record is the one to write: the `CFG.WRITE` is over (R212). -/
theorem afterRead_write_same {w : WriteBy} (h : decodeRecord s.par.val s.cfg.buf = s.cfg.new) :
    afterRead (.write w) s = afterWrite w (decodeBuffer s) := if_pos h

/-- The record differs: the erase is next (R211, R72). -/
theorem afterRead_write_differs {w : WriteBy} (h : decodeRecord s.par.val s.cfg.buf ≠ s.cfg.new) :
    afterRead (.write w) s =
      { decodeBuffer s with ctl := { s.ctl with busy := some (.eraseNext w), deadline := s.now } } := if_neg h

theorem readFlash_succeeds (o : ReadBy) (hok : nextFail s = false) :
    readFlash o s = afterRead o
      { s with
        env := (popFail s).env
        cfg := { s.cfg with buf := memRead s.flash (cfgOffset s.par.val) recordBytes } } := by
  simp only [readFlash, hok, Bool.false_eq_true, if_false]
  rfl

theorem beginRead_succeeds (o : ReadBy) (hzero : nextDuration s = 0) (hok : nextFail (popDuration s) = false) :
    beginRead o s = afterRead o
      { s with
        env := (popFail (popDuration s)).env
        cfg := { s.cfg with buf := memRead s.flash (cfgOffset s.par.val) recordBytes } } := by
  rw [beginRead, await_zero _ _ hzero, readFlash_succeeds o hok]
  rfl

theorem beginRead_waits (o : ReadBy) (hwait : nextDuration s ≠ 0) :
    beginRead o s =
      { s with
        env := (popDuration s).env
        ctl := { s.ctl with busy := some (.flRead o), deadline := s.now + nextDuration s } } :=
  await_pos _ _ hwait

theorem eraseFlash_succeeds (o : FlashBy) (hok : nextFail s = false) :
    eraseFlash o s = afterErase o
      { s with
        env := (popFail s).env
        flash := memErase s.flash (cfgOffset s.par.val) (blockBytes s.par.val)
        logs := { s.logs with
          flashLog := s.logs.flashLog ++ [.erase (cfgOffset s.par.val) (blockBytes s.par.val)] } } := by
  simp only [eraseFlash, hok, Bool.false_eq_true, if_false]
  rfl

theorem progFlash_succeeds (o : FlashBy) (hok : nextFail s = false) :
    progFlash o s = afterProg o
      { s with
        env := (popFail s).env
        flash := memProgram s.flash (cfgOffset s.par.val) (encodeRecord s.cfg.new)
        logs := { s.logs with
          flashLog := s.logs.flashLog ++ [.prog (cfgOffset s.par.val) (encodeRecord s.cfg.new)] } } := by
  simp only [progFlash, hok, Bool.false_eq_true, if_false]
  rfl

/-- An `FL.ERASE` that succeeds, whoever issued it (R207). -/
theorem exec_flErase_succeeds (hlive : ctlLive s = true) {o : FlashBy}
    (h : Works (Starts .eraseNext o s) (.flErase o) s s0) (hok : nextFail s0 = false) :
    exec .flErase s = .next
      { afterErase o
          { s with
            env := (popFail s0).env
            flash := memErase s.flash (cfgOffset s.par.val) (blockBytes s.par.val)
            logs := { s.logs with
              flashLog := s.logs.flashLog ++ [.erase (cfgOffset s.par.val) (blockBytes s.par.val)] }
            ctl := { s.ctl with busy := none } } with
        fresh := false } := by
  rw [exec_flErase_works hlive h, eraseFlash_succeeds o (by exact hok), h.eq_withEnv]
  rfl

/-- An `FL.PROG` that succeeds, whoever issued it (R208). -/
theorem exec_flProg_succeeds (hlive : ctlLive s = true) {o : FlashBy}
    (h : Works (Starts .progNext o s) (.flProg o) s s0) (hok : nextFail s0 = false) :
    exec .flProg s = .next
      { afterProg o
          { s with
            env := (popFail s0).env
            flash := memProgram s.flash (cfgOffset s.par.val) (encodeRecord s.cfg.new)
            logs := { s.logs with
              flashLog := s.logs.flashLog ++ [.prog (cfgOffset s.par.val) (encodeRecord s.cfg.new)] }
            ctl := { s.ctl with busy := none } } with
        fresh := false } := by
  rw [exec_flProg_works hlive h, progFlash_succeeds o (by exact hok), h.eq_withEnv]
  rfl

/-! A primitive that fails (R206 to R208, R255). -/

theorem readFlash_fails (o : ReadBy) (hfail : nextFail s = true) :
    readFlash o s = raiseControl faultFlashRead (popFail s) := by
  simp only [readFlash, hfail, if_true]

theorem beginRead_fails (o : ReadBy) (hzero : nextDuration s = 0) (hfail : nextFail (popDuration s) = true) :
    beginRead o s = raiseControl faultFlashRead (popFail (popDuration s)) := by
  rw [beginRead, await_zero _ _ hzero, readFlash_fails o hfail]

theorem eraseFlash_fails (o : FlashBy) (hfail : nextFail s = true) :
    eraseFlash o s =
      raiseControl faultFlashErase (scramble (cfgOffset s.par.val) (blockBytes s.par.val) (popFail s)) := by
  simp only [eraseFlash, hfail, if_true]
  rfl

theorem progFlash_fails (o : FlashBy) (hfail : nextFail s = true) :
    progFlash o s = raiseControl faultFlashProg (scramble (cfgOffset s.par.val) recordBytes (popFail s)) := by
  simp only [progFlash, hfail, if_true]
  rfl

end Sys2Proof.Machine
end

section
/-! PROOFS. `FL.READ`, `CFG.READ`, `CFG.WRITE`, `FL.ERASE` and `FL.PROG` begin, wait and end as spec/44_config_store.md
R206 to R212 say. -/

namespace Sys2Proof.Machine

/-- Settles O39: the read begins with a duration of 0 or a longer one, or its wait is over. -/
theorem flashReadAndConfigRead : Obligations.FlashReadAndConfigRead := by
  intro s hhalt hreflash
  have hlive : ctlLive s = true := ctlLive_iff.mpr ⟨hhalt, hreflash⟩
  refine ⟨fun hidle hzero hok => ⟨?_, ?_⟩, fun hidle hlong => ⟨?_, ?_⟩, fun hdue hok =>
    ⟨fun hwait => ?_, fun hwait => ?_⟩⟩
  · rw [exec_flRead_idle hlive hidle, beginRead_succeeds _ hzero hok]
    rfl
  · rw [exec_cfgRead_idle hlive hidle, beginRead_succeeds _ hzero hok]
    rfl
  · rw [exec_flRead_idle hlive hidle, beginRead_waits _ hlong]
  · rw [exec_cfgRead_idle hlive hidle, beginRead_waits _ hlong]
  · rw [exec_flRead_due hlive hwait hdue, readFlash_succeeds _ (by exact hok)]
    rfl
  · rw [exec_flRead_due hlive hwait hdue, readFlash_succeeds _ (by exact hok)]
    rfl

/-- Settles O40: the read of a `CFG.WRITE`, and at its end the comparison that decides whether the write is over. -/
theorem configWriteReadsAndCompares : Obligations.ConfigWriteReadsAndCompares := by
  intro s e i cur hhalt hreflash hcur
  have hlive : ctlLive s = true := ctlLive_iff.mpr ⟨hhalt, hreflash⟩
  refine ⟨fun hidle hrange hzero hok => ?_, fun hidle hrange hlong => ?_, fun w hwait hdue hok => ?_, fun hrange => ?_⟩
  · rw [exec_cfgWrite_idle (v := ⟨i, e⟩) hlive hidle hrange, beginWrite,
      beginRead_succeeds _ (by exact hzero) (by exact hok)]
    split
    case isTrue hsame =>
      rw [afterRead_write_same (by exact hcur.symm.trans hsame), hcur]
      rfl
    case isFalse hdiffers =>
      rw [afterRead_write_differs (by exact hcur ▸ hdiffers), hcur]
      rfl
  · rw [exec_cfgWrite_idle (v := ⟨i, e⟩) hlive hidle hrange, beginWrite, beginRead_waits _ (by exact hlong)]
    rfl
  · rw [exec_flRead_due hlive hwait hdue, readFlash_succeeds _ (by exact hok)]
    split
    case isTrue hsame =>
      rw [afterRead_write_same (by exact hcur.symm.trans hsame), hcur]
      cases w <;> rfl
    case isFalse hdiffers =>
      rw [afterRead_write_differs (by exact hcur ▸ hdiffers), hcur]
      rfl
  · refine takeCtl_not_ready _ _ ?_
    simp [cfgWriteReady, recordLegal, hrange]

/-- Settles O41: the primitive does its work, with the bytes that `memErase` and `memProgram` leave, or it waits. -/
theorem flashEraseAndProgram : Obligations.FlashEraseAndProgram := by
  intro s o w hhalt hreflash hwf
  have hlive : ctlLive s = true := ctlLive_iff.mpr ⟨hhalt, hreflash⟩
  have hstarts {next : WriteBy → Busy}
      (h : s.ctl.busy = none ∧ o = .direct ∨ s.ctl.busy = some (next w) ∧ o = .write w) : Starts next o s :=
    h.imp_right fun hnext => ⟨w, hnext⟩
  refine ⟨fun s0 hworks hok => ?_, fun s0 hworks hok => ?_, fun hlong => ⟨fun h => ?_, fun h => ?_⟩⟩
  · refine ⟨_, (exec_flErase_succeeds hlive (hworks.imp_left fun ⟨h, hzero⟩ => ⟨hstarts h, hzero⟩) hok).trans ?_,
      memErase_wf _ _ hwf, memByte_memErase _ _ _⟩
    cases o <;> rfl
  · refine ⟨_, (exec_flProg_succeeds hlive (hworks.imp_left fun ⟨h, hzero⟩ => ⟨hstarts h, hzero⟩) hok).trans ?_,
      memProgram_wf _ _ hwf, fun a => memByte_memProgram _ (encodeRecord s.cfg.new) a hwf⟩
    obtain _ | _ | _ := o <;> rfl
  · rw [exec_flErase_starts hlive (hstarts h), beginErase, await_pos _ _ (by exact hlong)]
    rfl
  · rw [exec_flProg_starts hlive (hstarts h), beginProg, await_pos _ _ (by exact hlong)]
    rfl

end Sys2Proof.Machine
end

section
/-! PROOFS. A flash primitive that fails raises its own code and halts the control side (spec/44_config_store.md R214,
spec/60_exceptions.md R255, R264). -/

namespace Sys2Proof.Machine

variable {s s0 : State} {i : Instr} {v : Selection}

/-- The operation ends in `HALT` with code `c`, the record to write being `v`, and `FLASH` can differ from what it was
in the `n` bytes from `CFG_OFFSET` on alone (R255, R264). -/
def FailsWith (c : Byte) (n : Nat) (v : Selection) (i : Instr) (s : State) : Prop :=
  ∃ (e : Draws) (m : Memory),
    exec i s = .next
      { s with
        env := e
        flash := m
        cfg := { s.cfg with new := v }
        ctl := { s.ctl with ph := .halt, busy := none }
        enc := { s.enc with st := .off }
        btn := { s.btn with st := .off }
        latch := ⟨true, if s.latch.fault then s.latch.code else c⟩
        fresh := false } ∧
    ∀ a, a < cfgOffset s.par.val ∨ cfgOffset s.par.val + n ≤ a → memByte m a = memByte s.flash a

/-- A read begun by any operation that has latched `v` as the record to write. -/
theorem failsWith_of_beginRead {o : ReadBy}
    (h : exec i s = .next { beginRead o { s with cfg := { s.cfg with new := v } } with fresh := false })
    (hzero : nextDuration s = 0) (hfail : nextFail (popDuration s) = true) : FailsWith 1 0 v i s := by
  rw [beginRead_fails o (by exact hzero) (by exact hfail)] at h
  exact ⟨_, s.flash, h, fun _ _ => rfl⟩

theorem flRead_failsWith (hlive : ctlLive s = true) {o : ReadBy} (hwait : s.ctl.busy = some (.flRead o))
    (hdue : s.now = s.ctl.deadline) (hfail : nextFail s = true) : FailsWith 1 0 s.cfg.new .flRead s := by
  have h := exec_flRead_due hlive hwait hdue
  rw [readFlash_fails o (by exact hfail)] at h
  exact ⟨_, s.flash, h, fun _ _ => rfl⟩

theorem flErase_failsWith (hlive : ctlLive s = true) {o : FlashBy}
    (hworks : Works (Starts .eraseNext o s) (.flErase o) s s0) (hfail : nextFail s0 = true) :
    FailsWith 2 (blockBytes s.par.val) s.cfg.new .flErase s := by
  have h := exec_flErase_works hlive hworks
  rw [eraseFlash_fails o (by exact hfail), hworks.eq_withEnv] at h
  exact ⟨_, _, h, fun a ha => scramble_flash_outside _ ha⟩

theorem flProg_failsWith (hlive : ctlLive s = true) {o : FlashBy}
    (hworks : Works (Starts .progNext o s) (.flProg o) s s0) (hfail : nextFail s0 = true) :
    FailsWith 3 8 s.cfg.new .flProg s := by
  have h := exec_flProg_works hlive hworks
  rw [progFlash_fails o (by exact hfail), hworks.eq_withEnv] at h
  exact ⟨_, _, h, fun a ha => scramble_flash_outside _ ha⟩

/-- `CTL.PERSIST` writes the selection that `SEL` holds (R237). -/
theorem exec_ctlPersist_write (hlive : ctlLive s = true) (hidle : s.ctl.busy = none) (hph : s.ctl.ph = .persistWrite)
    (hsel : s.sel = ⟨⟨v.index, true⟩, ⟨v.enabled, true⟩⟩) (hrange : v.index.toNat < toneCount s.par.val) :
    exec .ctlPersist s = .next { beginWrite .persist v s with fresh := false } := by
  refine exec_ctlPersist_next.mpr ⟨?_, ?_⟩
  · simp [ctlPersistReady, ctlIdle_iff, hlive, hidle, hph, recordLegal, hsel, hrange]
  · simp only [persistEffect, hph, withSelection, hsel, Bool.and_self, if_true]

/-- An operation that issues a read while the control process is free (R206, R209, R211, R228, R237). -/
theorem issuer_failsWith (hlive : ctlLive s = true) (hzero : nextDuration s = 0)
    (hfail : nextFail (popDuration s) = true)
    (h : s.ctl.busy = none ∧ (i = .flRead ∨ i = .cfgRead ∨ i = .ctlLoad ∧ s.ctl.ph = .load) ∧ v = s.cfg.new ∨
      s.ctl.busy = none ∧ i = .cfgWrite v.enabled v.index ∧ v.index.toNat < toneCount s.par.val ∨
      s.ctl.busy = none ∧ i = .ctlPersist ∧ s.ctl.ph = .persistWrite ∧
        s.sel = ⟨⟨v.index, true⟩, ⟨v.enabled, true⟩⟩ ∧ v.index.toNat < toneCount s.par.val) :
    FailsWith 1 0 v i s := by
  obtain ⟨hidle, rfl | rfl | ⟨rfl, hph⟩, rfl⟩ | ⟨hidle, rfl, hrange⟩ | ⟨hidle, rfl, hph, hsel, hrange⟩ := h
  · exact failsWith_of_beginRead (exec_flRead_idle hlive hidle) hzero hfail
  · exact failsWith_of_beginRead (exec_cfgRead_idle hlive hidle) hzero hfail
  · exact failsWith_of_beginRead (exec_ctlLoad_next.mpr ⟨ctlAt_iff.mpr ⟨hlive, hidle, hph⟩, rfl⟩) hzero hfail
  · exact failsWith_of_beginRead (exec_cfgWrite_idle hlive hidle hrange) hzero hfail
  · exact failsWith_of_beginRead (exec_ctlPersist_write hlive hidle hph hsel hrange) hzero hfail

/-- A control process that is free, or stands before a primitive of a `CFG.WRITE`, is where that primitive starts. -/
theorem starts_of_next {next : WriteBy → Busy} (h : s.ctl.busy = none ∨ ∃ w, s.ctl.busy = some (next w)) :
    ∃ o, Starts next o s := by
  obtain hidle | ⟨w, hnext⟩ := h
  · exact ⟨.direct, .inl ⟨hidle, rfl⟩⟩
  · exact ⟨.write w, .inr ⟨w, hnext, rfl⟩⟩

/-- Settles O42: a failure at the end of a wait, and one at a drawn duration of 0, each for the three primitives. -/
theorem flashFailuresAreFatal : Obligations.FlashFailuresAreFatal := by
  intro s i c n v hhalt hreflash h
  have hlive : ctlLive s = true := ctlLive_iff.mpr ⟨hhalt, hreflash⟩
  obtain ⟨hdue, hfail, rfl, h⟩ | ⟨hzero, hfail, h⟩ := h
  · obtain ⟨o, hwait, rfl, rfl, rfl⟩ | ⟨o, hwait, rfl, rfl, rfl⟩ | ⟨o, hwait, rfl, rfl, rfl⟩ := h
    · exact flRead_failsWith hlive hwait hdue hfail
    · exact flErase_failsWith hlive (.inr ⟨hwait, hdue, rfl⟩) hfail
    · exact flProg_failsWith hlive (.inr ⟨hwait, hdue, rfl⟩) hfail
  · obtain ⟨hissuer, rfl, rfl⟩ | ⟨hnext, rfl, rfl, rfl, rfl⟩ | ⟨hnext, rfl, rfl, rfl, rfl⟩ := h
    · exact issuer_failsWith hlive hzero hfail hissuer
    · obtain ⟨o, hstarts⟩ := starts_of_next hnext
      exact flErase_failsWith hlive (.inl ⟨hstarts, hzero, rfl⟩) hfail
    · obtain ⟨o, hstarts⟩ := starts_of_next hnext
      exact flProg_failsWith hlive (.inl ⟨hstarts, hzero, rfl⟩) hfail

end Sys2Proof.Machine
end

section
/-! PROOFS. Whole saves: what a `CFG.WRITE` leaves in `FLASH` and its log where no primitive fails or waits
(spec/44_config_store.md R215, R216), and a reset inside one (R217). -/

namespace Sys2Proof.Machine

variable {s t : State} {n : Nat} {v : Selection}

theorem runOps_append {is js : List Instr} (h : runOps is s = .next t) : runOps (is ++ js) s = runOps js t := by
  induction is generalizing s with
  | nil =>
    cases h
    rfl
  | cons i is ih =>
    simp only [runOps, List.cons_append] at h ⊢
    cases hexec : exec i s with
    | next u =>
      rw [hexec] at h
      exact ih h
    | fault r | refused r => simp [hexec] at h

/-- The parameters, `ROM`, and `FLASH` with its log. -/
def storage (s : State) : ValidParams × Rom × Memory × List FlashEvent := (s.par, s.rom, s.flash, s.logs.flashLog)

theorem storage_eq_iff {p : ValidParams} {r : Rom} {m : Memory} {l : List FlashEvent} :
    storage s = (p, r, m, l) ↔ s.par = p ∧ s.rom = r ∧ s.flash = m ∧ s.logs.flashLog = l := by
  simp only [storage, Prod.mk.injEq]

/-- The bytes of the stored record (R64, R74). -/
def storedBytes (s : State) : List Byte := memRead s.flash (cfgOffset s.par.val) recordBytes

/-- The next `n` flash primitives draw a duration of 0 and no failure (R206 to R208). -/
def Prompt (n : Nat) (e : Draws) : Prop :=
  (∃ ds, e.durations = List.replicate n 0 ++ ds) ∧ ∃ fs, e.fails = List.replicate n false ++ fs

theorem Prompt.succeeds (h : Prompt (n + 1) s.env) :
    nextDuration s = 0 ∧ nextFail (popDuration s) = false ∧ Prompt n (popFail (popDuration s)).env := by
  obtain ⟨⟨ds, hds⟩, ⟨fs, hfs⟩⟩ := h
  have hds' : s.env.durations = 0 :: (List.replicate n 0 ++ ds) := hds
  have hfs' : (popDuration s).env.fails = false :: (List.replicate n false ++ fs) := (popDuration_fails s).trans hfs
  refine ⟨nextDuration_cons hds', nextFail_cons hfs', ⟨ds, ?_⟩, ⟨fs, ?_⟩⟩
  · rw [popFail_durations, popDuration_cons hds']
  · rw [popFail_cons hfs']

/-- The control process is free, and the next `n` flash primitives succeed at once. -/
structure Free (n : Nat) (s : State) : Prop where
  live : ctlLive s = true
  idle : s.ctl.busy = none
  flash : Memory.wf s.flash = true
  prompt : Prompt n s.env

/-- A `CFG.READ` takes the decoded record (R209). -/
theorem Free.cfgRead (h : Free (n + 1) s) :
    ∃ t, exec .cfgRead s = .next t ∧ t.cfg.cur = decodeRecord s.par.val (storedBytes s) := by
  obtain ⟨hzero, hok, -⟩ := h.prompt.succeeds
  refine ⟨_, exec_cfgRead_idle h.live h.idle, ?_⟩
  rw [beginRead_succeeds _ hzero hok]
  rfl

/-- A `CFG.WRITE` of the record that is stored is over after its read (R212). -/
theorem Free.write_same (h : Free (n + 1) s) (hrange : v.index.toNat < toneCount s.par.val)
    (hsame : decodeRecord s.par.val (storedBytes s) = v) :
    ∃ t, exec (.cfgWrite v.enabled v.index) s = .next t ∧ Free n t ∧ storage t = storage s := by
  obtain ⟨hzero, hok, hprompt⟩ := h.prompt.succeeds
  refine ⟨_, exec_cfgWrite_idle h.live h.idle hrange, ?_⟩
  rw [beginWrite, beginRead_succeeds _ (by exact hzero) (by exact hok), afterRead_write_same (by exact hsame)]
  exact ⟨⟨h.live, h.idle, h.flash, hprompt⟩, rfl⟩

/-- A `CFG.WRITE` of `v` stands before a primitive, and the next `n` of them succeed at once (R211, R72). -/
structure Saving (b : Busy) (v : Selection) (n : Nat) (s : State) : Prop where
  live : ctlLive s = true
  stands : s.ctl.busy = some b
  record : s.cfg.new = v
  flash : Memory.wf s.flash = true
  prompt : Prompt n s.env

/-- A `CFG.WRITE` of another record goes on to the erase (R211). -/
theorem Free.write_differs (h : Free (n + 1) s) (hrange : v.index.toNat < toneCount s.par.val)
    (hdiffers : decodeRecord s.par.val (storedBytes s) ≠ v) :
    ∃ t, exec (.cfgWrite v.enabled v.index) s = .next t ∧ Saving (.eraseNext .direct) v n t ∧
      storage t = storage s := by
  obtain ⟨hzero, hok, hprompt⟩ := h.prompt.succeeds
  refine ⟨_, exec_cfgWrite_idle h.live h.idle hrange, ?_⟩
  rw [beginWrite, beginRead_succeeds _ (by exact hzero) (by exact hok), afterRead_write_differs (by exact hdiffers)]
  exact ⟨⟨h.live, rfl, rfl, h.flash, hprompt⟩, rfl⟩

/-- The erase of a `CFG.WRITE` (R207). -/
theorem Saving.erase {w : WriteBy} (h : Saving (.eraseNext w) v (n + 1) s) :
    ∃ t, exec .flErase s = .next t ∧ Saving (.progNext w) v n t ∧
      storage t = (s.par, s.rom, memErase s.flash (cfgOffset s.par.val) (blockBytes s.par.val),
        s.logs.flashLog ++ [.erase (cfgOffset s.par.val) (blockBytes s.par.val)]) := by
  obtain ⟨hzero, hok, hprompt⟩ := h.prompt.succeeds
  exact ⟨_, exec_flErase_succeeds h.live (.inl ⟨.inr ⟨w, h.stands, rfl⟩, hzero, rfl⟩) hok,
    ⟨h.live, rfl, h.record, memErase_wf _ _ h.flash, hprompt⟩, rfl⟩

/-- The program of a `CFG.WRITE` that no operation of `CTL` issued, which ends it (R208, R211). -/
theorem Saving.program (h : Saving (.progNext .direct) v (n + 1) s) :
    ∃ t, exec .flProg s = .next t ∧ Free n t ∧
      storage t = (s.par, s.rom, memProgram s.flash (cfgOffset s.par.val) (encodeRecord v),
        s.logs.flashLog ++ [.prog (cfgOffset s.par.val) (encodeRecord v)]) := by
  obtain ⟨hlive, hstands, rfl, hwf, hprompt⟩ := h
  obtain ⟨hzero, hok, hprompt⟩ := hprompt.succeeds
  exact ⟨_, exec_flProg_succeeds hlive (.inl ⟨.inr ⟨.direct, hstands, rfl⟩, hzero, rfl⟩) hok,
    ⟨hlive, rfl, memProgram_wf _ _ hwf, hprompt⟩, rfl⟩

/-- Erasing the block and then programming a record stores the record (R65, R66). -/
theorem memRead_erase_program {m : Memory} (p : Params) (c : Selection) (hwf : Memory.wf m = true) :
    memRead (memProgram (memErase m (cfgOffset p) (blockBytes p)) (cfgOffset p) (encodeRecord c)) (cfgOffset p)
      recordBytes = encodeRecord c :=
  memRead_memProgram_blank _ (memErase_wf _ _ hwf) (memRead_memErase m (recordBytes_le_blockBytes p))

/-- A whole save of another record: one erase, one program, and the record is stored (R211, R215). -/
theorem Free.save (h : Free (n + 3) s) (hrange : v.index.toNat < toneCount s.par.val)
    (hdiffers : decodeRecord s.par.val (storedBytes s) ≠ v) :
    ∃ t, runOps [.cfgWrite v.enabled v.index, .flErase, .flProg] s = .next t ∧ Free n t ∧ t.par = s.par ∧
      storedBytes t = encodeRecord v ∧
      t.logs.flashLog = s.logs.flashLog ++
        [.erase (cfgOffset s.par.val) (blockBytes s.par.val), .prog (cfgOffset s.par.val) (encodeRecord v)] := by
  obtain ⟨s1, hwrite, h1, hstored1⟩ := h.write_differs hrange hdiffers
  obtain ⟨s2, herase, h2, hstored2⟩ := h1.erase
  obtain ⟨s3, hprog, h3, hstored3⟩ := h2.program
  obtain ⟨hpar1, -, hflash1, hlog1⟩ := storage_eq_iff.mp hstored1
  obtain ⟨hpar2, -, hflash2, hlog2⟩ := storage_eq_iff.mp hstored2
  obtain ⟨hpar3, -, hflash3, hlog3⟩ := storage_eq_iff.mp hstored3
  have hpar : s3.par = s.par := hpar3.trans (hpar2.trans hpar1)
  refine ⟨s3, ?_, h3, hpar, ?_, ?_⟩
  · rw [runOps_cons hwrite, runOps_cons herase, runOps_singleton, hprog]
  · rw [storedBytes, hpar, hflash3, hpar2, hflash2, hpar1, hflash1]
    exact memRead_erase_program s.par.val v h.flash
  · rw [hlog3, hlog2, hlog1, hpar2, hpar1, List.append_assoc]
    rfl

/-- The premises of R215 and R216. -/
theorem free_of_answers {ds : List Nat} {fs : List Bool} (hhalt : s.ctl.ph ≠ .halt) (hreflash : s.ctl.ph ≠ .reflash)
    (hidle : s.ctl.busy = none) (hwf : Memory.wf s.flash = true) (hds : s.env.durations = 0 :: 0 :: 0 :: 0 :: ds)
    (hfs : s.env.fails = false :: false :: false :: false :: fs) : Free 4 s :=
  ⟨ctlLive_iff.mpr ⟨hhalt, hreflash⟩, hidle, hwf, ⟨ds, hds⟩, ⟨fs, hfs⟩⟩

/-- Settles O44: after either form of the save the stored bytes decode to the record, and the read takes it. -/
theorem saveThenReadReturnsTheRecord : Obligations.SaveThenReadReturnsTheRecord := by
  intro s e i ds fs hhalt hreflash hidle hwf hrange hds hfs
  have hfree : Free 4 s := free_of_answers hhalt hreflash hidle hwf hds hfs
  split
  case isTrue hsame =>
    obtain ⟨t, hwrite, ht, hstorage⟩ := hfree.write_same (v := ⟨i, e⟩) hrange hsame
    obtain ⟨u, hread, hcur⟩ := ht.cfgRead
    refine ⟨u, hcur.trans ?_, by rw [runOps_cons hwrite, runOps_singleton, hread]⟩
    obtain ⟨hpar, -, hflash, -⟩ := storage_eq_iff.mp hstorage
    rw [storedBytes, hpar, hflash]
    exact hsame
  case isFalse hdiffers =>
    obtain ⟨t, hsave, ht, hpar, hbytes, -⟩ := hfree.save (v := ⟨i, e⟩) hrange hdiffers
    obtain ⟨u, hread, hcur⟩ := ht.cfgRead
    refine ⟨u, hcur.trans ?_, (runOps_append (js := [.cfgRead]) hsave).trans ((runOps_singleton _ _).trans hread)⟩
    rw [hbytes, hpar]
    exact decodeRecord_encodeRecord hrange

/-- Settles O45: after the save of another record the stored bytes decode to it, so the second write is over after its
read, as both are where the record is stored already. -/
theorem secondSaveIsANoOp : Obligations.SecondSaveIsANoOp := by
  intro s e i ds fs hhalt hreflash hidle hwf hrange hds hfs
  have hfree : Free 4 s := free_of_answers hhalt hreflash hidle hwf hds hfs
  refine ⟨fun hdiffers => ?_, fun hsame => ?_⟩
  · obtain ⟨t, hsave, ht, hpar, hbytes, hlog⟩ := hfree.save (v := ⟨i, e⟩) hrange hdiffers
    have hrange' : i.toNat < toneCount t.par.val := hpar ▸ hrange
    obtain ⟨u, hwrite, hu, hstorage⟩ :=
      ht.write_same (v := ⟨i, e⟩) hrange' (hbytes ▸ decodeRecord_encodeRecord hrange')
    obtain ⟨-, -, hflash, hlog'⟩ := storage_eq_iff.mp hstorage
    exact ⟨t, u, hsave, hwrite, hlog, hlog', hflash, hu.idle⟩
  · obtain ⟨t, hfirst, ht, hstorage⟩ := hfree.write_same (v := ⟨i, e⟩) hrange hsame
    obtain ⟨hpar, -, hflash, hlog⟩ := storage_eq_iff.mp hstorage
    have hbytes : storedBytes t = storedBytes s := by rw [storedBytes, hpar, hflash, storedBytes]
    obtain ⟨u, hsecond, hu, hstorage'⟩ :=
      ht.write_same (v := ⟨i, e⟩) (hpar ▸ hrange) (by rw [hbytes, hpar]; exact hsame)
    obtain ⟨-, -, hflash', hlog'⟩ := storage_eq_iff.mp hstorage'
    exact ⟨u, by rw [runOps_cons hfirst, runOps_singleton, hsecond], hlog'.trans hlog, hflash'.trans hflash, hu.idle⟩

/-! A reset between the erase and the program. -/

/-- A blank record reads as the default (R94, R213). -/
theorem decodeRecord_blank {p : Params} (h : toneCount p < 2 ^ 32) :
    decodeRecord p (List.replicate recordBytes blankByte) = ⟨0, true⟩ := by
  have hall : (0xFF#8 ++ 0xFF#8 ++ (0xFF#8 ++ 0xFF#8) : Word32).toNat = 2 ^ 32 - 1 := by decide
  have hblank := decodeRecord_bytes p 0xFF#8 0xFF#8 0xFF#8 0xFF#8 0xFF#8 0xFF#8 0xFF#8 0xFF#8
  rwa [if_pos (by rw [hall]; omega)] at hblank

/-- Settles O46: the reset leaves `FLASH` as the erase left it, because the program has not begun (R217). -/
theorem resetBetweenEraseAndProgram : Obligations.ResetBetweenEraseAndProgram := by
  intro s w hhalt hreflash hnext hcount hzero hok
  have herase := exec_flErase_succeeds (ctlLive_iff.mpr ⟨hhalt, hreflash⟩)
    (.inl ⟨.inr ⟨w, hnext, rfl⟩, hzero, rfl⟩) hok
  have hblank : memRead (memErase s.flash (cfgOffset s.par.val) (blockBytes s.par.val)) (cfgOffset s.par.val) 8 =
      List.replicate 8 0xFF#8 := memRead_memErase s.flash (recordBytes_le_blockBytes s.par.val)
  refine ⟨_, by rw [runOps_cons herase, runOps_singleton, exec_envReset_next], hblank, ?_,
    fun a ha => memByte_memErase_outside s.flash ha⟩
  exact (congrArg (decodeRecord s.par.val) hblank).trans (decodeRecord_blank hcount)

end Sys2Proof.Machine
end

section
/-! PROOFS. What an operation can do to the parameters, `ROM` and `FLASH` (spec/20_memory.md R63, R77, R80,
spec/44_config_store.md R218). -/

namespace Sys2Proof.Machine

variable {s t : State}

/-- Nothing but `FLASH` and its log has changed of what is stored, and `FLASH` in the block of the record alone. -/
def WritesBlock (s t : State) : Prop :=
  t.par = s.par ∧ t.rom = s.rom ∧
    ∀ a, a < cfgOffset s.par.val ∨ cfgOffset s.par.val + blockBytes s.par.val ≤ a →
      memByte t.flash a = memByte s.flash a

/-- What an operation can do to what is stored: nothing, the first read of `ROM`, the generation of a table, or a change
of `FLASH` in the block of the record. -/
inductive StorageStep (s t : State) : Instr → Prop
  | keeps {i : Instr} (hi : i ≠ .dmaXfer) (h : storage t = storage s) : StorageStep s t i
  | reads (h : storage t = storage { s with rom := { s.rom with read := true } }) : StorageStep s t .dmaXfer
  | generates {i : Instr} (hi : i = .genPdmgen ∨ i = .genPdmgen8) (h : storage t = storage { s with rom := t.rom })
    (hread : t.rom.read = s.rom.read) (hclosed : s.rom.read = true ∨ s.dma.busy = true → t.rom = s.rom) :
    StorageStep s t i
  | writes {i : Instr} (hi : i = .flErase ∨ i = .flProg ∨ i = .envReset) (h : WritesBlock s t) : StorageStep s t i

/-! The shared operations of the control side leave it alone. -/

theorem await_storage {b : Busy} {rest : State → State} (go : storage (rest (popDuration s)) = storage s) :
    storage (await b rest s) = storage s :=
  await_cases (P := fun t => storage t = storage s) go rfl

theorem withSelection_storage {k : Selection → State → State} (go : ∀ v, storage (k v s) = storage s) :
    storage (withSelection k s) = storage s :=
  withSelection_cases (P := fun t => storage t = storage s) (fun _ _ => go _) rfl

theorem withIndex_storage {k : Word32 → State → State} (go : ∀ i, storage (k i s) = storage s) :
    storage (withIndex k s) = storage s :=
  withIndex_cases (P := fun t => storage t = storage s) (fun _ => go _) rfl

theorem withEnabled_storage {k : Bool → State → State} (go : ∀ e, storage (k e s) = storage s) :
    storage (withEnabled k s) = storage s :=
  withEnabled_cases (P := fun t => storage t = storage s) (fun _ => go _) rfl

theorem drawAll_storage (ds : List (Glyph × Slot)) {rest : State → State}
    (go : ∀ t, storage (rest t) = storage t) : storage (drawAll ds rest s) = storage s :=
  drawAll_induct (P := fun t => storage t = storage s) (Q := fun t => storage t = storage s) ds rfl
    (fun _ _ _ ht => ht) (fun _ ht => ht) (fun t ht => (go t).trans ht)

theorem afterFlush_storage (issuer : FlushBy) (s : State) : storage (afterFlush issuer s) = storage s := by
  cases issuer with
  | direct | recovery | persistAck => rfl
  | render => exact await_storage rfl

theorem flush_storage (issuer : FlushBy) (s : State) : storage (flush issuer s) = storage s :=
  flush_cases (P := fun t => storage t = storage s) (fun _ => await_storage (afterFlush_storage _ _)) (fun _ => rfl)

theorem afterWrite_storage (issuer : WriteBy) (s : State) : storage (afterWrite issuer s) = storage s := by
  cases issuer <;> rfl

theorem afterRead_storage (issuer : ReadBy) (s : State) : storage (afterRead issuer s) = storage s := by
  cases issuer with
  | direct | cfgRead | load => rfl
  | write by' =>
    simp only [afterRead]
    split
    · exact afterWrite_storage _ _
    · rfl

theorem readFlash_storage (issuer : ReadBy) (s : State) : storage (readFlash issuer s) = storage s :=
  readFlash_cases (P := fun t => storage t = storage s) (fun _ => afterRead_storage _ _) (fun _ => rfl)

theorem beginRead_storage (issuer : ReadBy) (s : State) : storage (beginRead issuer s) = storage s :=
  await_storage (readFlash_storage _ _)

theorem beginWrite_storage (issuer : WriteBy) (v : Selection) (s : State) :
    storage (beginWrite issuer v s) = storage s := beginRead_storage _ _

theorem flReadEffect_storage (s : State) : storage (flReadEffect s) = storage s := by
  unfold flReadEffect
  split
  · exact readFlash_storage _ _
  · exact beginRead_storage _ _

theorem flushEffect_storage (s : State) : storage (flushEffect s) = storage s := by
  unfold flushEffect
  split
  · exact afterFlush_storage _ _
  · exact flush_storage _ _

theorem publishEffect_storage (s : State) : storage (publishEffect s) = storage s := by
  unfold publishEffect
  split
  · rfl
  · exact withSelection_storage fun _ => await_storage rfl

theorem renderEffect_storage (s : State) : storage (renderEffect s) = storage s := by
  unfold renderEffect
  split
  · rfl
  · refine withSelection_storage fun _ => ?_
    split
    · rfl
    · exact drawAll_storage _ (flush_storage _)

theorem persistEffect_storage (s : State) : storage (persistEffect s) = storage s := by
  unfold persistEffect
  split
  · exact drawAll_storage [(glyphMem, 4)] (flush_storage _)
  · exact withIndex_storage fun _ => rfl
  · exact withSelection_storage fun _ => beginWrite_storage _ _ _
  · rfl

theorem buttonWins_storage (s : State) : storage (buttonWins s) = storage s := by
  unfold buttonWins
  split <;> rfl

theorem encoderWins_storage (b : Bool) (s : State) : storage (encoderWins b s) = storage s := by
  unfold encoderWins
  split <;> rfl

theorem pushTable_storage (s : State) : storage (pushTable s) = storage s := by
  unfold pushTable
  split <;> rfl

/-! The erase, the program and the reset. -/

theorem WritesBlock.of_storage (h : storage t = storage s) : WritesBlock s t := by
  obtain ⟨hpar, hrom, hflash, -⟩ := storage_eq_iff.mp h
  exact ⟨hpar, hrom, fun a _ => by rw [hflash]⟩

theorem eraseFlash_writesBlock (issuer : FlashBy) (s : State) : WritesBlock s (eraseFlash issuer s) :=
  eraseFlash_cases
    (fun _ => by cases issuer <;> exact ⟨rfl, rfl, fun a ha => memByte_memErase_outside _ ha⟩)
    (fun _ => ⟨rfl, rfl, fun a ha => scramble_flash_outside _ ha⟩)

/-- The record lies in its block (R74). -/
theorem outside_record {p : Params} {a : Nat} (h : a < cfgOffset p ∨ cfgOffset p + blockBytes p ≤ a) :
    a < cfgOffset p ∨ cfgOffset p + recordBytes ≤ a :=
  h.imp_right (Nat.add_le_add_left (recordBytes_le_blockBytes p) _).trans

theorem progFlash_writesBlock (issuer : FlashBy) (s : State) : WritesBlock s (progFlash issuer s) :=
  progFlash_cases
    (fun _ => by
      have houtside {a : Nat} (ha : a < cfgOffset s.par.val ∨ cfgOffset s.par.val + blockBytes s.par.val ≤ a) :=
        memByte_memProgram_outside s.flash (encodeRecord s.cfg.new) (outside_record ha)
      obtain _ | _ | _ := issuer <;> exact ⟨rfl, rfl, fun _ ha => houtside ha⟩)
    (fun _ => ⟨rfl, rfl, fun _ ha => scramble_flash_outside _ (outside_record ha)⟩)

theorem await_writesBlock {b : Busy} {rest : State → State} (go : WritesBlock s (rest (popDuration s))) :
    WritesBlock s (await b rest s) :=
  await_cases go (.of_storage rfl)

theorem flEraseEffect_writesBlock (s : State) : WritesBlock s (flEraseEffect s) := by
  unfold flEraseEffect
  split
  · exact await_writesBlock (s := clearBusy s) (eraseFlash_writesBlock _ (popDuration (clearBusy s)))
  · exact eraseFlash_writesBlock _ (clearBusy s)
  · exact await_writesBlock (eraseFlash_writesBlock _ (popDuration s))

theorem flProgEffect_writesBlock (s : State) : WritesBlock s (flProgEffect s) := by
  unfold flProgEffect
  split
  · exact await_writesBlock (s := clearBusy s) (progFlash_writesBlock _ (popDuration (clearBusy s)))
  · exact progFlash_writesBlock _ (clearBusy s)
  · exact await_writesBlock (progFlash_writesBlock _ (popDuration s))

/-- A reset inside an `FL.PROG` leaves the record's bytes free, and any other leaves `FLASH` as it is (R217). -/
theorem resetState_writesBlock (s : State) : WritesBlock s (resetState s) := by
  unfold resetState interruptedFlash
  split
  · exact ⟨rfl, rfl, fun _ ha => scramble_flash_outside _ (outside_record ha)⟩
  · exact ⟨rfl, rfl, fun _ _ => rfl⟩

/-! The operations. -/

theorem take_storage {ready : Bool} {f : State → State} (h : take ready f s = .next t)
    (hf : storage (f s) = storage s) : storage t = storage s := by
  obtain ⟨-, rfl⟩ := take_next.mp h
  exact hf

theorem takeCtl_storage {ready : Bool} {f : State → State} (h : takeCtl ready f s = .next t)
    (hf : storage (f s) = storage s) : storage t = storage s := take_storage h hf

/-- Of the operations of the control side the erase and the program alone write to what is stored (R218). -/
theorem exec_control_storageStep {i : Instr} (hi : isControl i = true) (h : exec i s = .next t) :
    StorageStep s t i := by
  cases i with
  | flErase =>
    obtain ⟨-, rfl⟩ := exec_flErase_next.mp h
    exact .writes (by simp) (flEraseEffect_writesBlock s)
  | flProg =>
    obtain ⟨-, rfl⟩ := exec_flProg_next.mp h
    exact .writes (by simp) (flProgEffect_writesBlock s)
  | mbxSend | encStart | encRest | encArm | encAdvance | encDrop | encAbandon | btnStart | btnRelease | btnTimeout
  | btnTrail | btnAbandon | ctlBoot => exact .keeps nofun (takeCtl_storage h rfl)
  | encFall =>
    obtain ⟨-, rfl⟩ := exec_encFall_next.mp h
    exact .keeps nofun rfl
  | encEmit =>
    obtain ⟨-, rfl⟩ := exec_encEmit_next.mp h
    exact .keeps nofun (encoderWins_storage _ _)
  | btnEdge =>
    obtain ⟨-, rfl⟩ := exec_btnEdge_next.mp h
    exact .keeps nofun (buttonWins_storage _)
  | btnConfirm =>
    obtain ⟨-, rfl⟩ := exec_btnConfirm_next.mp h
    exact .keeps nofun rfl
  | ctlWait =>
    obtain ⟨-, rfl⟩ := exec_ctlWait_next.mp h
    exact .keeps nofun rfl
  | cfgRead | ctlLoad => exact .keeps nofun (takeCtl_storage h (beginRead_storage _ _))
  | cfgWrite => exact .keeps nofun (takeCtl_storage h (beginWrite_storage _ _ _))
  | flRead => exact .keeps nofun (takeCtl_storage h (flReadEffect_storage s))
  | ctlRecovery => exact .keeps nofun (takeCtl_storage h (drawAll_storage _ (flush_storage _)))
  | ctlPublish => exact .keeps nofun (takeCtl_storage h (publishEffect_storage s))
  | ctlRender => exact .keeps nofun (takeCtl_storage h (renderEffect_storage s))
  | ctlUp | ctlDown => exact .keeps nofun (takeCtl_storage h (withIndex_storage fun _ => rfl))
  | ctlToggle => exact .keeps nofun (takeCtl_storage h (withEnabled_storage fun _ => rfl))
  | ctlPersist => exact .keeps nofun (takeCtl_storage h (persistEffect_storage s))
  | dispDraw glyph slot => exact .keeps nofun (takeCtl_storage h (drawAll_storage [(glyph, slot)] fun _ => rfl))
  | dispFlush => exact .keeps nofun (takeCtl_storage h (flushEffect_storage s))
  | _ => cases hi

/-- The audio side only reads, and what it reads is `ROM` (R75, R80). -/
theorem exec_audio_storageStep {i : Instr} (hi : isAudio i = true) (h : exec i s = .next t) : StorageStep s t i := by
  cases i with
  | dmaXfer =>
    obtain ⟨-, w, -, rfl⟩ := exec_dmaXfer_next.mp h
    exact .reads rfl
  | smSetdiv | smEnable | smPull | smShift | dmaArm | dmaAbort | mbxRecv | audStart =>
    exact .keeps nofun (take_storage h rfl)
  | audRearm =>
    obtain ⟨-, rfl⟩ := exec_audRearm_next.mp h
    exact .keeps nofun rfl
  | audPreempt =>
    obtain ⟨-, rfl⟩ := exec_audPreempt_next.mp h
    exact .keeps nofun rfl
  | audPush => exact .keeps nofun (take_storage h (pushTable_storage s))
  | divCalc =>
    obtain ⟨-, ⟨-, rfl⟩ | ⟨-, rfl⟩ | ⟨b, d, -, rfl⟩⟩ := exec_divCalc_next.mp h <;> exact .keeps nofun rfl
  | audConfig =>
    obtain ⟨-, ⟨-, rfl⟩ | ⟨-, ⟨-, rfl⟩ | ⟨-, rfl⟩ | ⟨b, d, -, rfl⟩⟩⟩ := exec_audConfig_next.mp h <;>
      exact .keeps nofun rfl
  | _ => cases hi

/-- Once a word has been read, or while a push is armed, the generator has no other table to write (R77, R80). -/
theorem generator_closed {present generated : List Word32} (hready : genReady s = true)
    (hopen : s.rom.read = false ∨ present = generated) (h : s.rom.read = true ∨ s.dma.busy = true) :
    generated = present := by
  obtain ⟨-, -, -, -, -, -, -, -, hbusy, -⟩ := genReady_iff.mp hready
  obtain hread | harmed := h
  · exact (hopen.resolve_left (by simp [hread])).symm
  · simp [hbusy] at harmed

theorem exec_outside_storageStep {i : Instr} (hi : isOutside i = true) (h : exec i s = .next t) :
    StorageStep s t i := by
  cases i with
  | envReset =>
    obtain rfl := exec_envReset_next.mp h
    exact .writes (by simp) (resetState_writesBlock s)
  | envLine =>
    obtain ⟨-, rfl⟩ := exec_envLine_next.mp h
    exact .keeps nofun rfl
  | envAdv =>
    have hadv := (exec_envAdv_next.mp h).2
    exact .keeps nofun (advance_induct (P := fun u => storage u = storage s) (fun _ hu => hu) rfl hadv)
  | genPdmgen =>
    obtain ⟨hr, rfl⟩ := exec_genPdmgen_next.mp h
    obtain ⟨hready, hopen⟩ := genPdmgen_ready_iff.mp hr
    exact .generates (.inl rfl) rfl rfl fun hclosed => by rw [generator_closed hready hopen hclosed]
  | genPdmgen8 =>
    obtain ⟨hr, rfl⟩ := exec_genPdmgen8_next.mp h
    obtain ⟨hready, -, hopen⟩ := genPdmgen8_ready_iff.mp hr
    exact .generates (.inr rfl) rfl rfl fun hclosed => by rw [generator_closed hready hopen hclosed]
  | _ => cases hi

/-- What any operation does to what is stored, whoever issues it. -/
theorem exec_storageStep {i : Instr} (h : exec i s = .next t) : StorageStep s t i := by
  rcases instr_side i with hi | hi | hi | ⟨code, rfl⟩
  · exact exec_control_storageStep hi h
  · exact exec_audio_storageStep hi h
  · exact exec_outside_storageStep hi h
  · obtain ⟨-, rfl⟩ := exec_fault_next.mp h
    exact .keeps nofun
      (faultEffect_cases (P := fun u => storage u = storage s) code s (fun _ => rfl) (fun _ => rfl))

/-- Settles O60: each thing that an operation can do to what is stored is one that the rules allow it. -/
theorem constantsAndTheFlashBlock : Obligations.ConstantsAndTheFlashBlock := by
  intro i s t h
  cases exec_storageStep h with
  | keeps hi hsame =>
    obtain ⟨hpar, hrom, hflash, hlog⟩ := storage_eq_iff.mp hsame
    simp [hpar, hrom, hflash, hlog, hi]
  | reads hread =>
    obtain ⟨hpar, hrom, hflash, hlog⟩ := storage_eq_iff.mp hread
    simp [hpar, hrom, hflash, hlog]
  | generates hi hrest hread hclosed =>
    obtain ⟨hpar, -, hflash, hlog⟩ := storage_eq_iff.mp hrest
    have hxfer : i ≠ .dmaXfer := by rintro rfl; simp at hi
    refine ⟨hpar, by simp [hread, hxfer], fun hwhen => ?_, fun _ _ _ => ⟨hflash, hlog⟩, fun a _ => by rw [hflash]⟩
    have hrom : t.rom = s.rom := hclosed (hwhen.resolve_left fun ⟨hgen, hgen8⟩ => hi.elim hgen hgen8)
    exact ⟨by rw [hrom], by rw [hrom]⟩
  | writes hi hblock =>
    obtain ⟨hpar, hrom, houtside⟩ := hblock
    have hxfer : i ≠ .dmaXfer := by rintro rfl; simp at hi
    have hnone : i ≠ .flErase → i ≠ .flProg → i ≠ .envReset → False := fun herase hprog hreset =>
      hi.elim herase fun hrest => hrest.elim hprog hreset
    exact ⟨hpar, by simp [hrom, hxfer], fun _ => by simp [hrom],
      fun herase hprog hreset => (hnone herase hprog hreset).elim, houtside⟩

end Sys2Proof.Machine
end

section
/-! PROOFS. What the operations of `CTL` share (spec/45_interaction_controller.md): where each is enabled, what reads of
`SEL` come to, and what follows a wait that only moves the phase on. -/

namespace Sys2Proof.Machine

variable {s : State} {p : CtlPhase} {i : Word32} {e : Bool}

/-! Enabled in a phase, and at the end of a wait. -/

/-- A phase that is no final one is one the control side takes steps in (R227, R255). -/
theorem ctlLive_of_phase (hph : s.ctl.ph = p) (hhalt : p ≠ .halt := by decide)
    (hreflash : p ≠ .reflash := by decide) : ctlLive s = true :=
  ctlLive_iff.mpr ⟨hph ▸ hhalt, hph ▸ hreflash⟩

theorem ctlAt_of_phase (hidle : s.ctl.busy = none) (hph : s.ctl.ph = p) (hhalt : p ≠ .halt := by decide)
    (hreflash : p ≠ .reflash := by decide) : ctlAt p s = true :=
  ctlAt_iff.mpr ⟨ctlLive_of_phase hph hhalt hreflash, hidle, hph⟩

theorem ctlPublishReady_iff :
    ctlPublishReady s = true ↔
      ctlAt .publish s = true ∨ ctlLive s = true ∧ s.ctl.busy = some .publish ∧ s.now = s.ctl.deadline := by
  simp [ctlPublishReady, ctlDue_iff, and_assoc]

theorem ctlRenderReady_iff :
    ctlRenderReady s = true ↔
      ctlAt .render s = true ∨ ctlLive s = true ∧ s.ctl.busy = some .render ∧ s.now = s.ctl.deadline := by
  simp [ctlRenderReady, ctlDue_iff, and_assoc]

theorem ctlWaitReady_iff :
    ctlWaitReady s = true ↔ ctlAt .wait s = true ∧ s.enc.st = .off ∧ s.btn.st = .off := by
  simp [ctlWaitReady, and_assoc]

/-- `DISP.FLUSH` at the end of a flush's wait goes on with the operation that issued the flush (R271). -/
theorem exec_dispFlush_due (hlive : ctlLive s = true) {o : FlushBy} (hwait : s.ctl.busy = some (.flush o))
    (hdue : s.now = s.ctl.deadline) :
    exec .dispFlush s = .next { afterFlush o (clearBusy s) with fresh := false } := by
  have hready : flushDue s = true := flushDue_iff.mpr ⟨⟨o, hwait⟩, hlive, ctlDue_iff.mpr hdue⟩
  exact exec_dispFlush_next.mpr ⟨by simp [hready], by simp only [flushEffect, hwait]⟩

/-! Reads of `SEL` (R48). -/

theorem withSelection_of_sel (k : Selection → State → State) (hsel : s.sel = ⟨⟨i, true⟩, ⟨e, true⟩⟩) :
    withSelection k s = k ⟨i, e⟩ s := by
  rw [withSelection_written (by rw [hsel]) (by rw [hsel]), hsel]

theorem withSelection_unwritten (k : Selection → State → State)
    (h : s.sel.index.written = false ∨ s.sel.enabled.written = false) :
    withSelection k s = raiseControl faultUnwritten s := by
  refine if_neg fun hboth => ?_
  obtain ⟨hindex, henabled⟩ := (Bool.and_eq_true _ _).mp hboth
  simp [hindex, henabled] at h

theorem withIndex_of_index (k : Word32 → State → State) (hindex : s.sel.index = ⟨i, true⟩) :
    withIndex k s = k i s := by
  rw [withIndex_written (by rw [hindex]), hindex]

theorem withEnabled_of_enabled (k : Bool → State → State) (henabled : s.sel.enabled = ⟨e, true⟩) :
    withEnabled k s = k e s := by
  rw [withEnabled_written (by rw [henabled]), henabled]

/-! Waits. -/

/-- A wait before the phase moves on changes the sequencer and the answers alone. -/
theorem await_setPhase (b : Busy) (p : CtlPhase) (s : State) :
    await b (setPhase p) s =
      { s with
        env := (popDuration s).env
        ctl :=
          if nextDuration s = 0 then { s.ctl with ph := p }
          else { s.ctl with busy := some b, deadline := s.now + nextDuration s } } := by
  split
  case isTrue hzero => rw [await_zero _ _ hzero]; rfl
  case isFalse hlong => rw [await_pos _ _ hlong]; rfl

theorem afterFlush_persistAck : afterFlush .persistAck = setPhase .persistForce := rfl

/-- The end of the readout's flush begins the wait of `CTL.RENDER` itself (R230). -/
theorem afterFlush_render (s : State) :
    afterFlush .render s =
      { s with
        env := (popDuration s).env
        ctl :=
          if nextDuration s = 0 then { s.ctl with ph := .wait }
          else { s.ctl with busy := some .render, deadline := s.now + nextDuration s } } :=
  await_setPhase .render .wait s

/-- The two waits of a readout, one after the other: that of the flush, and where it is over that of `CTL.RENDER`
(R230, R271). -/
theorem await_flush_render (s : State) :
    await (.flush .render) (afterFlush .render) s =
      { s with
        env := if nextDuration s = 0 then (popDuration (popDuration s)).env else (popDuration s).env
        ctl :=
          if nextDuration s ≠ 0 then { s.ctl with busy := some (.flush .render), deadline := s.now + nextDuration s }
          else if nextDuration (popDuration s) ≠ 0 then
            { s.ctl with busy := some .render, deadline := s.now + nextDuration (popDuration s) }
          else { s.ctl with ph := .wait } } := by
  by_cases hzero : nextDuration s = 0
  · rw [await_zero _ _ hzero, afterFlush_render, if_pos hzero, if_neg (not_not.mpr hzero), ite_not]
    rfl
  · rw [await_pos _ _ hzero, if_neg hzero, if_pos hzero]
    rfl

end Sys2Proof.Machine
end

section
/-! PROOFS. From boot to the readout (spec/45_interaction_controller.md R226 to R230). -/

namespace Sys2Proof.Machine

variable {s : State} {i : Word32} {e : Bool} {f : Nat}

/-! Boot, recovery and load (R226 to R228). -/

theorem exec_ctlRecovery_idle (hidle : s.ctl.busy = none) (hph : s.ctl.ph = .recovery) :
    exec .ctlRecovery s = .next { drawAll s.par.val.diagMsg (flush .recovery) s with fresh := false } :=
  exec_ctlRecovery_next.mpr ⟨ctlAt_of_phase hidle hph, rfl⟩

/-- Settles O47: the message and its flush as one list of draws, in which none fails or one does. -/
theorem bootAndRecovery : Obligations.BootAndRecovery := by
  intro s hidle
  refine ⟨fun hph => ?_, fun hph hok u fr hu hfr => ⟨fun hzero => ?_, fun hlong => ?_⟩, fun k hph hk hok hfail => ?_⟩
  · exact exec_ctlBoot_next.mpr ⟨ctlAt_of_phase hidle hph, rfl⟩
  · subst hu
    rw [exec_ctlRecovery_idle hidle hph, drawAll_flush _ hok hfr, await_zero _ _ (by exact hzero)]
    rfl
  · subst hu
    rw [exec_ctlRecovery_idle hidle hph, drawAll_flush _ hok hfr, await_pos _ _ (by exact hlong)]
    rfl
  · rw [exec_ctlRecovery_idle hidle hph, drawAll_flush_fails _ hk hok hfail]
    rfl

theorem exec_ctlLoad_idle (hidle : s.ctl.busy = none) (hph : s.ctl.ph = .load) :
    exec .ctlLoad s = .next { beginRead .load s with fresh := false } :=
  exec_ctlLoad_next.mpr ⟨ctlAt_of_phase hidle hph, rfl⟩

/-- Settles O48: the read of `CTL.LOAD` is over at once, or stands in its wait, or ends it. -/
theorem loadTakesTheStoredSelection : Obligations.LoadTakesTheStoredSelection := by
  rintro s cur hph rfl
  refine ⟨decodeRecord_range _ _, fun hidle hzero hok => ?_, fun hidle hlong => ?_, fun hwait hdue hok => ?_⟩
  · rw [exec_ctlLoad_idle hidle hph, beginRead_succeeds _ hzero hok]
    rfl
  · rw [exec_ctlLoad_idle hidle hph, beginRead_waits _ hlong]
  · rw [exec_flRead_due (ctlLive_of_phase hph) hwait hdue, readFlash_succeeds _ (by exact hok)]
    rfl

/-! Publish (R229). -/

theorem publishEffect_idle (hidle : s.ctl.busy = none) :
    publishEffect s = withSelection (fun v s => await .publish (setPhase .render) (sendSelection v s)) s :=
  if_neg (by simp [hidle])

theorem exec_ctlPublish_idle (hidle : s.ctl.busy = none) (hph : s.ctl.ph = .publish) :
    exec .ctlPublish s = .next
      { withSelection (fun v s => await .publish (setPhase .render) (sendSelection v s)) s with fresh := false } :=
  exec_ctlPublish_next.mpr
    ⟨ctlPublishReady_iff.mpr (.inl (ctlAt_of_phase hidle hph)), by rw [publishEffect_idle hidle]⟩

/-- Settles O49: the read of `SEL` hands the selection on or raises, and after the send there is the wait alone. -/
theorem publishSendsTheSelection : Obligations.PublishSendsTheSelection := by
  intro s hph
  refine ⟨fun i e hsel hidle => ?_, fun hwait hdue => ?_, fun hidle hunwritten => ?_⟩
  · rw [exec_ctlPublish_idle hidle hph, withSelection_of_sel _ hsel, await_setPhase]
    rfl
  · exact exec_ctlPublish_next.mpr
      ⟨ctlPublishReady_iff.mpr (.inr ⟨ctlLive_of_phase hph, hwait, hdue⟩), by rw [publishEffect, if_pos hwait]; rfl⟩
  · rw [exec_ctlPublish_idle hidle hph, withSelection_unwritten _ hunwritten]
    rfl

/-! Render (R230). -/

theorem exec_ctlRender_idle (hidle : s.ctl.busy = none) (hph : s.ctl.ph = .render) :
    exec .ctlRender s = .next { renderEffect s with fresh := false } :=
  exec_ctlRender_next.mpr ⟨ctlRenderReady_iff.mpr (.inl (ctlAt_of_phase hidle hph)), rfl⟩

theorem renderEffect_draws (hidle : s.ctl.busy = none) (hsel : s.sel = ⟨⟨i, true⟩, ⟨e, true⟩⟩)
    (htone : s.par.val.toneTable[i.toNat]? = some f) :
    renderEffect s = drawAll (drawsOf (readout s.par.val f e)) (flush .render) s := by
  rw [renderEffect, if_neg (by simp [hidle]), withSelection_of_sel _ hsel]
  simp only [toneRead, htone]

/-- With no display failure the frame shows the readout, and the flush's wait begins (R230, R271). -/
theorem renderEffect_shows (hidle : s.ctl.busy = none) (hsel : s.sel = ⟨⟨i, true⟩, ⟨e, true⟩⟩)
    (htone : s.par.val.toneTable[i.toNat]? = some f) {g : Five Glyph} (hg : g = readout s.par.val f e)
    (hok : noFailures 6 s = true) {u : State} (hu : u = popFails 6 s) {fr : Five (Option Glyph)}
    (hfr : fr = (s.disp.pending ++ drawsOf g).foldl putGlyph s.disp.frame) :
    renderEffect s = await (.flush .render) (afterFlush .render)
      { s with
        env := u.env
        disp := ⟨[], fr⟩
        logs := { s.logs with
          dispOut := s.logs.dispOut ++
            [.draw g.s0 0, .draw g.s1 1, .draw g.s2 2, .draw g.s3 3, .draw g.s4 4, .flush fr] } } := by
  subst hg hu
  rw [renderEffect_draws hidle hsel htone, drawAll_flush _ (by exact hok) hfr, List.append_assoc]
  rfl

theorem renderEffect_unwritten (hidle : s.ctl.busy = none)
    (h : s.sel.index.written = false ∨ s.sel.enabled.written = false) :
    renderEffect s = raiseControl faultUnwritten s := by
  rw [renderEffect, if_neg (by simp [hidle]), withSelection_unwritten _ h]

/-- The read of `TONE` outside it (R62). -/
theorem renderEffect_outside (hidle : s.ctl.busy = none) (hindex : s.sel.index.written = true)
    (henabled : s.sel.enabled.written = true) (hout : s.par.val.toneTable.length ≤ s.sel.index.val.toNat) :
    renderEffect s = raiseControl faultIndexRange s := by
  rw [renderEffect, if_neg (by simp [hidle]), withSelection_written hindex henabled]
  simp only [toneRead, List.getElem?_eq_none hout]

/-- Settles O50: the five draws and the flush, in which none fails or one does, then the flush's wait and the wait of
`CTL.RENDER`, each over at once or standing; and the two reads that raise. -/
theorem renderDrawsAllFiveSlots : Obligations.RenderDrawsAllFiveSlots := by
  intro s hph
  have hlive : ctlLive s = true := ctlLive_of_phase hph
  refine ⟨?_, fun i e f k hidle hsel htone hk hok hfail => ?_, fun hwait hdue => ?_, fun hwait hdue => ?_,
    fun hidle hunwritten => ?_, fun hidle hindex henabled hout => ?_⟩
  · intro i e f g fr u hidle hsel htone hg hok hu hfr
    rw [exec_ctlRender_idle hidle hph, renderEffect_shows hidle hsel htone hg hok hu hfr, await_flush_render]
    rfl
  · rw [exec_ctlRender_idle hidle hph, renderEffect_draws hidle hsel htone, drawAll_flush_fails _ hk hok hfail]
    rfl
  · rw [exec_dispFlush_due hlive hwait hdue, afterFlush_render]
    rfl
  · exact exec_ctlRender_next.mpr
      ⟨ctlRenderReady_iff.mpr (.inr ⟨hlive, hwait, hdue⟩), by rw [renderEffect, if_pos hwait]; rfl⟩
  · rw [exec_ctlRender_idle hidle hph, renderEffect_unwritten hidle hunwritten]
    rfl
  · rw [exec_ctlRender_idle hidle hph, renderEffect_outside hidle hindex henabled hout]
    rfl

end Sys2Proof.Machine
end

section
/-! PROOFS. The handlers, the index they move and the persisting (spec/45_interaction_controller.md R231 to R237). -/

namespace Sys2Proof.Machine

variable {s : State} {p : Params} {i : Word32}

/-! Up and Down step around the circle of the first `WRAP_LEN` indices (R233 to R235). -/

theorem indexUp_toNat (hcount : wrapLen p < 2 ^ 32) (hi : i.toNat < wrapLen p) :
    (indexUp p i).toNat = (i.toNat + 1) % wrapLen p := by
  unfold indexUp
  split
  case isTrue hlast =>
    rw [Nat.le_antisymm hlast hi, Nat.mod_self]
    rfl
  case isFalse hbelow =>
    have hone : BitVec.toNat (1 : Word32) = 1 := rfl
    rw [BitVec.toNat_add, hone, Nat.mod_eq_of_lt (b := 2 ^ 32) (by omega), Nat.mod_eq_of_lt (by omega)]

theorem indexDown_toNat (hcount : wrapLen p < 2 ^ 32) (hi : i.toNat < wrapLen p) :
    (indexDown p i).toNat = (i.toNat + (wrapLen p - 1)) % wrapLen p := by
  unfold indexDown
  split
  case isTrue hzero =>
    subst hzero
    have hlast : wrapLen p - 1 < wrapLen p := Nat.sub_one_lt_of_lt hi
    rw [BitVec.toNat_ofNat, Nat.mod_eq_of_lt (hlast.trans hcount)]
    simp [Nat.mod_eq_of_lt hlast]
  case isFalse hpos =>
    have hpos' : i.toNat ≠ 0 := fun h => hpos (BitVec.eq_of_toNat_eq h)
    have hone : BitVec.toNat (1 : Word32) = 1 := rfl
    have hwrap : i.toNat + (wrapLen p - 1) = i.toNat - 1 + wrapLen p := by omega
    rw [hwrap, Nat.add_mod_right, Nat.mod_eq_of_lt (by omega), BitVec.toNat_sub_of_le (by bv_omega), hone]

/-- `k` Ups are `k` places around the circle (R235). -/
theorem iterate_indexUp_toNat (hcount : wrapLen p < 2 ^ 32) (hi : i.toNat < wrapLen p) (k : Nat) :
    ((indexUp p)^[k] i).toNat = (i.toNat + k) % wrapLen p := by
  induction k with
  | zero => exact (Nat.mod_eq_of_lt hi).symm
  | succ k ih =>
    have hlt : ((indexUp p)^[k] i).toNat < wrapLen p := ih ▸ Nat.mod_lt _ (Nat.zero_lt_of_lt hi)
    rw [Function.iterate_succ_apply', indexUp_toNat hcount hlt, ih, Nat.mod_add_mod, Nat.add_assoc]

theorem iterate_indexUp_zero (hpos : 1 ≤ wrapLen p) (hcount : wrapLen p < 2 ^ 32) (k : Nat) :
    (indexUp p)^[k] 0 = BitVec.ofNat 32 (k % wrapLen p) := by
  have hk : k % wrapLen p < 2 ^ 32 := (Nat.mod_lt k hpos).trans hcount
  refine BitVec.eq_of_toNat_eq ?_
  rw [iterate_indexUp_toNat (i := 0) hcount hpos, BitVec.toNat_ofNat, Nat.mod_eq_of_lt hk]
  exact congrArg (· % wrapLen p) (Nat.zero_add k)

/-- A whole turn around the circle ends where it began. -/
theorem eq_of_toNat_turn {j : Word32} (hi : i.toNat < wrapLen p) (hj : j.toNat = (i.toNat + wrapLen p) % wrapLen p) :
    j = i :=
  BitVec.eq_of_toNat_eq (by rw [hj, Nat.add_mod_right, Nat.mod_eq_of_lt hi])

theorem indexDown_indexUp (hcount : wrapLen p < 2 ^ 32) (hi : i.toNat < wrapLen p) : indexDown p (indexUp p i) = i := by
  have hup := indexUp_toNat hcount hi
  have hlt : (indexUp p i).toNat < wrapLen p := hup ▸ Nat.mod_lt _ (Nat.zero_lt_of_lt hi)
  have hturn : i.toNat + 1 + (wrapLen p - 1) = i.toNat + wrapLen p := by omega
  exact eq_of_toNat_turn hi (by rw [indexDown_toNat hcount hlt, hup, Nat.mod_add_mod, hturn])

theorem indexUp_indexDown (hcount : wrapLen p < 2 ^ 32) (hi : i.toNat < wrapLen p) : indexUp p (indexDown p i) = i := by
  have hdown := indexDown_toNat hcount hi
  have hlt : (indexDown p i).toNat < wrapLen p := hdown ▸ Nat.mod_lt _ (Nat.zero_lt_of_lt hi)
  have hturn : i.toNat + (wrapLen p - 1) + 1 = i.toNat + wrapLen p := by omega
  exact eq_of_toNat_turn hi (by rw [indexUp_toNat hcount hlt, hdown, Nat.mod_add_mod, hturn])

theorem iterate_indexUp_wrapLen (hcount : wrapLen p < 2 ^ 32) (hi : i.toNat < wrapLen p) :
    (indexUp p)^[wrapLen p] i = i :=
  eq_of_toNat_turn hi (iterate_indexUp_toNat hcount hi _)

/-- From the index outside the circle Up goes to 0, and Down from there to the last index inside (R234, R235). -/
theorem indexDown_indexUp_reserved (hcount : wrapLen p < 2 ^ 32) (hi : i.toNat = wrapLen p) :
    (indexDown p (indexUp p i)).toNat = wrapLen p - 1 := by
  have hup : indexUp p i = 0 := if_pos (by omega)
  rw [hup, indexDown, if_pos rfl, BitVec.toNat_ofNat, Nat.mod_eq_of_lt (by omega)]

/-- Settles O52: Up and Down as additions modulo `WRAP_LEN`. -/
theorem indexLaws : Obligations.IndexLaws := by
  intro p hvalid
  obtain ⟨-, htones, hpos, hwrap⟩ := paramsValid_counts hvalid
  have hcount : wrapLen p < 2 ^ 32 := hwrap.trans_lt htones
  have hzero := iterate_indexUp_zero hpos hcount
  refine ⟨fun i hi =>
      ⟨indexDown_indexUp hcount hi, indexUp_indexDown hcount hi, iterate_indexUp_wrapLen hcount hi⟩,
    hzero, fun h51 hreserve => ?_, fun h51 hreserve => ?_, fun i _ hi hback => ?_⟩
  · have hlen : wrapLen p = 51 := by simp [wrapLen, h51, hreserve]
    rw [hzero, hzero, hlen]
    decide
  · have hlen : wrapLen p = 50 := by simp [wrapLen, h51, hreserve]
    rw [hzero, hzero, hlen]
    decide
  · have hlast := indexDown_indexUp_reserved hcount hi
    rw [hback] at hlast
    omega

/-! The race and the handlers (R231, R233, R234, R236). -/

/-- Settles O51: each operation is the one of its phase, and the register of `SEL` that it reads is written. -/
theorem waitAndHandlers : Obligations.WaitAndHandlers := by
  intro s hidle
  refine ⟨fun hph henc hbtn => ?_, fun i hindex => ⟨fun hph => ?_, fun hph => ?_⟩, fun e henabled hph => ?_⟩
  · exact exec_ctlWait_next.mpr ⟨ctlWaitReady_iff.mpr ⟨ctlAt_of_phase hidle hph, henc, hbtn⟩, rfl⟩
  · exact exec_ctlUp_next.mpr ⟨ctlAt_of_phase hidle hph, by rw [withIndex_of_index _ hindex]; rfl⟩
  · exact exec_ctlDown_next.mpr ⟨ctlAt_of_phase hidle hph, by rw [withIndex_of_index _ hindex]; rfl⟩
  · exact exec_ctlToggle_next.mpr ⟨ctlAt_of_phase hidle hph, by rw [withEnabled_of_enabled _ henabled]; rfl⟩

/-! Persist, one rule for each phase; that of `PERSIST_WRITE` is `exec_ctlPersist_write` (R237). -/

theorem exec_ctlPersist_ack (hidle : s.ctl.busy = none) (hph : s.ctl.ph = .persistAck) :
    exec .ctlPersist s = .next { drawAll [(glyphMem, 4)] (flush .persistAck) s with fresh := false } :=
  exec_ctlPersist_next.mpr
    ⟨by simp [ctlPersistReady, ctlIdle_iff, ctlLive_of_phase hph, hidle, hph], by simp only [persistEffect, hph]; rfl⟩

theorem exec_ctlPersist_force (hidle : s.ctl.busy = none) (hph : s.ctl.ph = .persistForce) :
    exec .ctlPersist s = .next
      { withIndex (fun i s => setPhase .persistWrite (sendSelection ⟨i, true⟩ s)) s with fresh := false } :=
  exec_ctlPersist_next.mpr
    ⟨by simp [ctlPersistReady, ctlIdle_iff, ctlLive_of_phase hph, hidle, hph], by simp only [persistEffect, hph]⟩

theorem exec_ctlPersist_hold (hidle : s.ctl.busy = none) (hph : s.ctl.ph = .persistHold)
    (hdue : s.now = s.ctl.deadline) : exec .ctlPersist s = .next { trailFrom s with fresh := false } :=
  exec_ctlPersist_next.mpr
    ⟨by simp [ctlPersistReady, ctlIdle_iff, ctlLive_of_phase hph, hidle, hph, ctlDue_iff, hdue],
      by simp only [persistEffect, hph]⟩

/-- Settles O53: the four steps, the draw and the flush of the first failing or not, and the read of the third over at
once, with either outcome of the comparison, or standing in its wait. -/
theorem persistTakesItsFourSteps : Obligations.PersistTakesItsFourSteps := by
  intro s hidle
  refine ⟨?_, fun k hph hk hok hfail => ?_, fun i hph hindex => ?_, fun i e cur hph hsel hrange hcur =>
    ⟨fun hzero hok => ?_, fun hlong => ?_⟩, fun hph hdue => ?_⟩
  · rintro u fr hph hok rfl hfr
    rw [exec_ctlPersist_ack hidle hph, drawAll_flush (ds := [(glyphMem, 4)]) _ hok hfr]
    rw [afterFlush_persistAck, await_setPhase, List.append_assoc]
    rfl
  · rw [exec_ctlPersist_ack hidle hph, drawAll_flush_fails _ hk hok hfail]
    rfl
  · rw [exec_ctlPersist_force hidle hph, withIndex_of_index _ hindex]
    rfl
  · rw [exec_ctlPersist_write (v := ⟨i, e⟩) (ctlLive_of_phase hph) hidle hph hsel hrange, beginWrite,
      beginRead_succeeds _ (by exact hzero) (by exact hok)]
    split
    case isTrue hsame =>
      rw [afterRead_write_same (by exact hcur.symm.trans hsame), hcur]
      rfl
    case isFalse hdiffers =>
      rw [afterRead_write_differs (by exact hcur ▸ hdiffers), hcur]
      rfl
  · rw [exec_ctlPersist_write (v := ⟨i, e⟩) (ctlLive_of_phase hph) hidle hph hsel hrange, beginWrite,
      beginRead_waits _ (by exact hlong)]
    rfl
  · exact exec_ctlPersist_hold hidle hph hdue

end Sys2Proof.Machine
end

section
/-! PROOFS. What it means that an operation of one side neither reads nor writes the other side's state
(spec/60_exceptions.md R268): an effect or a step is judged through a view of the state that blanks the other side
out. -/

namespace Sys2Proof.Machine

/-- An effect that reads nothing outside a view, and whose states before and after are related as given. -/
structure ActsWithin (view : State → State) (Keeps : State → State → Prop) (f : State → State) : Prop where
  sees : ∀ s, view (f s) = view (f (view s))
  keeps : ∀ s, Keeps s (f s)

/-- An operation with the same two properties. -/
structure StepsWithin (view : State → State) (Keeps : State → State → Prop) (op : State → Result) : Prop where
  sees : ∀ s, seenThrough view (op s) = seenThrough view (op (view s))
  keeps : ∀ s t, op s = .next t → Keeps s t

variable {view : State → State} {Keeps : State → State → Prop} {f g : State → State}

/-- Two states that agree in the view have outcomes that agree in it. -/
theorem StepsWithin.agree {op : State → Result} (h : StepsWithin view Keeps op) {s s' : State}
    (hview : view s = view s') : seenThrough view (op s) = seenThrough view (op s') := by
  rw [h.sees s, h.sees s', hview]

theorem ActsWithin.comp (trans : ∀ {s t u}, Keeps s t → Keeps t u → Keeps s u) (hg : ActsWithin view Keeps g)
    (hf : ActsWithin view Keeps f) : ActsWithin view Keeps (fun s => g (f s)) where
  sees s := by rw [hg.sees (f s), hf.sees s, ← hg.sees (f (view s))]
  keeps s := trans (hf.keeps s) (hg.keeps (f s))

/-- An effect that comes to a known one for each value of what it reads first, where that is part of the view. -/
theorem ActsWithin.cases {α : Type} (read : State → α)
    (h : ∀ a, ∃ g, ActsWithin view Keeps g ∧ ∀ s, read s = a → f s = g s)
    (hread : ∀ s, read (view s) = read s := by intro; rfl) : ActsWithin view Keeps f where
  sees s := by
    obtain ⟨g, hg, heq⟩ := h (read s)
    rw [heq s rfl, heq (view s) (hread s), hg.sees s]
  keeps s := by
    obtain ⟨g, hg, heq⟩ := h (read s)
    rw [heq s rfl]
    exact hg.keeps s

/-- An effect with a parameter that is read from the view. -/
theorem ActsWithin.reads {α : Type} {f : α → State → State} (read : State → α)
    (h : ∀ a, ActsWithin view Keeps (f a)) (hread : ∀ s, read (view s) = read s := by intro; rfl) :
    ActsWithin view Keeps (fun s => f (read s) s) :=
  .cases read (fun a => ⟨f a, h a, by rintro s rfl; rfl⟩) hread

theorem StepsWithin.next (hf : ActsWithin view Keeps f) : StepsWithin view Keeps (fun s => .next (f s)) where
  sees s := congrArg Host.Outcome.next (hf.sees s)
  keeps s t h := by
    obtain rfl := Host.Outcome.next.inj h
    exact hf.keeps s

theorem StepsWithin.refuses (r : Refusal) : StepsWithin view Keeps (fun _ => .refused r) where
  sees _ := rfl
  keeps _ _ h := by cases h

theorem StepsWithin.faults (r : Fault) : StepsWithin view Keeps (fun _ => .fault r) where
  sees _ := rfl
  keeps _ _ h := by cases h

/-- An operation that comes to a known one for each value of what it reads first, where that is part of the view. -/
theorem StepsWithin.cases {α : Type} {op : State → Result} (read : State → α)
    (h : ∀ a, ∃ op', StepsWithin view Keeps op' ∧ ∀ s, read s = a → op s = op' s)
    (hread : ∀ s, read (view s) = read s := by intro; rfl) : StepsWithin view Keeps op where
  sees s := by
    obtain ⟨op', hop, heq⟩ := h (read s)
    rw [heq s rfl, heq (view s) (hread s), hop.sees s]
  keeps s t hnext := by
    obtain ⟨op', hop, heq⟩ := h (read s)
    exact hop.keeps s t (heq s rfl ▸ hnext)

/-- An operation under a `when` clause that is about the view (R14). -/
theorem StepsWithin.guarded {ready : State → Bool} {op : State → Result} (hop : StepsWithin view Keeps op)
    (hready : ∀ s, ready (view s) = ready s := by intro; rfl) :
    StepsWithin view Keeps (fun s => if ready s = true then op s else .refused .notEnabled) := by
  refine .cases ready (fun r => ?_) hready
  cases r with
  | true => exact ⟨op, hop, fun s hs => if_pos hs⟩
  | false => exact ⟨_, .refuses .notEnabled, fun s hs => if_neg (by simp [hs])⟩

theorem ActsWithin.take (hf : ActsWithin view Keeps f) {ready : State → Bool}
    (hready : ∀ s, ready (view s) = ready s := by intro; rfl) :
    StepsWithin view Keeps (fun s => take (ready s) f s) :=
  .guarded (.next hf) hready

end Sys2Proof.Machine
end

section
/-! PROOFS. The control side (spec/60_exceptions.md R268): its effects, from the shared ones up, then its operations. -/

namespace Sys2Proof.Machine

/-- What no operation of the control side writes. -/
def besidesControl (s : State) : Aud × Sm × List Word32 × Dma × Rom × ValidParams × Nat × Lines × List Bool :=
  (s.aud, s.sm, s.fifo, s.dma, s.rom, s.par, s.now, s.lines, s.logs.pdmOut)

/-- That part stays, and so does a latch that is set (R255). -/
structure ControlKeeps (s t : State) : Prop where
  besides : besidesControl t = besidesControl s
  latch : s.latch.fault = true → t.latch = s.latch

/-- An effect that neither reads nor writes the audio side's state. -/
abbrev ControlEffect (f : State → State) : Prop := ActsWithin controlView ControlKeeps f

theorem ControlKeeps.trans {s t u : State} (h : ControlKeeps s t) (h' : ControlKeeps t u) : ControlKeeps s u where
  besides := h'.besides.trans h.besides
  latch hset := (h'.latch (by rw [h.latch hset, hset])).trans (h.latch hset)

namespace ControlEffect

variable {f g : State → State}

theorem comp (hg : ControlEffect g) (hf : ControlEffect f) : ControlEffect (fun s => g (f s)) :=
  ActsWithin.comp ControlKeeps.trans hg hf

/-- An update of registers of the control side. -/
theorem update (hsees : ∀ s, controlView (f s) = controlView (f (controlView s)) := by intro; rfl)
    (hbesides : ∀ s, besidesControl (f s) = besidesControl s := by intro; rfl)
    (hlatch : ∀ s, (f s).latch = s.latch := by intro; rfl) : ControlEffect f :=
  ⟨hsees, fun s => ⟨hbesides s, fun _ => hlatch s⟩⟩

/-! The shared operations. -/

theorem raiseControl (c : Byte) : ControlEffect (raiseControl c) :=
  ⟨fun _ => rfl, fun _ => ⟨rfl, Latch.record_keeps c _⟩⟩

theorem popFail : ControlEffect popFail := update

theorem popDuration : ControlEffect popDuration := update

theorem scramble (off n : Nat) : ControlEffect (scramble off n) := update

theorem clearBusy : ControlEffect clearBusy := update

theorem setPhase (p : CtlPhase) : ControlEffect (setPhase p) := update

/-- The mailbox is written and not read (R75, R161). -/
theorem sendSelection (v : Selection) : ControlEffect (sendSelection v) := update

theorem await {b : Busy} {rest : State → State} (hrest : ControlEffect rest) : ControlEffect (await b rest) :=
  .cases nextDuration fun d => by
    by_cases hd : d = 0
    · exact ⟨_, comp hrest popDuration, fun s hs => await_zero b rest (hs.trans hd)⟩
    · exact ⟨fun s => { Machine.popDuration s with
          ctl := { s.ctl with busy := some b, deadline := s.now + nextDuration s } },
        update, fun s hs => await_pos b rest (hs ▸ hd)⟩

theorem withSelection {k : Selection → State → State} (hk : ∀ v, ControlEffect (k v)) :
    ControlEffect (withSelection k) :=
  .cases State.sel fun r => by
    by_cases hw : (r.index.written && r.enabled.written) = true
    · exact ⟨_, hk ⟨r.index.val, r.enabled.val⟩, by rintro s rfl; exact if_pos hw⟩
    · exact ⟨_, raiseControl faultUnwritten, by rintro s rfl; exact if_neg hw⟩

theorem withIndex {k : Word32 → State → State} (hk : ∀ i, ControlEffect (k i)) : ControlEffect (withIndex k) :=
  .cases State.sel fun r => by
    by_cases hw : r.index.written = true
    · exact ⟨_, hk r.index.val, by rintro s rfl; exact if_pos hw⟩
    · exact ⟨_, raiseControl faultUnwritten, by rintro s rfl; exact if_neg hw⟩

theorem withEnabled {k : Bool → State → State} (hk : ∀ e, ControlEffect (k e)) : ControlEffect (withEnabled k) :=
  .cases State.sel fun r => by
    by_cases hw : r.enabled.written = true
    · exact ⟨_, hk r.enabled.val, by rintro s rfl; exact if_pos hw⟩
    · exact ⟨_, raiseControl faultUnwritten, by rintro s rfl; exact if_neg hw⟩

/-- What the operations with a `draw fail` share: one effect where it fails, another where it does not (R14). -/
theorem drawFail {fails goes : State → State} (hfails : ControlEffect fails) (hgoes : ControlEffect goes) :
    ControlEffect (fun s => if nextFail s = true then fails (Machine.popFail s) else goes (Machine.popFail s)) :=
  .cases nextFail fun failed => by
    cases failed with
    | true => exact ⟨_, comp hfails popFail, fun s hs => if_pos hs⟩
    | false => exact ⟨_, comp hgoes popFail, fun s hs => if_neg (Bool.not_eq_true _ ▸ hs)⟩

/-! The display. -/

theorem queueDraw (d : Glyph × Slot) : ControlEffect (queueDraw d) := update

theorem showFrame : ControlEffect showFrame := update

theorem drawGlyph (d : Glyph × Slot) {rest : State → State} (hrest : ControlEffect rest) :
    ControlEffect (drawGlyph d rest) :=
  drawFail (raiseControl faultDisplay) (comp hrest (queueDraw d))

theorem drawAll (ds : List (Glyph × Slot)) {rest : State → State} (hrest : ControlEffect rest) :
    ControlEffect (drawAll ds rest) := by
  induction ds with
  | nil => exact hrest
  | cons d ds ih => exact drawGlyph d ih

theorem afterFlush (issuer : FlushBy) : ControlEffect (afterFlush issuer) := by
  cases issuer with
  | direct | recovery | persistAck => exact update
  | render => exact await (setPhase .wait)

theorem flush (issuer : FlushBy) : ControlEffect (flush issuer) :=
  drawFail (raiseControl faultDisplay) (comp (await (afterFlush issuer)) showFrame)

/-! The configuration store. -/

theorem afterWrite (issuer : WriteBy) : ControlEffect (afterWrite issuer) := by
  cases issuer <;> exact update

theorem decodeBuffer : ControlEffect decodeBuffer := update

theorem afterRead (issuer : ReadBy) : ControlEffect (afterRead issuer) := by
  cases issuer with
  | direct | cfgRead | load => exact update
  | write by' =>
    refine comp (g := fun s => if s.cfg.cur = s.cfg.new then Machine.afterWrite by' s
      else { s with ctl := { s.ctl with busy := some (.eraseNext by'), deadline := s.now } }) ?_ decodeBuffer
    refine .cases State.cfg fun c => ?_
    by_cases hsame : c.cur = c.new
    · exact ⟨_, afterWrite by', by rintro s rfl; exact if_pos hsame⟩
    · exact ⟨fun s => { s with ctl := { s.ctl with busy := some (.eraseNext by'), deadline := s.now } },
        update, by rintro s rfl; exact if_neg hsame⟩

theorem readFlash (issuer : ReadBy) : ControlEffect (readFlash issuer) :=
  drawFail (raiseControl faultFlashRead)
    (comp (f := fun s => { s with cfg := { s.cfg with buf := memRead s.flash (cfgOffset s.par.val) recordBytes } })
      (afterRead issuer) update)

theorem beginRead (issuer : ReadBy) : ControlEffect (beginRead issuer) := await (readFlash issuer)

theorem beginWrite (issuer : WriteBy) (v : Selection) : ControlEffect (beginWrite issuer v) :=
  comp (f := fun s => { s with cfg := { s.cfg with new := v } }) (beginRead (.write issuer)) update

theorem afterErase (issuer : FlashBy) : ControlEffect (afterErase issuer) := by
  cases issuer <;> exact update

theorem eraseFlash (issuer : FlashBy) : ControlEffect (eraseFlash issuer) :=
  drawFail
    (.reads (f := fun p s => Machine.raiseControl faultFlashErase (Machine.scramble (cfgOffset p) (blockBytes p) s))
      (fun s => s.par.val) fun _ => comp (raiseControl _) (scramble _ _))
    (comp
      (f := fun s => { s with
        flash := memErase s.flash (cfgOffset s.par.val) (blockBytes s.par.val)
        logs := { s.logs with
          flashLog := s.logs.flashLog ++ [.erase (cfgOffset s.par.val) (blockBytes s.par.val)] } })
      (afterErase issuer) update)

theorem beginErase (issuer : FlashBy) : ControlEffect (beginErase issuer) := await (eraseFlash issuer)

theorem afterProg (issuer : FlashBy) : ControlEffect (afterProg issuer) := by
  cases issuer with
  | direct => exact update
  | write by' => exact afterWrite by'

theorem progFlash (issuer : FlashBy) : ControlEffect (progFlash issuer) :=
  drawFail
    (.reads (f := fun p s => Machine.raiseControl faultFlashProg (Machine.scramble (cfgOffset p) recordBytes s))
      (fun s => s.par.val) fun _ => comp (raiseControl _) (scramble _ _))
    (comp
      (f := fun s => { s with
        flash := memProgram s.flash (cfgOffset s.par.val) (encodeRecord s.cfg.new)
        logs := { s.logs with
          flashLog := s.logs.flashLog ++ [.prog (cfgOffset s.par.val) (encodeRecord s.cfg.new)] } })
      (afterProg issuer) update)

theorem beginProg (issuer : FlashBy) : ControlEffect (beginProg issuer) := await (progFlash issuer)

/-! The effects of the operations. -/

theorem flReadEffect : ControlEffect flReadEffect :=
  .cases (fun s => s.ctl.busy) fun busy => by
    cases busy with
    | none => exact ⟨_, beginRead .direct, fun s hs => by simp only [Machine.flReadEffect, hs]⟩
    | some b => cases b with
      | flRead issuer =>
        exact ⟨_, comp (readFlash issuer) clearBusy, fun s hs => by simp only [Machine.flReadEffect, hs]⟩
      | _ => exact ⟨_, beginRead .direct, fun s hs => by simp only [Machine.flReadEffect, hs]⟩

theorem flEraseEffect : ControlEffect flEraseEffect :=
  .cases (fun s => s.ctl.busy) fun busy => by
    cases busy with
    | none => exact ⟨_, beginErase .direct, fun s hs => by simp only [Machine.flEraseEffect, hs]⟩
    | some b => cases b with
      | eraseNext issuer =>
        exact ⟨_, comp (beginErase (.write issuer)) clearBusy, fun s hs => by simp only [Machine.flEraseEffect, hs]⟩
      | flErase issuer =>
        exact ⟨_, comp (eraseFlash issuer) clearBusy, fun s hs => by simp only [Machine.flEraseEffect, hs]⟩
      | _ => exact ⟨_, beginErase .direct, fun s hs => by simp only [Machine.flEraseEffect, hs]⟩

theorem flProgEffect : ControlEffect flProgEffect :=
  .cases (fun s => s.ctl.busy) fun busy => by
    cases busy with
    | none => exact ⟨_, beginProg .direct, fun s hs => by simp only [Machine.flProgEffect, hs]⟩
    | some b => cases b with
      | progNext issuer =>
        exact ⟨_, comp (beginProg (.write issuer)) clearBusy, fun s hs => by simp only [Machine.flProgEffect, hs]⟩
      | flProg issuer =>
        exact ⟨_, comp (progFlash issuer) clearBusy, fun s hs => by simp only [Machine.flProgEffect, hs]⟩
      | _ => exact ⟨_, beginProg .direct, fun s hs => by simp only [Machine.flProgEffect, hs]⟩

theorem flushEffect : ControlEffect flushEffect :=
  .cases (fun s => s.ctl.busy) fun busy => by
    cases busy with
    | none => exact ⟨_, flush .direct, fun s hs => by simp only [Machine.flushEffect, hs]⟩
    | some b => cases b with
      | flush issuer =>
        exact ⟨_, comp (afterFlush issuer) clearBusy, fun s hs => by simp only [Machine.flushEffect, hs]⟩
      | _ => exact ⟨_, flush .direct, fun s hs => by simp only [Machine.flushEffect, hs]⟩

theorem publishEffect : ControlEffect publishEffect :=
  .cases (fun s => s.ctl.busy) fun busy => by
    by_cases hwait : busy = some .publish
    · exact ⟨_, comp (setPhase .render) clearBusy, by rintro s rfl; exact if_pos hwait⟩
    · exact ⟨_, withSelection fun v => comp (await (setPhase .render)) (sendSelection v),
        by rintro s rfl; exact if_neg hwait⟩

/-- The draws of a readout are those of the parameters (R230). -/
theorem renderEffect : ControlEffect renderEffect :=
  .cases (fun s => s.ctl.busy) fun busy => by
    by_cases hwait : busy = some .render
    · exact ⟨_, comp (setPhase .wait) clearBusy, by rintro s rfl; exact if_pos hwait⟩
    · refine ⟨_, withSelection fun v => ?_, by rintro s rfl; exact if_neg hwait⟩
      refine .cases (fun s => s.par.val) fun p => ?_
      cases htone : toneRead p v.index with
      | none => exact ⟨_, raiseControl faultIndexRange, by rintro s rfl; simp only [htone]⟩
      | some f =>
        exact ⟨_, drawAll (drawsOf (readout p f v.enabled)) (flush .render), by rintro s rfl; simp only [htone]⟩

theorem persistEffect : ControlEffect persistEffect :=
  .cases (fun s => s.ctl.ph) fun p => by
    cases p with
    | persistAck =>
      exact ⟨_, drawGlyph (glyphMem, 4) (flush .persistAck), fun s hs => by simp only [Machine.persistEffect, hs]⟩
    | persistForce =>
      exact ⟨_, withIndex fun i => comp (setPhase .persistWrite) (sendSelection ⟨i, true⟩),
        fun s hs => by simp only [Machine.persistEffect, hs]⟩
    | persistWrite =>
      exact ⟨_, withSelection (beginWrite .persist), fun s hs => by simp only [Machine.persistEffect, hs]⟩
    | _ => exact ⟨trailFrom, update, fun s hs => by simp only [Machine.persistEffect, hs]⟩

theorem buttonWins : ControlEffect buttonWins :=
  .cases (fun s => s.ctl.ph) fun p => by
    by_cases hwait : p = .wait
    · exact ⟨fun s => Machine.setPhase .btnActive (abandonEncoder s), update, by rintro s rfl; exact if_pos hwait⟩
    · exact ⟨id, update, by rintro s rfl; exact if_neg hwait⟩

theorem encoderWins (b : Bool) : ControlEffect (encoderWins b) :=
  .cases (fun s => s.ctl.ph) fun p => by
    by_cases hwait : p = .wait
    · exact ⟨fun s => Machine.setPhase (if b then .handleDown else .handleUp) (abandonButton s), update,
        by rintro s rfl; exact if_pos hwait⟩
    · exact ⟨id, update, by rintro s rfl; exact if_neg hwait⟩

theorem stepUp : ControlEffect (Machine.withIndex fun i s => stepTo (indexUp s.par.val i) s) :=
  withIndex fun _ => update

theorem stepDown : ControlEffect (Machine.withIndex fun i s => stepTo (indexDown s.par.val i) s) :=
  withIndex fun _ => update

end ControlEffect

/-! The operations. -/

abbrev ControlStep (op : State → Result) : Prop := StepsWithin controlView ControlKeeps op

theorem ControlEffect.takeCtl {f : State → State} (hf : ControlEffect f) {ready : State → Bool}
    (hready : ∀ s, ready (controlView s) = ready s := by intro; rfl) :
    ControlStep (fun s => takeCtl (ready s) f s) :=
  ActsWithin.take (ControlEffect.comp (g := fun s => { s with fresh := false }) .update hf) hready

theorem exec_controlStep {i : Instr} (hi : isControl i = true) : ControlStep (exec i) := by
  cases i with
  | mbxSend en idx => exact (ControlEffect.sendSelection ⟨idx, en⟩).takeCtl
  | encStart | encRest | encArm | encFall | encAdvance | encDrop | encAbandon | btnStart | btnConfirm | btnRelease
  | btnTimeout | btnTrail | btnAbandon | ctlWait => exact ControlEffect.takeCtl .update
  | encEmit b => exact ((ControlEffect.encoderWins b).comp .update).takeCtl
  | btnEdge => exact (ControlEffect.buttonWins.comp .update).takeCtl
  | cfgRead => exact (ControlEffect.beginRead .cfgRead).takeCtl
  | cfgWrite en idx => exact (ControlEffect.beginWrite .direct ⟨idx, en⟩).takeCtl
  | flRead => exact ControlEffect.flReadEffect.takeCtl
  | flErase => exact ControlEffect.flEraseEffect.takeCtl
  | flProg => exact ControlEffect.flProgEffect.takeCtl
  | ctlBoot => exact ControlEffect.takeCtl .update
  | ctlRecovery =>
    exact ControlEffect.takeCtl
      (.reads (f := fun ds s => drawAll ds (flush .recovery) s) (fun s => s.par.val.diagMsg)
        fun ds => ControlEffect.drawAll ds (.flush .recovery))
  | ctlLoad => exact (ControlEffect.beginRead .load).takeCtl
  | ctlPublish => exact ControlEffect.publishEffect.takeCtl
  | ctlRender => exact ControlEffect.renderEffect.takeCtl
  | ctlUp => exact ControlEffect.stepUp.takeCtl
  | ctlDown => exact ControlEffect.stepDown.takeCtl
  | ctlToggle => exact (ControlEffect.withEnabled fun _ => .update).takeCtl
  | ctlPersist => exact ControlEffect.persistEffect.takeCtl
  | dispDraw glyph slot => exact (ControlEffect.drawGlyph (glyph, slot) .update).takeCtl
  | dispFlush => exact ControlEffect.flushEffect.takeCtl
  | _ => cases hi

/-- Settles O58: each operation of the control side, seen through its view. -/
theorem controlSideSeesNoAudioState : Obligations.ControlSideSeesNoAudioState := by
  intro i hi
  refine ⟨fun s t h => ?_, fun s s' hview => (exec_controlStep hi).agree hview⟩
  have hbesides := ((exec_controlStep hi).keeps s t h).besides
  simpa only [besidesControl, Prod.mk.injEq] using hbesides

end Sys2Proof.Machine
end

section
/-! PROOFS. The audio side (spec/60_exceptions.md R268): its effects and its operations. -/

namespace Sys2Proof.Machine

/-- What no operation of the audio side writes. -/
def besidesAudio (s : State) : Ctl × Sel × Enc × Btn × Cfg × Memory × Disp × Lines × Nat × Bool × Bool ×
    List Word32 × List Word32 × ValidParams × List FlashEvent × List DispEvent × List Selection :=
  (s.ctl, s.sel, s.enc, s.btn, s.cfg, s.flash, s.disp, s.lines, s.now, s.fresh, s.reflash, s.rom.t1, s.rom.t8, s.par,
    s.logs.flashLog, s.logs.dispOut, sentOf s.logs.mbxLog)

/-- That part stays, and so does a latch that is set (R255). -/
structure AudioKeeps (s t : State) : Prop where
  besides : besidesAudio t = besidesAudio s
  latch : s.latch.fault = true → t.latch = s.latch

/-- An effect that neither reads nor writes the control side's state or time. -/
abbrev AudioEffect (f : State → State) : Prop := ActsWithin audioView AudioKeeps f

namespace AudioEffect

variable {f : State → State}

/-- An update of registers of the audio side. -/
theorem update (hsees : ∀ s, audioView (f s) = audioView (f (audioView s)) := by intro; rfl)
    (hbesides : ∀ s, besidesAudio (f s) = besidesAudio s := by intro; rfl)
    (hlatch : ∀ s, (f s).latch = s.latch := by intro; rfl) : AudioEffect f :=
  ⟨hsees, fun s => ⟨hbesides s, fun _ => hlatch s⟩⟩

/-- The latch is written, and the side that reads nothing of it stops (R255). -/
theorem raiseAudio (c : Byte) : AudioEffect (raiseAudio c) :=
  ⟨fun _ => rfl, fun _ => ⟨rfl, Latch.record_keeps c _⟩⟩

/-- The output is disabled before the frequency is tested (R142, R264). -/
theorem stopAndRaise : AudioEffect (fun s => Machine.raiseAudio faultDivPrecondition (enableOutput false s)) :=
  ⟨fun _ => rfl, fun _ => ⟨rfl, Latch.record_keeps _ _⟩⟩

/-- A value received is no value sent (R162, R163). -/
theorem besidesAudio_receiveSelection (s : State) : besidesAudio (receiveSelection s) = besidesAudio s := by
  simp [besidesAudio]

theorem receiveSelection : AudioEffect receiveSelection :=
  .update (hbesides := besidesAudio_receiveSelection)

theorem takeSelection : AudioEffect takeSelection := .update (hbesides := besidesAudio_receiveSelection)

theorem preempt : AudioEffect (fun s => Machine.takeSelection (abortDma s)) :=
  .update (hbesides := besidesAudio_receiveSelection)

theorem pushTable : AudioEffect pushTable :=
  .cases (fun s => s.aud.tableSel) fun r => by
    by_cases hw : r.written = true
    · exact ⟨fun s => { armDma s.aud.tableSel.val s with aud := { s.aud with ph := .race } }, update,
        by rintro s rfl; exact if_pos hw⟩
    · exact ⟨_, raiseAudio faultUnwritten, by rintro s rfl; exact if_neg hw⟩

end AudioEffect

/-! The operations. -/

abbrev AudioStep (op : State → Result) : Prop := StepsWithin audioView AudioKeeps op

/-- `DIV.CALC` reads the tones, which are parameters (R62, R126). -/
theorem execDivCalc_audioStep (val : Word32) : AudioStep (execDivCalc val) := by
  refine .guarded (ready := audLive) ?_
  refine .cases (fun s => calcDivider s.par.val val) fun result => ?_
  cases result with
  | indexRange => exact ⟨_, .next (AudioEffect.raiseAudio faultIndexRange), fun s hs => by simp only [hs]⟩
  | precondition => exact ⟨_, .next (AudioEffect.raiseAudio faultDivPrecondition), fun s hs => by simp only [hs]⟩
  | invalid => exact ⟨_, .refuses .invalidParams, fun s hs => by simp only [hs]⟩
  | pair t d =>
    exact ⟨fun s => .next { s with aud := { s.aud with divOut := (t, d) } }, .next AudioEffect.update,
      fun s hs => by simp only [hs]⟩

theorem execDmaXfer_audioStep : AudioStep execDmaXfer := by
  refine .guarded (ready := dmaXferReady) ?_
  refine .cases (fun s => romRead s.par.val s.rom s.dma.tbl s.dma.idx) fun word => ?_
  cases word with
  | none => exact ⟨_, .faults .romAddress, fun s hs => by simp only [hs]⟩
  | some w =>
    exact ⟨fun s => .next { s with
        fifo := s.fifo ++ [w]
        dma := dmaAfterWord s.par.val s.dma
        rom := { s.rom with read := true } }, .next AudioEffect.update, fun s hs => by simp only [hs]⟩

theorem execAudConfig_audioStep : AudioStep execAudConfig := by
  refine .guarded (ready := audConfigReady) ?_
  refine .cases (fun s => (s.aud.sel.written, calcDivider s.par.val s.aud.sel.val.index)) ?_
  rintro ⟨written, result⟩
  cases written with
  | false =>
    exact ⟨_, .next (AudioEffect.raiseAudio faultUnwritten), fun s hs => if_neg (by simp [(Prod.mk.inj hs).1])⟩
  | true =>
    cases result with
    | indexRange => exact ⟨_, .next (AudioEffect.raiseAudio faultIndexRange), fun s hs => by simp_all⟩
    | precondition =>
      exact ⟨fun s => .next (raiseAudio faultDivPrecondition (enableOutput false s)), .next AudioEffect.stopAndRaise,
        fun s hs => by simp_all⟩
    | invalid => exact ⟨_, .refuses .invalidParams, fun s hs => by simp_all⟩
    | pair t d =>
      exact ⟨fun s => .next (applyPair t d s.aud.sel.val.enabled s), .next AudioEffect.update, fun s hs => by simp_all⟩

theorem exec_audioStep {i : Instr} (hi : isAudio i = true) : AudioStep (exec i) := by
  cases i with
  | divCalc val => exact execDivCalc_audioStep val
  | dmaXfer => exact execDmaXfer_audioStep
  | audConfig => exact execAudConfig_audioStep
  | smSetdiv | smEnable | smPull | smShift | dmaArm | dmaAbort | audRearm => exact ActsWithin.take AudioEffect.update
  | mbxRecv => exact AudioEffect.receiveSelection.take
  | audStart => exact AudioEffect.takeSelection.take
  | audPreempt => exact AudioEffect.preempt.take
  | audPush => exact AudioEffect.pushTable.take
  | _ => cases hi

/-- Settles O59: each operation of the audio side, seen through its view. -/
theorem audioSideSeesNoControlState : Obligations.AudioSideSeesNoControlState := by
  intro i hi
  refine ⟨fun s t h => ?_, fun s s' hview => (exec_audioStep hi).agree hview⟩
  have hbesides := ((exec_audioStep hi).keeps s t h).besides
  simpa only [besidesAudio, Prod.mk.injEq] using hbesides

end Sys2Proof.Machine
end

section
/-! PROOFS. The fault latch and the halted sides (spec/60_exceptions.md R255 to R257, R265): what a `FAULT` does, and
that nothing but a reset undoes it. -/

namespace Sys2Proof.Machine

variable {s t : State} {c : Byte}

/-! A side that has stopped. -/

/-- Every operation of the control side is an effect under a `when` clause (R14). -/
theorem exec_control_eq_takeCtl {i : Instr} (hi : isControl i = true) :
    ∃ (ready : State → Bool) (f : State → State), exec i = fun s => takeCtl (ready s) f s := by
  cases i with
  | mbxSend | encStart | encRest | encArm | encFall | encAdvance | encDrop | encEmit | encAbandon | btnStart | btnEdge
  | btnConfirm | btnRelease | btnTimeout | btnTrail | btnAbandon | cfgRead | cfgWrite | flRead | flErase | flProg
  | ctlBoot | ctlRecovery | ctlLoad | ctlPublish | ctlRender | ctlWait | ctlUp | ctlDown | ctlToggle | ctlPersist
  | dispDraw | dispFlush => exact ⟨_, _, rfl⟩
  | _ => cases hi

theorem exec_control_refused {i : Instr} (hi : isControl i = true) (hstill : s.ctl.ph = .halt ∨ s.ctl.ph = .reflash) :
    exec i s = .refused .notEnabled := by
  obtain ⟨ready, f, hexec⟩ := exec_control_eq_takeCtl hi
  rw [hexec]
  refine takeCtl_refused f s fun hready => ?_
  have hlive := ctlLive_of_exec_control hi (congrFun hexec s ▸ takeCtl_ready f s hready)
  obtain ⟨hhalt, hreflash⟩ := ctlLive_iff.mp hlive
  exact hstill.elim hhalt hreflash

theorem audLive_of_halted (hhalt : s.aud.halted = true) : audLive s = false := by
  rw [audLive, hhalt, Bool.not_true]

theorem exec_audio_refused {i : Instr} (hi : isAudio i = true) (hhalt : s.aud.halted = true) :
    exec i s = .refused .notEnabled := by
  have hdead := audLive_of_halted hhalt
  cases i with
  | divCalc => exact if_neg (by simp [hdead])
  | dmaXfer => exact exec_dmaXfer_refused (by simp [dmaXferReady, hdead])
  | audConfig => exact if_neg (by simp [audConfigReady, hdead])
  | smSetdiv => exact take_not_ready _ s (by simp [setDivReady, hdead])
  | smEnable | dmaAbort => exact take_not_ready _ s hdead
  | smPull => exact take_not_ready _ s (by simp [smPullReady, hdead])
  | smShift => exact take_not_ready _ s (by simp [smShiftReady, hdead])
  | dmaArm => exact take_not_ready _ s (by simp [dmaArmReady, hdead])
  | mbxRecv => exact take_not_ready _ s (by simp [mbxRecvReady, hdead])
  | audStart => exact take_not_ready _ s (by simp [audStartReady, hdead])
  | audPush => exact take_not_ready _ s (by simp [audPushReady, hdead])
  | audRearm => exact if_neg (by simp [audRearmReady, hdead])
  | audPreempt => exact if_neg (by simp [audPreemptReady, hdead])
  | _ => cases hi

/-! What stays. -/

/-- What the control side stores, selects, shows and sends. -/
def controlOutput (s : State) : Memory × List FlashEvent × Sel × Disp × List Selection :=
  (s.flash, s.logs.flashLog, s.sel, s.disp, sentOf s.logs.mbxLog)

/-- The audio driver and its output path. -/
def audioOutput (s : State) : Aud × Sm × List Word32 × Dma × List Bool :=
  (s.aud, s.sm, s.fifo, s.dma, s.logs.pdmOut)

/-- A set latch, and each side that has stopped, are as they were. -/
structure Sticks (s t : State) : Prop where
  latch : s.latch.fault = true → t.latch = s.latch
  control : s.ctl.ph = .halt → t.ctl.ph = .halt ∧ controlOutput t = controlOutput s
  audio : s.aud.halted = true → audioOutput t = audioOutput s

/-- The registers that the environment changes in a reset alone. -/
def sides (s : State) : Latch × Ctl × Sel × Memory × Disp × Aud × Sm × List Word32 × Dma × Logs :=
  (s.latch, s.ctl, s.sel, s.flash, s.disp, s.aud, s.sm, s.fifo, s.dma, s.logs)

theorem Sticks.of_sides (h : sides t = sides s) : Sticks s t := by
  simp only [sides, Prod.mk.injEq] at h
  obtain ⟨hlatch, hctl, hsel, hflash, hdisp, haud, hsm, hfifo, hdma, hlogs⟩ := h
  refine ⟨fun _ => hlatch, fun hhalt => ⟨by rw [hctl, hhalt], ?_⟩, fun _ => ?_⟩
  · simp only [controlOutput, hflash, hsel, hdisp, hlogs]
  · simp only [audioOutput, haud, hsm, hfifo, hdma, hlogs]

theorem exec_control_sticks {i : Instr} (hi : isControl i = true) (h : exec i s = .next t) : Sticks s t := by
  obtain ⟨hbesides, hlatch⟩ := (exec_controlStep hi).keeps s t h
  simp only [besidesControl, Prod.mk.injEq] at hbesides
  obtain ⟨haud, hsm, hfifo, hdma, -, -, -, -, hpdm⟩ := hbesides
  have hhalt := (ctlLive_iff.mp (ctlLive_of_exec_control hi h)).1
  exact ⟨hlatch, fun hph => absurd hph hhalt, fun _ => by simp only [audioOutput, haud, hsm, hfifo, hdma, hpdm]⟩

theorem exec_audio_sticks {i : Instr} (hi : isAudio i = true) (h : exec i s = .next t) : Sticks s t := by
  obtain ⟨hbesides, hlatch⟩ := (exec_audioStep hi).keeps s t h
  simp only [besidesAudio, Prod.mk.injEq] at hbesides
  obtain ⟨hctl, hsel, -, -, -, hflash, hdisp, -, -, -, -, -, -, -, hlog, -, hsent⟩ := hbesides
  refine ⟨hlatch, fun hph => ⟨by rw [hctl, hph], by simp only [controlOutput, hflash, hlog, hsel, hdisp, hsent]⟩,
    fun hhalt => ?_⟩
  rw [exec_audio_refused hi hhalt] at h
  cases h

theorem exec_outside_sides {i : Instr} (hi : isOutside i = true) (hreset : i ≠ .envReset) (h : exec i s = .next t) :
    sides t = sides s := by
  cases i with
  | envReset => exact absurd rfl hreset
  | envLine =>
    obtain ⟨-, rfl⟩ := exec_envLine_next.mp h
    rfl
  | envAdv => exact advance_induct (P := fun u => sides u = sides s) (fun _ hu => hu) rfl (exec_envAdv_next.mp h).2
  | genPdmgen =>
    obtain ⟨-, rfl⟩ := exec_genPdmgen_next.mp h
    rfl
  | genPdmgen8 =>
    obtain ⟨-, rfl⟩ := exec_genPdmgen8_next.mp h
    rfl
  | _ => cases hi

/-- A second fault keeps the first code and stops the other side at most (R265). -/
theorem faultEffect_sticks (c : Byte) (s : State) : Sticks s (faultEffect c s) := by
  refine faultEffect_cases c s (fun n => ⟨Latch.record_keeps c _, fun _ => ⟨rfl, rfl⟩, fun _ => rfl⟩) fun n => ?_
  refine ⟨Latch.record_keeps c _, fun hph => ⟨hph, rfl⟩, fun hhalt => ?_⟩
  have haud : ({ s.aud with halted := true } : Aud) = s.aud := by rw [← hhalt]
  simp only [audioOutput, raiseAudio_aud, raiseAudio_sm, raiseAudio_fifo, raiseAudio_dma, raiseAudio_logs, haud]

/-- Only a reset undoes a fault (R265). -/
theorem exec_sticks {i : Instr} (hreset : i ≠ .envReset) (h : exec i s = .next t) : Sticks s t := by
  rcases instr_side i with hi | hi | hi | ⟨code, rfl⟩
  · exact exec_control_sticks hi h
  · exact exec_audio_sticks hi h
  · exact .of_sides (exec_outside_sides hi hreset h)
  · obtain ⟨-, rfl⟩ := exec_fault_next.mp h
    exact faultEffect_sticks code s

/-- Settles O56: no operation of a stopped side is enabled, and no other operation but a reset touches it. -/
theorem faultIsStickyAndItsSideStops : Obligations.FaultIsStickyAndItsSideStops := by
  refine ⟨fun i s hi hstill => exec_control_refused hi hstill, fun i s hi hhalt => exec_audio_refused hi hhalt,
    fun i s t hreset h => ?_⟩
  obtain ⟨hlatch, hcontrol, haudio⟩ := exec_sticks hreset h
  simp only [controlOutput, audioOutput, Prod.mk.injEq] at hcontrol haudio
  exact ⟨hlatch, hcontrol, haudio⟩

/-! `FAULT` as a word of its own. -/

theorem exec_fault_legal (hlow : 1 ≤ c.toNat) (hhigh : c.toNat ≤ 7) : exec (.fault c) s = .next (faultEffect c s) :=
  exec_fault_next.mpr ⟨⟨hlow, hhigh⟩, rfl⟩

theorem exec_fault_reserved (h : c.toNat = 0 ∨ 8 ≤ c.toNat) : exec (.fault c) s = .refused .reservedOperand :=
  if_neg (by simp only [Instr.wellFormed, decide_eq_true_eq]; omega)

/-- Codes 1 to 4 are the control side's (R256). -/
theorem faultEffect_control (h : c.toNat ≤ 4) : faultEffect c s = raiseControl c s := by
  have h5 : c.toNat ≤ 5 := by omega
  simp [faultEffect, raisedByControl, h, h5]

/-- Code 5 is the audio side's (R256). -/
theorem faultEffect_audio (h : c.toNat = 5) : faultEffect c s = raiseAudio c s := by
  simp [faultEffect, raisedByControl, h]

/-- Codes 6 and 7 are either side's, and say so with one free value (R256; assumption log 16). -/
theorem faultEffect_either (h : 6 ≤ c.toNat) :
    faultEffect c s = raiseControl c { s with env := { s.env with count := s.env.count + 1 } } ∨
      faultEffect c s = raiseAudio c { s with env := { s.env with count := s.env.count + 1 } } := by
  have h5 : ¬c.toNat ≤ 5 := by omega
  simp only [faultEffect, if_neg h5]
  split
  · exact .inl rfl
  · exact .inr rfl

/-- Settles O55: which side each code stops, by the code's range. -/
theorem faultRecordsAndStopsItsSide : Obligations.FaultRecordsAndStopsItsSide := by
  rintro s c l rfl
  refine ⟨fun hlow hhigh => ?_, ?_, fun hfree => ?_, fun hreserved => ?_⟩
  · rw [exec_fault_legal hlow (by omega), faultEffect_control hhigh]
    rfl
  · rintro rfl
    rw [exec_fault_legal (by decide) (by decide), faultEffect_audio rfl]
    rfl
  · have hrange : 6 ≤ c.toNat ∧ c.toNat ≤ 7 := by rcases hfree with rfl | rfl <;> decide
    exact ⟨_, exec_fault_legal (by omega) hrange.2, faultEffect_either hrange.1⟩
  · exact exec_fault_reserved (hreserved.imp_left (congrArg BitVec.toNat))

end Sys2Proof.Machine
end

section
/-! PROOFS. The lines and the passing of time (spec/60_exceptions.md R273, R279). -/

namespace Sys2Proof.Machine

/-- Settles O14: `ENV.LINE` is enabled on a fresh tick and writes the one level. -/
theorem envLineSetsOneLevel : Obligations.EnvLineSetsOneLevel := by
  intro s v
  refine ⟨fun hfresh => ⟨?_, ?_, ?_, ?_⟩, fun hstale l => if_neg (by simp [envLineReady, hstale])⟩ <;>
    exact exec_envLine_next.mpr ⟨hfresh, rfl⟩

variable {s : State}

theorem tickReady_iff : tickReady s = true ↔ ctlMoves s = [] ∨ s.aud.halted = true := by
  simp [tickReady]

theorem exec_envAdv_passes {n : BitVec 40} (hn : n ≠ 0) (h : ∀ k < n.toNat, tickReady (afterTicks k s) = true) :
    exec (.envAdv n) s = .next
      { s with now := s.now + n.toNat, fresh := true, lines := { s.lines with btnPrev := s.lines.btn } } := by
  have hpos : n.toNat ≠ 0 := BitVec.toNat_ne.mp hn
  have hafter := advance_all n.toNat s h
  rw [afterTicks, if_neg hpos] at hafter
  exact exec_envAdv_next.mpr ⟨hn, hafter⟩

theorem exec_envAdv_refused {n : BitVec 40} (hn : n ≠ 0) (h : advance n.toNat s = none) :
    exec (.envAdv n) s = .refused .notEnabled := by
  simp only [exec, execEnvAdv, if_neg hn, h]

/-- Settles O15: the ticks pass one by one, each where the control side has no operation or the audio side has halted,
which time does not change. -/
theorem timePassesWhileTheControlSideWaits : Obligations.TimePassesWhileTheControlSideWaits := by
  intro s n
  refine ⟨fun hn hpass => exec_envAdv_passes hn fun k hk => tickReady_iff.mpr ?_,
    fun hn ⟨k, hk, hmove⟩ hrun => ?_, rfl⟩
  · exact hpass.imp (fun hnone => hnone k hk) (fun hhalt => by rw [afterTicks_aud, hhalt])
  · refine exec_envAdv_refused hn (advance_none hk (Bool.eq_false_iff.mpr fun htick => ?_))
    have hhalt := (tickReady_iff.mp htick).resolve_left hmove
    rw [afterTicks_aud, hrun] at hhalt
    cases hhalt

end Sys2Proof.Machine
end

section
/-! PROOFS. The display's operations (spec/60_exceptions.md R270, R271). -/

namespace Sys2Proof.Machine

variable {s : State} {g : Glyph} {sl : Slot}

theorem dispDrawReady_iff (hlive : ctlLive s = true) :
    dispDrawReady g sl s = true ↔ g.toNat ≤ 14 ∧ sl.toNat ≤ 4 := by
  simp [dispDrawReady, glyphLegal, slotLegal, hlive]

theorem exec_dispDraw_legal (hlive : ctlLive s = true) (hg : g.toNat ≤ 14) (hsl : sl.toNat ≤ 4) :
    exec (.dispDraw g sl) s = .next { drawGlyph (g, sl) id s with fresh := false } :=
  exec_dispDraw_next.mpr ⟨(dispDrawReady_iff hlive).mpr ⟨hg, hsl⟩, rfl⟩

theorem drawGlyph_succeeds {d : Glyph × Slot} (rest : State → State) (h : nextFail s = false) :
    drawGlyph d rest s = rest (queueDraw d (popFail s)) :=
  if_neg (by simp [h])

theorem drawGlyph_fails {d : Glyph × Slot} (rest : State → State) (h : nextFail s = true) :
    drawGlyph d rest s = raiseControl faultDisplay (popFail s) :=
  if_pos h

theorem flush_fails (issuer : FlushBy) (h : nextFail s = true) :
    flush issuer s = raiseControl faultDisplay (popFail s) :=
  if_pos h

theorem exec_dispFlush_idle (hlive : ctlLive s = true) (hidle : s.ctl.busy = none) :
    exec .dispFlush s = .next { flush .direct s with fresh := false } :=
  exec_dispFlush_next.mpr ⟨by simp [ctlIdle_iff, hlive, hidle], by simp only [flushEffect, hidle]⟩

/-- A wait that nothing follows (R11). -/
theorem await_direct (b : Busy) (s : State) :
    await b id s =
      { s with
        env := (popDuration s).env
        ctl := if nextDuration s = 0 then s.ctl
          else { s.ctl with busy := some b, deadline := s.now + nextDuration s } } := by
  split
  case isTrue hzero => rw [await_zero _ _ hzero]; rfl
  case isFalse hlong => rw [await_pos _ _ hlong]; rfl

theorem afterFlush_direct : afterFlush .direct = id := rfl

/-- Settles O54: the draw and the flush, failing or not, and what each flush's end leads to. -/
theorem drawAndFlush : Obligations.DrawAndFlush := by
  intro s hhalt hreflash
  have hlive : ctlLive s = true := ctlLive_iff.mpr ⟨hhalt, hreflash⟩
  refine ⟨fun g sl hg hsl => ⟨fun hok => ?_, fun hfail => ?_⟩, fun g sl hreserved => ?_, ?_, fun hidle hfail => ?_,
    fun hwait hdue => ?_, fun hwait hdue => ?_, fun hwait hdue => ?_⟩
  · rw [exec_dispDraw_legal hlive hg hsl, drawGlyph_succeeds _ hok]
    rfl
  · rw [exec_dispDraw_legal hlive hg hsl, drawGlyph_fails _ hfail]
    rfl
  · exact takeCtl_refused _ s fun hready => by
      obtain ⟨hg, hsl⟩ := (dispDrawReady_iff hlive).mp hready
      omega
  · rintro hidle hok fr d rfl rfl
    rw [exec_dispFlush_idle hlive hidle, flush_shows _ hok, afterFlush_direct, await_direct]
    rfl
  · rw [exec_dispFlush_idle hlive hidle, flush_fails _ hfail]
    rfl
  · exact exec_dispFlush_due hlive hwait hdue
  · exact exec_dispFlush_due hlive hwait hdue
  · exact exec_dispFlush_due hlive hwait hdue

end Sys2Proof.Machine
end

section
/-! PROOFS. The reset (spec/70_reset_and_hazards.md R290): the machine right after power-on, over a `FLASH` that is as
before unless the reset falls inside an `FL.PROG` (spec/44_config_store.md R217). -/

namespace Sys2Proof.Machine

/-! What a reset does to `FLASH`. -/

/-- Inside an `FL.PROG` the reset frees the record's bytes; anywhere else it does nothing to `FLASH` (R217). -/
theorem interruptedFlash_cases (s : State) :
    (∃ issuer, s.ctl.busy = some (.flProg issuer)) ∧
        interruptedFlash s = scramble (cfgOffset s.par.val) recordBytes s ∨
      (∀ issuer, s.ctl.busy ≠ some (.flProg issuer)) ∧ interruptedFlash s = s := by
  unfold interruptedFlash
  split
  case h_1 issuer hbusy => exact .inl ⟨⟨issuer, hbusy⟩, rfl⟩
  case h_2 hother => exact .inr ⟨hother, rfl⟩

theorem interruptedFlash_eq_self {s : State} (h : ∀ issuer, s.ctl.busy ≠ some (.flProg issuer)) :
    interruptedFlash s = s := by
  rcases interruptedFlash_cases s with ⟨⟨issuer, hbusy⟩, -⟩ | ⟨-, hsame⟩
  · exact absurd hbusy (h issuer)
  · exact hsame

theorem interruptedFlash_flash_outside {a : Nat} (s : State)
    (h : a < cfgOffset s.par.val ∨ cfgOffset s.par.val + recordBytes ≤ a) :
    memByte (interruptedFlash s).flash a = memByte s.flash a := by
  rcases interruptedFlash_cases s with ⟨-, hfree⟩ | ⟨-, hsame⟩
  · rw [hfree, scramble_flash_outside s h]
  · rw [hsame]

/-! What a reset leaves. -/

/-- The machine of the reset table, over the same parameters and the same `ROM` (R47, R290). -/
theorem resetState_eq_powerOn (s : State) :
    resetState s =
      State.powerOn s.par s.rom (interruptedFlash s).flash { s.lines with btnPrev := s.lines.btn } s.script
        (interruptedFlash s).env := by
  rcases interruptedFlash_cases s with ⟨-, hfree⟩ | ⟨-, hsame⟩
  · rw [resetState, hfree]
    rfl
  · rw [resetState, hsame]

/-- Settles O13: each register is read off `State.powerOn`, and `FLASH` off what an interrupted program leaves. -/
theorem envResetPutsTheBlockAtReset : Obligations.EnvResetPutsTheBlockAtReset := by
  intro s
  refine ⟨_, exec_envReset_next.mpr (resetState_eq_powerOn s).symm, ?_⟩
  simp only [State.powerOn, true_and]
  exact ⟨fun a ha => interruptedFlash_flash_outside s ha,
    fun hfree => congrArg State.flash (interruptedFlash_eq_self hfree)⟩

end Sys2Proof.Machine
end
